-- ==== Sys2Proof/Word.lean ====
section
/-! DEFINITION. The words of the machine and the plainest list and bit helpers (R2: bit 0 is the least
significant, values are little-endian). -/

namespace Sys2Proof

/-- A 64-bit register or dword (R2). -/
abbrev Word := BitVec 64
/-- A byte (R2). -/
abbrev Byte := BitVec 8
/-- A vector register, 32 lanes of 32 bits (R278). -/
abbrev VReg := BitVec 1024
/-- A lane mask (R279). -/
abbrev Mask := BitVec 128

/-- `n` bits of `w` from bit `lo` up. -/
def bits (w lo n : Nat) : Nat := w / 2 ^ lo % 2 ^ n

/-- One bit of `w`. -/
def bitOf (w i : Nat) : Bool := w / 2 ^ i % 2 == 1

/-- The signed value of the low `n` bits of `w`. -/
def sext (n w : Nat) : Int :=
  let v := w % 2 ^ n
  if 2 * v < 2 ^ n then v else (v : Int) - 2 ^ n

/-- The low `n` bits of an integer, as a natural number. -/
def wrap (n : Nat) (x : Int) : Nat := (x % (2 ^ n : Int)).toNat

/-- Packs fields, given as (width, value), from the low bit up. -/
def packBits : List (Nat × Nat) → Nat
  | [] => 0
  | (w, v) :: r => v % 2 ^ w + 2 ^ w * packBits r

/-- The fields of widths `ws`, from the low bit up. -/
def unpackBits : List Nat → Nat → List Nat
  | [], _ => []
  | w :: ws, x => x % 2 ^ w :: unpackBits ws (x / 2 ^ w)

/-- Little-endian bytes of a number. -/
def toBytes : Nat → Nat → List Byte
  | 0, _ => []
  | n + 1, x => BitVec.ofNat 8 x :: toBytes n (x / 256)

/-- The number that little-endian bytes stand for. -/
def ofBytes : List Byte → Nat
  | [] => 0
  | b :: bs => b.toNat + 256 * ofBytes bs

end Sys2Proof
end

