-- ==== Sys2Proof/Syntax.lean ====
section
/-! DEFINITION. The syntax: operand shapes, and the one inductive `Instr` with a constructor for every row of the
opcode table: the instructions of R206 and the events that act on the package. -/

namespace Sys2Proof

/-- A type code, T (R121, R30). -/
inductive TCode where
  | i8 | u8 | i16 | u16 | i32 | u32 | i64 | i4 | e4m3 | e5m2 | e3m2 | e2m1 | bf16 | f16 | tf19 | f32
  deriving DecidableEq, Repr

/-- The four-bit code of a type (R121). -/
def TCode.code : TCode → Nat
  | .i8 => 0 | .u8 => 1 | .i16 => 2 | .u16 => 3 | .i32 => 4 | .u32 => 5 | .i64 => 6 | .i4 => 7
  | .e4m3 => 8 | .e5m2 => 9 | .e3m2 => 10 | .e2m1 => 11 | .bf16 => 12 | .f16 => 13 | .tf19 => 14 | .f32 => 15

/-- The type of a four-bit code (R121). -/
def TCode.ofCode (n : Nat) : TCode :=
  match n % 16 with
  | 0 => .i8 | 1 => .u8 | 2 => .i16 | 3 => .u16 | 4 => .i32 | 5 => .u32 | 6 => .i64 | 7 => .i4
  | 8 => .e4m3 | 9 => .e5m2 | 10 => .e3m2 | 11 => .e2m1 | 12 => .bf16 | 13 => .f16 | 14 => .tf19 | _ => .f32

/-- A rounding mode (R198). -/
inductive Rnd where
  | rne | rtz | rdn | rup
  deriving DecidableEq, Repr

def Rnd.code : Rnd → Nat
  | .rne => 0 | .rtz => 1 | .rdn => 2 | .rup => 3

def Rnd.ofCode (n : Nat) : Rnd :=
  match n % 4 with
  | 0 => .rne | 1 => .rtz | 2 => .rdn | _ => .rup

/-- What formats A, I, W and B share (R189, R199): the predicate register, its negation, and whether a format I
instruction is stored widened in 128 bits. -/
structure Hdr where
  p : Nat
  neg : Bool
  wide : Bool
  deriving DecidableEq, Repr

/-- A source field: a register number, a word of the constant window (R196), or IMM32 in the B position (R191). -/
inductive Arg where
  | reg (n : Nat)
  | cw (k : Nat)
  | imm (w : Nat)
  deriving DecidableEq, Repr

/-- The fields of formats A and I (R190, R191). A field that an instruction does not use is zero. -/
structure Ops where
  d : Nat
  a : Arg
  b : Arg
  c : Arg
  fn : Nat
  t : TCode
  k : Nat
  rm : Rnd
  sat : Bool
  mx : Nat
  deriving DecidableEq, Repr

/-- The fields of EXT64 in format W (R192). -/
structure Ext where
  imm : Nat
  gr : Nat
  bl : Nat
  q : Nat
  g2 : Nat
  t2 : Nat
  t1 : Nat
  deriving DecidableEq, Repr

/-- The fields of format L (R195); the count is a register or a word of the constant window. -/
structure LoopOps where
  lvl : Nat
  cnt : Arg
  rot : Bool
  rs : Nat
  disp : Int
  deriving DecidableEq, Repr

/-- One constructor per row of spec/opcode_table.json: 230 instructions, then the events. An instruction carries its
predicate header and its fields; an event carries what the agent that makes it chooses. -/
inductive Instr where
  | nop
  | brk (h : Hdr) (o : Ops)
  | trap (h : Hdr) (o : Ops)
  | eret (h : Hdr) (o : Ops)
  | sysc (h : Hdr) (o : Ops)
  | fmt (t2 : TCode) (rv : Bool) (rnd : Rnd) (scm : Nat)
  | waiti (h : Hdr) (o : Ops)
  | mfsr (h : Hdr) (o : Ops)
  | mtsr (h : Hdr) (o : Ops)
  | fencei (h : Hdr) (o : Ops)
  | idle (h : Hdr) (o : Ops)
  | add (h : Hdr) (o : Ops)
  | sub (h : Hdr) (o : Ops)
  | mul (h : Hdr) (o : Ops)
  | mulh (h : Hdr) (o : Ops)
  | mulhu (h : Hdr) (o : Ops)
  | div (h : Hdr) (o : Ops)
  | divu (h : Hdr) (o : Ops)
  | rem (h : Hdr) (o : Ops)
  | remu (h : Hdr) (o : Ops)
  | and (h : Hdr) (o : Ops)
  | or (h : Hdr) (o : Ops)
  | xor (h : Hdr) (o : Ops)
  | andn (h : Hdr) (o : Ops)
  | shl (h : Hdr) (o : Ops)
  | shr (h : Hdr) (o : Ops)
  | sar (h : Hdr) (o : Ops)
  | rol (h : Hdr) (o : Ops)
  | min (h : Hdr) (o : Ops)
  | max (h : Hdr) (o : Ops)
  | minu (h : Hdr) (o : Ops)
  | maxu (h : Hdr) (o : Ops)
  | cmp (h : Hdr) (o : Ops)
  | cmpu (h : Hdr) (o : Ops)
  | sel (h : Hdr) (o : Ops)
  | mov (h : Hdr) (o : Ops)
  | movi (h : Hdr) (d : Nat) (t : TCode) (imm : Nat)
  | clz (h : Hdr) (o : Ops)
  | popc (h : Hdr) (o : Ops)
  | bfx (h : Hdr) (o : Ops)
  | bfi (h : Hdr) (o : Ops)
  | adds (h : Hdr) (o : Ops)
  | mad (h : Hdr) (o : Ops)
  | abs (h : Hdr) (o : Ops)
  | neg (h : Hdr) (o : Ops)
  | fadd (h : Hdr) (o : Ops)
  | fsub (h : Hdr) (o : Ops)
  | fmul (h : Hdr) (o : Ops)
  | ffma (h : Hdr) (o : Ops)
  | fdiv (h : Hdr) (o : Ops)
  | fsqrt (h : Hdr) (o : Ops)
  | fmin (h : Hdr) (o : Ops)
  | fmax (h : Hdr) (o : Ops)
  | fcmp (h : Hdr) (o : Ops)
  | fcvt (h : Hdr) (o : Ops)
  | br (h : Hdr) (disp : Int)
  | brc (h : Hdr) (cnd a b : Nat) (disp : Int)
  | call (h : Hdr) (disp : Int)
  | ret (h : Hdr) (o : Ops)
  | jmpr (h : Hdr) (o : Ops)
  | loop (l : LoopOps)
  | loopx (h : Hdr) (o : Ops)
  | jtab (h : Hdr) (o : Ops)
  | ld (h : Hdr) (o : Ops)
  | st (h : Hdr) (o : Ops)
  | ld2 (h : Hdr) (o : Ops)
  | st2 (h : Hdr) (o : Ops)
  | pref (h : Hdr) (o : Ops)
  | spq (h : Hdr) (o : Ops)
  | spcv (h : Hdr) (o : Ops)
  | spmk (h : Hdr) (o : Ops)
  | lea (h : Hdr) (o : Ops)
  | chkb (h : Hdr) (o : Ops)
  | llk (h : Hdr) (o : Ops)
  | sul (h : Hdr) (o : Ops)
  | aadd (h : Hdr) (o : Ops)
  | amin (h : Hdr) (o : Ops)
  | amax (h : Hdr) (o : Ops)
  | aand (h : Hdr) (o : Ops)
  | aor (h : Hdr) (o : Ops)
  | axor (h : Hdr) (o : Ops)
  | aswp (h : Hdr) (o : Ops)
  | acas (h : Hdr) (o : Ops)
  | faadd (h : Hdr) (o : Ops)
  | ecrd (h : Hdr) (o : Ops)
  | ecclr (h : Hdr) (o : Ops)
  | vadd (h : Hdr) (o : Ops)
  | vsub (h : Hdr) (o : Ops)
  | vmul (h : Hdr) (o : Ops)
  | vfma (h : Hdr) (o : Ops)
  | vmin (h : Hdr) (o : Ops)
  | vmax (h : Hdr) (o : Ops)
  | vabs (h : Hdr) (o : Ops)
  | vneg (h : Hdr) (o : Ops)
  | vand (h : Hdr) (o : Ops)
  | vor (h : Hdr) (o : Ops)
  | vxor (h : Hdr) (o : Ops)
  | vshl (h : Hdr) (o : Ops)
  | vshr (h : Hdr) (o : Ops)
  | vsar (h : Hdr) (o : Ops)
  | vcmp (h : Hdr) (o : Ops)
  | vsel (h : Hdr) (o : Ops)
  | vrcp (h : Hdr) (o : Ops)
  | vrsq (h : Hdr) (o : Ops)
  | vexp2 (h : Hdr) (o : Ops)
  | vlog2 (h : Hdr) (o : Ops)
  | vred (h : Hdr) (o : Ops)
  | vscan (h : Hdr) (o : Ops)
  | vshuf (h : Hdr) (o : Ops)
  | vshufi (h : Hdr) (o : Ops)
  | vbcast (h : Hdr) (o : Ops)
  | vbcastLane (h : Hdr) (o : Ops)
  | vvote (h : Hdr) (o : Ops)
  | vmatch (h : Hdr) (o : Ops)
  | vmatchLeader (h : Hdr) (o : Ops)
  | vpopc (h : Hdr) (o : Ops)
  | vpopcPre (h : Hdr) (o : Ops)
  | vmovs (h : Hdr) (o : Ops)
  | vmovsV (h : Hdr) (o : Ops)
  | viota (h : Hdr) (o : Ops)
  | kopLogic (h : Hdr) (o : Ops)
  | kopNot (h : Hdr) (o : Ops)
  | kopMov (h : Hdr) (o : Ops)
  | kopSet (h : Hdr) (o : Ops)
  | kopLen (h : Hdr) (o : Ops)
  | kopFirst (h : Hdr) (o : Ops)
  | kopLo (h : Hdr) (o : Ops)
  | kopHi (h : Hdr) (o : Ops)
  | vmvp (h : Hdr) (o : Ops)
  | vld (h : Hdr) (o : Ops)
  | vst (h : Hdr) (o : Ops)
  | vlds (h : Hdr) (o : Ops)
  | vsts (h : Hdr) (o : Ops)
  | vgath (h : Hdr) (o : Ops)
  | vscat (h : Hdr) (o : Ops)
  | vtld (h : Hdr) (o : Ops)
  | vldrg (h : Hdr) (o : Ops)
  | vstrg (h : Hdr) (o : Ops)
  | vldb (h : Hdr) (o : Ops)
  | vcvt (h : Hdr) (o : Ops)
  | vamax (h : Hdr) (o : Ops)
  | vqnt (h : Hdr) (o : Ops)
  | vdqnt (h : Hdr) (o : Ops)
  | vpack (h : Hdr) (o : Ops)
  | vunpk (h : Hdr) (o : Ops)
  | gmk (h : Hdr) (o : Ops)
  | gmkApp (h : Hdr) (o : Ops)
  | gmki (h : Hdr) (o : Ops) (x : Ext)
  | gld (h : Hdr) (o : Ops)
  | gst (h : Hdr) (o : Ops)
  | gmov (h : Hdr) (o : Ops)
  | guni (h : Hdr) (o : Ops) (x : Ext)
  | gint (h : Hdr) (o : Ops) (x : Ext)
  | gsub (h : Hdr) (o : Ops) (x : Ext)
  | gdil (h : Hdr) (o : Ops) (x : Ext)
  | gero (h : Hdr) (o : Ops) (x : Ext)
  | gtrn (h : Hdr) (o : Ops) (x : Ext)
  | gprj (h : Hdr) (o : Ops) (x : Ext)
  | gspl (h : Hdr) (o : Ops) (x : Ext)
  | gcan (h : Hdr) (o : Ops) (x : Ext)
  | ghul (h : Hdr) (o : Ops)
  | glat (h : Hdr) (o : Ops)
  | glatUnit (h : Hdr) (o : Ops)
  | glatRd (h : Hdr) (o : Ops)
  | grag (h : Hdr) (o : Ops)
  | gvol (h : Hdr) (o : Ops)
  | gnbx (h : Hdr) (o : Ops)
  | gbox (h : Hdr) (o : Ops)
  | gtstPt (h : Hdr) (o : Ops)
  | gtstOvl (h : Hdr) (o : Ops)
  | gtstSub (h : Hdr) (o : Ops)
  | gtstEq (h : Hdr) (o : Ops)
  | gclr (h : Hdr) (o : Ops)
  | gwalk (h : Hdr) (o : Ops)
  | gown (h : Hdr) (o : Ops)
  | xget (h : Hdr) (o : Ops) (x : Ext)
  | xsend (h : Hdr) (o : Ops) (x : Ext)
  | xcopy (h : Hdr) (o : Ops) (x : Ext)
  | xmma (h : Hdr) (o : Ops) (x : Ext)
  | xsts (h : Hdr) (o : Ops) (x : Ext)
  | xcnt (h : Hdr) (o : Ops) (x : Ext)
  | waitg (h : Hdr) (o : Ops)
  | waitq (h : Hdr) (o : Ops)
  | qfence (h : Hdr) (o : Ops)
  | qmark (h : Hdr) (o : Ops)
  | tbind (h : Hdr) (o : Ops)
  | tunb (h : Hdr) (o : Ops)
  | grnt (h : Hdr) (o : Ops) (x : Ext)
  | grev (h : Hdr) (o : Ops) (x : Ext)
  | acq (h : Hdr) (o : Ops) (x : Ext)
  | pub (h : Hdr) (o : Ops) (x : Ext)
  | mcrun (h : Hdr) (o : Ops)
  | mring (h : Hdr) (o : Ops)
  | mringRd (h : Hdr) (o : Ops)
  | mradv (h : Hdr) (o : Ops)
  | mldw (h : Hdr) (o : Ops) (x : Ext)
  | mma (h : Hdr) (o : Ops) (x : Ext)
  | mdrn (h : Hdr) (o : Ops)
  | mzro (h : Hdr) (o : Ops)
  | mswp (h : Hdr) (o : Ops)
  | mflg (h : Hdr) (o : Ops)
  | mholdFire (h : Hdr) (o : Ops)
  | mholdSet (h : Hdr) (o : Ops)
  | kvapp (h : Hdr) (o : Ops)
  | kvseal (h : Hdr) (o : Ops)
  | spset (h : Hdr) (o : Ops)
  | spret (h : Hdr) (o : Ops)
  | posl (h : Hdr) (o : Ops)
  | posf (h : Hdr) (o : Ops)
  | posiTag (h : Hdr) (o : Ops)
  | posiSeq (h : Hdr) (o : Ops)
  | posiAll (h : Hdr) (o : Ops)
  | hsift (h : Hdr) (o : Ops)
  | hpop (h : Hdr) (o : Ops)
  | spawn (h : Hdr) (o : Ops)
  | done (h : Hdr) (o : Ops)
  | joinh (h : Hdr) (o : Ops)
  | cqadd (h : Hdr) (o : Ops)
  | cqget (h : Hdr) (o : Ops)
  | cqnext (h : Hdr) (o : Ops)
  | jdec (h : Hdr) (o : Ops)
  | rqadd (h : Hdr) (o : Ops)
  | rqget (h : Hdr) (o : Ops)
  | sync (h : Hdr) (o : Ops)
  | bdom (h : Hdr) (o : Ops)
  | rdssn (h : Hdr) (o : Ops)
  | launch (h : Hdr) (o : Ops)
  | cancel (h : Hdr) (o : Ops)
  | cancelLaunch (h : Hdr) (o : Ops)
  | chkc (h : Hdr) (o : Ops)
  | launchDispatch (l root func pd : Nat) (dies : List Nat) (loop xbase ring : Nat) (miss : Bool) (handlers : Nat) (saveb : Bool) (cones : List Nat)
  | dieRangeSearch (cid : Nat)
  | barrierRelease (l d : Nat)
  | transferStart (core q id n : Nat) (fail : Bool)
  | transferComplete (core q id : Nat) (fail : Bool)
  | qmarkCompletion (core q : Nat)
  | qmEntryPerform (core id : Nat)
  | qmEntryComplete (core id : Nat)
  | mmaArrival (core id : Nat)
  | setterDeadline (cl : Nat)
  | groupStreamStart (cl : Nat)
  | memberRowsWritten (cl core id : Nat)
  | vectorPathComplete (core : Nat)
  | mcrunProgramStart (core id j : Nat) (fail : Bool)
  | smallContextArrival (cid : Nat)
  | pageServiceComplete (cid va root : Nat) (ok : Bool) (wipes : List (Nat × Nat)) (writes : List (Nat × Nat × Nat))
  | smallContextReturn (cid : Nat)
  | globalAccessAnswer (cid : Nat)
  | postedArrival (n : Nat)
  | journalClose (n : Nat)
  | postedRefusal (n : Nat)
  | flushMarkerArrival (cid kind n q : Nat)
  | releaseAck (cid kind n q : Nat)
  | tokenOpPerform (core id : Nat)
  | spanRetirementPerform (n : Nat)
  | syscAnswer (cid v : Nat)
  | asyncCauseTake (cid what : Nat)
  | preemptRequest (core job : Nat)
  | drainComplete (l : Nat)
  | jobImageCapture (l : Nat)
  | jobSwitchIn (l : Nat)
  | vexpenArrival (port of peer l p num : Nat) (bytes : List Nat)
  | collectiveStepStart (n : Nat)
  | collectiveSendComplete (n : Nat)
  | collectiveRecvComplete (n : Nat)
  | reqtailWrite (f u tail : Nat) (entries : List (Nat × Nat))
  | rspheadWrite (f h : Nat)
  | map (n : Nat) (ok : Bool) (va : Nat) (wipes : List (Nat × Nat)) (writes : List (Nat × Nat × Nat))
  | unmap (n : Nat)
  | copyIn (n : Nat)
  | copyOut (n : Nat)
  | mailboxLaunch (n : Nat) (ok : Bool)
  | mailboxCancel (n : Nat)
  | hostCompletionTimeout (n : Nat)
  | functionLevelReset (f : Nat)
  | hostLinkDown (port : Nat)
  | cxlPortDown (port : Nat)
  | cxlResponseTimeout (port : Nat)
  | vexpenPortDown (port : Nat)
  | peerAckTimeout (peer : Nat)
  | ucieLinkDown (d dir : Nat)
  | dieHeartbeatTimeout (d : Nat)
  | dirtyBitmapRead (f m w : Nat)
  | migrationCommit (f : Nat)
  | migrationResumed (f : Nat)
  | resumedTimeout (f : Nat)
  | commitTimeout (f : Nat)
  | packageReset
  | flashResponseTimeout
  | recover (n image blown : Nat)
  | measExtend (m n x : Nat)
  | getMeasurements (path : Nat) (ok : Bool)
  | debugNonceRequest (path nonce : Nat)
  | debugToken (path token : Nat)
  | tokenExpiry
  | freeze
  | bypass (bit : Nat)
  | idcode
  | scanrd (die : Nat)
  | scanwr (die data : Nat)
  | profilerGrant (f kind : Nat) (clusters : List Nat) (on : Bool)
  | weightStoreRefresh (die : Nat)
  | traceSample (cid : Nat)
  | droopBudgetReset (core : Nat)
  | patrolScrub (m fixed : Nat) (lines : List Nat)
  | registerWrite (kind : Nat) (v : List Nat)
  | softError (kind a b c : Nat)
  | hostLinkUp (port : Nat)
  | cxlPortUp (port cap : Nat)
  | vexpenPortUp (port : Nat)
  | hostCompletionArrival (n kind : Nat) (bytes : List Nat)
  | cxlMemResponse (l : Nat) (poison : Bool)
  | flashReadComplete (ok : Bool) (data blown : Nat)
  | finalCopyAck (f : Nat) (ok : Bool) (pool : List Nat)
  | lifecycleFuseTransition (state : Nat)
  | uetRetransmit
  | linkLevelRetry
  | slotLanding (core id : Nat)
  | walkComplete (cid : Nat)
  | blockFetchComplete (cid : Nat)
  | signatureComplete
  deriving DecidableEq, Repr

end Sys2Proof
end

