-- ==== Sys2Proof/Machine/Encoding.lean ====
section
/-! DEFINITION. The encoding tables: one `Op` per instruction of the table, its `Row` (the fields its entry names, R206 to
R208 and the tables of the instruction chapters), the layout of the five formats (R190 to R195), and the static part of the
checks of R204. -/

namespace Sys2Proof

/-- The form a major admits (R207). -/
inductive Form where
  | a | ai | i | w | movi | b | l | nop | fmt
  deriving DecidableEq, Repr

/-- What a register field names (R197); `sg n` is a group of n scalar registers, `vg n al` of n vector registers aligned
to al. `voff` is the offset group of VGATH and VSCAT (R298), `vmx` the group of VAMAX (R302), `vpb` and `vpd` the byte and
packed groups of VPACK and VUNPK (R303), `oadv` the ring of a transfer, used when MX[0] is 1 (R252). -/
inductive Cls where
  | none | s | v | t | g | p | k | o | a | lc
  | sg (n : Nat) | vg (n al : Nat) | voff | vmx | vpb | vpd | oadv
  deriving DecidableEq, Repr

/-- What the K field means when KS is 00 (R196, R212, R261, R279). -/
inductive KUse where
  | none | byte | sysreg | mask | maskM | qmask
  deriving DecidableEq, Repr

/-- What selects one row among those of a major: nothing, a value of FN, or a value of MX. -/
inductive Sel where
  | any
  | fn (vs : List Nat)
  | mx (vs : List Nat)
  deriving DecidableEq, Repr

/-- The encoding of one instruction: which fields its entry uses and which values they admit. An empty `fn` or `t` is a
field that the entry does not use. -/
structure Row where
  op : Nat
  form : Form
  sel : Sel := .any
  d : Cls := .none
  a : Cls := .none
  b : Cls := .none
  c : Cls := .none
  fn : List Nat := []
  t : List TCode := []
  mx : List Nat := [0]
  rnd : Bool := false
  sat : Bool := false
  cw : List Nat := []
  k : KUse := .none
  imm : Bool := false
  blgr : Bool := false
  q : List Nat := []
  g2 : Bool := false
  t1 : Bool := false
  t2 : Bool := false
  deriving DecidableEq, Repr

/-- The instructions of the opcode table, events left out. -/
inductive Op where
  | nop
  | brk
  | trap
  | eret
  | sysc
  | fmt
  | waiti
  | mfsr
  | mtsr
  | fencei
  | idle
  | add
  | sub
  | mul
  | mulh
  | mulhu
  | div
  | divu
  | rem
  | remu
  | and
  | or
  | xor
  | andn
  | shl
  | shr
  | sar
  | rol
  | min
  | max
  | minu
  | maxu
  | cmp
  | cmpu
  | sel
  | mov
  | movi
  | clz
  | popc
  | bfx
  | bfi
  | adds
  | mad
  | abs
  | neg
  | fadd
  | fsub
  | fmul
  | ffma
  | fdiv
  | fsqrt
  | fmin
  | fmax
  | fcmp
  | fcvt
  | br
  | brc
  | call
  | ret
  | jmpr
  | loop
  | loopx
  | jtab
  | ld
  | st
  | ld2
  | st2
  | pref
  | spq
  | spcv
  | spmk
  | lea
  | chkb
  | llk
  | sul
  | aadd
  | amin
  | amax
  | aand
  | aor
  | axor
  | aswp
  | acas
  | faadd
  | ecrd
  | ecclr
  | vadd
  | vsub
  | vmul
  | vfma
  | vmin
  | vmax
  | vabs
  | vneg
  | vand
  | vor
  | vxor
  | vshl
  | vshr
  | vsar
  | vcmp
  | vsel
  | vrcp
  | vrsq
  | vexp2
  | vlog2
  | vred
  | vscan
  | vshuf
  | vshufi
  | vbcast
  | vbcastLane
  | vvote
  | vmatch
  | vmatchLeader
  | vpopc
  | vpopcPre
  | vmovs
  | vmovsV
  | viota
  | kopLogic
  | kopNot
  | kopMov
  | kopSet
  | kopLen
  | kopFirst
  | kopLo
  | kopHi
  | vmvp
  | vld
  | vst
  | vlds
  | vsts
  | vgath
  | vscat
  | vtld
  | vldrg
  | vstrg
  | vldb
  | vcvt
  | vamax
  | vqnt
  | vdqnt
  | vpack
  | vunpk
  | gmk
  | gmkApp
  | gmki
  | gld
  | gst
  | gmov
  | guni
  | gint
  | gsub
  | gdil
  | gero
  | gtrn
  | gprj
  | gspl
  | gcan
  | ghul
  | glat
  | glatUnit
  | glatRd
  | grag
  | gvol
  | gnbx
  | gbox
  | gtstPt
  | gtstOvl
  | gtstSub
  | gtstEq
  | gclr
  | gwalk
  | gown
  | xget
  | xsend
  | xcopy
  | xmma
  | xsts
  | xcnt
  | waitg
  | waitq
  | qfence
  | qmark
  | tbind
  | tunb
  | grnt
  | grev
  | acq
  | pub
  | mcrun
  | mring
  | mringRd
  | mradv
  | mldw
  | mma
  | mdrn
  | mzro
  | mswp
  | mflg
  | mholdFire
  | mholdSet
  | kvapp
  | kvseal
  | spset
  | spret
  | posl
  | posf
  | posiTag
  | posiSeq
  | posiAll
  | hsift
  | hpop
  | spawn
  | done
  | joinh
  | cqadd
  | cqget
  | cqnext
  | jdec
  | rqadd
  | rqget
  | sync
  | bdom
  | rdssn
  | launch
  | cancel
  | cancelLaunch
  | chkc
  deriving DecidableEq, Repr

/-- The encoding row of an instruction. -/
def Op.row : Op → Row
  | .nop => { op := 0x00, form := .nop }  -- R213
  | .brk => { op := 0x01, form := .a, k := .byte }  -- R214
  | .trap => { op := 0x02, form := .a, k := .byte }  -- R214
  | .eret => { op := 0x03, form := .a }  -- R215
  | .sysc => { op := 0x04, form := .a, d := .s, a := .s, b := .s, cw := [1, 2] }  -- R216
  | .fmt => { op := 0x05, form := .fmt }  -- R200
  | .waiti => { op := 0x06, form := .a }  -- R218
  | .mfsr => { op := 0x07, form := .a, d := .s, k := .sysreg }  -- R221
  | .mtsr => { op := 0x08, form := .a, a := .s, k := .sysreg }  -- R221
  | .fencei => { op := 0x09, form := .a }  -- R222
  | .idle => { op := 0x0A, form := .a }  -- R218
  | .add => { op := 0x10, form := .ai, d := .s, a := .s, b := .s, t := [.i32, .u32, .i64], cw := [1, 2] }  -- R224
  | .sub => { op := 0x11, form := .ai, d := .s, a := .s, b := .s, t := [.i32, .u32, .i64], cw := [1, 2] }  -- R224
  | .mul => { op := 0x12, form := .ai, d := .s, a := .s, b := .s, t := [.i32, .u32, .i64], cw := [1, 2] }  -- R224
  | .mulh => { op := 0x13, form := .ai, d := .s, a := .s, b := .s, t := [.i32, .u32, .i64], cw := [1, 2] }  -- R224
  | .mulhu => { op := 0x14, form := .ai, d := .s, a := .s, b := .s, t := [.i32, .u32, .i64], cw := [1, 2] }  -- R224
  | .div => { op := 0x15, form := .ai, d := .s, a := .s, b := .s, t := [.i32, .u32, .i64], cw := [1, 2] }  -- R225
  | .divu => { op := 0x16, form := .ai, d := .s, a := .s, b := .s, t := [.i32, .u32, .i64], cw := [1, 2] }  -- R225
  | .rem => { op := 0x17, form := .ai, d := .s, a := .s, b := .s, t := [.i32, .u32, .i64], cw := [1, 2] }  -- R225
  | .remu => { op := 0x18, form := .ai, d := .s, a := .s, b := .s, t := [.i32, .u32, .i64], cw := [1, 2] }  -- R225
  | .and => { op := 0x19, form := .ai, d := .s, a := .s, b := .s, t := [.i32, .u32, .i64], cw := [1, 2] }  -- R224
  | .or => { op := 0x1A, form := .ai, d := .s, a := .s, b := .s, t := [.i32, .u32, .i64], cw := [1, 2] }  -- R224
  | .xor => { op := 0x1B, form := .ai, d := .s, a := .s, b := .s, t := [.i32, .u32, .i64], cw := [1, 2] }  -- R224
  | .andn => { op := 0x1C, form := .ai, d := .s, a := .s, b := .s, t := [.i32, .u32, .i64], cw := [1, 2] }  -- R224
  | .shl => { op := 0x1D, form := .ai, d := .s, a := .s, b := .s, t := [.i32, .u32, .i64], cw := [1, 2] }  -- R224
  | .shr => { op := 0x1E, form := .ai, d := .s, a := .s, b := .s, t := [.i32, .u32, .i64], cw := [1, 2] }  -- R224
  | .sar => { op := 0x1F, form := .ai, d := .s, a := .s, b := .s, t := [.i32, .u32, .i64], cw := [1, 2] }  -- R224
  | .rol => { op := 0x20, form := .ai, d := .s, a := .s, b := .s, t := [.i32, .u32, .i64], cw := [1, 2] }  -- R224
  | .min => { op := 0x21, form := .ai, d := .s, a := .s, b := .s, t := [.i32, .u32, .i64], cw := [1, 2] }  -- R224
  | .max => { op := 0x22, form := .ai, d := .s, a := .s, b := .s, t := [.i32, .u32, .i64], cw := [1, 2] }  -- R224
  | .minu => { op := 0x23, form := .ai, d := .s, a := .s, b := .s, t := [.i32, .u32, .i64], cw := [1, 2] }  -- R224
  | .maxu => { op := 0x24, form := .ai, d := .s, a := .s, b := .s, t := [.i32, .u32, .i64], cw := [1, 2] }  -- R224
  | .cmp => { op := 0x25, form := .ai, d := .p, a := .s, b := .s, t := [.i32, .u32, .i64], fn := [0, 1, 2, 3, 4, 5, 6, 7], cw := [1, 2] }  -- R227
  | .cmpu => { op := 0x26, form := .ai, d := .p, a := .s, b := .s, t := [.i32, .u32, .i64], fn := [0, 1, 2, 3, 4, 5, 6, 7], cw := [1, 2] }  -- R227
  | .sel => { op := 0x27, form := .ai, d := .s, a := .s, b := .s, c := .p, t := [.i64], cw := [1, 2] }  -- R224
  | .mov => { op := 0x28, form := .ai, d := .s, b := .s, t := [.i64], cw := [2] }  -- R224
  | .movi => { op := 0x29, form := .movi, d := .s, t := [.i64, .i8] }  -- R224
  | .clz => { op := 0x2A, form := .a, d := .s, a := .s, t := [.i32, .u32, .i64], cw := [1] }  -- R224
  | .popc => { op := 0x2B, form := .a, d := .s, a := .s, t := [.i32, .u32, .i64], cw := [1] }  -- R224
  | .bfx => { op := 0x2C, form := .ai, d := .s, a := .s, b := .s, t := [.i64], mx := [0, 1], cw := [1, 2] }  -- R226
  | .bfi => { op := 0x2D, form := .ai, d := .s, a := .s, b := .s, c := .s, t := [.i64], cw := [1, 2, 3] }  -- R226
  | .adds => { op := 0x2E, form := .ai, d := .s, a := .s, b := .s, t := [.i32, .u32, .i64], cw := [1, 2] }  -- R224
  | .mad => { op := 0x2F, form := .ai, d := .s, a := .s, b := .s, c := .s, t := [.i32, .u32, .i64], cw := [1, 2, 3] }  -- R224
  | .abs => { op := 0x30, form := .a, d := .s, a := .s, t := [.i32, .i64], sat := true, cw := [1] }  -- R224
  | .neg => { op := 0x31, form := .a, d := .s, a := .s, t := [.i32, .i64], sat := true, cw := [1] }  -- R224
  | .fadd => { op := 0x38, form := .ai, d := .s, a := .s, b := .s, t := [.f32], rnd := true, cw := [1, 2] }  -- R229
  | .fsub => { op := 0x39, form := .ai, d := .s, a := .s, b := .s, t := [.f32], rnd := true, cw := [1, 2] }  -- R229
  | .fmul => { op := 0x3A, form := .ai, d := .s, a := .s, b := .s, t := [.f32], rnd := true, cw := [1, 2] }  -- R229
  | .ffma => { op := 0x3B, form := .ai, d := .s, a := .s, b := .s, c := .s, t := [.f32], rnd := true, cw := [1, 2, 3] }  -- R229
  | .fdiv => { op := 0x3C, form := .ai, d := .s, a := .s, b := .s, t := [.f32], rnd := true, cw := [1, 2] }  -- R229
  | .fsqrt => { op := 0x3D, form := .a, d := .s, a := .s, t := [.f32], rnd := true, cw := [1] }  -- R229
  | .fmin => { op := 0x3E, form := .ai, d := .s, a := .s, b := .s, t := [.f32], cw := [1, 2] }  -- R230
  | .fmax => { op := 0x3F, form := .ai, d := .s, a := .s, b := .s, t := [.f32], cw := [1, 2] }  -- R230
  | .fcmp => { op := 0x40, form := .ai, d := .p, a := .s, b := .s, t := [.f32], fn := [0, 1, 2, 3, 4, 5, 6, 7], cw := [1, 2] }  -- R230
  | .fcvt => { op := 0x41, form := .a, d := .s, a := .s, t := [.i8, .u8, .i16, .u16, .i32, .u32, .i64, .i4, .e4m3, .e5m2, .e3m2, .e2m1, .bf16, .f16, .tf19, .f32], mx := [0, 1, 2, 3, 4, 5, 6, 7], rnd := true, sat := true, cw := [1] }  -- R231
  | .br => { op := 0x44, form := .b }  -- R233
  | .brc => { op := 0x45, form := .b }  -- R233
  | .call => { op := 0x46, form := .b }  -- R233
  | .ret => { op := 0x47, form := .a }  -- R234
  | .jmpr => { op := 0x48, form := .a, d := .s, a := .s, cw := [1] }  -- R234
  | .loop => { op := 0x49, form := .l }  -- R235
  | .loopx => { op := 0x4A, form := .a, d := .lc }  -- R237
  | .jtab => { op := 0x4B, form := .a, a := .s, b := .s, c := .s, cw := [1, 2, 3] }  -- R234
  | .ld => { op := 0x50, form := .ai, d := .s, a := .s, b := .s, t := [.i8, .u8, .i16, .u16, .i32, .u32, .i64], cw := [1, 2] }  -- R244
  | .st => { op := 0x51, form := .ai, a := .s, b := .s, c := .s, t := [.i8, .u8, .i16, .u16, .i32, .u32, .i64], cw := [1, 2, 3] }  -- R244
  | .ld2 => { op := 0x52, form := .ai, d := .sg 2, a := .s, b := .s, t := [.i64], cw := [1, 2] }  -- R244
  | .st2 => { op := 0x53, form := .ai, a := .s, b := .s, c := .sg 2, t := [.i64], cw := [1, 2] }  -- R244
  | .pref => { op := 0x54, form := .ai, a := .s, b := .s, cw := [1, 2] }  -- R246
  | .spq => { op := 0x55, form := .a, d := .s, a := .s, cw := [1] }  -- R248
  | .spcv => { op := 0x56, form := .a, d := .s, a := .s, fn := [1, 2, 3, 4, 5], cw := [1] }  -- R248
  | .spmk => { op := 0x57, form := .a, d := .s, a := .s, fn := [1, 2, 3, 4, 5], cw := [1] }  -- R248
  | .lea => { op := 0x58, form := .ai, d := .s, a := .s, b := .s, cw := [1, 2] }  -- R244
  | .chkb => { op := 0x59, form := .ai, d := .p, a := .s, b := .s, t := [.i8, .u8, .i16, .u16, .i32, .u32, .i64], mx := [0, 1], cw := [1, 2] }  -- R248
  | .llk => { op := 0x5C, form := .ai, d := .s, a := .s, b := .s, t := [.i32, .u32, .i64], cw := [1, 2] }  -- R251
  | .sul => { op := 0x5D, form := .ai, d := .s, a := .s, b := .s, c := .s, t := [.i32, .u32, .i64], cw := [1, 2, 3] }  -- R251
  | .aadd => { op := 0x5E, form := .ai, d := .s, a := .s, b := .s, c := .s, t := [.i32, .u32, .i64], cw := [1, 2, 3] }  -- R250
  | .amin => { op := 0x5F, form := .ai, d := .s, a := .s, b := .s, c := .s, t := [.i32, .u32, .i64], cw := [1, 2, 3] }  -- R250
  | .amax => { op := 0x60, form := .ai, d := .s, a := .s, b := .s, c := .s, t := [.i32, .u32, .i64], cw := [1, 2, 3] }  -- R250
  | .aand => { op := 0x61, form := .ai, d := .s, a := .s, b := .s, c := .s, t := [.i32, .u32, .i64], cw := [1, 2, 3] }  -- R250
  | .aor => { op := 0x62, form := .ai, d := .s, a := .s, b := .s, c := .s, t := [.i32, .u32, .i64], cw := [1, 2, 3] }  -- R250
  | .axor => { op := 0x63, form := .ai, d := .s, a := .s, b := .s, c := .s, t := [.i32, .u32, .i64], cw := [1, 2, 3] }  -- R250
  | .aswp => { op := 0x64, form := .ai, d := .s, a := .s, b := .s, c := .s, t := [.i32, .u32, .i64], cw := [1, 2, 3] }  -- R250
  | .acas => { op := 0x65, form := .ai, d := .s, a := .s, b := .s, c := .s, t := [.i32, .u32, .i64], cw := [1, 2, 3] }  -- R250
  | .faadd => { op := 0x66, form := .ai, a := .s, b := .s, c := .s, t := [.f32], cw := [1, 2, 3] }  -- R250
  | .ecrd => { op := 0x67, form := .ai, d := .s, a := .s, b := .s, t := [.f32], rnd := true, cw := [1, 2] }  -- R250
  | .ecclr => { op := 0x68, form := .ai, a := .s, b := .s, cw := [1, 2] }  -- R250
  | .vadd => { op := 0x70, form := .ai, d := .v, a := .v, b := .v, t := [.i8, .u8, .i16, .u16, .i32, .u32, .bf16, .f16, .f32], k := .mask, rnd := true, sat := true, mx := [0, 4] }  -- R282
  | .vsub => { op := 0x71, form := .ai, d := .v, a := .v, b := .v, t := [.i8, .u8, .i16, .u16, .i32, .u32, .bf16, .f16, .f32], k := .mask, rnd := true, sat := true, mx := [0, 4] }  -- R282
  | .vmul => { op := 0x72, form := .ai, d := .v, a := .v, b := .v, t := [.i8, .u8, .i16, .u16, .i32, .u32, .bf16, .f16, .f32], k := .mask, rnd := true, sat := true, mx := [0, 4] }  -- R282
  | .vfma => { op := 0x73, form := .ai, d := .v, a := .v, b := .v, c := .v, t := [.i8, .u8, .i16, .u16, .i32, .u32, .bf16, .f16, .f32], k := .mask, rnd := true, sat := true, mx := [0, 4] }  -- R282
  | .vmin => { op := 0x74, form := .ai, d := .v, a := .v, b := .v, t := [.i8, .u8, .i16, .u16, .i32, .u32, .bf16, .f16, .f32], k := .mask, mx := [0, 4] }  -- R283
  | .vmax => { op := 0x75, form := .ai, d := .v, a := .v, b := .v, t := [.i8, .u8, .i16, .u16, .i32, .u32, .bf16, .f16, .f32], k := .mask, mx := [0, 4] }  -- R283
  | .vabs => { op := 0x76, form := .a, d := .v, a := .v, t := [.i8, .u8, .i16, .u16, .i32, .u32, .bf16, .f16, .f32], k := .mask, sat := true, mx := [0, 4] }  -- R283
  | .vneg => { op := 0x77, form := .a, d := .v, a := .v, t := [.i8, .u8, .i16, .u16, .i32, .u32, .bf16, .f16, .f32], k := .mask, sat := true, mx := [0, 4] }  -- R283
  | .vand => { op := 0x78, form := .ai, d := .v, a := .v, b := .v, t := [.i8, .u8, .i16, .u16, .i32, .u32, .e4m3, .e5m2, .bf16, .f16, .tf19, .f32], k := .mask, mx := [0, 4] }  -- R283
  | .vor => { op := 0x79, form := .ai, d := .v, a := .v, b := .v, t := [.i8, .u8, .i16, .u16, .i32, .u32, .e4m3, .e5m2, .bf16, .f16, .tf19, .f32], k := .mask, mx := [0, 4] }  -- R283
  | .vxor => { op := 0x7A, form := .ai, d := .v, a := .v, b := .v, t := [.i8, .u8, .i16, .u16, .i32, .u32, .e4m3, .e5m2, .bf16, .f16, .tf19, .f32], k := .mask, mx := [0, 4] }  -- R283
  | .vshl => { op := 0x7B, form := .ai, d := .v, a := .v, b := .v, t := [.i8, .u8, .i16, .u16, .i32, .u32], k := .mask, mx := [0, 4] }  -- R282
  | .vshr => { op := 0x7C, form := .ai, d := .v, a := .v, b := .v, t := [.i8, .u8, .i16, .u16, .i32, .u32], k := .mask, mx := [0, 4] }  -- R282
  | .vsar => { op := 0x7D, form := .ai, d := .v, a := .v, b := .v, t := [.i8, .u8, .i16, .u16, .i32, .u32], k := .mask, mx := [0, 4] }  -- R282
  | .vcmp => { op := 0x7E, form := .ai, d := .k, a := .v, b := .v, t := [.i8, .u8, .i16, .u16, .i32, .u32, .bf16, .f16, .f32], fn := [0, 1, 2, 3, 4, 5, 6, 7], k := .maskM, mx := [0, 4] }  -- R284
  | .vsel => { op := 0x7F, form := .ai, d := .v, a := .v, b := .v, c := .k, t := [.i8, .u8, .i16, .u16, .i32, .u32, .e4m3, .e5m2, .bf16, .f16, .tf19, .f32], mx := [0, 4] }  -- R284
  | .vrcp => { op := 0x80, form := .a, d := .v, a := .v, t := [.f32], k := .mask, rnd := true, mx := [0, 4] }  -- R139
  | .vrsq => { op := 0x81, form := .a, d := .v, a := .v, t := [.f32], k := .mask, rnd := true, mx := [0, 4] }  -- R139
  | .vexp2 => { op := 0x82, form := .a, d := .v, a := .v, t := [.f32], k := .mask, rnd := true, mx := [0, 4] }  -- R139
  | .vlog2 => { op := 0x83, form := .a, d := .v, a := .v, t := [.f32], k := .mask, rnd := true, mx := [0, 4] }  -- R139
  | .vred => { op := 0x88, form := .a, d := .v, a := .v, t := [.i8, .u8, .i16, .u16, .i32, .u32, .f32], fn := [0, 1, 2, 3, 4, 5], mx := [0, 1, 2, 3, 4, 5, 6, 7], k := .mask, rnd := true, sat := true }  -- R287
  | .vscan => { op := 0x89, form := .a, d := .v, a := .v, t := [.i8, .u8, .i16, .u16, .i32, .u32, .f32], fn := [0, 1, 2, 3, 4, 5, 8, 9, 10, 11, 12, 13], mx := [0, 1, 2, 3, 4, 5, 6, 7], k := .mask, rnd := true, sat := true }  -- R287
  | .vshuf => { op := 0x8A, form := .a, d := .v, a := .v, b := .v, c := .v, t := [.i8, .u8, .i16, .u16, .i32, .u32, .e4m3, .e5m2, .bf16, .f16, .tf19, .f32], k := .mask }  -- R288
  | .vshufi => { op := 0x8B, form := .i, d := .v, a := .v, b := .s, t := [.i8, .u8, .i16, .u16, .i32, .u32, .e4m3, .e5m2, .bf16, .f16, .tf19, .f32], k := .mask }  -- R288
  | .vbcast => { op := 0x8C, form := .a, d := .v, a := .s, t := [.i8, .u8, .i16, .u16, .i32, .u32, .e4m3, .e5m2, .bf16, .f16, .tf19, .f32], k := .mask, sel := .mx [0] }  -- R289
  | .vbcastLane => { op := 0x8C, form := .a, d := .v, a := .v, b := .s, t := [.i8, .u8, .i16, .u16, .i32, .u32, .e4m3, .e5m2, .bf16, .f16, .tf19, .f32], k := .mask, mx := [1], sel := .mx [1] }  -- R289
  | .vvote => { op := 0x8D, form := .a, d := .k, a := .v, t := [.i8, .u8, .i16, .u16, .i32, .u32, .e4m3, .e5m2, .bf16, .f16, .tf19, .f32], fn := [0, 1, 2, 3], mx := [0, 1, 2, 3, 4, 5, 6, 7], k := .mask }  -- R290
  | .vmatch => { op := 0x8E, form := .a, d := .k, a := .v, t := [.i8, .u8, .i16, .u16, .i32, .u32, .e4m3, .e5m2, .bf16, .f16, .tf19, .f32], fn := [0, 1, 2], mx := [0, 1, 2, 3, 4, 5, 6, 7], k := .mask, sel := .fn [0, 1, 2] }  -- R291
  | .vmatchLeader => { op := 0x8E, form := .a, d := .v, a := .v, t := [.i8, .u8, .i16, .u16, .i32, .u32], fn := [3], mx := [0, 1, 2, 3, 4, 5, 6, 7], k := .mask, sel := .fn [3] }  -- R291
  | .vpopc => { op := 0x8F, form := .a, d := .s, a := .k, t := [.i8, .u8, .i16, .u16, .i32, .u32, .e4m3, .e5m2, .bf16, .f16, .tf19, .f32], fn := [0], k := .mask, sel := .fn [0] }  -- R292
  | .vpopcPre => { op := 0x8F, form := .a, d := .v, a := .k, t := [.i8, .u8, .i16, .u16, .i32, .u32], fn := [1], k := .mask, sel := .fn [1] }  -- R292
  | .vmovs => { op := 0x90, form := .a, d := .s, a := .v, b := .s, t := [.i8, .u8, .i16, .u16, .i32, .u32, .e4m3, .e5m2, .bf16, .f16, .tf19, .f32], sel := .mx [0] }  -- R289
  | .vmovsV => { op := 0x90, form := .a, d := .v, a := .s, b := .s, t := [.i8, .u8, .i16, .u16, .i32, .u32, .e4m3, .e5m2, .bf16, .f16, .tf19, .f32], mx := [1], sel := .mx [1] }  -- R289
  | .viota => { op := 0x91, form := .a, d := .v, a := .s, b := .s, t := [.i8, .u8, .i16, .u16, .i32, .u32], k := .mask }  -- R289
  | .kopLogic => { op := 0x92, form := .a, d := .k, a := .k, b := .k, fn := [0, 1, 2, 3], sel := .fn [0, 1, 2, 3] }  -- R293
  | .kopNot => { op := 0x92, form := .a, d := .k, a := .k, fn := [4], sel := .fn [4] }  -- R293
  | .kopMov => { op := 0x92, form := .a, d := .k, a := .k, fn := [5], sel := .fn [5] }  -- R293
  | .kopSet => { op := 0x92, form := .a, d := .k, a := .s, b := .s, fn := [6], sel := .fn [6] }  -- R293
  | .kopLen => { op := 0x92, form := .a, d := .k, a := .s, fn := [7], sel := .fn [7] }  -- R293
  | .kopFirst => { op := 0x92, form := .a, d := .k, a := .k, fn := [8], sel := .fn [8] }  -- R293
  | .kopLo => { op := 0x92, form := .a, d := .s, a := .k, fn := [9], sel := .fn [9] }  -- R293
  | .kopHi => { op := 0x92, form := .a, d := .s, a := .k, fn := [10], sel := .fn [10] }  -- R293
  | .vmvp => { op := 0x93, form := .a, d := .vg 4 4, a := .s, b := .s, c := .s, t := [.i8, .u8, .i4, .e4m3, .e5m2, .e3m2, .e2m1, .bf16, .f16, .tf19], mx := [0, 1], rnd := true, sat := true }  -- R294
  | .vld => { op := 0x98, form := .ai, d := .v, a := .s, b := .s, t := [.i8, .u8, .i16, .u16, .i32, .u32, .e4m3, .e5m2, .bf16, .f16, .tf19, .f32], k := .mask }  -- R296
  | .vst => { op := 0x99, form := .ai, a := .s, b := .s, c := .v, t := [.i8, .u8, .i16, .u16, .i32, .u32, .e4m3, .e5m2, .bf16, .f16, .tf19, .f32], k := .maskM }  -- R296
  | .vlds => { op := 0x9A, form := .ai, d := .v, a := .s, b := .s, c := .s, t := [.i8, .u8, .i16, .u16, .i32, .u32, .e4m3, .e5m2, .bf16, .f16, .tf19, .f32], k := .mask }  -- R296
  | .vsts => { op := 0x9B, form := .ai, d := .s, a := .s, b := .s, c := .v, t := [.i8, .u8, .i16, .u16, .i32, .u32, .e4m3, .e5m2, .bf16, .f16, .tf19, .f32], k := .maskM }  -- R296
  | .vgath => { op := 0x9C, form := .a, d := .v, a := .s, b := .voff, t := [.i8, .u8, .i16, .u16, .i32, .u32, .e4m3, .e5m2, .bf16, .f16, .tf19, .f32], k := .mask }  -- R298
  | .vscat => { op := 0x9D, form := .a, a := .s, b := .voff, c := .v, t := [.i8, .u8, .i16, .u16, .i32, .u32, .e4m3, .e5m2, .bf16, .f16, .tf19, .f32], k := .maskM }  -- R298
  | .vtld => { op := 0x9E, form := .ai, d := .v, a := .s, b := .s, c := .t, k := .mask }  -- R297
  | .vldrg => { op := 0x9F, form := .a, d := .v, a := .g, b := .sg 2, c := .k, k := .mask }  -- R298
  | .vstrg => { op := 0xA0, form := .a, a := .g, b := .sg 2, c := .v, k := .maskM }  -- R298
  | .vldb => { op := 0xA1, form := .ai, d := .v, a := .s, b := .s, t := [.i8, .u8, .i16, .u16, .i32, .u32, .e4m3, .e5m2, .bf16, .f16, .tf19, .f32], k := .mask }  -- R296
  | .vcvt => { op := 0xA4, form := .a, d := .v, a := .v, t := [.i8, .u8, .i16, .u16, .i32, .u32, .i4, .e4m3, .e5m2, .e3m2, .e2m1, .bf16, .f16, .tf19, .f32], k := .mask, rnd := true, sat := true }  -- R301
  | .vamax => { op := 0xA5, form := .a, d := .s, a := .vmx, t := [.e4m3, .e5m2, .e3m2, .e2m1, .bf16, .f16, .tf19, .f32], mx := [0, 1, 2], k := .mask }  -- R302
  | .vqnt => { op := 0xA6, form := .a, d := .v, a := .v, b := .s, t := [.i8, .u8, .i16, .u16, .i32, .u32, .i4, .e4m3, .e5m2, .e3m2, .e2m1, .bf16, .f16, .tf19, .f32], k := .mask, rnd := true, sat := true }  -- R301
  | .vdqnt => { op := 0xA7, form := .a, d := .v, a := .v, b := .s, t := [.bf16, .f16, .tf19, .f32], k := .mask, rnd := true, sat := true }  -- R301
  | .vpack => { op := 0xA8, form := .a, d := .vpd, a := .vpb, t := [.i4, .e2m1, .e3m2] }  -- R303
  | .vunpk => { op := 0xA9, form := .a, d := .vpb, a := .vpd, t := [.i4, .e2m1, .e3m2] }  -- R303
  | .gmk => { op := 0xB0, form := .a, d := .g, a := .t, b := .sg 4, sel := .mx [0] }  -- R310
  | .gmkApp => { op := 0xB0, form := .a, d := .g, b := .sg 4, mx := [1], sel := .mx [1] }  -- R310
  | .gmki => { op := 0xB1, form := .w, d := .g, a := .t, b := .sg 4, imm := true }  -- R311
  | .gld => { op := 0xB2, form := .a, d := .g, a := .s, b := .s }  -- R312
  | .gst => { op := 0xB3, form := .a, a := .s, b := .s, c := .g }  -- R312
  | .gmov => { op := 0xB4, form := .a, d := .g, a := .g }  -- R313
  | .guni => { op := 0xB5, form := .w, d := .g, a := .g, g2 := true, blgr := true }  -- R314
  | .gint => { op := 0xB6, form := .w, d := .g, a := .g, g2 := true, blgr := true }  -- R314
  | .gsub => { op := 0xB7, form := .w, d := .g, a := .g, g2 := true, blgr := true }  -- R314
  | .gdil => { op := 0xB8, form := .w, d := .g, a := .g, mx := [0, 1], imm := true, blgr := true }  -- R315
  | .gero => { op := 0xB9, form := .w, d := .g, a := .g, imm := true, blgr := true }  -- R315
  | .gtrn => { op := 0xBA, form := .w, d := .g, a := .g, b := .sg 2, blgr := true }  -- R316
  | .gprj => { op := 0xBB, form := .w, d := .g, a := .g, t1 := true, imm := true, blgr := true }  -- R317
  | .gspl => { op := 0xBC, form := .w, d := .g, a := .g, b := .s, g2 := true, mx := [0, 1], imm := true, blgr := true }  -- R318
  | .gcan => { op := 0xBD, form := .w, d := .g, a := .g, blgr := true }  -- R319
  | .ghul => { op := 0xBE, form := .a, d := .g, a := .g }  -- R320
  | .glat => { op := 0xBF, form := .a, d := .g, a := .g, b := .s, fn := [0], sel := .fn [0] }  -- R321
  | .glatUnit => { op := 0xBF, form := .a, d := .g, a := .g, fn := [1], sel := .fn [1] }  -- R321
  | .glatRd => { op := 0xBF, form := .a, d := .s, a := .g, fn := [2], sel := .fn [2] }  -- R321
  | .grag => { op := 0xC0, form := .a, d := .g, a := .g }  -- R322
  | .gvol => { op := 0xC1, form := .a, d := .s, a := .g }  -- R323
  | .gnbx => { op := 0xC2, form := .a, d := .s, a := .g }  -- R324
  | .gbox => { op := 0xC3, form := .a, d := .sg 4, a := .g, b := .s }  -- R325
  | .gtstPt => { op := 0xC4, form := .a, d := .p, a := .g, b := .sg 2, fn := [0], sel := .fn [0] }  -- R326
  | .gtstOvl => { op := 0xC4, form := .a, d := .p, a := .g, b := .g, fn := [1], sel := .fn [1] }  -- R326
  | .gtstSub => { op := 0xC4, form := .a, d := .p, a := .g, b := .g, fn := [2], sel := .fn [2] }  -- R326
  | .gtstEq => { op := 0xC4, form := .a, d := .p, a := .g, b := .g, fn := [3], sel := .fn [3] }  -- R326
  | .gclr => { op := 0xC5, form := .a, d := .g, a := .t }  -- R309
  | .gwalk => { op := 0xC6, form := .a, d := .sg 3, a := .g, b := .s }  -- R327
  | .gown => { op := 0xC7, form := .a, a := .g, b := .s }  -- R328
  | .xget => { op := 0xC8, form := .w, d := .oadv, a := .g, t1 := true, t2 := true, q := [0, 3], mx := [0, 1], imm := true }  -- R254
  | .xsend => { op := 0xC9, form := .w, d := .oadv, a := .g, t1 := true, t2 := true, q := [0, 3], mx := [0, 1], imm := true }  -- R254
  | .xcopy => { op := 0xCA, form := .w, d := .oadv, a := .g, t1 := true, t2 := true, q := [0, 3], mx := [0, 1], imm := true }  -- R254
  | .xmma => { op := 0xCB, form := .w, d := .o, a := .g, c := .a, t := [.i8, .u8, .i4, .e4m3, .e5m2, .e3m2, .e2m1, .bf16, .f16, .tf19], t1 := true, t2 := true, q := [0], imm := true, rnd := true, sat := true }  -- R256
  | .xsts => { op := 0xCC, form := .w, d := .s, a := .s, c := .s, q := [2], imm := true, cw := [1, 3] }  -- R258
  | .xcnt => { op := 0xCD, form := .w, a := .g, t1 := true, t2 := true, q := [2], imm := true }  -- R257
  | .waitg => { op := 0xCE, form := .a, a := .g }  -- R262
  | .waitq => { op := 0xCF, form := .a, d := .s, a := .s, cw := [1] }  -- R260
  | .qfence => { op := 0xD0, form := .a, k := .qmask }  -- R261
  | .qmark => { op := 0xD1, form := .a, d := .s, fn := [0, 1, 2, 3, 4, 5, 8, 9, 10, 11, 12, 13, 16, 17, 18, 19, 20, 21, 24, 25, 26, 27, 28, 29] }  -- R259
  | .tbind => { op := 0xD2, form := .a, d := .t, a := .s, cw := [1] }  -- R263
  | .tunb => { op := 0xD3, form := .a, d := .t }  -- R263
  | .grnt => { op := 0xD4, form := .w, d := .s, a := .g, b := .s, t1 := true, mx := [0, 1, 2, 3], cw := [2] }  -- R264
  | .grev => { op := 0xD5, form := .w, d := .s, a := .g, b := .s, cw := [2] }  -- R265
  | .acq => { op := 0xD6, form := .w, a := .g, fn := [0, 1, 2, 3, 4, 5] }  -- R266
  | .pub => { op := 0xD7, form := .w, a := .g, fn := [0, 1, 2, 3, 4, 5] }  -- R266
  | .mcrun => { op := 0xD8, form := .a, a := .s, b := .s, c := .s, cw := [1, 2, 3] }  -- R267
  | .mring => { op := 0xDC, form := .a, d := .o, a := .s, fn := [0], sel := .fn [0] }  -- R332
  | .mringRd => { op := 0xDC, form := .a, d := .s, a := .o, fn := [1], sel := .fn [1] }  -- R332
  | .mradv => { op := 0xDD, form := .a, d := .o, a := .s }  -- R333
  | .mldw => { op := 0xDE, form := .w, a := .s, t := [.i8, .u8, .i4, .e4m3, .e5m2, .e3m2, .e2m1, .bf16, .f16, .tf19], mx := [0, 1, 2, 3], t1 := true, imm := true, cw := [1] }  -- R334
  | .mma => { op := 0xDF, form := .w, d := .a, a := .o, t := [.i8, .u8, .i4, .e4m3, .e5m2, .e3m2, .e2m1, .bf16, .f16, .tf19], mx := [0, 1, 2, 3], g2 := true, imm := true, rnd := true, sat := true }  -- R337
  | .mdrn => { op := 0xE0, form := .a, a := .s, b := .a, c := .s, t := [.i8, .u8, .i16, .u16, .i32, .u32, .i4, .e4m3, .e5m2, .e3m2, .e2m1, .bf16, .f16, .tf19, .f32], mx := [0, 2], rnd := true, sat := true }  -- R339
  | .mzro => { op := 0xE1, form := .a, d := .a }  -- R340
  | .mswp => { op := 0xE2, form := .a, d := .a, a := .s }  -- R341
  | .mflg => { op := 0xE3, form := .a, d := .s, a := .a, mx := [0, 1] }  -- R342
  | .mholdFire => { op := 0xE4, form := .a, fn := [0], sel := .fn [0] }  -- R343
  | .mholdSet => { op := 0xE4, form := .a, a := .s, fn := [1], sel := .fn [1] }  -- R343
  | .kvapp => { op := 0xE6, form := .a, d := .s, a := .s, b := .s, cw := [1, 2] }  -- R344
  | .kvseal => { op := 0xE7, form := .a, a := .s, cw := [1] }  -- R345
  | .spset => { op := 0xE8, form := .a, a := .s, b := .s, cw := [1, 2] }  -- R345
  | .spret => { op := 0xE9, form := .a, a := .s, b := .s, cw := [1, 2] }  -- R346
  | .posl => { op := 0xEA, form := .a, d := .sg 4, a := .s, b := .s, cw := [1, 2] }  -- R347
  | .posf => { op := 0xEB, form := .a, a := .sg 3 }  -- R348
  | .posiTag => { op := 0xEC, form := .a, a := .s, b := .s, fn := [0], sel := .fn [0], cw := [1, 2] }  -- R348
  | .posiSeq => { op := 0xEC, form := .a, a := .s, fn := [1], sel := .fn [1], cw := [1] }  -- R348
  | .posiAll => { op := 0xEC, form := .a, fn := [2], sel := .fn [2] }  -- R348
  | .hsift => { op := 0xED, form := .a, d := .s, a := .s, b := .s, c := .s, cw := [1, 2, 3] }  -- R349
  | .hpop => { op := 0xEE, form := .a, d := .sg 2, a := .s, cw := [1] }  -- R349
  | .spawn => { op := 0xF0, form := .a, a := .s, b := .s, fn := [1, 2, 3, 4, 5, 6, 7, 8, 9, 10], cw := [1, 2] }  -- R271
  | .done => { op := 0xF1, form := .a }  -- R272
  | .joinh => { op := 0xF2, form := .a, d := .s, fn := [1, 2, 3, 4, 5, 6, 7, 8, 9, 10] }  -- R271
  | .cqadd => { op := 0xF3, form := .a, d := .s, a := .s, b := .s, cw := [1, 2] }  -- R275
  | .cqget => { op := 0xF4, form := .a, d := .s }  -- R273
  | .cqnext => { op := 0xF5, form := .a, d := .s, a := .s, cw := [1] }  -- R275
  | .jdec => { op := 0xF6, form := .a, d := .s, a := .s, cw := [1] }  -- R275
  | .rqadd => { op := 0xF7, form := .a, d := .s, a := .s, b := .s, cw := [1, 2] }  -- R275
  | .rqget => { op := 0xF8, form := .a, d := .sg 4 }  -- R274
  | .sync => { op := 0xF9, form := .a }  -- R276
  | .bdom => { op := 0xFA, form := .a, a := .s, cw := [1] }  -- R276
  | .rdssn => { op := 0xFB, form := .a, d := .s, a := .s, cw := [1] }  -- R276
  | .launch => { op := 0xFC, form := .a, d := .s, a := .s, cw := [1] }  -- R277
  | .cancel => { op := 0xFD, form := .a, d := .s, a := .s, fn := [0], sel := .fn [0], cw := [1] }  -- R277
  | .cancelLaunch => { op := 0xFD, form := .a, d := .s, a := .s, fn := [1], sel := .fn [1], cw := [1] }  -- R277
  | .chkc => { op := 0xFE, form := .a, d := .p }  -- R277

/-- The instructions of each major, in the order of R206. -/
def Op.ofMajor (op : Nat) : List Op :=
  match op with
  | 0x00 => [.nop]
  | 0x01 => [.brk]
  | 0x02 => [.trap]
  | 0x03 => [.eret]
  | 0x04 => [.sysc]
  | 0x05 => [.fmt]
  | 0x06 => [.waiti]
  | 0x07 => [.mfsr]
  | 0x08 => [.mtsr]
  | 0x09 => [.fencei]
  | 0x0A => [.idle]
  | 0x10 => [.add]
  | 0x11 => [.sub]
  | 0x12 => [.mul]
  | 0x13 => [.mulh]
  | 0x14 => [.mulhu]
  | 0x15 => [.div]
  | 0x16 => [.divu]
  | 0x17 => [.rem]
  | 0x18 => [.remu]
  | 0x19 => [.and]
  | 0x1A => [.or]
  | 0x1B => [.xor]
  | 0x1C => [.andn]
  | 0x1D => [.shl]
  | 0x1E => [.shr]
  | 0x1F => [.sar]
  | 0x20 => [.rol]
  | 0x21 => [.min]
  | 0x22 => [.max]
  | 0x23 => [.minu]
  | 0x24 => [.maxu]
  | 0x25 => [.cmp]
  | 0x26 => [.cmpu]
  | 0x27 => [.sel]
  | 0x28 => [.mov]
  | 0x29 => [.movi]
  | 0x2A => [.clz]
  | 0x2B => [.popc]
  | 0x2C => [.bfx]
  | 0x2D => [.bfi]
  | 0x2E => [.adds]
  | 0x2F => [.mad]
  | 0x30 => [.abs]
  | 0x31 => [.neg]
  | 0x38 => [.fadd]
  | 0x39 => [.fsub]
  | 0x3A => [.fmul]
  | 0x3B => [.ffma]
  | 0x3C => [.fdiv]
  | 0x3D => [.fsqrt]
  | 0x3E => [.fmin]
  | 0x3F => [.fmax]
  | 0x40 => [.fcmp]
  | 0x41 => [.fcvt]
  | 0x44 => [.br]
  | 0x45 => [.brc]
  | 0x46 => [.call]
  | 0x47 => [.ret]
  | 0x48 => [.jmpr]
  | 0x49 => [.loop]
  | 0x4A => [.loopx]
  | 0x4B => [.jtab]
  | 0x50 => [.ld]
  | 0x51 => [.st]
  | 0x52 => [.ld2]
  | 0x53 => [.st2]
  | 0x54 => [.pref]
  | 0x55 => [.spq]
  | 0x56 => [.spcv]
  | 0x57 => [.spmk]
  | 0x58 => [.lea]
  | 0x59 => [.chkb]
  | 0x5C => [.llk]
  | 0x5D => [.sul]
  | 0x5E => [.aadd]
  | 0x5F => [.amin]
  | 0x60 => [.amax]
  | 0x61 => [.aand]
  | 0x62 => [.aor]
  | 0x63 => [.axor]
  | 0x64 => [.aswp]
  | 0x65 => [.acas]
  | 0x66 => [.faadd]
  | 0x67 => [.ecrd]
  | 0x68 => [.ecclr]
  | 0x70 => [.vadd]
  | 0x71 => [.vsub]
  | 0x72 => [.vmul]
  | 0x73 => [.vfma]
  | 0x74 => [.vmin]
  | 0x75 => [.vmax]
  | 0x76 => [.vabs]
  | 0x77 => [.vneg]
  | 0x78 => [.vand]
  | 0x79 => [.vor]
  | 0x7A => [.vxor]
  | 0x7B => [.vshl]
  | 0x7C => [.vshr]
  | 0x7D => [.vsar]
  | 0x7E => [.vcmp]
  | 0x7F => [.vsel]
  | 0x80 => [.vrcp]
  | 0x81 => [.vrsq]
  | 0x82 => [.vexp2]
  | 0x83 => [.vlog2]
  | 0x88 => [.vred]
  | 0x89 => [.vscan]
  | 0x8A => [.vshuf]
  | 0x8B => [.vshufi]
  | 0x8C => [.vbcast, .vbcastLane]
  | 0x8D => [.vvote]
  | 0x8E => [.vmatch, .vmatchLeader]
  | 0x8F => [.vpopc, .vpopcPre]
  | 0x90 => [.vmovs, .vmovsV]
  | 0x91 => [.viota]
  | 0x92 => [.kopLogic, .kopNot, .kopMov, .kopSet, .kopLen, .kopFirst, .kopLo, .kopHi]
  | 0x93 => [.vmvp]
  | 0x98 => [.vld]
  | 0x99 => [.vst]
  | 0x9A => [.vlds]
  | 0x9B => [.vsts]
  | 0x9C => [.vgath]
  | 0x9D => [.vscat]
  | 0x9E => [.vtld]
  | 0x9F => [.vldrg]
  | 0xA0 => [.vstrg]
  | 0xA1 => [.vldb]
  | 0xA4 => [.vcvt]
  | 0xA5 => [.vamax]
  | 0xA6 => [.vqnt]
  | 0xA7 => [.vdqnt]
  | 0xA8 => [.vpack]
  | 0xA9 => [.vunpk]
  | 0xB0 => [.gmk, .gmkApp]
  | 0xB1 => [.gmki]
  | 0xB2 => [.gld]
  | 0xB3 => [.gst]
  | 0xB4 => [.gmov]
  | 0xB5 => [.guni]
  | 0xB6 => [.gint]
  | 0xB7 => [.gsub]
  | 0xB8 => [.gdil]
  | 0xB9 => [.gero]
  | 0xBA => [.gtrn]
  | 0xBB => [.gprj]
  | 0xBC => [.gspl]
  | 0xBD => [.gcan]
  | 0xBE => [.ghul]
  | 0xBF => [.glat, .glatUnit, .glatRd]
  | 0xC0 => [.grag]
  | 0xC1 => [.gvol]
  | 0xC2 => [.gnbx]
  | 0xC3 => [.gbox]
  | 0xC4 => [.gtstPt, .gtstOvl, .gtstSub, .gtstEq]
  | 0xC5 => [.gclr]
  | 0xC6 => [.gwalk]
  | 0xC7 => [.gown]
  | 0xC8 => [.xget]
  | 0xC9 => [.xsend]
  | 0xCA => [.xcopy]
  | 0xCB => [.xmma]
  | 0xCC => [.xsts]
  | 0xCD => [.xcnt]
  | 0xCE => [.waitg]
  | 0xCF => [.waitq]
  | 0xD0 => [.qfence]
  | 0xD1 => [.qmark]
  | 0xD2 => [.tbind]
  | 0xD3 => [.tunb]
  | 0xD4 => [.grnt]
  | 0xD5 => [.grev]
  | 0xD6 => [.acq]
  | 0xD7 => [.pub]
  | 0xD8 => [.mcrun]
  | 0xDC => [.mring, .mringRd]
  | 0xDD => [.mradv]
  | 0xDE => [.mldw]
  | 0xDF => [.mma]
  | 0xE0 => [.mdrn]
  | 0xE1 => [.mzro]
  | 0xE2 => [.mswp]
  | 0xE3 => [.mflg]
  | 0xE4 => [.mholdFire, .mholdSet]
  | 0xE6 => [.kvapp]
  | 0xE7 => [.kvseal]
  | 0xE8 => [.spset]
  | 0xE9 => [.spret]
  | 0xEA => [.posl]
  | 0xEB => [.posf]
  | 0xEC => [.posiTag, .posiSeq, .posiAll]
  | 0xED => [.hsift]
  | 0xEE => [.hpop]
  | 0xF0 => [.spawn]
  | 0xF1 => [.done]
  | 0xF2 => [.joinh]
  | 0xF3 => [.cqadd]
  | 0xF4 => [.cqget]
  | 0xF5 => [.cqnext]
  | 0xF6 => [.jdec]
  | 0xF7 => [.rqadd]
  | 0xF8 => [.rqget]
  | 0xF9 => [.sync]
  | 0xFA => [.bdom]
  | 0xFB => [.rdssn]
  | 0xFC => [.launch]
  | 0xFD => [.cancel, .cancelLaunch]
  | 0xFE => [.chkc]
  | _ => []

/-- The instruction that a constructor of `Instr` stands for; none for an event. -/
def Instr.op : Instr → Option Op
  | .nop => some .nop
  | .brk _ _ => some .brk
  | .trap _ _ => some .trap
  | .eret _ _ => some .eret
  | .sysc _ _ => some .sysc
  | .fmt _ _ _ _ => some .fmt
  | .waiti _ _ => some .waiti
  | .mfsr _ _ => some .mfsr
  | .mtsr _ _ => some .mtsr
  | .fencei _ _ => some .fencei
  | .idle _ _ => some .idle
  | .add _ _ => some .add
  | .sub _ _ => some .sub
  | .mul _ _ => some .mul
  | .mulh _ _ => some .mulh
  | .mulhu _ _ => some .mulhu
  | .div _ _ => some .div
  | .divu _ _ => some .divu
  | .rem _ _ => some .rem
  | .remu _ _ => some .remu
  | .and _ _ => some .and
  | .or _ _ => some .or
  | .xor _ _ => some .xor
  | .andn _ _ => some .andn
  | .shl _ _ => some .shl
  | .shr _ _ => some .shr
  | .sar _ _ => some .sar
  | .rol _ _ => some .rol
  | .min _ _ => some .min
  | .max _ _ => some .max
  | .minu _ _ => some .minu
  | .maxu _ _ => some .maxu
  | .cmp _ _ => some .cmp
  | .cmpu _ _ => some .cmpu
  | .sel _ _ => some .sel
  | .mov _ _ => some .mov
  | .movi _ _ _ _ => some .movi
  | .clz _ _ => some .clz
  | .popc _ _ => some .popc
  | .bfx _ _ => some .bfx
  | .bfi _ _ => some .bfi
  | .adds _ _ => some .adds
  | .mad _ _ => some .mad
  | .abs _ _ => some .abs
  | .neg _ _ => some .neg
  | .fadd _ _ => some .fadd
  | .fsub _ _ => some .fsub
  | .fmul _ _ => some .fmul
  | .ffma _ _ => some .ffma
  | .fdiv _ _ => some .fdiv
  | .fsqrt _ _ => some .fsqrt
  | .fmin _ _ => some .fmin
  | .fmax _ _ => some .fmax
  | .fcmp _ _ => some .fcmp
  | .fcvt _ _ => some .fcvt
  | .br _ _ => some .br
  | .brc _ _ _ _ _ => some .brc
  | .call _ _ => some .call
  | .ret _ _ => some .ret
  | .jmpr _ _ => some .jmpr
  | .loop _ => some .loop
  | .loopx _ _ => some .loopx
  | .jtab _ _ => some .jtab
  | .ld _ _ => some .ld
  | .st _ _ => some .st
  | .ld2 _ _ => some .ld2
  | .st2 _ _ => some .st2
  | .pref _ _ => some .pref
  | .spq _ _ => some .spq
  | .spcv _ _ => some .spcv
  | .spmk _ _ => some .spmk
  | .lea _ _ => some .lea
  | .chkb _ _ => some .chkb
  | .llk _ _ => some .llk
  | .sul _ _ => some .sul
  | .aadd _ _ => some .aadd
  | .amin _ _ => some .amin
  | .amax _ _ => some .amax
  | .aand _ _ => some .aand
  | .aor _ _ => some .aor
  | .axor _ _ => some .axor
  | .aswp _ _ => some .aswp
  | .acas _ _ => some .acas
  | .faadd _ _ => some .faadd
  | .ecrd _ _ => some .ecrd
  | .ecclr _ _ => some .ecclr
  | .vadd _ _ => some .vadd
  | .vsub _ _ => some .vsub
  | .vmul _ _ => some .vmul
  | .vfma _ _ => some .vfma
  | .vmin _ _ => some .vmin
  | .vmax _ _ => some .vmax
  | .vabs _ _ => some .vabs
  | .vneg _ _ => some .vneg
  | .vand _ _ => some .vand
  | .vor _ _ => some .vor
  | .vxor _ _ => some .vxor
  | .vshl _ _ => some .vshl
  | .vshr _ _ => some .vshr
  | .vsar _ _ => some .vsar
  | .vcmp _ _ => some .vcmp
  | .vsel _ _ => some .vsel
  | .vrcp _ _ => some .vrcp
  | .vrsq _ _ => some .vrsq
  | .vexp2 _ _ => some .vexp2
  | .vlog2 _ _ => some .vlog2
  | .vred _ _ => some .vred
  | .vscan _ _ => some .vscan
  | .vshuf _ _ => some .vshuf
  | .vshufi _ _ => some .vshufi
  | .vbcast _ _ => some .vbcast
  | .vbcastLane _ _ => some .vbcastLane
  | .vvote _ _ => some .vvote
  | .vmatch _ _ => some .vmatch
  | .vmatchLeader _ _ => some .vmatchLeader
  | .vpopc _ _ => some .vpopc
  | .vpopcPre _ _ => some .vpopcPre
  | .vmovs _ _ => some .vmovs
  | .vmovsV _ _ => some .vmovsV
  | .viota _ _ => some .viota
  | .kopLogic _ _ => some .kopLogic
  | .kopNot _ _ => some .kopNot
  | .kopMov _ _ => some .kopMov
  | .kopSet _ _ => some .kopSet
  | .kopLen _ _ => some .kopLen
  | .kopFirst _ _ => some .kopFirst
  | .kopLo _ _ => some .kopLo
  | .kopHi _ _ => some .kopHi
  | .vmvp _ _ => some .vmvp
  | .vld _ _ => some .vld
  | .vst _ _ => some .vst
  | .vlds _ _ => some .vlds
  | .vsts _ _ => some .vsts
  | .vgath _ _ => some .vgath
  | .vscat _ _ => some .vscat
  | .vtld _ _ => some .vtld
  | .vldrg _ _ => some .vldrg
  | .vstrg _ _ => some .vstrg
  | .vldb _ _ => some .vldb
  | .vcvt _ _ => some .vcvt
  | .vamax _ _ => some .vamax
  | .vqnt _ _ => some .vqnt
  | .vdqnt _ _ => some .vdqnt
  | .vpack _ _ => some .vpack
  | .vunpk _ _ => some .vunpk
  | .gmk _ _ => some .gmk
  | .gmkApp _ _ => some .gmkApp
  | .gmki _ _ _ => some .gmki
  | .gld _ _ => some .gld
  | .gst _ _ => some .gst
  | .gmov _ _ => some .gmov
  | .guni _ _ _ => some .guni
  | .gint _ _ _ => some .gint
  | .gsub _ _ _ => some .gsub
  | .gdil _ _ _ => some .gdil
  | .gero _ _ _ => some .gero
  | .gtrn _ _ _ => some .gtrn
  | .gprj _ _ _ => some .gprj
  | .gspl _ _ _ => some .gspl
  | .gcan _ _ _ => some .gcan
  | .ghul _ _ => some .ghul
  | .glat _ _ => some .glat
  | .glatUnit _ _ => some .glatUnit
  | .glatRd _ _ => some .glatRd
  | .grag _ _ => some .grag
  | .gvol _ _ => some .gvol
  | .gnbx _ _ => some .gnbx
  | .gbox _ _ => some .gbox
  | .gtstPt _ _ => some .gtstPt
  | .gtstOvl _ _ => some .gtstOvl
  | .gtstSub _ _ => some .gtstSub
  | .gtstEq _ _ => some .gtstEq
  | .gclr _ _ => some .gclr
  | .gwalk _ _ => some .gwalk
  | .gown _ _ => some .gown
  | .xget _ _ _ => some .xget
  | .xsend _ _ _ => some .xsend
  | .xcopy _ _ _ => some .xcopy
  | .xmma _ _ _ => some .xmma
  | .xsts _ _ _ => some .xsts
  | .xcnt _ _ _ => some .xcnt
  | .waitg _ _ => some .waitg
  | .waitq _ _ => some .waitq
  | .qfence _ _ => some .qfence
  | .qmark _ _ => some .qmark
  | .tbind _ _ => some .tbind
  | .tunb _ _ => some .tunb
  | .grnt _ _ _ => some .grnt
  | .grev _ _ _ => some .grev
  | .acq _ _ _ => some .acq
  | .pub _ _ _ => some .pub
  | .mcrun _ _ => some .mcrun
  | .mring _ _ => some .mring
  | .mringRd _ _ => some .mringRd
  | .mradv _ _ => some .mradv
  | .mldw _ _ _ => some .mldw
  | .mma _ _ _ => some .mma
  | .mdrn _ _ => some .mdrn
  | .mzro _ _ => some .mzro
  | .mswp _ _ => some .mswp
  | .mflg _ _ => some .mflg
  | .mholdFire _ _ => some .mholdFire
  | .mholdSet _ _ => some .mholdSet
  | .kvapp _ _ => some .kvapp
  | .kvseal _ _ => some .kvseal
  | .spset _ _ => some .spset
  | .spret _ _ => some .spret
  | .posl _ _ => some .posl
  | .posf _ _ => some .posf
  | .posiTag _ _ => some .posiTag
  | .posiSeq _ _ => some .posiSeq
  | .posiAll _ _ => some .posiAll
  | .hsift _ _ => some .hsift
  | .hpop _ _ => some .hpop
  | .spawn _ _ => some .spawn
  | .done _ _ => some .done
  | .joinh _ _ => some .joinh
  | .cqadd _ _ => some .cqadd
  | .cqget _ _ => some .cqget
  | .cqnext _ _ => some .cqnext
  | .jdec _ _ => some .jdec
  | .rqadd _ _ => some .rqadd
  | .rqget _ _ => some .rqget
  | .sync _ _ => some .sync
  | .bdom _ _ => some .bdom
  | .rdssn _ _ => some .rdssn
  | .launch _ _ => some .launch
  | .cancel _ _ => some .cancel
  | .cancelLaunch _ _ => some .cancelLaunch
  | .chkc _ _ => some .chkc
  | .launchDispatch _ _ _ _ _ _ _ _ _ _ _ _ => none
  | .dieRangeSearch _ => none
  | .barrierRelease _ _ => none
  | .transferStart _ _ _ _ _ => none
  | .transferComplete _ _ _ _ => none
  | .qmarkCompletion _ _ => none
  | .qmEntryPerform _ _ => none
  | .qmEntryComplete _ _ => none
  | .mmaArrival _ _ => none
  | .setterDeadline _ => none
  | .groupStreamStart _ => none
  | .memberRowsWritten _ _ _ => none
  | .vectorPathComplete _ => none
  | .mcrunProgramStart _ _ _ _ => none
  | .smallContextArrival _ => none
  | .pageServiceComplete _ _ _ _ _ _ => none
  | .smallContextReturn _ => none
  | .globalAccessAnswer _ => none
  | .postedArrival _ => none
  | .journalClose _ => none
  | .postedRefusal _ => none
  | .flushMarkerArrival _ _ _ _ => none
  | .releaseAck _ _ _ _ => none
  | .tokenOpPerform _ _ => none
  | .spanRetirementPerform _ => none
  | .syscAnswer _ _ => none
  | .asyncCauseTake _ _ => none
  | .preemptRequest _ _ => none
  | .drainComplete _ => none
  | .jobImageCapture _ => none
  | .jobSwitchIn _ => none
  | .vexpenArrival _ _ _ _ _ _ _ => none
  | .collectiveStepStart _ => none
  | .collectiveSendComplete _ => none
  | .collectiveRecvComplete _ => none
  | .reqtailWrite _ _ _ _ => none
  | .rspheadWrite _ _ => none
  | .map _ _ _ _ _ => none
  | .unmap _ => none
  | .copyIn _ => none
  | .copyOut _ => none
  | .mailboxLaunch _ _ => none
  | .mailboxCancel _ => none
  | .hostCompletionTimeout _ => none
  | .functionLevelReset _ => none
  | .hostLinkDown _ => none
  | .cxlPortDown _ => none
  | .cxlResponseTimeout _ => none
  | .vexpenPortDown _ => none
  | .peerAckTimeout _ => none
  | .ucieLinkDown _ _ => none
  | .dieHeartbeatTimeout _ => none
  | .dirtyBitmapRead _ _ _ => none
  | .migrationCommit _ => none
  | .migrationResumed _ => none
  | .resumedTimeout _ => none
  | .commitTimeout _ => none
  | .packageReset => none
  | .flashResponseTimeout => none
  | .recover _ _ _ => none
  | .measExtend _ _ _ => none
  | .getMeasurements _ _ => none
  | .debugNonceRequest _ _ => none
  | .debugToken _ _ => none
  | .tokenExpiry => none
  | .freeze => none
  | .bypass _ => none
  | .idcode => none
  | .scanrd _ => none
  | .scanwr _ _ => none
  | .profilerGrant _ _ _ _ => none
  | .weightStoreRefresh _ => none
  | .traceSample _ => none
  | .droopBudgetReset _ => none
  | .patrolScrub _ _ _ => none
  | .registerWrite _ _ => none
  | .softError _ _ _ _ => none
  | .hostLinkUp _ => none
  | .cxlPortUp _ _ => none
  | .vexpenPortUp _ => none
  | .hostCompletionArrival _ _ _ => none
  | .cxlMemResponse _ _ => none
  | .flashReadComplete _ _ _ => none
  | .finalCopyAck _ _ _ => none
  | .lifecycleFuseTransition _ => none
  | .uetRetransmit => none
  | .linkLevelRetry => none
  | .slotLanding _ _ => none
  | .walkComplete _ => none
  | .blockFetchComplete _ => none
  | .signatureComplete => none

/-- The predicate header of an instruction; p0 for one without a header (R195, R200). -/
def Instr.hdr : Instr → Hdr
  | .brk h _ => h
  | .trap h _ => h
  | .eret h _ => h
  | .sysc h _ => h
  | .waiti h _ => h
  | .mfsr h _ => h
  | .mtsr h _ => h
  | .fencei h _ => h
  | .idle h _ => h
  | .add h _ => h
  | .sub h _ => h
  | .mul h _ => h
  | .mulh h _ => h
  | .mulhu h _ => h
  | .div h _ => h
  | .divu h _ => h
  | .rem h _ => h
  | .remu h _ => h
  | .and h _ => h
  | .or h _ => h
  | .xor h _ => h
  | .andn h _ => h
  | .shl h _ => h
  | .shr h _ => h
  | .sar h _ => h
  | .rol h _ => h
  | .min h _ => h
  | .max h _ => h
  | .minu h _ => h
  | .maxu h _ => h
  | .cmp h _ => h
  | .cmpu h _ => h
  | .sel h _ => h
  | .mov h _ => h
  | .movi h _ _ _ => h
  | .clz h _ => h
  | .popc h _ => h
  | .bfx h _ => h
  | .bfi h _ => h
  | .adds h _ => h
  | .mad h _ => h
  | .abs h _ => h
  | .neg h _ => h
  | .fadd h _ => h
  | .fsub h _ => h
  | .fmul h _ => h
  | .ffma h _ => h
  | .fdiv h _ => h
  | .fsqrt h _ => h
  | .fmin h _ => h
  | .fmax h _ => h
  | .fcmp h _ => h
  | .fcvt h _ => h
  | .br h _ => h
  | .brc h _ _ _ _ => h
  | .call h _ => h
  | .ret h _ => h
  | .jmpr h _ => h
  | .loopx h _ => h
  | .jtab h _ => h
  | .ld h _ => h
  | .st h _ => h
  | .ld2 h _ => h
  | .st2 h _ => h
  | .pref h _ => h
  | .spq h _ => h
  | .spcv h _ => h
  | .spmk h _ => h
  | .lea h _ => h
  | .chkb h _ => h
  | .llk h _ => h
  | .sul h _ => h
  | .aadd h _ => h
  | .amin h _ => h
  | .amax h _ => h
  | .aand h _ => h
  | .aor h _ => h
  | .axor h _ => h
  | .aswp h _ => h
  | .acas h _ => h
  | .faadd h _ => h
  | .ecrd h _ => h
  | .ecclr h _ => h
  | .vadd h _ => h
  | .vsub h _ => h
  | .vmul h _ => h
  | .vfma h _ => h
  | .vmin h _ => h
  | .vmax h _ => h
  | .vabs h _ => h
  | .vneg h _ => h
  | .vand h _ => h
  | .vor h _ => h
  | .vxor h _ => h
  | .vshl h _ => h
  | .vshr h _ => h
  | .vsar h _ => h
  | .vcmp h _ => h
  | .vsel h _ => h
  | .vrcp h _ => h
  | .vrsq h _ => h
  | .vexp2 h _ => h
  | .vlog2 h _ => h
  | .vred h _ => h
  | .vscan h _ => h
  | .vshuf h _ => h
  | .vshufi h _ => h
  | .vbcast h _ => h
  | .vbcastLane h _ => h
  | .vvote h _ => h
  | .vmatch h _ => h
  | .vmatchLeader h _ => h
  | .vpopc h _ => h
  | .vpopcPre h _ => h
  | .vmovs h _ => h
  | .vmovsV h _ => h
  | .viota h _ => h
  | .kopLogic h _ => h
  | .kopNot h _ => h
  | .kopMov h _ => h
  | .kopSet h _ => h
  | .kopLen h _ => h
  | .kopFirst h _ => h
  | .kopLo h _ => h
  | .kopHi h _ => h
  | .vmvp h _ => h
  | .vld h _ => h
  | .vst h _ => h
  | .vlds h _ => h
  | .vsts h _ => h
  | .vgath h _ => h
  | .vscat h _ => h
  | .vtld h _ => h
  | .vldrg h _ => h
  | .vstrg h _ => h
  | .vldb h _ => h
  | .vcvt h _ => h
  | .vamax h _ => h
  | .vqnt h _ => h
  | .vdqnt h _ => h
  | .vpack h _ => h
  | .vunpk h _ => h
  | .gmk h _ => h
  | .gmkApp h _ => h
  | .gmki h _ _ => h
  | .gld h _ => h
  | .gst h _ => h
  | .gmov h _ => h
  | .guni h _ _ => h
  | .gint h _ _ => h
  | .gsub h _ _ => h
  | .gdil h _ _ => h
  | .gero h _ _ => h
  | .gtrn h _ _ => h
  | .gprj h _ _ => h
  | .gspl h _ _ => h
  | .gcan h _ _ => h
  | .ghul h _ => h
  | .glat h _ => h
  | .glatUnit h _ => h
  | .glatRd h _ => h
  | .grag h _ => h
  | .gvol h _ => h
  | .gnbx h _ => h
  | .gbox h _ => h
  | .gtstPt h _ => h
  | .gtstOvl h _ => h
  | .gtstSub h _ => h
  | .gtstEq h _ => h
  | .gclr h _ => h
  | .gwalk h _ => h
  | .gown h _ => h
  | .xget h _ _ => h
  | .xsend h _ _ => h
  | .xcopy h _ _ => h
  | .xmma h _ _ => h
  | .xsts h _ _ => h
  | .xcnt h _ _ => h
  | .waitg h _ => h
  | .waitq h _ => h
  | .qfence h _ => h
  | .qmark h _ => h
  | .tbind h _ => h
  | .tunb h _ => h
  | .grnt h _ _ => h
  | .grev h _ _ => h
  | .acq h _ _ => h
  | .pub h _ _ => h
  | .mcrun h _ => h
  | .mring h _ => h
  | .mringRd h _ => h
  | .mradv h _ => h
  | .mldw h _ _ => h
  | .mma h _ _ => h
  | .mdrn h _ => h
  | .mzro h _ => h
  | .mswp h _ => h
  | .mflg h _ => h
  | .mholdFire h _ => h
  | .mholdSet h _ => h
  | .kvapp h _ => h
  | .kvseal h _ => h
  | .spset h _ => h
  | .spret h _ => h
  | .posl h _ => h
  | .posf h _ => h
  | .posiTag h _ => h
  | .posiSeq h _ => h
  | .posiAll h _ => h
  | .hsift h _ => h
  | .hpop h _ => h
  | .spawn h _ => h
  | .done h _ => h
  | .joinh h _ => h
  | .cqadd h _ => h
  | .cqget h _ => h
  | .cqnext h _ => h
  | .jdec h _ => h
  | .rqadd h _ => h
  | .rqget h _ => h
  | .sync h _ => h
  | .bdom h _ => h
  | .rdssn h _ => h
  | .launch h _ => h
  | .cancel h _ => h
  | .cancelLaunch h _ => h
  | .chkc h _ => h
  | _ => { p := 0, neg := false, wide := false }

/-- A format A, I or W instruction from its fields. -/
def Op.build (i : Op) (h : Hdr) (o : Ops) (x : Ext) : Option Instr :=
  match i with
  | .brk => some (.brk h o)
  | .trap => some (.trap h o)
  | .eret => some (.eret h o)
  | .sysc => some (.sysc h o)
  | .waiti => some (.waiti h o)
  | .mfsr => some (.mfsr h o)
  | .mtsr => some (.mtsr h o)
  | .fencei => some (.fencei h o)
  | .idle => some (.idle h o)
  | .add => some (.add h o)
  | .sub => some (.sub h o)
  | .mul => some (.mul h o)
  | .mulh => some (.mulh h o)
  | .mulhu => some (.mulhu h o)
  | .div => some (.div h o)
  | .divu => some (.divu h o)
  | .rem => some (.rem h o)
  | .remu => some (.remu h o)
  | .and => some (.and h o)
  | .or => some (.or h o)
  | .xor => some (.xor h o)
  | .andn => some (.andn h o)
  | .shl => some (.shl h o)
  | .shr => some (.shr h o)
  | .sar => some (.sar h o)
  | .rol => some (.rol h o)
  | .min => some (.min h o)
  | .max => some (.max h o)
  | .minu => some (.minu h o)
  | .maxu => some (.maxu h o)
  | .cmp => some (.cmp h o)
  | .cmpu => some (.cmpu h o)
  | .sel => some (.sel h o)
  | .mov => some (.mov h o)
  | .clz => some (.clz h o)
  | .popc => some (.popc h o)
  | .bfx => some (.bfx h o)
  | .bfi => some (.bfi h o)
  | .adds => some (.adds h o)
  | .mad => some (.mad h o)
  | .abs => some (.abs h o)
  | .neg => some (.neg h o)
  | .fadd => some (.fadd h o)
  | .fsub => some (.fsub h o)
  | .fmul => some (.fmul h o)
  | .ffma => some (.ffma h o)
  | .fdiv => some (.fdiv h o)
  | .fsqrt => some (.fsqrt h o)
  | .fmin => some (.fmin h o)
  | .fmax => some (.fmax h o)
  | .fcmp => some (.fcmp h o)
  | .fcvt => some (.fcvt h o)
  | .ret => some (.ret h o)
  | .jmpr => some (.jmpr h o)
  | .loopx => some (.loopx h o)
  | .jtab => some (.jtab h o)
  | .ld => some (.ld h o)
  | .st => some (.st h o)
  | .ld2 => some (.ld2 h o)
  | .st2 => some (.st2 h o)
  | .pref => some (.pref h o)
  | .spq => some (.spq h o)
  | .spcv => some (.spcv h o)
  | .spmk => some (.spmk h o)
  | .lea => some (.lea h o)
  | .chkb => some (.chkb h o)
  | .llk => some (.llk h o)
  | .sul => some (.sul h o)
  | .aadd => some (.aadd h o)
  | .amin => some (.amin h o)
  | .amax => some (.amax h o)
  | .aand => some (.aand h o)
  | .aor => some (.aor h o)
  | .axor => some (.axor h o)
  | .aswp => some (.aswp h o)
  | .acas => some (.acas h o)
  | .faadd => some (.faadd h o)
  | .ecrd => some (.ecrd h o)
  | .ecclr => some (.ecclr h o)
  | .vadd => some (.vadd h o)
  | .vsub => some (.vsub h o)
  | .vmul => some (.vmul h o)
  | .vfma => some (.vfma h o)
  | .vmin => some (.vmin h o)
  | .vmax => some (.vmax h o)
  | .vabs => some (.vabs h o)
  | .vneg => some (.vneg h o)
  | .vand => some (.vand h o)
  | .vor => some (.vor h o)
  | .vxor => some (.vxor h o)
  | .vshl => some (.vshl h o)
  | .vshr => some (.vshr h o)
  | .vsar => some (.vsar h o)
  | .vcmp => some (.vcmp h o)
  | .vsel => some (.vsel h o)
  | .vrcp => some (.vrcp h o)
  | .vrsq => some (.vrsq h o)
  | .vexp2 => some (.vexp2 h o)
  | .vlog2 => some (.vlog2 h o)
  | .vred => some (.vred h o)
  | .vscan => some (.vscan h o)
  | .vshuf => some (.vshuf h o)
  | .vshufi => some (.vshufi h o)
  | .vbcast => some (.vbcast h o)
  | .vbcastLane => some (.vbcastLane h o)
  | .vvote => some (.vvote h o)
  | .vmatch => some (.vmatch h o)
  | .vmatchLeader => some (.vmatchLeader h o)
  | .vpopc => some (.vpopc h o)
  | .vpopcPre => some (.vpopcPre h o)
  | .vmovs => some (.vmovs h o)
  | .vmovsV => some (.vmovsV h o)
  | .viota => some (.viota h o)
  | .kopLogic => some (.kopLogic h o)
  | .kopNot => some (.kopNot h o)
  | .kopMov => some (.kopMov h o)
  | .kopSet => some (.kopSet h o)
  | .kopLen => some (.kopLen h o)
  | .kopFirst => some (.kopFirst h o)
  | .kopLo => some (.kopLo h o)
  | .kopHi => some (.kopHi h o)
  | .vmvp => some (.vmvp h o)
  | .vld => some (.vld h o)
  | .vst => some (.vst h o)
  | .vlds => some (.vlds h o)
  | .vsts => some (.vsts h o)
  | .vgath => some (.vgath h o)
  | .vscat => some (.vscat h o)
  | .vtld => some (.vtld h o)
  | .vldrg => some (.vldrg h o)
  | .vstrg => some (.vstrg h o)
  | .vldb => some (.vldb h o)
  | .vcvt => some (.vcvt h o)
  | .vamax => some (.vamax h o)
  | .vqnt => some (.vqnt h o)
  | .vdqnt => some (.vdqnt h o)
  | .vpack => some (.vpack h o)
  | .vunpk => some (.vunpk h o)
  | .gmk => some (.gmk h o)
  | .gmkApp => some (.gmkApp h o)
  | .gmki => some (.gmki h o x)
  | .gld => some (.gld h o)
  | .gst => some (.gst h o)
  | .gmov => some (.gmov h o)
  | .guni => some (.guni h o x)
  | .gint => some (.gint h o x)
  | .gsub => some (.gsub h o x)
  | .gdil => some (.gdil h o x)
  | .gero => some (.gero h o x)
  | .gtrn => some (.gtrn h o x)
  | .gprj => some (.gprj h o x)
  | .gspl => some (.gspl h o x)
  | .gcan => some (.gcan h o x)
  | .ghul => some (.ghul h o)
  | .glat => some (.glat h o)
  | .glatUnit => some (.glatUnit h o)
  | .glatRd => some (.glatRd h o)
  | .grag => some (.grag h o)
  | .gvol => some (.gvol h o)
  | .gnbx => some (.gnbx h o)
  | .gbox => some (.gbox h o)
  | .gtstPt => some (.gtstPt h o)
  | .gtstOvl => some (.gtstOvl h o)
  | .gtstSub => some (.gtstSub h o)
  | .gtstEq => some (.gtstEq h o)
  | .gclr => some (.gclr h o)
  | .gwalk => some (.gwalk h o)
  | .gown => some (.gown h o)
  | .xget => some (.xget h o x)
  | .xsend => some (.xsend h o x)
  | .xcopy => some (.xcopy h o x)
  | .xmma => some (.xmma h o x)
  | .xsts => some (.xsts h o x)
  | .xcnt => some (.xcnt h o x)
  | .waitg => some (.waitg h o)
  | .waitq => some (.waitq h o)
  | .qfence => some (.qfence h o)
  | .qmark => some (.qmark h o)
  | .tbind => some (.tbind h o)
  | .tunb => some (.tunb h o)
  | .grnt => some (.grnt h o x)
  | .grev => some (.grev h o x)
  | .acq => some (.acq h o x)
  | .pub => some (.pub h o x)
  | .mcrun => some (.mcrun h o)
  | .mring => some (.mring h o)
  | .mringRd => some (.mringRd h o)
  | .mradv => some (.mradv h o)
  | .mldw => some (.mldw h o x)
  | .mma => some (.mma h o x)
  | .mdrn => some (.mdrn h o)
  | .mzro => some (.mzro h o)
  | .mswp => some (.mswp h o)
  | .mflg => some (.mflg h o)
  | .mholdFire => some (.mholdFire h o)
  | .mholdSet => some (.mholdSet h o)
  | .kvapp => some (.kvapp h o)
  | .kvseal => some (.kvseal h o)
  | .spset => some (.spset h o)
  | .spret => some (.spret h o)
  | .posl => some (.posl h o)
  | .posf => some (.posf h o)
  | .posiTag => some (.posiTag h o)
  | .posiSeq => some (.posiSeq h o)
  | .posiAll => some (.posiAll h o)
  | .hsift => some (.hsift h o)
  | .hpop => some (.hpop h o)
  | .spawn => some (.spawn h o)
  | .done => some (.done h o)
  | .joinh => some (.joinh h o)
  | .cqadd => some (.cqadd h o)
  | .cqget => some (.cqget h o)
  | .cqnext => some (.cqnext h o)
  | .jdec => some (.jdec h o)
  | .rqadd => some (.rqadd h o)
  | .rqget => some (.rqget h o)
  | .sync => some (.sync h o)
  | .bdom => some (.bdom h o)
  | .rdssn => some (.rdssn h o)
  | .launch => some (.launch h o)
  | .cancel => some (.cancel h o)
  | .cancelLaunch => some (.cancelLaunch h o)
  | .chkc => some (.chkc h o)
  | .nop | .fmt | .movi | .br | .brc | .call | .loop => none

/-- No EXT64 field set. -/
def Ext.zero : Ext := { imm := 0, gr := 0, bl := 0, q := 0, g2 := 0, t2 := 0, t1 := 0 }

/-- The fields of a format A, I or W instruction. -/
def Instr.parts : Instr → Option (Hdr × Ops × Ext)
  | .brk h o => some (h, o, .zero)
  | .trap h o => some (h, o, .zero)
  | .eret h o => some (h, o, .zero)
  | .sysc h o => some (h, o, .zero)
  | .waiti h o => some (h, o, .zero)
  | .mfsr h o => some (h, o, .zero)
  | .mtsr h o => some (h, o, .zero)
  | .fencei h o => some (h, o, .zero)
  | .idle h o => some (h, o, .zero)
  | .add h o => some (h, o, .zero)
  | .sub h o => some (h, o, .zero)
  | .mul h o => some (h, o, .zero)
  | .mulh h o => some (h, o, .zero)
  | .mulhu h o => some (h, o, .zero)
  | .div h o => some (h, o, .zero)
  | .divu h o => some (h, o, .zero)
  | .rem h o => some (h, o, .zero)
  | .remu h o => some (h, o, .zero)
  | .and h o => some (h, o, .zero)
  | .or h o => some (h, o, .zero)
  | .xor h o => some (h, o, .zero)
  | .andn h o => some (h, o, .zero)
  | .shl h o => some (h, o, .zero)
  | .shr h o => some (h, o, .zero)
  | .sar h o => some (h, o, .zero)
  | .rol h o => some (h, o, .zero)
  | .min h o => some (h, o, .zero)
  | .max h o => some (h, o, .zero)
  | .minu h o => some (h, o, .zero)
  | .maxu h o => some (h, o, .zero)
  | .cmp h o => some (h, o, .zero)
  | .cmpu h o => some (h, o, .zero)
  | .sel h o => some (h, o, .zero)
  | .mov h o => some (h, o, .zero)
  | .clz h o => some (h, o, .zero)
  | .popc h o => some (h, o, .zero)
  | .bfx h o => some (h, o, .zero)
  | .bfi h o => some (h, o, .zero)
  | .adds h o => some (h, o, .zero)
  | .mad h o => some (h, o, .zero)
  | .abs h o => some (h, o, .zero)
  | .neg h o => some (h, o, .zero)
  | .fadd h o => some (h, o, .zero)
  | .fsub h o => some (h, o, .zero)
  | .fmul h o => some (h, o, .zero)
  | .ffma h o => some (h, o, .zero)
  | .fdiv h o => some (h, o, .zero)
  | .fsqrt h o => some (h, o, .zero)
  | .fmin h o => some (h, o, .zero)
  | .fmax h o => some (h, o, .zero)
  | .fcmp h o => some (h, o, .zero)
  | .fcvt h o => some (h, o, .zero)
  | .ret h o => some (h, o, .zero)
  | .jmpr h o => some (h, o, .zero)
  | .loopx h o => some (h, o, .zero)
  | .jtab h o => some (h, o, .zero)
  | .ld h o => some (h, o, .zero)
  | .st h o => some (h, o, .zero)
  | .ld2 h o => some (h, o, .zero)
  | .st2 h o => some (h, o, .zero)
  | .pref h o => some (h, o, .zero)
  | .spq h o => some (h, o, .zero)
  | .spcv h o => some (h, o, .zero)
  | .spmk h o => some (h, o, .zero)
  | .lea h o => some (h, o, .zero)
  | .chkb h o => some (h, o, .zero)
  | .llk h o => some (h, o, .zero)
  | .sul h o => some (h, o, .zero)
  | .aadd h o => some (h, o, .zero)
  | .amin h o => some (h, o, .zero)
  | .amax h o => some (h, o, .zero)
  | .aand h o => some (h, o, .zero)
  | .aor h o => some (h, o, .zero)
  | .axor h o => some (h, o, .zero)
  | .aswp h o => some (h, o, .zero)
  | .acas h o => some (h, o, .zero)
  | .faadd h o => some (h, o, .zero)
  | .ecrd h o => some (h, o, .zero)
  | .ecclr h o => some (h, o, .zero)
  | .vadd h o => some (h, o, .zero)
  | .vsub h o => some (h, o, .zero)
  | .vmul h o => some (h, o, .zero)
  | .vfma h o => some (h, o, .zero)
  | .vmin h o => some (h, o, .zero)
  | .vmax h o => some (h, o, .zero)
  | .vabs h o => some (h, o, .zero)
  | .vneg h o => some (h, o, .zero)
  | .vand h o => some (h, o, .zero)
  | .vor h o => some (h, o, .zero)
  | .vxor h o => some (h, o, .zero)
  | .vshl h o => some (h, o, .zero)
  | .vshr h o => some (h, o, .zero)
  | .vsar h o => some (h, o, .zero)
  | .vcmp h o => some (h, o, .zero)
  | .vsel h o => some (h, o, .zero)
  | .vrcp h o => some (h, o, .zero)
  | .vrsq h o => some (h, o, .zero)
  | .vexp2 h o => some (h, o, .zero)
  | .vlog2 h o => some (h, o, .zero)
  | .vred h o => some (h, o, .zero)
  | .vscan h o => some (h, o, .zero)
  | .vshuf h o => some (h, o, .zero)
  | .vshufi h o => some (h, o, .zero)
  | .vbcast h o => some (h, o, .zero)
  | .vbcastLane h o => some (h, o, .zero)
  | .vvote h o => some (h, o, .zero)
  | .vmatch h o => some (h, o, .zero)
  | .vmatchLeader h o => some (h, o, .zero)
  | .vpopc h o => some (h, o, .zero)
  | .vpopcPre h o => some (h, o, .zero)
  | .vmovs h o => some (h, o, .zero)
  | .vmovsV h o => some (h, o, .zero)
  | .viota h o => some (h, o, .zero)
  | .kopLogic h o => some (h, o, .zero)
  | .kopNot h o => some (h, o, .zero)
  | .kopMov h o => some (h, o, .zero)
  | .kopSet h o => some (h, o, .zero)
  | .kopLen h o => some (h, o, .zero)
  | .kopFirst h o => some (h, o, .zero)
  | .kopLo h o => some (h, o, .zero)
  | .kopHi h o => some (h, o, .zero)
  | .vmvp h o => some (h, o, .zero)
  | .vld h o => some (h, o, .zero)
  | .vst h o => some (h, o, .zero)
  | .vlds h o => some (h, o, .zero)
  | .vsts h o => some (h, o, .zero)
  | .vgath h o => some (h, o, .zero)
  | .vscat h o => some (h, o, .zero)
  | .vtld h o => some (h, o, .zero)
  | .vldrg h o => some (h, o, .zero)
  | .vstrg h o => some (h, o, .zero)
  | .vldb h o => some (h, o, .zero)
  | .vcvt h o => some (h, o, .zero)
  | .vamax h o => some (h, o, .zero)
  | .vqnt h o => some (h, o, .zero)
  | .vdqnt h o => some (h, o, .zero)
  | .vpack h o => some (h, o, .zero)
  | .vunpk h o => some (h, o, .zero)
  | .gmk h o => some (h, o, .zero)
  | .gmkApp h o => some (h, o, .zero)
  | .gmki h o x => some (h, o, x)
  | .gld h o => some (h, o, .zero)
  | .gst h o => some (h, o, .zero)
  | .gmov h o => some (h, o, .zero)
  | .guni h o x => some (h, o, x)
  | .gint h o x => some (h, o, x)
  | .gsub h o x => some (h, o, x)
  | .gdil h o x => some (h, o, x)
  | .gero h o x => some (h, o, x)
  | .gtrn h o x => some (h, o, x)
  | .gprj h o x => some (h, o, x)
  | .gspl h o x => some (h, o, x)
  | .gcan h o x => some (h, o, x)
  | .ghul h o => some (h, o, .zero)
  | .glat h o => some (h, o, .zero)
  | .glatUnit h o => some (h, o, .zero)
  | .glatRd h o => some (h, o, .zero)
  | .grag h o => some (h, o, .zero)
  | .gvol h o => some (h, o, .zero)
  | .gnbx h o => some (h, o, .zero)
  | .gbox h o => some (h, o, .zero)
  | .gtstPt h o => some (h, o, .zero)
  | .gtstOvl h o => some (h, o, .zero)
  | .gtstSub h o => some (h, o, .zero)
  | .gtstEq h o => some (h, o, .zero)
  | .gclr h o => some (h, o, .zero)
  | .gwalk h o => some (h, o, .zero)
  | .gown h o => some (h, o, .zero)
  | .xget h o x => some (h, o, x)
  | .xsend h o x => some (h, o, x)
  | .xcopy h o x => some (h, o, x)
  | .xmma h o x => some (h, o, x)
  | .xsts h o x => some (h, o, x)
  | .xcnt h o x => some (h, o, x)
  | .waitg h o => some (h, o, .zero)
  | .waitq h o => some (h, o, .zero)
  | .qfence h o => some (h, o, .zero)
  | .qmark h o => some (h, o, .zero)
  | .tbind h o => some (h, o, .zero)
  | .tunb h o => some (h, o, .zero)
  | .grnt h o x => some (h, o, x)
  | .grev h o x => some (h, o, x)
  | .acq h o x => some (h, o, x)
  | .pub h o x => some (h, o, x)
  | .mcrun h o => some (h, o, .zero)
  | .mring h o => some (h, o, .zero)
  | .mringRd h o => some (h, o, .zero)
  | .mradv h o => some (h, o, .zero)
  | .mldw h o x => some (h, o, x)
  | .mma h o x => some (h, o, x)
  | .mdrn h o => some (h, o, .zero)
  | .mzro h o => some (h, o, .zero)
  | .mswp h o => some (h, o, .zero)
  | .mflg h o => some (h, o, .zero)
  | .mholdFire h o => some (h, o, .zero)
  | .mholdSet h o => some (h, o, .zero)
  | .kvapp h o => some (h, o, .zero)
  | .kvseal h o => some (h, o, .zero)
  | .spset h o => some (h, o, .zero)
  | .spret h o => some (h, o, .zero)
  | .posl h o => some (h, o, .zero)
  | .posf h o => some (h, o, .zero)
  | .posiTag h o => some (h, o, .zero)
  | .posiSeq h o => some (h, o, .zero)
  | .posiAll h o => some (h, o, .zero)
  | .hsift h o => some (h, o, .zero)
  | .hpop h o => some (h, o, .zero)
  | .spawn h o => some (h, o, .zero)
  | .done h o => some (h, o, .zero)
  | .joinh h o => some (h, o, .zero)
  | .cqadd h o => some (h, o, .zero)
  | .cqget h o => some (h, o, .zero)
  | .cqnext h o => some (h, o, .zero)
  | .jdec h o => some (h, o, .zero)
  | .rqadd h o => some (h, o, .zero)
  | .rqget h o => some (h, o, .zero)
  | .sync h o => some (h, o, .zero)
  | .bdom h o => some (h, o, .zero)
  | .rdssn h o => some (h, o, .zero)
  | .launch h o => some (h, o, .zero)
  | .cancel h o => some (h, o, .zero)
  | .cancelLaunch h o => some (h, o, .zero)
  | .chkc h o => some (h, o, .zero)
  | _ => none

/-- The vector, lane movement, vector memory, conversion and matrix classes and FMT: only the control context of a
compute core executes them (R204 step 5, R329). -/
def Op.vectorClass (i : Op) : Bool :=
  let op := i.row.op
  op == 0x05 || (0x70 ≤ op && op ≤ 0xA9) || (0xDC ≤ op && op ≤ 0xE4)

/-- The instructions whose entries admit the FMT prefix (R241, R280, R329). -/
def Op.admitsPrefix : Op → Bool
  | .vcvt | .vqnt | .vdqnt | .vmvp | .xmma | .mma => true
  | _ => false

/-! ## The layouts -/

/-- The raw fields of an instruction word. Formats A, I and W fill all but `disp`; R190 to R192. -/
structure Fields where
  len : Nat
  op : Nat
  d : Nat
  a : Nat
  b : Nat
  c : Nat
  p : Nat
  pn : Nat
  fn : Nat
  t : Nat
  k : Nat
  ks : Nat
  rm : Nat
  sat : Nat
  mx : Nat
  t1 : Nat
  t2 : Nat
  g2 : Nat
  q : Nat
  bl : Nat
  gr : Nat
  res : Nat
  imm : Nat
  deriving DecidableEq, Repr

/-- The widths of the fields of the first dword in formats A, I and W (R190). -/
def headWidths : List Nat := [2, 8, 6, 6, 6, 6, 3, 1, 5, 4, 8, 2, 3, 1, 3]
/-- The widths of the fields of EXT64 (R192). -/
def extWidths : List Nat := [8, 8, 4, 4, 4, 2, 2, 32]

/-- The fields of a word in format A (R190): no second dword. -/
def Fields.ofA (w : Nat) : Fields :=
  match unpackBits headWidths w with
  | [len, op, d, a, b, c, p, pn, fn, t, k, ks, rm, sat, mx] =>
    { len, op, d, a, b, c, p, pn, fn, t, k, ks, rm, sat, mx,
      t1 := 0, t2 := 0, g2 := 0, q := 0, bl := 0, gr := 0, res := 0, imm := 0 }
  | _ => { len := 0, op := 0, d := 0, a := 0, b := 0, c := 0, p := 0, pn := 0, fn := 0, t := 0, k := 0, ks := 0, rm := 0,
           sat := 0, mx := 0, t1 := 0, t2 := 0, g2 := 0, q := 0, bl := 0, gr := 0, res := 0, imm := 0 }

/-- The fields of a word in format I (R191). -/
def Fields.ofI (w : Nat) : Fields := { Fields.ofA w with imm := bits w 64 32 }

/-- The fields of a word in format W (R192). -/
def Fields.ofW (w : Nat) : Fields :=
  match unpackBits extWidths (w / 2 ^ 64) with
  | [t1, t2, g2, q, bl, gr, res, imm] => { Fields.ofA w with t1, t2, g2, q, bl, gr, res, imm }
  | _ => Fields.ofA w

/-- The first dword of formats A, I and W. -/
def Fields.head (f : Fields) : Nat :=
  packBits [(2, f.len), (8, f.op), (6, f.d), (6, f.a), (6, f.b), (6, f.c), (3, f.p), (1, f.pn), (5, f.fn), (4, f.t),
    (8, f.k), (2, f.ks), (3, f.rm), (1, f.sat), (3, f.mx)]

/-- EXT64 (R192). -/
def Fields.ext (f : Fields) : Nat :=
  packBits [(8, f.t1), (8, f.t2), (4, f.g2), (4, f.q), (4, f.bl), (2, f.gr), (2, f.res), (32, f.imm)]

/-- An operand comes from the constant window, which needs home resources (R196). -/
def Arg.isCw : Arg → Bool
  | .cw _ => true
  | _ => false
def Ops.usesCw (o : Ops) : Bool := o.a.isCw || o.b.isCw || o.c.isCw

/-- The number of a source field that holds a register. -/
def Arg.num : Arg → Nat
  | .reg n => n
  | .cw _ => 0
  | .imm _ => 0

/-- KS and K (R196): which of A, B and C the constant window replaces, and the word. -/
def Ops.ksk (o : Ops) : Nat × Nat :=
  match o.a, o.b, o.c with
  | .cw k, _, _ => (1, k)
  | _, .cw k, _ => (2, k)
  | _, _, .cw k => (3, k)
  | _, _, _ => (0, o.k)

/-- LEN of an instruction of this form (R187, R189, R207). -/
def Form.len (f : Form) (h : Hdr) (o : Ops) : Nat :=
  match f, o.b with
  | .w, _ => 2
  | .movi, _ => 2
  | _, .imm _ => if h.wide then 2 else 1
  | _, _ => 0

/-- Bytes that LEN announces (R187). -/
def lenBytes (len : Nat) : Nat := match len with | 0 => 8 | 1 => 12 | _ => 16

/-- The length in bytes of a format A, I or W instruction (R187). -/
def lenOf (i : Op) (h : Hdr) (o : Ops) : Nat := lenBytes (i.row.form.len h o)

/-- The raw fields that an instruction's operands stand for. -/
def toFields (i : Op) (h : Hdr) (o : Ops) (x : Ext) : Fields :=
  let ksk := o.ksk
  { len := i.row.form.len h o, op := i.row.op, d := o.d, a := o.a.num, b := o.b.num, c := o.c.num, p := h.p,
    pn := h.neg.toNat, fn := o.fn, t := o.t.code, k := ksk.2, ks := ksk.1, rm := o.rm.code, sat := o.sat.toNat, mx := o.mx,
    t1 := x.t1, t2 := x.t2, g2 := x.g2, q := x.q, bl := x.bl, gr := x.gr, res := 0,
    imm := match o.b with | .imm w => w | _ => x.imm }

/-- A source field: KS takes it from the constant window (R196). -/
def argOf (pos ks k n : Nat) : Arg := if ks = pos then .cw k else .reg n

/-- The operands that raw fields stand for; `imm` says that the word is in format I. -/
def Fields.ops (f : Fields) (imm : Bool) : Ops :=
  { d := f.d, a := argOf 1 f.ks f.k f.a, b := if imm then .imm f.imm else argOf 2 f.ks f.k f.b, c := argOf 3 f.ks f.k f.c,
    fn := f.fn, t := .ofCode f.t, k := if f.ks = 0 then f.k else 0, rm := .ofCode f.rm, sat := f.sat = 1, mx := f.mx }

def Fields.ext64 (f : Fields) (imm : Bool) : Ext :=
  { imm := if imm then 0 else f.imm, gr := f.gr, bl := f.bl, q := f.q, g2 := f.g2, t2 := f.t2, t1 := f.t1 }

def Fields.hdr (f : Fields) (imm : Bool) : Hdr := { p := f.p, neg := f.pn = 1, wide := imm && f.len = 2 }

/-! ## The static checks of R204 -/

/-- The reasons of ILLEGAL_ENCODING that name what is wrong with a word (R204). -/
inductive Reject where
  | length | opcode | format | core | register | function | type | modifier | constant | predicate | unused
  | formatPrefix | condition
  deriving DecidableEq, Repr

/-- The reason code that XVAL[7:0] receives (R204). -/
def Reject.code : Reject → Nat
  | .length => 0x01 | .opcode => 0x02 | .format => 0x03 | .core => 0x04 | .register => 0x05 | .function => 0x06
  | .type => 0x07 | .modifier => 0x08 | .constant => 0x09 | .predicate => 0x0A | .unused => 0x0B
  | .formatPrefix => 0x0C | .condition => 0x0D

/-- The lane width of a type (R278); packed and 6-bit formats count as bytes (R300). -/
def TCode.laneW : TCode → Nat
  | .i8 | .u8 | .i4 | .e4m3 | .e5m2 | .e3m2 | .e2m1 => 8
  | .i16 | .u16 | .bf16 | .f16 => 16
  | .i64 => 64
  | _ => 32

/-- The lane count of a type (R278). -/
def TCode.lanes (t : TCode) : Nat := 1024 / t.laneW

/-- An integer lane type (R282). -/
def TCode.intLane : TCode → Bool
  | .i8 | .u8 | .i16 | .u16 | .i32 | .u32 => true
  | _ => false

/-- A wide matrix format (R132). -/
def TCode.wideFmt : TCode → Bool
  | .bf16 | .f16 | .tf19 => true
  | _ => false

/-- A group of n registers of 64 from field value v, aligned to al (R203). -/
def groupOk (v n al : Nat) : Bool := v + n ≤ 64 && v % al = 0

/-- A register field holds a register of its class, and its group fits (R197, R203). -/
def Cls.ok (c : Cls) (f : Fields) (v : Nat) : Bool :=
  let t := TCode.ofCode f.t
  match c with
  | .none => true
  | .s | .v | .t => v < 64
  | .g => v < 16
  | .p | .k => v < 8
  | .o | .a | .lc => v < 4
  | .sg n => groupOk v n 1
  | .vg n al => groupOk v n al
  | .voff => if t = .i64 then v < 64 else groupOk v (32 / t.laneW) (32 / t.laneW)
  | .vmx => f.mx > 2 || groupOk v (2 ^ f.mx) (2 ^ f.mx)
  | .vpb => if t = .e3m2 then groupOk v 4 4 else if t = .i4 || t = .e2m1 then groupOk v 2 2 else v < 64
  | .vpd => if t = .e3m2 then groupOk v 3 1 else v < 64
  | .oadv => f.mx % 2 = 0 || v < 4

/-- A register field that the entry does not use; the ring of a transfer is used with ADV alone (R252). -/
def Cls.unused (c : Cls) (f : Fields) : Bool :=
  match c with
  | .none => true
  | .oadv => f.mx % 2 = 0
  | _ => false

/-- The numbers of R219's table. -/
def sysRegListed (k : Nat) : Bool :=
  k ≤ 0x05 || (0x08 ≤ k && k ≤ 0x13) || (0x40 ≤ k && k ≤ 0x7F)

/-- Vector arithmetic that takes its lane type from FMTD (R285). -/
def fromFmtd (i : Op) (f : Fields) : Bool := 0x70 ≤ i.row.op && i.row.op ≤ 0x83 && f.mx / 4 % 2 = 1

/-- Step 6 of R204: a register outside its class, a broken group, two destinations in one (R203 rule 2): those of GSPL, and CQGET's, which
also writes s1, s62 and s63 (R273). -/
def badRegister (i : Op) (f : Fields) (imm : Bool) : Bool :=
  let r := i.row
  !(r.d.ok f f.d && r.a.ok f f.a && (imm || r.b.ok f f.b) && r.c.ok f f.c) || (i = .gspl && f.d = f.g2)
    || (i = .cqget && (f.d = 1 || f.d = 62 || f.d = 63))

/-- Step 7a: a function code that the entry does not define (R198, R286). -/
def badFunction (i : Op) (f : Fields) : Bool :=
  (i.row.fn ≠ [] && !i.row.fn.contains f.fn)
    || ((i = .vred || i = .vscan) && TCode.ofCode f.t = .f32 && f.fn % 8 ≥ 3)

/-- A vector instruction: the arithmetic, lane, vector memory and conversion classes (R278). -/
def Op.isVector (i : Op) : Bool := 0x70 ≤ i.row.op && i.row.op ≤ 0xA9

/-- Step 7b: a type that the entry does not admit, I64 on any vector instruction (R278), or a high bit of T1 or T2 (R198, R204). -/
def badType (i : Op) (f : Fields) : Bool :=
  (i.isVector && f.t = 6) || (i.row.t ≠ [] && !i.row.t.contains (.ofCode f.t) && !fromFmtd i f) || 64 ≤ f.t1 || 64 ≤ f.t2

/-- The group size G of R286 exceeds the lane count. -/
def badGroupSize (i : Op) (f : Fields) : Bool :=
  (i = .vred || i = .vscan || i = .vvote || i = .vmatch || i = .vmatchLeader) &&
    ((TCode.ofCode f.t).lanes < 2 ^ (f.mx + 1) && !(i = .vvote && f.fn = 0) || (i = .vvote && f.fn = 0 && f.mx ≠ 0))

/-- Step 7c: a modifier that the entry does not define (R198, R283, R287, R334). -/
def badModifier (i : Op) (f : Fields) : Bool :=
  let r := i.row
  let t := TCode.ofCode f.t
  !r.mx.contains f.mx || 4 ≤ f.rm || (f.rm ≠ 0 && !r.rnd) || (f.sat ≠ 0 && !r.sat)
    || ((i = .vadd || i = .vsub || i = .vmul || i = .vfma) && f.rm ≠ 0 && !fromFmtd i f && t.intLane)
    || ((i = .vred || i = .vscan) && ((f.sat ≠ 0 && (t = .f32 || f.fn % 8 ≠ 0)) || (f.rm ≠ 0 && (t ≠ .f32 || f.fn % 8 ≠ 0))))
    || (i = .mldw && t.wideFmt && f.mx ≠ 0) || badGroupSize i f

/-- Step 7d: KS or K breaks R196, R219, R261 or R279. -/
def badConstant (i : Op) (f : Fields) (imm : Bool) : Bool :=
  let r := i.row
  match f.ks with
  | 0 =>
    match r.k with
    | .none => f.k ≠ 0
    | .byte => false
    | .sysreg => !sysRegListed f.k
    | .mask => 32 ≤ f.k || (f.k / 8 = 2)
    | .maskM => 16 ≤ f.k
    | .qmask => 16 ≤ f.k
  | ks =>
    (imm && ks = 2) || !r.cw.contains ks
      || (ks = 1 && f.a ≠ 0) || (ks = 2 && f.b ≠ 0) || (ks = 3 && f.c ≠ 0)

/-- IMM32 of VSHUFI (R288). -/
def badShuffle (f : Fields) : Bool :=
  let n := (TCode.ofCode f.t).lanes
  let kind := bits f.imm 28 4
  let p := bits f.imm 0 8
  let g := bits f.imm 8 4
  6 ≤ kind || bits f.imm 12 16 ≠ 0 || (g ≠ 0 && kind ≠ 4) || (kind = 1 && n ≤ p)
    || (kind = 4 && (2 ^ g ≤ p || n < 2 ^ g)) || (kind = 5 && p ≠ 0)

/-- IMM32 of MMA, and of XMMA with `top` 21 (R256, R335). -/
def badMmaCtl (top : Nat) (f : Fields) : Bool :=
  let rows := bits f.imm 0 8
  2 ^ top ≤ f.imm || rows < 16 || 128 < rows || rows % 16 ≠ 0 || (bitOf f.imm 20 && bits f.imm 10 10 ≠ 0)

/-- IMM32 values that an entry does not define (step 7f). -/
def badImm (i : Op) (f : Fields) : Bool :=
  match i with
  | .vshufi => badShuffle f
  | .mma => badMmaCtl 29 f
  | .xmma => badMmaCtl 21 f
  | .xget | .xsend | .xcopy => if f.mx % 2 = 1 then f.imm = 0 || 255 < f.imm else f.imm ≠ 0
  | .xcnt => 2 ^ 17 ≤ f.imm
  | .xsts => 2 ^ 8 ≤ f.imm
  | .gspl => 4 ≤ f.imm
  | .gprj => 16 ≤ f.imm || f.imm = 0
  | .mldw => f.imm ≠ 0 && (f.mx = 0 || f.mx = 2)
  | _ => false

/-- Step 7f: a reserved bit of EXT64, a Q value the entry does not admit, or a field that the entry leaves unused (R192,
R197, R252, R261). -/
def badUnused (i : Op) (f : Fields) (imm : Bool) : Bool :=
  let r := i.row
  (r.d.unused f && f.d ≠ 0) || (r.a.unused f && f.a ≠ 0) || ((imm || r.b.unused f) && f.b ≠ 0)
    || (r.c.unused f && f.c ≠ 0) || (r.fn = [] && f.fn ≠ 0) || ((r.t = [] || fromFmtd i f) && f.t ≠ 0)
    || (i = .gspl && f.mx = 1 && f.b ≠ 0) || (i = .mma && f.mx % 2 = 0 && f.g2 ≠ 0)
    || (i = .qfence && f.k % 16 = 0)
    || f.res ≠ 0 || (!r.blgr && (f.bl ≠ 0 || f.gr ≠ 0)) || (!r.g2 && f.g2 ≠ 0) || (!r.t1 && f.t1 ≠ 0)
    || (!r.t2 && f.t2 ≠ 0) || (if r.q = [] then f.q ≠ 0 else !r.q.contains f.q)
    || (!r.imm && !imm && f.imm ≠ 0) || badImm i f

/-- Steps 6 and 7a to 7f of R204 that the word alone decides, in order: the first that applies. -/
def staticReject (i : Op) (f : Fields) (imm : Bool) : Option Reject :=
  if badRegister i f imm then some .register
  else if badFunction i f then some .function
  else if badType i f then some .type
  else if badModifier i f then some .modifier
  else if badConstant i f imm then some .constant
  else if f.p = 0 && f.pn = 1 then some .predicate
  else if badUnused i f imm then some .unused
  else none

/-! ## Formats B and L, MOVI, FMT -/

/-- Format B (R194): LEN, OP, A, B, CND, P, PN, DISP. -/
def widthsB : List Nat := [2, 8, 6, 6, 4, 3, 1, 34]
/-- Format L (R195): LEN, OP, LVL, CNT, CI, K, ROT, RS, END. -/
def widthsL : List Nat := [2, 8, 2, 6, 1, 8, 1, 4, 32]

/-- The checks of format B that apply, in the order of R204. -/
def rejectB (i : Op) (a b cnd p pn : Nat) : Option Reject :=
  if p = 0 && pn = 1 then some .predicate
  else if (i = .brc && 12 ≤ cnd) || (i ≠ .brc && (a ≠ 0 || b ≠ 0 || cnd ≠ 0)) then some .condition
  else none

/-- The checks of format L (R195, R238). -/
def rejectL (cnt ci k rot rs : Nat) (disp : Int) : Option Reject :=
  if (ci = 1 && cnt ≠ 0) || (ci = 0 && k ≠ 0) || (rot = 0 && rs ≠ 0) || (rot = 1 && 66 < disp) then some .condition
  else none

/-- MOVI is format W whose EXT64 is one immediate (R192): the fields of its first dword. -/
def rejectMovi (f : Fields) : Option Reject :=
  if 64 ≤ f.d then some .register
  else if !(f.t = 6 || f.t = 0) then some .type
  else if f.rm ≠ 0 || f.sat ≠ 0 || f.mx ≠ 0 then some .modifier
  else if f.ks ≠ 0 || f.k ≠ 0 then some .constant
  else if f.p = 0 && f.pn = 1 then some .predicate
  else if f.a ≠ 0 || f.b ≠ 0 || f.c ≠ 0 || f.fn ≠ 0 then some .unused
  else none

/-- FMT (R200). -/
def rejectFmt (f : Fields) : Option Reject :=
  if 2 ≤ f.fn then some .function
  else if 4 ≤ f.mx || f.sat ≠ 0 || 4 ≤ f.rm || (f.fn = 0 && f.rm ≠ 0) then some .modifier
  else if f.ks ≠ 0 || f.k ≠ 0 then some .constant
  else if f.p = 0 && f.pn = 1 then some .predicate
  else if f.p ≠ 0 || f.pn ≠ 0 || f.d ≠ 0 || f.a ≠ 0 || f.b ≠ 0 || f.c ≠ 0 then some .unused
  else none

/-- NOP (R213): every field but LEN and OP is zero. -/
def rejectNop (w : Nat) : Option Reject := if bits w 10 54 ≠ 0 then some .unused else none

end Sys2Proof
end

