-- ==== Sys2Proof/WellFormed.lean ====
section
/-! DEFINITION. Well-formed instructions: the terms of `Instr` that stand for an encoding. Every check is one of R204's, or
says that a field holds a value its width can hold. -/

namespace Sys2Proof

/-- A register or constant-window field fits its width (R190, R196). -/
def Arg.fits : Arg → Bool
  | .reg n => n < 64
  | .cw k => k < 256
  | .imm w => w < 2 ^ 32

/-- The header fits; only a format I instruction has a widened form (R189). -/
def Hdr.fits (h : Hdr) (imm : Bool) : Bool := h.p < 8 && (imm || !h.wide)

/-- The B operand is an immediate. -/
def Ops.isImm (o : Ops) : Bool := match o.b with | .imm _ => true | _ => false

/-- At most one source comes from the constant window, and K means nothing else then (R28, R196). -/
def Ops.oneCw (o : Ops) : Bool :=
  match o.a, o.b, o.c with
  | .imm _, _, _ => false
  | _, _, .imm _ => false
  | .cw _, .cw _, _ => false
  | .cw _, _, .cw _ => false
  | _, .cw _, .cw _ => false
  | .reg _, .reg _, .reg _ => true
  | .reg _, .imm _, .reg _ => true
  | _, _, _ => o.k = 0

/-- Every field of formats A and I fits its width. -/
def Ops.fits (o : Ops) : Bool :=
  o.d < 64 && o.a.fits && o.b.fits && o.c.fits && o.fn < 32 && o.k < 256 && o.mx < 8

/-- Every field of EXT64 fits its width (R192). -/
def Ext.fits (x : Ext) : Bool :=
  x.imm < 2 ^ 32 && x.gr < 4 && x.bl < 16 && x.q < 16 && x.g2 < 16 && x.t2 < 256 && x.t1 < 256

/-- The form admits an immediate, or its absence (R207). -/
def Form.admits (f : Form) (imm : Bool) : Bool :=
  match f with
  | .a => !imm
  | .ai => true
  | .i => imm
  | .w => !imm
  | _ => false

/-- A format A, I or W instruction that is an encoding of R206 to R208 with none of the rejections of R204. -/
def wfParts (i : Op) (h : Hdr) (o : Ops) (x : Ext) : Bool :=
  h.fits o.isImm && o.fits && x.fits && o.oneCw && i.row.form.admits o.isImm && (i.row.form = .w || x = .zero)
    && Op.ofMajor i.row.op != [] && staticReject i (toFields i h o x) o.isImm = none

/-- A signed displacement of n bits. -/
def dispFits (n : Nat) (d : Int) : Bool := -(2 ^ (n - 1) : Int) ≤ d && d < (2 ^ (n - 1) : Int)

/-- An instruction that has an encoding. An event has none. -/
def Instr.wf (j : Instr) : Bool :=
  match j with
  | .nop => true
  | .fmt _ rv rnd scm => scm < 4 && (rv || rnd = .rne)
  | .movi h d t imm =>
    h.fits false && !(h.p = 0 && h.neg) && d < 64 && (t = .i64 || t = .i8) && imm < 2 ^ 64
  | .br h disp => h.fits false && !(h.p = 0 && h.neg) && dispFits 34 disp
  | .call h disp => h.fits false && !(h.p = 0 && h.neg) && dispFits 34 disp
  | .brc h cnd a b disp =>
    h.fits false && !(h.p = 0 && h.neg) && cnd < 12 && a < 64 && b < 64 && dispFits 34 disp
  | .loop l =>
    l.lvl < 4 && l.cnt.fits && (match l.cnt with | .imm _ => false | _ => true) && l.rs < 16 && (l.rot || l.rs = 0)
      && dispFits 32 l.disp && !(l.rot && 66 < l.disp)
  | _ =>
    match j.op, j.parts with
    | some i, some (h, o, x) => wfParts i h o x
    | _, _ => false

end Sys2Proof
end

