-- ==== Sys2Proof/Decode.lean ====
section
/-! DEFINITION. Decoding (R187 to R208) and the encoder. Decoding is total: a word stands for an instruction, or is rejected
by the name of the first check of R204 that it fails. -/

namespace Sys2Proof

/-- What a word decodes to: its length in bytes, the instruction its fields stand for once its major and format are known,
and the first static check of R204 that it fails. -/
structure Decoded where
  len : Nat
  instr : Option Instr
  reject : Option Reject
  deriving DecidableEq, Repr

/-- A row is the one that FN or MX selects. -/
def Sel.hit (s : Sel) (f : Fields) : Bool :=
  match s with
  | .any => true
  | .fn vs => vs.contains f.fn
  | .mx vs => vs.contains f.mx

/-- The instruction of a major that FN and MX select; the first of the major where none fits, which then fails step 7a or
7c. -/
def Op.select (op : Nat) (f : Fields) : Option Op :=
  match Op.ofMajor op with
  | [] => none
  | i :: is => some (((i :: is).find? fun j => j.row.sel.hit f).getD i)

/-- Step 4 of R204: the form admits this LEN, and a widened instruction has bits [127:96] zero (R189, R207). -/
def Form.lenOk (f : Form) (len w : Nat) : Bool :=
  match f, len with
  | .w, 2 => true
  | .movi, 2 => true
  | .w, _ => false
  | .movi, _ => false
  | .i, 1 => true
  | .ai, 1 => true
  | .i, 2 => bits w 96 32 = 0
  | .ai, 2 => bits w 96 32 = 0
  | .i, _ => false
  | _, len => len = 0

/-- Formats A, I and W. -/
def decodeFields (i : Op) (f : Fields) (imm : Bool) : Decoded :=
  { len := lenBytes f.len, instr := i.build (f.hdr imm) (f.ops imm) (f.ext64 imm), reject := staticReject i f imm }

def decodeMovi (w : Nat) : Decoded :=
  let f := Fields.ofA w
  { len := 16, instr := some (.movi (f.hdr false) f.d (.ofCode f.t) (bits w 64 64)), reject := rejectMovi f }

def decodeFmt (w : Nat) : Decoded :=
  let f := Fields.ofA w
  { len := 8, instr := some (.fmt (.ofCode f.t) (f.fn % 2 = 1) (.ofCode f.rm) (f.mx % 4)), reject := rejectFmt f }

/-- BR, BRC and CALL (R194). -/
def decodeB (i : Op) (w : Nat) : Decoded :=
  match unpackBits widthsB w with
  | [_, _, a, b, cnd, p, pn, disp] =>
    let h : Hdr := { p := p, neg := pn = 1, wide := false }
    let d := sext 34 disp
    { len := 8,
      instr := match i with
        | .br => some (.br h d)
        | .call => some (.call h d)
        | _ => some (.brc h cnd a b d),
      reject := rejectB i a b cnd p pn }
  | _ => { len := 8, instr := none, reject := some .opcode }

/-- LOOP (R195). -/
def decodeL (w : Nat) : Decoded :=
  match unpackBits widthsL w with
  | [_, _, lvl, cnt, ci, k, rot, rs, disp] =>
    let d := sext 32 disp
    { len := 8, instr := some (.loop { lvl, cnt := if ci = 1 then .cw k else .reg cnt, rot := rot = 1, rs, disp := d }),
      reject := rejectL cnt ci k rot rs d }
  | _ => { len := 8, instr := none, reject := some .opcode }

/-- Decodes the word whose bit 0 is the least significant bit of its first byte, in the order of R204. -/
def decodeWord (w : Nat) : Decoded :=
  let len := w % 4
  let op := bits w 2 8
  if len = 3 then { len := 0, instr := none, reject := some .length }
  else
    match Op.select op (Fields.ofA w) with
    | none => { len := lenBytes len, instr := none, reject := some .opcode }
    | some i =>
      if !i.row.form.lenOk len w then { len := lenBytes len, instr := none, reject := some .format }
      else
        match i.row.form with
        | .nop => { len := 8, instr := some .nop, reject := rejectNop w }
        | .fmt => decodeFmt w
        | .movi => decodeMovi w
        | .b => decodeB i w
        | .l => decodeL w
        | .w => decodeFields i (.ofW w) false
        | _ => if len = 0 then decodeFields i (.ofA w) false else decodeFields i (.ofI w) true

/-- The instruction of a word, or nothing where R204 rejects it. -/
def decode (w : Nat) : Option (Instr × Nat) :=
  match decodeWord w with
  | { len, instr := some j, reject := none } => some (j, len)
  | _ => none

/-- The instruction at the head of a list of bytes, and the bytes after it. Bytes that are not there read as zero. -/
def decodeBytes (bs : List Byte) : Option (Instr × List Byte) :=
  match decode (ofBytes (bs.take 16)) with
  | some (j, len) => some (j, bs.drop len)
  | none => none

/-- The length of an instruction in bytes (R187, R207). -/
def Instr.len (j : Instr) : Nat :=
  match j with
  | .movi _ _ _ _ => 16
  | _ =>
    match j.op, j.parts with
    | some i, some (h, o, _) => lenBytes (i.row.form.len h o)
    | _, _ => 8

/-- The word of a well-formed instruction, from the same tables; an event has none. -/
def encode (j : Instr) : Nat :=
  match j with
  | .nop => 0
  | .fmt t2 rv rnd scm =>
    packBits [(2, 0), (8, 0x05), (28, 0), (5, rv.toNat), (4, t2.code), (10, 0), (3, rnd.code), (1, 0), (3, scm)]
  | .movi h d t imm =>
    packBits [(2, 2), (8, 0x29), (6, d), (18, 0), (3, h.p), (1, h.neg.toNat), (5, 0), (4, t.code), (17, 0), (64, imm)]
  | .br h disp => packBits [(2, 0), (8, 0x44), (16, 0), (3, h.p), (1, h.neg.toNat), (34, wrap 34 disp)]
  | .call h disp => packBits [(2, 0), (8, 0x46), (16, 0), (3, h.p), (1, h.neg.toNat), (34, wrap 34 disp)]
  | .brc h cnd a b disp =>
    packBits [(2, 0), (8, 0x45), (6, a), (6, b), (4, cnd), (3, h.p), (1, h.neg.toNat), (34, wrap 34 disp)]
  | .loop l =>
    let ck : Nat × Nat × Nat := match l.cnt with | .cw k => (0, 1, k) | .reg n => (n, 0, 0) | .imm _ => (0, 0, 0)
    packBits [(2, 0), (8, 0x49), (2, l.lvl), (6, ck.1), (1, ck.2.1), (8, ck.2.2), (1, l.rot.toNat), (4, l.rs),
      (32, wrap 32 l.disp)]
  | _ =>
    match j.op, j.parts with
    | some i, some (h, o, x) =>
      let f := toFields i h o x
      match i.row.form with
      | .w => f.head + 2 ^ 64 * f.ext
      | _ => if o.isImm then f.head + 2 ^ 64 * f.imm else f.head
    | _, _ => 0

/-- The bytes of a well-formed instruction, as they stand in memory (R187). -/
def encodeBytes (j : Instr) : List Byte := toBytes j.len (encode j)

/-- The instruction that an opcode-table word of `nbits` bits decodes to, the bits above being zero. -/
def decodeTableWord (nbits w : Nat) : Option Instr :=
  (decode (w % 2 ^ nbits)).map (·.1)

end Sys2Proof
end

