-- ==== Sys2Proof/Config.lean ====
section
/-! DEFINITION. What an implementation fixes and the free values: constants with no body, so that no proof can see what they
are. Each is named in the assumption log. -/

namespace Sys2Proof.Config

/-- A free value, applied to the counter of the state that each use advances (DESIGN CHOICE, log 3). -/
opaque free : Nat → Nat

/-- The cycles that one step of the model takes beyond the first; timing is left out (DESIGN CHOICE, log 4). -/
opaque cycles : Nat → Nat

/-- The rounded value of VEXP2 (0) or VLOG2 (1) of an FP32 operand where the model's 320-bit bounds do not settle the
rounding (DESIGN CHOICE, log 14). Arguments: function, operand, rounding mode. -/
opaque transcendental : Nat → Nat → Nat → Nat

/-- The rounding mode of a prefix whose RND is a reserved value, which a write of STAT can leave and no FMT can (R198, R201;
DESIGN CHOICE, log 38). -/
opaque reservedRnd : Nat → Nat

/-- The public keys that the fuses bind, as points of P-521 (R376, R381; DESIGN CHOICE, log 8): 0 the vendor firmware key, 1 the vendor debug
key. -/
opaque vendorKey : Nat → Nat × Nat

/-- The private attestation key that a package derives from its fused device secret, of which the device identifier stands for the package,
and from MEAS0 (R380; DESIGN CHOICE, log 8). -/
opaque attestationKey : Nat → Nat → Nat

/-- The message of SPDM 1.3 that an answer's signature covers, as its bytes' number and their value: from what the requester and the core
drew for it and the eight measurement blocks (R380; DESIGN CHOICE, log 8). -/
opaque transcriptLength : Nat
opaque transcript : Nat → Nat → Nat

/-- The SHA-512 digest of the body of the vendor's provisioning image, the only one that a BLANK package boots (R378; DESIGN CHOICE, log 35). -/
opaque provisioningDigest : Nat

/-- The lengths in bits of the dies' state chains (R389; DESIGN CHOICE, log 9). -/
opaque scanLength : Nat → Nat

/-- The bytes of a job's bounce ring beyond one arrival of the greatest length (R410; DESIGN CHOICE, log 64). -/
opaque bounceRoom : Nat

/-- The device identifier fused at manufacture (R380; DESIGN CHOICE, log 10). -/
opaque devid : Nat

/-- The revision and the manufacturer code of IDCODE (R389; DESIGN CHOICE, log 10). -/
opaque revision : Nat
opaque manufacturer : Nat

/-- What MEAS0 is extended with, as a number of bytes and the bytes: the boot ROM's version, then the lifecycle state and the rollback
counter (R379; DESIGN CHOICE, log 10). -/
opaque bootRecordLength : Nat
opaque bootRecord : Nat → Nat → Nat

/-- Where the boot ROM loads Smirvadin, and where the supervisor cores start (R375; DESIGN CHOICE, log 10). -/
opaque supervisorBase : Nat
opaque supervisorEntry : Nat

end Sys2Proof.Config
end

