-- ==== Sys2Proof/Machine/Num.lean ====
section
/-! DEFINITION. Number formats and exact arithmetic: R121 to R130, R136, R138, R139 (07). A finite value is an exact binary
number m * 2^e, so every operation of the machine is exact until its one rounding. -/

namespace Sys2Proof.Machine

/-- The exact value of an element (R128): `zero` is an exact zero whose sign the rounding mode gives. -/
inductive Val where
  | nan
  | inf (neg : Bool)
  | zero
  | fin (neg : Bool) (m : Nat) (e : Int)
  deriving DecidableEq, Repr

/-- How a float format uses its top exponent field (R121). -/
inductive FloatKind where
  | ieee | e4m3 | none
  deriving DecidableEq, Repr

/-- A float format: exponent and mantissa widths, bias, kind, and the bits below the mantissa (R121, R125). -/
structure FloatFmt where
  ew : Nat
  mw : Nat
  bias : Nat
  kind : FloatKind
  low : Nat
  deriving DecidableEq, Repr

/-- The float formats of R121; none for an integer format. -/
def floatFmt : TCode → Option FloatFmt
  | .e4m3 => some { ew := 4, mw := 3, bias := 7, kind := .e4m3, low := 0 }
  | .e5m2 => some { ew := 5, mw := 2, bias := 15, kind := .ieee, low := 0 }
  | .e3m2 => some { ew := 3, mw := 2, bias := 3, kind := .none, low := 0 }
  | .e2m1 => some { ew := 2, mw := 1, bias := 1, kind := .none, low := 0 }
  | .bf16 => some { ew := 8, mw := 7, bias := 127, kind := .ieee, low := 0 }
  | .f16 => some { ew := 5, mw := 10, bias := 15, kind := .ieee, low := 0 }
  | .tf19 => some { ew := 8, mw := 10, bias := 127, kind := .ieee, low := 13 }
  | .f32 => some { ew := 8, mw := 23, bias := 127, kind := .ieee, low := 0 }
  | _ => none

/-- The width of one element in memory (R121). -/
def TCode.width : TCode → Nat
  | .i8 | .u8 | .e4m3 | .e5m2 => 8
  | .i16 | .u16 | .bf16 | .f16 => 16
  | .i32 | .u32 | .tf19 | .f32 => 32
  | .i64 => 64
  | .i4 | .e2m1 => 4
  | .e3m2 => 6

/-- A signed integer format (R122). -/
def TCode.signed : TCode → Bool
  | .i8 | .i16 | .i32 | .i64 | .i4 => true
  | _ => false

def TCode.isFloat (t : TCode) : Bool := (floatFmt t).isSome

/-- The bits of an element as every reader and every writer of its format takes them: bits 12 to 0 of a TF19 element are zero (R125). -/
def TCode.held (t : TCode) (x : Nat) : Nat := if t = .tf19 then x / 2 ^ 13 * 2 ^ 13 else x

/-- An integer as an exact value: 0 is an exact zero, whose sign the rounding mode gives (R128). -/
def Val.ofInt (x : Int) : Val := if x = 0 then .zero else .fin (x < 0) x.natAbs 0

/-- widen(x) of R128: the exact value of an element's bits. -/
def widen (t : TCode) (b : Nat) : Val :=
  match floatFmt t with
  | none => .ofInt (if TCode.signed t then sext (TCode.width t) b else (b % 2 ^ TCode.width t : Nat))
  | some f =>
    let x := b / 2 ^ f.low
    let m := x % 2 ^ f.mw
    let e := x / 2 ^ f.mw % 2 ^ f.ew
    let s := bitOf x (f.mw + f.ew)
    let top := 2 ^ f.ew - 1
    if f.kind = .ieee && e = top then (if m = 0 then .inf s else .nan)
    else if f.kind = .e4m3 && e = top && m = 7 then .nan
    else if e = 0 then .fin s m (1 - f.bias - f.mw)
    else .fin s (m + 2 ^ f.mw) (e - f.bias - f.mw)

/-- m * 2^e read at the lower exponent e0. -/
def scaleTo (m : Nat) (e e0 : Int) : Nat := m * 2 ^ (e - e0).toNat

def signedInt (neg : Bool) (m : Nat) : Int := if neg then -(m : Int) else m

/-- The exact sum of two finite values; a sum of zeros of one sign keeps it (R128). -/
def addFin (s1 : Bool) (m1 : Nat) (e1 : Int) (s2 : Bool) (m2 : Nat) (e2 : Int) : Val :=
  if m1 = 0 && m2 = 0 then (if s1 = s2 then .fin s1 0 0 else .zero)
  else
    let e := min e1 e2
    let v := signedInt s1 (scaleTo m1 e1 e) + signedInt s2 (scaleTo m2 e2 e)
    if v = 0 then .zero else .fin (v < 0) v.natAbs e

/-- The exact sum, with the special values of R136. -/
def Val.add : Val → Val → Val
  | .nan, _ => .nan
  | _, .nan => .nan
  | .inf a, .inf b => if a = b then .inf a else .nan
  | .inf a, _ => .inf a
  | _, .inf b => .inf b
  | .zero, .zero => .zero
  | .zero, .fin s m e => if m = 0 then .zero else .fin s m e
  | .fin s m e, .zero => if m = 0 then .zero else .fin s m e
  | .fin s1 m1 e1, .fin s2 m2 e2 => addFin s1 m1 e1 s2 m2 e2

def Val.neg? : Val → Bool
  | .inf s => s
  | .fin s _ _ => s
  | _ => false

def Val.isZero : Val → Bool
  | .zero => true
  | .fin _ m _ => m = 0
  | _ => false

def Val.isFinite : Val → Bool
  | .zero => true
  | .fin _ _ _ => true
  | _ => false

/-- The value with the other sign. -/
def Val.negate : Val → Val
  | .nan => .nan
  | .inf s => .inf !s
  | .zero => .zero
  | .fin s m e => .fin (!s) m e

/-- The exact product; infinity times zero is NaN (R136). A product with an exact zero has the sign of the product of the signs, also where the zero
is a sum that cancelled, S of R133: the spec gives that zero term no sign (DESIGN CHOICE, log 71). -/
def Val.mul : Val → Val → Val
  | .nan, _ => .nan
  | _, .nan => .nan
  | .inf a, y => if y.isZero then .nan else .inf (a != y.neg?)
  | x, .inf b => if x.isZero then .nan else .inf (x.neg? != b)
  | .zero, y => .fin y.neg? 0 0
  | x, .zero => .fin x.neg? 0 0
  | .fin s1 m1 e1, .fin s2 m2 e2 => .fin (s1 != s2) (m1 * m2) (e1 + e2)

/-- The quotient, to 64 bits beyond the point and a sticky bit: enough for one correct rounding to any format (R229). -/
def Val.div : Val → Val → Val
  | .nan, _ => .nan
  | _, .nan => .nan
  | .inf _, .inf _ => .nan
  | .inf a, y => .inf (a != y.neg?)
  | x, .inf b => .fin (x.neg? != b) 0 0
  | x, .zero => if x.isZero then .nan else .inf x.neg?
  | .zero, y => if y.isZero then .nan else .fin y.neg? 0 0
  | .fin s1 m1 e1, .fin s2 m2 e2 =>
    if m2 = 0 then (if m1 = 0 then .nan else .inf (s1 != s2))
    else if m1 = 0 then .fin (s1 != s2) 0 0
    else
      let k := 64 + m2.log2
      let n := m1 * 2 ^ k
      .fin (s1 != s2) (2 * (n / m2) + (if n % m2 = 0 then 0 else 1)) (e1 - e2 - k - 1)

/-- The integer square root, one bit at a time from bit `k - 1` down. -/
def isqrtFrom (n : Nat) : Nat → Nat → Nat
  | 0, r => r
  | k + 1, r => if (r + 2 ^ k) * (r + 2 ^ k) ≤ n then isqrtFrom n k (r + 2 ^ k) else isqrtFrom n k r

def isqrt (n : Nat) : Nat := isqrtFrom n (n.log2 / 2 + 1) 0

/-- The square root with a sticky bit (R229). -/
def Val.sqrt : Val → Val
  | .nan => .nan
  | .inf s => if s then .nan else .inf false
  | .zero => .fin false 0 0
  | .fin s m e =>
    if m = 0 then .fin s 0 0
    else if s then .nan
    else
      let m' := if e % 2 = 0 then m else 2 * m
      let e' := if e % 2 = 0 then e else e - 1
      let n := m' * 2 ^ 64
      let r := isqrt n
      .fin false (2 * r + (if r * r = n then 0 else 1)) (e' / 2 - 33)

/-- 1 / sqrt(x) with a sticky bit (R139). -/
def Val.rsqrt : Val → Val
  | .nan => .nan
  | .inf s => if s then .nan else .fin false 0 0
  | .zero => .inf false
  | .fin s m e =>
    if m = 0 then .inf s
    else if s then .nan
    else
      let m' := if e % 2 = 0 then m else 2 * m
      let e' := if e % 2 = 0 then e else e - 1
      let k := m'.log2 + 40
      let q := 2 ^ (2 * k) / m'
      let r := isqrt q
      let exact := 2 ^ (2 * k) % m' = 0 && r * r = q
      .fin false (2 * r + (if exact then 0 else 1)) (-(k : Int) - e' / 2 - 1)

/-- Numeric order of two values that are not NaN; zeros are equal. -/
def Val.cmp (x y : Val) : Ordering :=
  match x, y with
  | .inf a, .inf b => if a = b then .eq else if a then .lt else .gt
  | .inf a, _ => if a then .lt else .gt
  | _, .inf b => if b then .gt else .lt
  | _, _ =>
    match x.add y.negate with
    | .fin s m _ => if m = 0 then .eq else if s then .lt else .gt
    | _ => .eq

/-! ## Rounding -/

/-- What a rounding step reports (R142). -/
structure NumFlags where
  sat : Bool
  unf : Bool
  ovf : Bool
  inv : Bool
  deriving DecidableEq, Repr

def NumFlags.none : NumFlags := { sat := false, unf := false, ovf := false, inv := false }

def NumFlags.or (a b : NumFlags) : NumFlags :=
  { sat := a.sat || b.sat, unf := a.unf || b.unf, ovf := a.ovf || b.ovf, inv := a.inv || b.inv }

/-- The order of R142: SAT bit 3, UNF bit 2, OVF bit 1, INV bit 0. -/
def NumFlags.toNat (f : NumFlags) : Nat :=
  8 * f.sat.toNat + 4 * f.unf.toNat + 2 * f.ovf.toNat + f.inv.toNat

def NumFlags.ofNat (n : Nat) : NumFlags :=
  { sat := bitOf n 3, unf := bitOf n 2, ovf := bitOf n 1, inv := bitOf n 0 }

/-- m * 2^e as a multiple of 2^q, rounded (R128), and whether that was inexact. -/
def roundAt (neg : Bool) (m : Nat) (e q : Int) (mode : Rnd) : Nat × Bool :=
  if q ≤ e then (m * 2 ^ (e - q).toNat, false)
  else
    let sh := (q - e).toNat
    let r := m / 2 ^ sh
    let rem := m % 2 ^ sh
    if rem = 0 then (r, false)
    else
      let up := match mode with
        | .rne => 2 ^ sh < 2 * rem || (2 * rem = 2 ^ sh && r % 2 = 1)
        | .rtz => false
        | .rdn => neg
        | .rup => !neg
      (if up then r + 1 else r, true)

/-- An encoding from its sign, exponent field and mantissa field. -/
def FloatFmt.enc (f : FloatFmt) (s : Bool) (e m : Nat) : Nat :=
  (s.toNat * 2 ^ (f.ew + f.mw) + e * 2 ^ f.mw + m) * 2 ^ f.low

/-- The largest finite magnitude of a format (R124): exponent field and mantissa field. -/
def FloatFmt.maxFields (f : FloatFmt) : Nat × Nat :=
  match f.kind with
  | .ieee => (2 ^ f.ew - 2, 2 ^ f.mw - 1)
  | .e4m3 => (2 ^ f.ew - 1, 2 ^ f.mw - 2)
  | .none => (2 ^ f.ew - 1, 2 ^ f.mw - 1)

def FloatFmt.maxEnc (f : FloatFmt) (s : Bool) : Nat := f.enc s f.maxFields.1 f.maxFields.2

/-- The canonical NaN (R124, R127); +0 in the formats that have none (R129). -/
def FloatFmt.nanEnc (f : FloatFmt) : Nat :=
  match f.kind with
  | .none => 0
  | .e4m3 => f.enc false (2 ^ f.ew - 1) (2 ^ f.mw - 1)
  | .ieee => f.enc false (2 ^ f.ew - 1) (2 ^ (f.mw - 1))

/-- An infinite input (R129). -/
def FloatFmt.infEnc (f : FloatFmt) (s sat : Bool) : Nat :=
  if sat then f.maxEnc s
  else match f.kind with
    | .ieee => f.enc s (2 ^ f.ew - 1) 0
    | .e4m3 => f.nanEnc
    | .none => f.maxEnc s

/-- An overflow without SAT (R129): E5M2 gives an infinity in every mode. -/
def FloatFmt.ovfEnc (f : FloatFmt) (s : Bool) (mode : Rnd) : Nat :=
  match f.kind with
  | .none => f.maxEnc s
  | .e4m3 => f.nanEnc
  | .ieee =>
    if f.mw ≠ 2 && (mode = .rtz || (mode = .rup && s) || (mode = .rdn && !s)) then f.maxEnc s
    else f.enc s (2 ^ f.ew - 1) 0

/-- One rounding of a finite nonzero magnitude (R127 to R129). -/
def FloatFmt.roundFin (f : FloatFmt) (s : Bool) (m : Nat) (e : Int) (mode : Rnd) (sat : Bool) : Nat × NumFlags :=
  let lead := e + m.log2
  let q := max lead (1 - (f.bias : Int)) - f.mw
  let ri := roundAt s m e q mode
  let r := if 2 ^ (f.mw + 1) ≤ ri.1 then ri.1 / 2 else ri.1
  let q' := if 2 ^ (f.mw + 1) ≤ ri.1 then q + 1 else q
  let ef := if 2 ^ f.mw ≤ r then (q' + f.mw + f.bias).toNat else 0
  let mf := if 2 ^ f.mw ≤ r then r - 2 ^ f.mw else r
  let top := f.maxFields
  if top.1 < ef || (ef = top.1 && top.2 < mf) then
    if sat then (f.maxEnc s, { NumFlags.none with sat := true })
    else (f.ovfEnc s mode, { NumFlags.none with ovf := true })
  else (f.enc s ef mf, { NumFlags.none with unf := ri.2 && ef = 0 })

/-- round_T for a float format (R128, R129), with what it reports. A float source's zero keeps its sign, as IEEE 754-2019 and the conversion of R231
that returns its source unchanged have it (DEDUCED, log 42). -/
def FloatFmt.round (f : FloatFmt) (v : Val) (mode : Rnd) (sat : Bool) : Nat × NumFlags :=
  match v with
  | .nan => (f.nanEnc, { NumFlags.none with inv := f.kind ≠ .none })
  | .inf s => (f.infEnc s sat, { NumFlags.none with sat := sat })
  | .zero => (f.enc (mode = .rdn) 0 0, .none)
  | .fin s m e => if m = 0 then (f.enc s 0 0, .none) else f.roundFin s m e mode sat

/-- A value rounded to an integer (R130). -/
def Val.roundInt (v : Val) (mode : Rnd) : Int :=
  match v with
  | .fin s m e => signedInt s (roundAt s m e 0 mode).1
  | _ => 0

/-- The range of an integer format (R122). -/
def TCode.lo (t : TCode) : Int := if TCode.signed t then -(2 ^ (TCode.width t - 1) : Int) else 0
def TCode.hi (t : TCode) : Int := if TCode.signed t then 2 ^ (TCode.width t - 1) - 1 else 2 ^ TCode.width t - 1

/-- An integer held in its format's range. -/
def clampTo (t : TCode) (x : Int) : Int := max (TCode.lo t) (min (TCode.hi t) x)

/-- A conversion to an integer format (R130): the bits, and whether the value was out of range. -/
def toIntFmt (t : TCode) (v : Val) (mode : Rnd) (sat fromFloat : Bool) : Nat × Bool :=
  match v with
  | .nan => (0, false)
  | .inf s => (wrap (TCode.width t) (if s then TCode.lo t else TCode.hi t), true)
  | _ =>
    let x := v.roundInt mode
    let out := x < TCode.lo t || TCode.hi t < x
    (wrap (TCode.width t) (if sat || fromFloat then clampTo t x else x), out)

/-- A value converted to any format (R129, R130); `fromFloat` is the kind of its source. A value outside an integer format reports SAT or OVF,
an infinite one and one that is clamped to 0 among them (DESIGN CHOICE, log 42). -/
def roundTo (t : TCode) (v : Val) (mode : Rnd) (sat fromFloat : Bool) : Nat × NumFlags :=
  match floatFmt t with
  | some f => f.round v mode sat
  | none =>
    let r := toIntFmt t v mode sat fromFloat
    (r.1, { NumFlags.none with sat := r.2 && sat, ovf := r.2 && !sat })

/-- A conversion from one format to another, with a single rounding (R129, R130). -/
def convertFmt (src dst : TCode) (b : Nat) (mode : Rnd) (sat : Bool) : Nat :=
  (roundTo dst (widen src b) mode sat (TCode.isFloat src)).1

/-- round_f32 (R128). -/
def roundF32 (v : Val) (mode : Rnd) (sat : Bool) : Nat := (roundTo .f32 v mode sat true).1

/-- The canonical NaN of a float format (R124). -/
def nanOf (t : TCode) : Nat := match floatFmt t with | some f => f.nanEnc | none => 0

/-- The sign bit's weight of a float format. -/
def signWeight (t : TCode) : Nat :=
  match floatFmt t with | some f => 2 ^ (f.ew + f.mw + f.low) | none => 0

/-- FMIN and FMAX of R230, on any float format: -0 below +0, NaN canonical, the operand returned unchanged. -/
def fMinMax (t : TCode) (isMax : Bool) (a b : Nat) : Nat :=
  let x := widen t a
  let y := widen t b
  if x = .nan || y = .nan then nanOf t
  else
    let aLe := match x.cmp y with
      | .lt => true
      | .gt => false
      | .eq => !(x.isZero && y.neg? && !x.neg?)
    if isMax then (if aLe && !(x.cmp y = .eq && x.neg? = y.neg?) then b else a) else (if aLe then a else b)

/-- The conditions of FCMP (R230). -/
def fCond (t : TCode) (c a b : Nat) : Bool :=
  let x := widen t a
  let y := widen t b
  let un := x = .nan || y = .nan
  let o := x.cmp y
  match c with
  | 0 => !un && o = .eq
  | 1 => un || o ≠ .eq
  | 2 => !un && o = .lt
  | 3 => !un && o ≠ .lt
  | 4 => !un && o ≠ .gt
  | 5 => !un && o = .gt
  | 6 => un
  | _ => !un

/-- |x| and -x on float lanes: the sign bit cleared or flipped, NaN canonical (R283). -/
def fAbs (t : TCode) (a : Nat) : Nat :=
  if widen t a = .nan then nanOf t else a % signWeight t
def fNeg (t : TCode) (a : Nat) : Nat :=
  if widen t a = .nan then nanOf t
  else if signWeight t ≤ a then a - signWeight t else a + signWeight t

/-! ## VEXP2 and VLOG2 (R139) -/

/-- Bits after the point in the fixed-point bounds. -/
def fixP : Nat := 320

/-- The sum of 2^P / (k * 2^k) for k from 1 to n: ln 2 from below, each term truncated. -/
def ln2Sum : Nat → Nat
  | 0 => 0
  | n + 1 => 2 ^ fixP / ((n + 1) * 2 ^ (n + 1)) + ln2Sum n

/-- The terms y^i / i! of e^y at scale 2^P, each truncated. -/
def expSum (y : Nat) : Nat → Nat → Nat → Nat
  | 0, _, _ => 0
  | n + 1, i, term => term + expSum y n (i + 1) (term * y / 2 ^ fixP / (i + 1))

/-- The terms z^i / i of atanh z, odd i, at scale 2^P, each truncated. -/
def atanhSum (z2 : Nat) : Nat → Nat → Nat → Nat
  | 0, _, _ => 0
  | n + 1, i, term => term / i + atanhSum z2 n (i + 2) (term * z2 / 2 ^ fixP)

/-- What truncation and the tails of the series can amount to, many times over. -/
def fixErr : Nat := 2 ^ 64

/-- Rounds a positive value known to lie between lo * 2^e and hi * 2^e, both inexact; the free value decides where the two
ends round apart. -/
def roundBetween (fn x : Nat) (neg : Bool) (lo hi : Nat) (e : Int) (mode : Rnd) : Nat :=
  let a := roundF32 (.fin neg (2 * lo + 1) (e - 1)) mode false
  let b := roundF32 (.fin neg (2 * hi + 1) (e - 1)) mode false
  if a = b then a else Config.transcendental fn x mode.code % 2 ^ 32

/-- VEXP2 of an FP32 operand. -/
def exp2F32 (a : Nat) (mode : Rnd) : Nat :=
  match widen .f32 a with
  | .nan => nanOf .f32
  | .inf s => if s then 0 else roundF32 (.inf false) mode false
  | .zero => 0x3F800000
  | .fin s m e =>
    if m = 0 then 0x3F800000
    else if 9 < e + m.log2 then roundF32 (if s then .fin false 1 (-400) else .fin false 1 400) mode false
    else
      let xf := signedInt s (scaleTo m e (-(fixP : Int)))
      let n := xf / 2 ^ fixP
      let f := (xf % 2 ^ fixP).toNat
      if f = 0 then roundF32 (.fin false 1 n) mode false
      else
        let y := f * ln2Sum fixP / 2 ^ fixP
        let v := expSum y 90 0 (2 ^ fixP)
        roundBetween 0 a false (v - fixErr) (v + fixErr) (n - fixP) mode

/-- VLOG2 of an FP32 operand. -/
def log2F32 (a : Nat) (mode : Rnd) : Nat :=
  match widen .f32 a with
  | .nan => nanOf .f32
  | .inf s => if s then nanOf .f32 else roundF32 (.inf false) mode false
  | .zero => roundF32 (.inf true) mode false
  | .fin s m e =>
    if m = 0 then roundF32 (.inf true) mode false
    else if s then nanOf .f32
    else
      let k : Int := e + m.log2
      if m = 2 ^ m.log2 then roundF32 (.fin (k < 0) k.natAbs 0) mode false
      else
        let mf := m * 2 ^ (fixP - m.log2)
        let z := (mf - 2 ^ fixP) * 2 ^ fixP / (mf + 2 ^ fixP)
        let ln := 2 * atanhSum (z * z / 2 ^ fixP) 220 1 z
        let v : Int := k * 2 ^ fixP + ((ln * 2 ^ fixP / ln2Sum fixP : Nat) : Int)
        if v < 0 then roundBetween 1 a true (v.natAbs - fixErr) (v.natAbs + fixErr) (-(fixP : Int)) mode
        else roundBetween 1 a false (v.natAbs - fixErr) (v.natAbs + fixErr) (-(fixP : Int)) mode

/-- VRCP and VRSQ (R139). -/
def rcpF32 (a : Nat) (mode : Rnd) : Nat := roundF32 ((Val.fin false 1 0).div (widen .f32 a)) mode false
def rsqF32 (a : Nat) (mode : Rnd) : Nat := roundF32 (widen .f32 a).rsqrt mode false

end Sys2Proof.Machine
end

