-- ==== Sys2Proof/Machine/Box.lean ====
section
/-! DEFINITION. Point sets of regions: boxes on a lattice, the canonical form, box-limit rounding, and the set operations of
the region instructions (R109, R112, R113, R115, R306, R314 to R320). A box is one interval [lo, hi) per dimension, d0
first; a lattice is one (step, phase) per dimension. -/

namespace Sys2Proof.Machine

abbrev Ival := Int × Int
abbrev Box := List Ival
abbrev Lat := List (Nat × Nat)

/-- The first lattice point at or above x (R112 rule 1). -/
def latUp (s p : Nat) (x : Int) : Int := x + ((p : Int) - x) % s

/-- The last lattice point at or below x. -/
def latDown (s p : Nat) (x : Int) : Int := x - (x - p) % s

/-- An interval's bounds on the lattice; an interval with no lattice point comes out empty (R112 rule 1). -/
def normIval (sp : Nat × Nat) (i : Ival) : Ival := (latUp sp.1 sp.2 i.1, latDown sp.1 sp.2 (i.2 - 1) + 1)

def Ival.isEmpty (i : Ival) : Bool := i.2 ≤ i.1

/-- The number of lattice points of an interval. -/
def ivalCount (sp : Nat × Nat) (i : Ival) : Nat :=
  let n := normIval sp i
  if Ival.isEmpty n then 0 else ((n.2 - 1 - n.1) / sp.1 + 1).toNat

def boxCount (lat : Lat) (b : Box) : Nat := ((lat.zip b).map fun x => ivalCount x.1 x.2).foldl (· * ·) 1

/-- Sorted insertion without repeats. -/
def insInt (x : Int) : List Int → List Int
  | [] => [x]
  | y :: ys => if x < y then x :: y :: ys else if x = y then y :: ys else y :: insInt x ys

def sortInts (l : List Int) : List Int := l.foldr insInt []

/-- Consecutive bounds as elementary intervals. -/
def elems : List Int → List Ival
  | a :: b :: r => (a, b) :: elems (b :: r)
  | _ => []

/-- Merges consecutive touching intervals whose cross-sections are equal (R112 rules 2 to 4); `acc` is the last one. -/
def mergeSlices (sp : Nat × Nat) : Ival × List Box → List (Ival × List Box) → List (Ival × List Box)
  | acc, [] => [acc]
  | acc, x :: r =>
    if latUp sp.1 sp.2 acc.1.2 ≥ x.1.1 && acc.2 = x.2 then mergeSlices sp ((acc.1.1, x.1.2), acc.2) r
    else acc :: mergeSlices sp x r

/-- The canonical form of the union of some boxes (R112). -/
def canon : Lat → List Box → List Box
  | [], bs => if bs.isEmpty then [] else [[]]
  | sp :: lat, bs =>
    let ns := bs.filterMap fun b =>
      match b with
      | [] => none
      | i :: r => let n := normIval sp i; if Ival.isEmpty n then none else some (n, r)
    let cuts := sortInts (ns.flatMap fun x => [x.1.1, x.1.2])
    let slices := (elems cuts).filterMap fun e =>
      let n := normIval sp e
      if Ival.isEmpty n then none
      else
        let cross := canon lat ((ns.filter fun x => x.1.1 ≤ e.1 && e.2 ≤ x.1.2).map (·.2))
        if cross.isEmpty then none else some (n, cross)
    match slices with
    | [] => []
    | x :: r => (mergeSlices sp x r).flatMap fun s => s.2.map (s.1 :: ·)

/-- The smallest box on the lattice that contains some boxes, each with a point (R113, R320). -/
def hullBox (lat : Lat) (bs : List Box) : Option Box :=
  let ns := (bs.map fun b => (lat.zip b).map fun x => normIval x.1 x.2).filter fun b => b.all fun i => !Ival.isEmpty i
  match ns with
  | [] => none
  | b :: r => some (r.foldl (fun h x => (h.zip x).map fun y => (min y.1.1 y.2.1, max y.1.2 y.2.2)) b)

def boxInter (a b : Box) : Box := (a.zip b).map fun x => (max x.1.1 x.2.1, min x.1.2 x.2.2)

/-- The points of a box outside another, as disjoint boxes; `[]` is what equal prefixes leave. -/
def boxMinus : Box → Box → List Box
  | i :: a, j :: b =>
    let mid : Ival := (max i.1 j.1, min i.2 j.2)
    if Ival.isEmpty mid then [i :: a]
    else
      (if i.1 < mid.1 then [(i.1, mid.1) :: a] else []) ++ (if mid.2 < i.2 then [(mid.2, i.2) :: a] else [])
        ++ (boxMinus a b).map (mid :: ·)
  | _, _ => []

/-- Set difference of two unions on one lattice. -/
def boxesMinus (lat : Lat) (as bs : List Box) : List Box :=
  let bs' := bs.filter fun b => boxCount lat b ≠ 0
  canon lat (bs'.foldl (fun acc b => acc.flatMap fun a => boxMinus a b) as)

def boxesInter (lat : Lat) (as bs : List Box) : List Box :=
  canon lat (as.flatMap fun a => bs.map fun b => boxInter a b)

/-- The number of points of a canonical form, whose boxes are disjoint. -/
def volume (lat : Lat) (bs : List Box) : Nat := (bs.map (boxCount lat)).sum

/-! ## Box-limit rounding -/

/-- GR and STAT.GRND (R113). -/
inductive GDir where
  | outer | inner | trap
  deriving DecidableEq, Repr

/-- The candidate of R113's OUTER: (added volume, i, j, new form). -/
abbrev OuterPick := Nat × List Box

/-- The better of two candidates: least added volume, the earlier pair on ties. -/
def pickLess (best : Option OuterPick) (c : OuterPick) : Option OuterPick :=
  match best with
  | none => some c
  | some b => if c.1 < b.1 then some c else some b

/-- The candidates of one first box with each later box. -/
def outerWith (lat : Lat) (r : List Box) (a : Box) : List Box → Option OuterPick → Option OuterPick
  | [], best => best
  | b :: bs, best =>
    match hullBox lat [a, b] with
    | none => outerWith lat r a bs best
    | some h =>
      let u := canon lat (h :: r)
      if u.length < r.length then outerWith lat r a bs (pickLess best (volume lat u - volume lat r, u))
      else outerWith lat r a bs best

def outerPick (lat : Lat) (r : List Box) : List Box → Option OuterPick → Option OuterPick
  | [], best => best
  | a :: bs, best => outerPick lat r bs (outerWith lat r a bs best)

/-- One OUTER step of R113. -/
def outerStep (lat : Lat) (r : List Box) : List Box :=
  match outerPick lat r r none with
  | some p => p.2
  | none => match hullBox lat r with | some h => [h] | none => []

/-- The index of the box of least volume, the last on ties (R113 INNER). -/
def leastVol (lat : Lat) : List Box → Nat → Nat × Nat → Nat
  | [], _, best => best.1
  | b :: bs, i, best =>
    let v := boxCount lat b
    leastVol lat bs (i + 1) (if v ≤ best.2 then (i, v) else best)

def innerStep (lat : Lat) (r : List Box) : List Box :=
  match r with
  | [] => []
  | b :: bs => canon lat (r.eraseIdx (leastVol lat bs 1 (0, boxCount lat b)))

/-- Repeats a step until at most `bl` boxes remain; each step removes one, so `fuel` is the box count. -/
def shrink (step : List Box → List Box) (bl : Nat) : Nat → List Box → List Box
  | 0, r => r
  | fuel + 1, r => if r.length ≤ bl then r else shrink step bl fuel (step r)

/-- Rounds an exact canonical form to `bl` boxes (R113, R306): the boxes and whether it was rounded, or nothing for TRAP. -/
def roundBoxes (lat : Lat) (bl : Nat) (dir : GDir) (r : List Box) : Option (List Box × Bool) :=
  if r.length ≤ bl then some (r, false)
  else
    match dir with
    | .trap => none
    | .outer =>
      if 256 < r.length then some ((match hullBox lat r with | some h => [h] | none => []), true)
      else some (shrink (outerStep lat) bl r.length r, true)
    | .inner => let r' := r.take 256; some (shrink (innerStep lat) bl r'.length r', true)

/-! ## Lattices -/

def unitLat (rank : Nat) : Lat := List.replicate rank (1, 0)

/-- The lattice of an intersection, and whether the two share points (R115). -/
def interLat (a b : Lat) : Lat × Bool :=
  ((a.zip b).map fun x => if x.1.1 < x.2.1 then x.2 else x.1,
   (a.zip b).all fun x =>
    let big := if x.1.1 < x.2.1 then x.2 else x.1
    let small := if x.1.1 < x.2.1 then x.1 else x.2
    big.2 % small.1 = small.2)

/-- Unit-width slabs, one per lattice point in each dimension of step above 1 (R115). -/
def slabs : Lat → Box → List Box
  | sp :: lat, i :: b =>
    let rest := slabs lat b
    if sp.1 = 1 then rest.map (i :: ·)
    else
      let n := normIval sp i
      (List.range (ivalCount sp i)).flatMap fun (k : Nat) =>
        let x : Int := n.1 + ((k * sp.1 : Nat) : Int)
        rest.map ((x, x + 1) :: ·)
  | _, _ => [[]]

def expandSlabs (lat : Lat) (bs : List Box) : List Box := bs.flatMap (slabs lat)

/-! ## Reshaping -/

/-- Every interval reaches a_d lattice steps further (R315). -/
def dilateBox (lat : Lat) (am : List Nat) (b : Box) : Box :=
  (lat.zip (am.zip b)).map fun x =>
    let n := normIval x.1 x.2.2
    let r : Int := ((x.2.1 * x.1.1 : Nat) : Int)
    (n.1 - r, n.2 + r)

/-- The points of a set whose whole neighbourhood lies in it (R315). -/
def erodeBoxes (lat : Lat) (am : List Nat) (bs : List Box) : List Box :=
  let cb := canon lat bs
  match hullBox lat cb with
  | none => []
  | some h =>
    let outside := boxesMinus lat [dilateBox lat am h] cb
    boxesMinus lat cb (outside.map (dilateBox lat am))

/-- The coordinates a box of signed 32-bit bounds can hold (R109, R315). -/
def rangeBox (rank : Nat) : Box := List.replicate rank (-(2 ^ 31), 2 ^ 31 - 1)

/-- A set cut to the coordinates a region can hold, and whether a point was dropped (R315, R316). -/
def cutRange (lat : Lat) (bs : List Box) : List Box × Bool :=
  let c := canon lat bs
  let r := boxesInter lat c [rangeBox lat.length]
  (r, volume lat r ≠ volume lat c)

/-- The lattice points of an interval in increasing order. -/
def ivalPts (sp : Nat × Nat) (i : Ival) : List Int :=
  (List.range (ivalCount sp i)).map fun (k : Nat) => (normIval sp i).1 + ((k * sp.1 : Nat) : Int)

/-- The lattice points of a box, d0 outermost (R116). -/
def boxPts : Lat → Box → List (List Int)
  | sp :: lat, i :: b => (ivalPts sp i).flatMap fun x => (boxPts lat b).map (x :: ·)
  | _, _ => [[]]

/-- A point lies in a box on the lattice (R109). -/
def boxHas : Lat → Box → List Int → Bool
  | sp :: lat, i :: b, x :: xs => i.1 ≤ x && x < i.2 && (x - sp.2) % sp.1 = 0 && boxHas lat b xs
  | _, _, _ => true

/-- The coordinate at which the low part first holds half the volume (R318 .vol): searched from `c` upward by lattice
interval bounds. -/
def splitVol (lat : Lat) (bs : List Box) (d : Nat) : Int :=
  let v := volume lat bs
  let need := (v + 1) / 2
  let low (c : Int) : Nat := (bs.map fun b => boxCount lat (b.set d (let i := b.getD d (0, 0); (i.1, min i.2 c)))).sum
  let lo := (bs.map fun b => (b.getD d (0, 0)).1).foldl min (2 ^ 31)
  let rec go : Nat → Int → Nat → Int
    | 0, c, _ => c
    | fuel + 1, c, w => if low (c + (w : Int)) < need then go fuel (c + (w : Int)) (w / 2) else go fuel c (w / 2)
  if v = 0 then lo else go 34 lo (2 ^ 32) + 1

/-- A union cut at one coordinate (R318). -/
def splitAt (lat : Lat) (bs : List Box) (d : Nat) (c : Int) : List Box × List Box :=
  (canon lat (bs.map fun b => b.set d (let i := b.getD d (0, 0); (i.1, min i.2 c))),
   canon lat (bs.map fun b => b.set d (let i := b.getD d (0, 0); (max i.1 c, i.2))))

end Sys2Proof.Machine
end

