-- ==== Sys2Proof/Machine/Tab.lean ====
section
/-! DEFINITION. Sparse tables: pairs of a key and a value in rising order of keys, with no entry that equals what an
unlisted key reads as, so that equal tables are equal data. -/

namespace Sys2Proof.Machine

abbrev Tab (α : Type) := List (Nat × α)

/-- The value at a key; `d` where the key is not listed. -/
def tget {α : Type} (d : α) : Tab α → Nat → α
  | [], _ => d
  | (k, v) :: r, n => if n = k then v else tget d r n

/-- The table with a key's entry removed. -/
def tdel {α : Type} : Tab α → Nat → Tab α
  | [], _ => []
  | (k, v) :: r, n => if n = k then tdel r n else (k, v) :: tdel r n

/-- The table with an entry placed at a key. -/
def tins {α : Type} : Tab α → Nat → α → Tab α
  | [], n, x => [(n, x)]
  | (k, v) :: r, n, x => if n < k then (n, x) :: (k, v) :: r else if n = k then (n, x) :: r else (k, v) :: tins r n x

/-- Writes a key; the value that an unlisted key reads as is not listed. -/
def tput {α : Type} [DecidableEq α] (d : α) (t : Tab α) (n : Nat) (x : α) : Tab α :=
  if x = d then tdel t n else tins t n x

/-- An entry, where one is listed. -/
def tfind {α : Type} : Tab α → Nat → Option α
  | [], _ => none
  | (k, v) :: r, n => if n = k then some v else tfind r n

/-- Every key is above `lo`, keys rise, and no entry is the default. -/
def twfFrom {α : Type} [DecidableEq α] (d : α) : Nat → Tab α → Bool
  | _, [] => true
  | lo, (k, v) :: r => lo ≤ k && v ≠ d && twfFrom d (k + 1) r

/-- The canonical form of a table. -/
def twf {α : Type} [DecidableEq α] (d : α) (t : Tab α) : Bool := twfFrom d 0 t

end Sys2Proof.Machine
end

