-- ==== Sys2Proof/Machine/Types.lean ====
section
/-! DEFINITION. The pieces of the machine's state: contexts, cores and their register files, engine queues, and the small
records that they hold. Numbers of parts are those of R12. -/

namespace Sys2Proof.Machine

/-! ## Contexts -/

/-- A hardware loop level (R235, R238). -/
structure Loop where
  start : Word
  fin : Word
  count : Word
  active : Bool
  rot : Bool
  rs : Nat
  pass : Nat
  deriving DecidableEq, Repr

/-- A helper's state (R42); a control or program context is LIVE while it runs. -/
inductive Life where
  | free | live | ended
  deriving DecidableEq, Repr

/-- One byte that the context stored to shared memory since its last acquire point that covered it (R84), whether a
release has published it or it waits for none, the journal entry of the store, the table entry of its page, the place of its access in
the context's program order, and that of the PUB that publishes it, 0 where none is under way; with the store's own place in program order, its
instruction's address and its pointer (R401, R415). -/
structure OwnByte where
  loc : Nat
  val : Byte
  pub : Bool
  jrn : Option Nat
  pte : Nat
  acc : Nat
  rel : Nat
  num : Nat
  pc : Word
  ptr : Nat
  deriving DecidableEq, Repr

/-- A lock bit: of a core's local memory or a cluster's shared memory, its bank and number (R94, R251). -/
structure LockBit where
  shared : Bool
  part : Nat
  bank : Nat
  bit : Nat
  deriving DecidableEq, Repr

/-- Where traffic of a release may have gone (R101). -/
inductive Dest where
  | memCore (m : Nat)
  | cluster (c : Nat)
  | peer (p : Nat)
  deriving DecidableEq, Repr

/-- The destinations that a release at package or system scope waits for, each with whether it has gathered the markers of every path
(R101). -/
abbrev Dests := List (Dest × Bool)

/-! ## Region registers, tensor shape records, rings -/

/-- A region register (R109); the lattice gives each dimension its step exponent and phase. -/
structure Region where
  tsr : Nat
  rank : Nat
  lat : List (Nat × Nat)
  canon : Bool
  inx : Bool
  rag : Bool
  boxes : List Box
  owner : Nat
  deriving DecidableEq, Repr

/-- A tensor shape record (R104). -/
structure Tsr where
  base : Nat
  rag : Nat
  ext : List Nat
  stride : List Int
  origin : List Int
  tile : List Nat
  ctrl : Nat
  deriving DecidableEq, Repr

/-- A ring o0 to o3 (R146). -/
structure Ring where
  tail : Nat
  head : Nat
  occ : Nat
  count : Nat
  slotsz : Nat
  base : Nat
  sbase : Nat
  scl : Bool
  deriving DecidableEq, Repr

/-- An accumulator register's span of engine slots (R148). -/
structure AMap where
  slot : Nat
  len : Nat
  deriving DecidableEq, Repr

/-- A weight-tile key (R145); `pd` is none when the record is SHAREABLE. -/
structure WKey where
  ptr : Nat
  fmt : TCode
  scale : Nat
  scm : Nat
  rnd : Rnd
  pd : Option Nat
  deriving DecidableEq, Repr

/-! ## Waits -/

/-- What an atomic does at its home (R249 to R251). -/
inductive AtomicKind where
  | llk | sul | add | min | max | and | or | xor | swp | cas | fadd | ecrd | ecclr
  deriving DecidableEq, Repr

/-- An atomic request: kind, type, pointer, location, operand, comparand, destination, rounding, table entry. -/
structure AtomicReq where
  kind : AtomicKind
  t : TCode
  ptr : Nat
  loc : Nat
  y : Word
  cmp : Word
  d : Nat
  rm : Rnd
  pte : Nat
  deriving DecidableEq, Repr

/-- What holds a context that is not ready (R45, R46, R82, R216, R399). -/
inductive Wait where
  | none
  /-- a table walk for a data access, or for a fetch (R80, R399) -/
  | walk (va : Nat) (fetch : Bool)
  /-- an answer from a home: the registers it will write, and the pointer and size read (R46) -/
  | answer (writes : List (Nat × Word)) (ptr : Nat) (size : Nat) (loc : Nat)
  /-- an atomic on its way to its home (R92) -/
  | atomic (r : AtomicReq)
  /-- a TBIND or GLD whose record comes from a home -/
  | bind (n : Nat) (r : Tsr) (ptr : Nat) (loc : Nat)
  | gload (n : Nat) (r : Region) (ptr : Nat) (locs : List Nat)
  /-- a block of code to be fetched (R188, R208) -/
  | block (va : Nat)
  /-- Smirvadin's answer to SYSC (R216): the destination and the two arguments -/
  | sysc (d : Nat) (a b : Word)
  /-- the small context travels to the core that HOME names (R82 step 1), for an access at `va` -/
  | shipping (m : Nat) (va : Word)
  /-- service of an absent entry at that core (R82 step 2) -/
  | service (m : Nat) (va : Word)
  /-- service for a fetch, which ships no context (R399) -/
  | fetchService (m : Nat) (va : Word)
  /-- the small context travels home (R82 step 5) -/
  | returning
  /-- acknowledgements of a release at a scope (R101, R102) -/
  | release (scope : Nat) (dests : Dests)
  /-- the retirements that a release has sent after it published its stores (R165, R346) -/
  | retirements
  /-- the append of a KVAPP with D not 0, with its queue entry's number (R344) -/
  | token (entry : Nat) (d : Nat)
  deriving DecidableEq, Repr

/-- The small context of R82: PC, scalars and predicates. -/
structure SmallCtx where
  pc : Word
  s : Tab Word
  p : BitVec 8
  deriving DecidableEq, Repr

/-- An away context: where it runs, the copy that the home kept at departure, the address of the access, the length of the instruction
that departed (R82, R415), and how far the context's program order had come. -/
structure Away where
  core : Nat
  copy : SmallCtx
  va : Word
  len : Nat
  ops : Nat
  deriving DecidableEq, Repr

/-- A range that a context holds (R51, R274), with its CREQ (R179, R184). -/
structure RangeTask where
  va : Nat
  code : Word
  frame : Word
  lo : Nat
  hi : Nat
  grain : Nat
  creq : Bool
  deriving DecidableEq, Repr

/-- A pending asynchronous cause (R393): code, XVAL, and the journal entry of a journal-reported one. -/
structure AsyncCause where
  code : Nat
  val : Word
  entry : Option Nat
  deriving DecidableEq, Repr

/-- A PUB that is not yet performed (R86, R266): its place in program order, its scope, the locations of its cells, and its destinations once its turn among the context's releases has come. -/
structure Pub where
  num : Nat
  scope : Nat
  cells : List Nat
  dests : Option Dests
  deriving DecidableEq, Repr

/-- A context (R42, R219). `atBarrier` says that it has executed nothing in USER mode since a barrier released it: it stands at an exchange boundary
(R373). `canreq` is the CREQ of its record, `unserved` the VA whose service failed (R82, R414), `wlen` the length of the instruction that waits,
`search` 1 while RQGET searches the die and 2 when the die had no candidate (R179), `ops` the stores, posts, engine entries and PUBs that
the context has issued, which number them in program order (R86, R92). -/
structure Ctx where
  pc : Word
  s : Tab Word
  p : BitVec 8
  stat : Word
  xpc : Word
  xcause : Word
  xval : Word
  fmtd : Word
  canreq : Bool
  loops : List Loop
  saved : List Loop
  life : Life
  view : Tab Byte
  own : List OwnByte
  pubs : List Pub
  lock : Option LockBit
  wait : Wait
  away : Option Away
  record : Option Nat
  range : Option RangeTask
  sprets : List (Nat × Nat)
  pend : List AsyncCause
  stopped : Bool
  missPosl : Option Word
  search : Nat
  under : Tab Word
  cameFrom : Word
  released : Bool
  unserved : Option Nat
  wlen : Nat
  inPre : Bool
  trapCyc : Nat
  owedAcq : Option Nat
  starter : Option (Nat × Nat)
  ops : Nat
  recalling : Bool
  atBarrier : Bool
  deriving DecidableEq, Repr

/-- A posted store or exact-cell operation on its way to its home (R402): the context, its journal entry, its pointer, the location and
size of each part, how many parts their homes have accepted, the operation where it is one on an exact cell, the refusal that follows them
(its cause, and the die whose log is full), whether the operation has been accepted whole, and its place in program order. -/
structure Post where
  cid : Nat
  jrn : Option Nat
  ptr : Nat
  parts : List (Nat × Nat)
  took : Nat
  req : Option AtomicReq
  refuse : Option (Nat × Nat)
  arrived : Bool
  num : Nat
  deriving DecidableEq, Repr

/-! ## Engine queues -/

/-- The kinds of transfer (R252). -/
inductive XKind where
  | get | send | copy | mma | cnt
  deriving DecidableEq, Repr

/-- A transfer as captured at issue (R108, R252, R254 to R257): its records and region, the points left to land in the order of
R116, how many have landed, the ring advance and count that its completion performs, and for a held send the cell values
read as the exchange phase begins, and whether it has been announced (R424); the mode that issued it, for the areas of local memory (R69),
and the protection domain and address space of its issuer. `parked` holds the points that wait in a memory core's landing buffer, each with
the memory core and its bytes (R419); `failed` a refusal that waits for those, with its cause and address, and `dropped` the points that it
dropped (R420); `tag` is the transfer's own, under which the parts of a poisoned unit that it lands are known (R429). -/
structure Transfer where
  tag : Nat
  kind : XKind
  src : Tsr
  dst : Tsr
  dstIdx : Nat
  lat : Lat
  boxes : List Box
  todo : List (List Int)
  landed : Nat
  adv : Option (Nat × Nat)
  count : Nat
  mma : Option Nat
  vals : Option (List (Option Nat))
  announced : Bool
  watch : Bool
  mode : Nat
  pd : Nat
  root : Option Nat
  parked : List (List Int × Nat × Nat)
  failed : Option (Nat × Nat)
  dropped : List (List Int)
  deriving DecidableEq, Repr

/-- An MMA as captured at issue (R335, R337): ring, accumulator register, rows, formats, key, the steps that have not arrived
and whether one is in the setter or on the vector path. An XMMA's MMA is not ready until its transfer has landed (R159). `waits` is its arrival
cycle where the setter had no FREE entry for it (R151); `task` is the record or the range that its context ran at issue (R152). -/
structure MmaOp where
  ring : Nat
  acc : Nat
  rows : Nat
  afmt : TCode
  sat : Bool
  iacc : Bool
  key : WKey
  hold : Option Nat
  prio : Nat
  steps : List Nat
  cur : Nat
  tsr : Option Tsr
  busy : Bool
  ready : Bool
  waits : Option Nat
  task : Option Nat
  deriving DecidableEq, Repr

/-- The bytes that an entry writes to local memory when it completes: offset and bytes. -/
abbrev Landing := List (Nat × List Byte)

/-- What an engine queue entry does. -/
inductive QOp where
  | xfer (x : Transfer)
  | mma (m : MmaOp)
  | drain (off : Nat) (acc : Nat) (pitch : Nat) (t : TCode) (rm : Rnd) (sat iacc : Bool) (out : Landing)
  | zero (acc : Nat)
  | swap (off : Nat) (acc : Nat)
  | holdFire
  | holdSet (n : Nat)
  | mark (m : Nat) (scope : Nat) (dests : Option Dests)
  | fence (after : List (Nat × Nat))
  | mcrun (code arg : Word) (line : Nat)
  | kvapp (va : Nat) (src : Nat) (d : Nat)
  | kvseal (va : Nat)
  | spset (va : Nat) (tag : Nat)
  deriving DecidableEq, Repr

/-- An entry of an engine queue (R95): its number on its core in issue order, the context that issued it, what it does, its
journal entry, whether its engine has started it, its place in the context's program order, and its instruction's address. -/
structure QEntry where
  id : Nat
  ctx : Nat
  pc : Word
  op : QOp
  jrn : Option Nat
  performed : Bool
  num : Nat
  deriving DecidableEq, Repr

/-- An engine queue: the entries not yet complete, oldest first, the count of marks placed modulo 2^32 (R259), and the
shared and global locations that complete entries landed and no mark has published at system or package scope (R97). -/
structure EQueue where
  entries : List QEntry
  marks : Nat
  landed : List (Nat × Nat)
  deriving DecidableEq, Repr

/-- A timed slot that XSTS uses (R258): the XSTS's address, slot index, destination core, offsets, length, and its bytes once read. -/
structure TimedSend where
  pc : Word
  slot : Nat
  dest : Nat
  src : Nat
  dst : Nat
  len : Nat
  data : Option (List Byte)
  deriving DecidableEq, Repr

/-- What a core holds for the exchange phase of a launch's domain (R254): a counted send with its journal entry, or a timed slot; and its place
in its context's program order (R86). -/
structure HeldSend where
  id : Nat
  ctx : Nat
  launch : Nat
  dom : Nat
  jrn : Option Nat
  xfer : Option Transfer
  slot : Option TimedSend
  num : Nat
  deriving DecidableEq, Repr

/-- An entry of the outstanding-transfer table (R117). -/
structure Outst where
  base : Nat
  hull : Box
  queue : Nat
  entry : Nat
  deriving DecidableEq, Repr

/-- An entry of the position translation buffer as its 192 bits (R168). -/
abbrev PtbEntry := Nat

/-- A translation of one leaf (R80): the root of its address space, first address, physical address, size in bits, R, W and X, and its
table entry. -/
structure TlbEntry where
  root : Nat
  va : Nat
  pa : Nat
  size : Nat
  r : Bool
  w : Bool
  x : Bool
  pte : Nat
  deriving DecidableEq, Repr

/-- A slot of the launch's slot table whose source is this core (R61). -/
structure SlotRow where
  cycle : Nat
  len : Nat
  dest : Nat
  deriving DecidableEq, Repr

/-- A message that the network interface spilled (R406): bits of a value at a local offset, or an addition to a count word; `len` is the
bytes that it holds, `tag` its transfer's (R429). -/
structure Spilled where
  tag : Nat
  off : Nat
  len : Nat
  lo : Nat
  wid : Nat
  val : Nat
  count : Nat
  deriving DecidableEq, Repr

/-- What waits in a core's spill buffer in order of arrival (R406): a message, the advance of a ring by the transfer whose data it
follows, the report of its landing to a watch, or the end of the data of a launch's RECV step (R371). -/
inductive Held where
  | msg (m : Spilled)
  | step (l va : Nat)
  | ring (n slots : Nat)
  | report (pc data : Word)
  deriving DecidableEq, Repr

/-- The points of one counted send that did not land in an exchange, for the core that reports them (R420, R421, R424). -/
structure Missing where
  core : Nat
  base : Nat
  tsr : Nat
  lat : Lat
  points : List (List Int)
  lost : Bool
  deriving DecidableEq, Repr

/-! ## The matrix engine and the setter of a cluster -/

/-- The state of a setter entry (R152); a FREE one is not listed. The number is its group. -/
inductive SLife where
  | held
  | fired (group : Nat)
  | running (group : Nat)
  deriving DecidableEq, Repr

/-- A setter entry (R152): one step of an MMA with the context and the task that issued it, its tile's key, and its deadline. -/
structure SEntry where
  core : Nat
  id : Nat
  ctx : Nat
  task : Option Nat
  step : Nat
  acc : Nat
  ring : Nat
  rows : Nat
  prio : Nat
  key : WKey
  arrive : Nat
  deadline : Nat
  life : SLife
  deriving DecidableEq, Repr

/-- A group that fired and has not finished (R153, R155): its number in firing order, its key and its priority. -/
structure Group where
  id : Nat
  key : WKey
  prio : Nat
  deriving DecidableEq, Repr

/-- A record in a cluster's queue (R176): where it lies, its launch, kind and priority, the core it is placed on, and for a
parked one the core that parked it and the domain that it had selected. A unit of the launch (R57) has its linear index, and lies nowhere; `ctx` is its helper. -/
structure QRec where
  va : Nat
  launch : Nat
  kind : Nat
  prio : Nat
  core : Option Nat
  parker : Nat
  parkDom : Nat
  unit : Option Nat
  ctx : Nat
  deriving DecidableEq, Repr

/-- A cluster: its queues as one list in order of arrival, the records parked for a barrier, the launch last served and the
aging counter of each level (R176 to R178); the accumulator slots with their flags and poisoned elements (R148, R149, R427);
the setter, the fired groups, and the two tile buffers: ACTIVE with its key, and PRELOAD's group with what its load gave, once it has been read, the tile or a
cause (R144, R152); the second-level TLB (R80). -/
structure Cluster where
  queue : List QRec
  parked : List QRec
  last : List (Option Nat)
  age : List Nat
  slots : Tab (BitVec 65536)
  flags : Tab Nat
  bad : List (Nat × Nat)
  setter : List SEntry
  groups : List Group
  nextGroup : Nat
  active : Option (WKey × List Byte)
  preload : Option (Nat × Option (Sum Nat (List Byte)))
  running : Option Nat
  tlb : List TlbEntry
  deriving DecidableEq, Repr

/-! ## Launches and grants -/

/-- A launch as the package launch unit keeps it (R53 to R57, R174, R182, R184, R468). `stage` is 0 when LAUNCH has handed it
over, 1 while it runs, 2 when its completion record is final; `orphans` are the ranges that contexts of cores that have left still hold
(R182); `coRes` says that its units are resident all at once (R59, R64), `saveb` that the launch has a save block (R405); `handlers` has a bit
for each cause with a handler of Smirvadin's (R430), and `withdrawn` says that its function was reset (R365, R453); `switch` is 1 once a job-wide switch has drained it and 2 while it is out
(R407). -/
structure Launch where
  va : Nat
  root : Nat
  func : Nat
  pd : Nat
  stage : Nat
  phased : Bool
  scope : Nat
  unitScope : Nat
  hlim : Nat
  prio : Nat
  code : Word
  frame : Word
  fin : Nat
  deps : Nat
  block : List Byte
  rings : List (Nat × Nat × Nat × Nat)
  slots : List (Nat × SlotRow)
  cores : List Nat
  left : List Nat
  orphans : List (Nat × RangeTask)
  start : Nat
  units : Nat
  ncanc : Nat
  cancelled : Bool
  withdrawn : Bool
  failed : Option Nat
  held : Bool
  switch : Nat
  coRes : Bool
  miss : Bool
  handlers : Nat
  saveb : Bool
  ring : Nat
  xbase : Word
  deriving DecidableEq, Repr

/-- An entry of the package's grant table (R264). -/
structure Grant where
  launch : Nat
  base : Nat
  region : Region
  dom : Bool
  target : Nat
  write : Bool
  deriving DecidableEq, Repr

/-- A retirement that a release point has sent to its record's home, with the release point's place in program order (R165, R346, R402). -/
structure Retiring where
  cid : Nat
  va : Nat
  tag : Nat
  jrn : Option Nat
  num : Nat
  deriving DecidableEq, Repr

/-- A retirement that has performed, and that each core applies at its first acquire point that covers the record (R170); the record's
bytes as runs of locations. -/
structure Retired where
  id : Nat
  runs : List (Nat × Nat)
  seq : Nat
  tag : Nat
  close : Bool
  deriving DecidableEq, Repr

/-! ## Hosts, links, migration, security -/

/-- A mapping that a function made with MAP (R363), with its rights: bit 0 R, bit 1 W, bit 2 X. -/
structure Mapping where
  va : Nat
  size : Nat
  leaf : Nat
  rights : Nat
  deriving DecidableEq, Repr

/-- A range of an address space that holds objects or records which Smirvadin loaded for a launch (R465): its root, first VA and bytes. -/
structure Reserve where
  root : Nat
  va : Nat
  size : Nat
  deriving DecidableEq, Repr

/-- A physical or virtual function (R361, R362): its port, its rings with their indices as running counts, the responses that wait
for a free slot, the MSI-X messages raised, its address space and its mappings. -/
structure Func where
  port : Nat
  req : Tab Nat
  reqTail : Nat
  reqHead : Nat
  rsp : Tab Nat
  rspTail : Nat
  rspHead : Nat
  waiting : List Nat
  msix : Nat
  root : Nat
  maps : List Mapping
  deriving DecidableEq, Repr

/-- A request that Smirvadin has taken and not yet answered (R363, R364, R452): its bytes moved so far, and its launch. -/
structure HostReq where
  func : Nat
  tag : Nat
  opc : Nat
  args : List Nat
  active : Bool
  moved : Nat
  launch : Option Nat
  deriving DecidableEq, Repr

/-- A part of a RECV's data that has arrived: its offset and length, and the port under whose number it was sent (R369). -/
structure Piece where
  off : Nat
  len : Nat
  port : Nat
  num : Nat
  deriving DecidableEq, Repr

/-- The traffic with a peer under one port's numbers (R368, R369): the last number sent, the number up to which every packet has been
received and performed, the later ones that have been, the markers that wait, and the highest that has been acknowledged. -/
structure Uet where
  sent : Nat
  base : Nat
  ahead : List Nat
  markers : List Nat
  gathered : Nat
  deriving DecidableEq, Repr

/-- A packet sent to a peer: the port that carries it and the port under whose numbers it goes, peer, number, the step's launch and record, and
offset and bytes of its data (R368, R369, R455). -/
structure Packet where
  port : Nat
  of : Nat
  peer : Nat
  num : Nat
  launch : Nat
  va : Nat
  off : Nat
  bytes : List Byte
  deriving DecidableEq, Repr

/-- A collective step that the engine holds (R370, R371): its record's fields, its data, how far it is: 0 pending, 1 started,
2 complete, 3 failed; the bytes that the source of a SEND held at its core's last SYNC, and the flush markers of a SEND that the peer has not
acknowledged: the port whose numbers it closes, the number, and the port that carries it (R369, R455); and whether the data of a RECV have
landed in local memory. -/
structure CStep where
  launch : Nat
  va : Nat
  op : Nat
  peer : Nat
  ports : Nat
  addr : Nat
  len : Nat
  after : Nat
  table : Nat
  data : Tab Byte
  arrived : List Piece
  stage : Nat
  kept : Option (Tab Byte)
  marks : List (Nat × Nat × Nat)
  landed : Bool
  deriving DecidableEq, Repr

/-- An arrival that waits in a job's bounce ring (R410), with its peer and the number under which its port received it. -/
structure Bounced where
  peer : Nat
  launch : Nat
  core : Nat
  off : Nat
  bytes : List Byte
  seq : Nat
  port : Nat
  num : Nat
  deriving DecidableEq, Repr

/-- The migration of a function (R373, R457): 1 copying, 2 final copy acknowledged, 3 COMMIT sent (source); 4 copy held, 5 resumed
(destination); 6 at a source that never runs the function again, until its next reset; the dirty word read last, the other package, the dirty rounds
done, whether the final round has begun, the frames that the source has sent, how many images of the function it has sent, and the frames whose dirty
bits the agent has read and cleared, and that it has yet to send. -/
structure Migration where
  stage : Nat
  dirtyWord : Nat
  peer : Nat
  rounds : Nat
  last : Bool
  frames : List (Nat × List Byte)
  sent : Nat
  owed : List Nat
  deriving DecidableEq, Repr

/-- The Birhiry core (R375 to R382, R458 to R464): the fuses (lifecycle 0 BLANK, 1 VENDOR, 2 SECURE, 3 RETIRED, what they become
at the next reset, the rollback counter, the DBGPATH fuse: 0 a Vexpen port, 1 the mailbox), the boot's stage (0 waits for the
header, 1 for the body, 2 booted, 3 recovery) with the header read and the failure's code, the tenant keys, the nonce with the
cycle of its issue, consecutive refusals, the open level with its expiry, whether a signature is being computed and the measurement blocks
that it covers, the ignored freezes, and what it has answered. -/
structure Birhiry where
  life : Nat
  nextLife : Nat
  rollback : Nat
  dbgPath : Nat
  boot : Nat
  header : Nat
  code : Nat
  keys : Tab Nat
  nonce : Option (Nat × Nat)
  refusals : Nat
  level : Nat
  expiry : Nat
  busy : Bool
  blocks : Nat
  frozen : Bool
  wasOpen : Bool
  ignored : Nat
  answers : List (Nat × Nat × Nat)
  scan : Tab Nat
  scanOut : Nat
  deriving DecidableEq, Repr

/-- A profiler's grant (R383, R463): its kind, 1 CAPFIX or 2 PIN, its holder, and the clusters that it pins. -/
structure Profiler where
  kind : Nat
  func : Nat
  clusters : List Nat
  deriving DecidableEq, Repr

/-- A core: a compute core, a memory or far-memory core, one of its program contexts' files, or a supervisor core. -/
structure Core where
  v : Tab VReg
  k : Tab Mask
  z : Tab Word
  g : Tab Region
  t : Tab Tsr
  o : Tab Ring
  a : Tab AMap
  key : Option WKey
  keyTsr : Option Tsr
  q : Tab EQueue
  nextId : Nat
  outst : List Outst
  held : List HeldSend
  used : List (Nat × Nat)
  ptb : List PtbEntry
  xjrn : Word
  xbase : Word
  mvth : Word
  hold : Word
  bubl : Word
  bud : Nat
  demand : Nat
  bdom : Nat
  launch : Option Nat
  hlim : Nat
  rank : Nat
  ssbase : Nat
  rows : List SlotRow
  locks : List (LockBit × Nat)
  blocks : Tab (List Byte)
  itlb : List TlbEntry
  dtlb : List TlbEntry
  waddr : Tab Word
  wctl : Tab Word
  llo : Word
  lhi : Word
  spill : List Held
  dests : List Dest
  root : Nat
  jholder : Option Nat
  haltReq : Bool
  jdb : Bool
  vpath : Option Nat
  retDone : List Nat
  deriving DecidableEq, Repr

end Sys2Proof.Machine
end

