-- ==== Sys2Proof/Machine/State.lean ====
section
/-! DEFINITION. The machine's state: the whole package as plain data, the reasons a step can stop, and the state after
reset. Contexts are numbered: compute core c, context x is 16c + x (0 the control context, 1 to 10 the helpers); program
context j of memory core m (far-memory cores from 384) is 0x10000 + 16m + j; supervisor core u is 0x20000 + 16u. Memory is
one space of locations: a physical address below 2^48, core-local memory, cluster shared memory and weight stores above. -/

namespace Sys2Proof.Machine

/-- Why the machine stops with a fault. -/
inductive Fault where
  /-- Raised by an access whose translation names physical memory that R76 does not give the device: PA[46:42] or an offset
  of 3 GiB and more in bonded DRAM, PA[46:44] in CXL memory. Safe: the spec gives such an access no effect. -/
  | noSuchMemory
  deriving DecidableEq, Repr

/-- Why a step gives no meaning. -/
inductive Refusal where
  /-- Raised by an arm of `exec` whose instruction has no meaning yet, by its mnemonic. Safe: nothing is claimed of it. -/
  | notModelled (mnemonic : String)
  deriving DecidableEq, Repr

/-- A byte that was published at a narrow scope (R87): at which scope and instance, and what the location held before; the context
whose store it was, none for data that an engine landed; and the publication and access that it was part of (R89). -/
structure Limited where
  loc : Nat
  scope : Nat
  inst : Nat
  old : Byte
  who : Option Nat
  num : Nat
  acc : Nat
  deriving DecidableEq, Repr

/-- What moves next: a context issues, or an event of the table takes place. -/
inductive Turn where
  | issue (cid : Nat)
  | event (i : Instr)
  deriving DecidableEq, Repr

/-- A die's trace ring in supervisor memory (R384): where it lies, its records, the next one, and the sample exponent. -/
structure Trace where
  base : Nat
  size : Nat
  next : Nat
  period : Nat
  deriving DecidableEq, Repr

/-- A compute die: its loss and link states (R423), the entries of its deferred-store log as context and line in order of arrival (R90, R416),
refresh position (R75), trace, and the counts of corrected errors per structure (R427). -/
structure Die where
  lost : Bool
  linksDown : List Nat
  log : List (Nat × Nat)
  wsBase : Nat
  trace : Trace
  corrected : Tab Nat
  deriving DecidableEq, Repr

/-- What a core sends Smirvadin when a handler faults (R396): context, second cause, second instruction's address. -/
structure HandlerFault where
  cid : Nat
  cause : Nat
  pc : Word
  deriving DecidableEq, Repr

/-- A request in Smirvadin's service queue (R216). -/
structure SyscReq where
  launch : Nat
  cid : Nat
  a : Word
  b : Word
  deriving DecidableEq, Repr

/-- An active barrier domain of a launch (R59, R60): its cores, its scope, the superstep number, who has arrived and when,
who has left, whether the exchange phase runs, the ring of cone records (R387), how the exchange failed (R420, R423), what its held traffic
landed in shared or global memory, with the context that sent it, and the reports of its landings: core, whether a timed slot landed, address
and data (R385, R422). -/
structure Domain where
  members : List Nat
  scope : Nat
  ssn : Nat
  arrived : List (Nat × Nat)
  gone : List Nat
  exchange : Bool
  coneBase : Nat
  missing : List Missing
  refused : Bool
  lostDie : Option Nat
  landed : List (Nat × Nat)
  reports : List (Nat × Bool × Word × Word)
  deriving DecidableEq, Repr

def Domain.init : Domain :=
  { members := [], scope := 0, ssn := 0, arrived := [], gone := [], exchange := false, coneBase := 0, missing := [],
    refused := false, lostDie := none, landed := [], reports := [] }

/-- A core's image in the job's switch area (R409): the core, its contexts, its local memory, and its part of the cluster's accumulators with
their flags and poisoned elements. -/
structure Image where
  launch : Nat
  num : Nat
  core : Core
  ctxs : List Ctx
  local_ : Tab Byte
  slots : Tab (BitVec 65536)
  flags : Tab Nat
  bad : List (Nat × Nat)
  deriving DecidableEq, Repr

/-- The state behind a die's scan chain (R389): the die, its cores and its memory cores' files, their contexts, its clusters. -/
structure DieState where
  die : Die
  cores : Tab Core
  ctxs : Tab Ctx
  clusters : Tab Cluster
  deriving DecidableEq, Repr

/-- What a die's chain reads as in some state, and the state that a die has once its chain holds some bits: the spec gives no map of the chain (R389;
DESIGN CHOICE, log 9). Bits that stand for no state leave it as it is. -/
opaque chainOf : Nat → DieState → Nat
opaque scannedDie : Nat → Nat → Option DieState

/-- What another package sends of a function that migrates here, by a number of its own: the images of its cores, and its launches with their
barrier domains. The form of that stream is not given (R373; DESIGN CHOICE, log 65). -/
opaque importedImage : Nat → Option Image
opaque importedLaunch : Nat → Option (Launch × Tab Domain)

/-- The package. `pubs` counts publications; `reserves` are the ranges of loaded objects, `privs` has the bytes of each context's private segment by
the address space's root, and `pools` the page pools, as root and VA, that token operations and Smirvadin have used (R161, R373, R465); `mending` holds the bits of poisoned units that a transfer has landed, as its tag and the bit's
place (R429); `buffers` holds each deferred store buffer's entries, as context and line, in order of arrival
(R90): key m for memory core m, 0x1000 + c for cluster c. `prefServices` are the services that prefetches have asked for: context, HOME, VA
(R246). `hostLost` are the host ports that have left link-up and not come back, `aer` the errors that host ports report: port and kind, 1 poisoned,
2 Unsupported Request, 3 Completer Abort, 4 timeout (R451, R452). `vfSplit` is the number of virtual functions that boot gave port 0, once it has divided them (R361); `cxlCap` holds the capacity in
bytes of each port's expander (R366). -/
structure State where
  mem : Tab Byte
  lim : List Limited
  pubs : Nat
  buffers : Tab (List (Nat × Nat))
  poison : List Nat
  mending : List (Nat × Nat)
  posts : List Post
  ctxs : Tab Ctx
  cores : Tab Core
  dies : Tab Die
  hfaults : List HandlerFault
  sysc : List SyscReq
  prefs : List (Nat × Nat)
  prefServices : List (Nat × Nat × Nat)
  bells : List Nat
  clusters : Tab Cluster
  launches : Tab Launch
  grants : Tab Grant
  retiring : List Retiring
  retired : List Retired
  domains : Tab Domain
  images : List Image
  reserves : List Reserve
  privs : Tab Nat
  pools : List (Nat × Nat)
  funcs : Tab Func
  vfSplit : Option Nat
  reqs : List HostReq
  hostOut : List (Nat × Nat × List Byte)
  hostUp : List Nat
  hostLost : List Nat
  aer : List (Nat × Nat)
  cxlUp : List Nat
  cxlCap : Tab Nat
  vexUp : List Nat
  discards : Tab Nat
  peersLost : List Nat
  steps : List CStep
  uet : Tab Uet
  vexOut : List Packet
  ptt : Tab (Option Bool)
  bounce : List Bounced
  dirty : List (Nat × Nat)
  migs : Tab Migration
  birhiry : Birhiry
  profilers : List Profiler
  cap : Nat
  cyc : Nat
  pkgid : Nat
  meas : Tab (BitVec 512)
  cur : Nat
  agenda : List Turn
  free : Nat
  deriving DecidableEq, Repr

/-- A loop level that is not active (R235). -/
def Loop.off : Loop := { start := 0, fin := 0, count := 0, active := false, rot := false, rs := 0, pass := 0 }

/-- STAT after reset: GRND 01 (R220). -/
def statReset : Word := 0x100
/-- STAT after reset on a supervisor core: MODE 10 (R220). -/
def statSupervisor : Word := 0x102

/-- A context after reset (R42, R219, R220); the registers that the spec gives no reset value hold zero (DESIGN CHOICE, log 2). -/
def Ctx.init (stat : Word) : Ctx :=
  { pc := 0, s := [], p := 0, stat := stat, xpc := 0, xcause := 0, xval := 0, fmtd := 15, canreq := false,
    loops := [Loop.off, Loop.off, Loop.off, Loop.off], saved := [Loop.off, Loop.off, Loop.off, Loop.off], life := .free,
    view := [], own := [], pubs := [], lock := none, wait := .none, away := none, record := none, range := none,
    sprets := [], pend := [], stopped := false, missPosl := none, search := 0, under := [], cameFrom := BitVec.allOnes 64, released := false,
    unserved := none, wlen := 0, inPre := false, trapCyc := 0, owedAcq := none, starter := none, ops := 0, recalling := false, atBarrier := false }

/-- A region register after reset: EMPTY, TSR index 0, rank 1, unit lattice, owned by the control context (R110, DESIGN CHOICE, log 2). -/
def Region.init : Region :=
  { tsr := 0, rank := 1, lat := [(0, 0)], canon := true, inx := false, rag := false, boxes := [], owner := 0 }

/-- A ring after reset (R146): not configured. -/
def Ring.init : Ring := { tail := 0, head := 0, occ := 0, count := 0, slotsz := 0, base := 0, sbase := 0, scl := false }

def EQueue.init : EQueue := { entries := [], marks := 0, landed := [] }

/-- A core after reset. -/
def Core.init : Core :=
  { v := [], k := [], z := [], g := [], t := [], o := [], a := [], key := none, keyTsr := none, q := [], nextId := 0, outst := [],
    held := [], used := [], ptb := [], xjrn := 0, xbase := 0, mvth := 0, hold := 0, bubl := 0, bud := 2, demand := 0, bdom := 0,
    launch := none, hlim := 0, rank := 0, ssbase := 0, rows := [], locks := [], blocks := [], itlb := [],
    dtlb := [], waddr := [], wctl := [], llo := 0, lhi := 0, spill := [], dests := [], root := 0, jholder := none, haltReq := false, jdb := false,
    vpath := none, retDone := [] }

/-- A cluster after reset. -/
def Cluster.init : Cluster :=
  { queue := [], parked := [], last := [none, none, none, none], age := [0, 0, 0], slots := [], flags := [], bad := [],
    setter := [], groups := [], nextGroup := 0, active := none, preload := none, running := none, tlb := [] }

/-- A launch number that names no launch. -/
def Launch.init : Launch :=
  { va := 0, root := 0, func := 0, pd := 0, stage := 2, phased := false, scope := 0, unitScope := 0, hlim := 0, prio := 0,
    code := 0, frame := 0, fin := 0, deps := 0, block := [], rings := [], slots := [], cores := [], left := [], orphans := [], start := 0,
    units := 0, ncanc := 0, cancelled := false, withdrawn := false, failed := none, held := false, switch := 0, coRes := false, miss := false, handlers := 0, saveb := false, ring := 0, xbase := 0 }

def Die.init : Die :=
  { lost := false, linksDown := [], log := [], wsBase := 0, trace := { base := 0, size := 0, next := 0, period := 0 },
    corrected := [] }

/-- A function on a port after reset: empty rings, no mapping. -/
def Func.init (port : Nat) : Func :=
  { port := port, req := [], reqTail := 0, reqHead := 0, rsp := [], rspTail := 0, rspHead := 0, waiting := [], msix := 0, root := 0, maps := [] }

def Uet.init : Uet := { sent := 0, base := 0, ahead := [], markers := [], gathered := 0 }

def Migration.init : Migration := { stage := 0, dirtyWord := 0, peer := 0, rounds := 0, last := false, frames := [], sent := 0, owed := [] }

/-- The Birhiry core of a package as it leaves the maker: BLANK, nothing blown (DESIGN CHOICE, log 2). -/
def Birhiry.init : Birhiry :=
  { life := 0, nextLife := 0, rollback := 0, dbgPath := 0, boot := 0, header := 0, code := 0, keys := [], nonce := none, refusals := 0,
    level := 0, expiry := 0, busy := false, blocks := 0, frozen := false, wasOpen := false, ignored := 0, answers := [], scan := [], scanOut := 0 }

/-- The context that an unlisted context number reads as: what reset leaves (R220). -/
def ctxReset (cid : Nat) : Ctx := Ctx.init (if 0x20000 ≤ cid then statSupervisor else statReset)

/-- The machine right after reset: every memory wiped (R375), every part at its reset values. -/
def State.reset : State :=
  { mem := [], lim := [], pubs := 0, buffers := [], poison := [], mending := [], posts := [], ctxs := [], cores := [], dies := [], hfaults := [], sysc := [], prefs := [], prefServices := [], bells := [],
    clusters := [], launches := [], grants := [], retiring := [], retired := [], domains := [], images := [], reserves := [], privs := [], pools := [], funcs := [], vfSplit := none, reqs := [],
    hostOut := [], hostUp := [], hostLost := [], aer := [], cxlUp := [], cxlCap := [], vexUp := [], discards := [], peersLost := [], steps := [], uet := [], vexOut := [], ptt := [], bounce := [],
    dirty := [], migs := [], birhiry := Birhiry.init, profilers := [], cap := 1600, cyc := 0, pkgid := 0, meas := [], cur := 0, agenda := [],
    free := 0 }

end Sys2Proof.Machine
end

