-- ==== Sys2Proof/Machine/Ops.lean ====
section
/-! DEFINITION. The named operations over registers and memory, taking an exception and returning from one, and the
discipline every instruction follows: the checks of R204, the predicate, the effect, and retirement. -/

namespace Sys2Proof.Machine

/-! ## Parts and their numbers -/

def isCompute (cid : Nat) : Bool := cid < 0x10000
def isMemCore (cid : Nat) : Bool := 0x10000 ≤ cid && cid < 0x20000
def isSupervisor (cid : Nat) : Bool := 0x20000 ≤ cid
/-- The context's number on its core. -/
def ctxNo (cid : Nat) : Nat := cid % 16
/-- The core's number among the cores of its kind (R12). -/
def coreNo (cid : Nat) : Nat := cid % 0x10000 / 16
/-- The key of the core that a context belongs to. -/
def coreKey (cid : Nat) : Nat := if isCompute cid then cid / 16 else cid - cid % 16
/-- The key of the region and TSR registers, the launch and the address space of a context: its core's, or its own on a memory core
(R42, R268). What a memory core's contexts share (queues, tables, TLBs) is under `coreKey`. -/
def fileKey (cid : Nat) : Nat := if isCompute cid then cid / 16 else cid
def isControl (cid : Nat) : Bool := isCompute cid && ctxNo cid = 0
def clusterNo (cid : Nat) : Nat := coreNo cid / 8
/-- The die of a context's core (R12); 24 and 25 stand for the I/O dies, which hold the far-memory and the supervisor cores. -/
def dieNo (cid : Nat) : Nat :=
  if isCompute cid then coreNo cid / 128
  else if isSupervisor cid then 24 + coreNo cid / 16
  else if coreNo cid < 384 then coreNo cid / 16 else 24 + (coreNo cid - 384) / 8

def State.ctx (s : State) (cid : Nat) : Ctx := tget (ctxReset cid) s.ctxs cid
def State.setCtx (s : State) (cid : Nat) (c : Ctx) : State := { s with ctxs := tput (ctxReset cid) s.ctxs cid c }
def State.core (s : State) (k : Nat) : Core := tget Core.init s.cores k
def State.setCore (s : State) (k : Nat) (c : Core) : State := { s with cores := tput Core.init s.cores k c }
def State.die (s : State) (d : Nat) : Die := tget Die.init s.dies d
def State.setDie (s : State) (d : Nat) (x : Die) : State := { s with dies := tput Die.init s.dies d x }

/-- The context that issues. -/
def State.me (s : State) : Ctx := s.ctx s.cur
def State.setMe (s : State) (c : Ctx) : State := s.setCtx s.cur c
/-- The core of the context that issues. -/
def State.myCore (s : State) : Core := s.core (coreKey s.cur)
def State.setMyCore (s : State) (c : Core) : State := s.setCore (coreKey s.cur) c

def State.cluster (s : State) (c : Nat) : Cluster := tget Cluster.init s.clusters c
def State.setCluster (s : State) (c : Nat) (x : Cluster) : State := { s with clusters := tput Cluster.init s.clusters c x }
def State.launchOf (s : State) (l : Nat) : Launch := tget Launch.init s.launches l
def State.setLaunch (s : State) (l : Nat) (x : Launch) : State := { s with launches := tput Launch.init s.launches l x }
/-- The files and launch of a context: its core's, or its own on a memory core (R268). -/
def State.file (s : State) (cid : Nat) : Core := s.core (fileKey cid)
def State.setFile (s : State) (cid : Nat) (c : Core) : State := s.setCore (fileKey cid) c
/-- The core of a context: its queues, its outstanding-transfer table and its TLBs (R80, R95, R117). -/
def State.unit (s : State) (cid : Nat) : Core := s.core (coreKey cid)
def State.setUnit (s : State) (cid : Nat) (c : Core) : State := s.setCore (coreKey cid) c
/-- The launch that a context belongs to. -/
def State.myLaunch (s : State) (cid : Nat) : Launch := match (s.file cid).launch with | some l => s.launchOf l | none => Launch.init

/-- The next free value (DESIGN CHOICE, log 3) and the state whose counter has moved past it. -/
def State.draw (s : State) : Nat × State := (Config.free s.free, { s with free := s.free + 1 })

/-- The key of a launch's domain. -/
def domKey (launch d : Nat) : Nat := 16 * launch + d
def State.dom (s : State) (launch d : Nat) : Domain := tget Domain.init s.domains (domKey launch d)
def State.setDom (s : State) (launch d : Nat) (x : Domain) : State :=
  { s with domains := tput Domain.init s.domains (domKey launch d) x }

/-- The SSN of the domain that BDOM selects (R219); 0 on a core of no launch. -/
def State.ssn (s : State) (core : Nat) : Nat :=
  let c := s.core core
  match c.launch with
  | some l => (s.dom l c.bdom).ssn
  | none => 0

/-! ## Registers -/

/-- s0 reads zero (R197). -/
def Ctx.sreg (c : Ctx) (n : Nat) : Word := if n = 0 then 0 else tget 0 c.s n
/-- A write to s0 is discarded (R197). -/
def Ctx.setS (c : Ctx) (n : Nat) (w : Word) : Ctx := if n = 0 then c else { c with s := tput 0 c.s n w }
/-- p0 reads true (R197). -/
def Ctx.preg (c : Ctx) (n : Nat) : Bool := n = 0 || c.p.getLsbD n
/-- A write to p0 is discarded (R197). -/
def Ctx.setP (c : Ctx) (n : Nat) (b : Bool) : Ctx :=
  if n = 0 then c else { c with p := BitVec.ofNat 8 (c.p.toNat - bits c.p.toNat n 1 * 2 ^ n + b.toNat * 2 ^ n) }

def State.setS (s : State) (n : Nat) (w : Word) : State := s.setMe (s.me.setS n w)
def State.setP (s : State) (n : Nat) (b : Bool) : State := s.setMe (s.me.setP n b)

/-- Writes a group of scalar registers from `n` up. -/
def Ctx.setGroup (c : Ctx) : Nat → List Word → Ctx
  | _, [] => c
  | n, w :: ws => (c.setS n w).setGroup (n + 1) ws

def word (n : Nat) : Word := BitVec.ofNat 64 n
def wordI (x : Int) : Word := BitVec.ofInt 64 x

/-- A bit field of a word, replaced. -/
def setField (w : Word) (lo n v : Nat) : Word :=
  word (w.toNat - bits w.toNat lo n * 2 ^ lo + v % 2 ^ n * 2 ^ lo)

/-! ### STAT (R220, R201) -/

def Ctx.field (c : Ctx) (lo n : Nat) : Nat := bits c.stat.toNat lo n
def Ctx.setStat (c : Ctx) (lo n v : Nat) : Ctx := { c with stat := setField c.stat lo n v }
/-- 0 USER, 1 HANDLER, 2 SUPERVISOR. -/
def Ctx.mode (c : Ctx) : Nat := c.field 0 2
def Ctx.ie (c : Ctx) : Bool := c.field 3 1 = 1
def Ctx.grnd (c : Ctx) : Nat := c.field 8 2
def Ctx.phase (c : Ctx) : Nat := c.field 30 2
/-- A prefix is pending and not parked (R201, R202). -/
def Ctx.pfxLive (c : Ctx) : Bool := c.field 26 1 = 1 && c.field 27 1 = 0
def Ctx.pfxT2 (c : Ctx) : TCode := .ofCode (c.field 16 4)
def Ctx.pfxScm (c : Ctx) : Nat := c.field 20 2
/-- The rounding mode: the prefix's where it supplies one, else the instruction's (R201). -/
def Ctx.pfxRnd (c : Ctx) (rm : Rnd) : Rnd :=
  let r := c.field 22 3
  if c.pfxLive && c.field 25 1 = 1 then .ofCode (if r < 4 then r else Config.reservedRnd r) else rm

/-- CANREQ (R219, R277): CREQ of the context's record or range; a helper that runs no record has its control context's record in place of one. -/
def State.canreq (s : State) (cid : Nat) : Bool :=
  let c := s.ctx cid
  let run := if isCompute cid && ctxNo cid ≠ 0 && c.record = none then (s.ctx (cid - ctxNo cid)).canreq else c.canreq
  run || c.range.any (·.creq)

/-! ## Locations -/

def locLocal (core off : Nat) : Nat := 2 ^ 48 + core * 2 ^ 17 + off
def locShared (cluster off : Nat) : Nat := 2 * 2 ^ 48 + cluster * 2 ^ 19 + off
def locWeight (die off : Nat) : Nat := 3 * 2 ^ 48 + die * 2 ^ 28 + off

/-- R76: the physical address exists. -/
def paExists (pa : Nat) : Bool :=
  if bits pa 47 1 = 0 then pa < 2 ^ 48 && bits pa 42 5 = 0 && bits pa 36 6 < 24 && bits pa 0 32 < 0xC0000000
  else pa < 2 ^ 48 && bits pa 44 3 = 0

/-- The memory core or far-memory core (384 and up) that owns a line (R76). -/
def ownerOf (pa : Nat) : Nat :=
  if bits pa 47 1 = 0 then bits pa 36 6 * 16 + bits pa 32 4 else 384 + 2 * bits pa 41 3 + bits pa 15 1

/-- One byte of memory; one that nothing has written reads zero (R375). -/
def readByte (m : Tab Byte) (l : Nat) : Byte := tget 0 m l
def writeByte (m : Tab Byte) (l : Nat) (b : Byte) : Tab Byte := tput 0 m l b

/-- The canonical form of memory: addresses strictly rising, and no entry that equals what an unlisted address reads as. -/
abbrev Memory.wf (m : Tab Byte) : Bool := twf 0 m

def readBytes (m : Tab Byte) (l : Nat) : Nat → List Byte
  | 0 => []
  | n + 1 => readByte m l :: readBytes m (l + 1) n

def writeBytes (m : Tab Byte) (l : Nat) : List Byte → Tab Byte
  | [] => m
  | b :: bs => writeBytes (writeByte m l b) (l + 1) bs

/-- n bytes as a little-endian number (R2). -/
def readNat (m : Tab Byte) (l n : Nat) : Nat := ofBytes (readBytes m l n)
def writeNat (m : Tab Byte) (l n v : Nat) : Tab Byte := writeBytes m l (toBytes n v)

/-- The unit that poison covers: a 64-byte line of DRAM, a 4-byte word of local and shared memory, and 64 bits of the weight store (R427, R429). -/
def poisonUnit (l : Nat) : Nat := if l < 2 ^ 48 then 64 else if l < 3 * 2 ^ 48 then 4 else 8

/-- A byte of the range lies in a poisoned unit (R429). -/
def State.poisoned (s : State) (l n : Nat) : Bool :=
  s.poison.any fun u => u < l + n && l < u + poisonUnit u

/-- Poison goes from units that a write covers whole (R429). -/
def clearPoison (p : List Nat) (l n : Nat) : List Nat := p.filter fun u => !(l ≤ u && u + poisonUnit u ≤ l + n)

/-- Performs a write at a location. -/
def State.poke (s : State) (l : Nat) (bs : List Byte) : State :=
  { s with mem := writeBytes s.mem l bs, poison := clearPoison s.poison l bs.length,
           lim := s.lim.filter fun x => !(l ≤ x.loc && x.loc < l + bs.length) }

/-- Poison goes from units that writes to some locations, performed together, cover whole (R429). -/
def State.heal (s : State) (ls : List Nat) : State :=
  { s with poison := s.poison.filter fun u => !((List.range (poisonUnit u)).all fun i => ls.contains (u + i)) }

/-- The places of some bits of a cell whose bytes lie at some locations. -/
def bitPlaces (ls : List Nat) (off wid : Nat) : List Nat := (List.range wid).map fun i => 8 * ls.getD ((off + i) / 8) 0 + (off + i) % 8

/-- Poison goes from units of which an instruction writes every bit (R429). -/
def State.healBits (s : State) (bs : List Nat) : State :=
  { s with poison := s.poison.filter fun u => !((List.range (8 * poisonUnit u)).all fun i => bs.contains (8 * u + i)) }

/-- A transfer lands some bits: the units that it has landed whole are poisoned no longer (R429). -/
def State.mend (s : State) (tag : Nat) (bs : List Nat) : State :=
  if s.poison = [] then s
  else
    let m := s.mending ++ (bs.filter fun b => s.poisoned (b / 8) 1).map fun b => (tag, b)
    let whole (u : Nat) : Bool := (List.range (8 * poisonUnit u)).all fun i => m.contains (tag, 8 * u + i)
    let left := s.poison.filter fun u => !whole u
    { s with poison := left, mending := m.filter fun x => left.any fun u => u ≤ x.2 / 8 && x.2 / 8 < u + poisonUnit u }

/-- A write by the memory core marks the leaf dirty (R79). -/
def State.markDirty (s : State) (pte : Nat) : State :=
  if pte = 0 then s else { s with mem := writeByte s.mem pte (readByte s.mem pte ||| 0x80) }

/-! ## The constant window (R70, R196) -/

/-- Word n of a compute core's constant window. The spec gives cores of other kinds none (R13) and no value for a cw operand there: it
reads zero (DESIGN CHOICE, log 39). -/
def State.constWord (s : State) (cid n : Nat) : Word :=
  let core := coreNo cid
  let c := s.core core
  if !isCompute cid then 0
  else match n with
    | 240 => word core
    | 241 => word (core / 8)
    | 242 => word (core / 128)
    | 243 => word s.pkgid
    | 244 => word c.rank
    | 245 => word (c.launch.getD 0)
    | 246 => word c.hlim
    | 247 => word c.ssbase
    | n => if n < 240 then word (readNat s.mem (locLocal core (8 * n)) 8) else 0

/-- The first constant-window word among some operands that holds an uncorrectable error: it is read at issue (R196, R427). -/
def State.badConst (s : State) (as : List Arg) : Option Nat :=
  as.findSome? fun a => match a with
    | .cw n => if isCompute s.cur && n < 240 && s.poisoned (locLocal (coreNo s.cur) (8 * n)) 8 then some n else none
    | _ => none

/-- n bytes of a core's local memory, identity words computed (R70). -/
def State.readLocal (s : State) (core off : Nat) : Nat → List Byte
  | 0 => []
  | n + 1 =>
    (if 1920 ≤ off && off < 2048 then
      BitVec.ofNat 8 ((s.constWord (16 * core) (off / 8)).toNat / 2 ^ (8 * (off % 8)))
     else readByte s.mem (locLocal core off)) :: s.readLocal core (off + 1) n

/-! ## Views (R84) -/

/-- A byte as a context sees it: its own latest store since it acquired, else its snapshot. -/
def Ctx.seeByte (c : Ctx) (l : Nat) : Byte :=
  match c.own.find? fun o => o.loc = l with
  | some o => o.val
  | none => readByte c.view l

def Ctx.seeBytes (c : Ctx) (l : Nat) : Nat → List Byte
  | 0 => []
  | n + 1 => c.seeByte l :: c.seeBytes (l + 1) n

/-- A store to shared or global memory waits, and is seen by its own context (R84, R90). The newest byte comes first. Accesses of one
release that overlap are one for an observer, which sees the last value of each byte and no access in part (R89, R91). `num` is the place of the
whole store in program order, `p` its pointer. -/
def Ctx.ownStore (c : Ctx) (jrn : Option Nat) (num p pte l : Nat) (bs : List Byte) : Ctx :=
  let n := c.ops + 1
  let open_ (o : OwnByte) : Bool := !o.pub && o.rel = 0
  let hit := (c.own.filter fun o => open_ o && l ≤ o.loc && o.loc < l + bs.length).map (·.acc)
  let new : List OwnByte := bs.zipIdx.map fun b =>
    { loc := l + b.2, val := b.1, pub := false, jrn := jrn, pte := pte, acc := n, rel := 0, num := num, pc := c.pc, ptr := p }
  { c with ops := n, own := new.reverse ++ c.own.map fun o => if open_ o && hit.contains o.acc then { o with acc := n } else o }

/-- The instance of a scope that a context lies in (R87): 0 system, 1 package, 2 die, 3 cluster, 4 core, 5 context. A core that lies in no
cluster is a cluster of its own, so that the scopes nest. -/
def scopeInst (scope cid : Nat) : Nat :=
  match scope with
  | 0 => 0
  | 1 => 0
  | 2 => dieNo cid
  | 3 => if isCompute cid then clusterNo cid else coreKey cid
  | 4 => coreKey cid
  | _ => cid

/-- The die whose log region takes the deferred stores of a location's home (R90): 24 and 25 stand for the I/O dies. -/
def logDie (l : Nat) : Nat := if l < 2 ^ 48 then (if ownerOf l < 384 then ownerOf l / 16 else 24 + (ownerOf l - 384) / 8) else (l - 2 * 2 ^ 48) / 2 ^ 19 / 16

/-- A write for a virtual function sets the dirty bit of its frame (R373). -/
def State.markFrame (s : State) (f l : Nat) : State :=
  if f < 2 || 2 ^ 48 ≤ l || s.dirty.contains (f, l / 32768) then s else { s with dirty := (f, l / 32768) :: s.dirty }

/-- A store or atomic of a virtual function's launch sets the dirty bit of its frame (R373). -/
def State.noteDirty (s : State) (cid l : Nat) : State := s.markFrame (s.myLaunch cid).func l

/-- The virtual function whose launches use an address space; 0 for none. -/
def State.funcOf (s : State) (root : Option Nat) : Nat :=
  ((s.launches.find? fun x => some x.2.root = root && 2 ≤ x.2.func).map (·.2.func)).getD 0

/-- The context's stores that are performed or dropped leave the buffer or log that held them (R90, R416). -/
def State.trimHeld (s : State) (cid : Nat) : State :=
  let waits (x : Nat × Nat) : Bool := x.1 ≠ cid || (s.ctx cid).own.any fun o => !o.pub && o.loc / 64 = x.2
  let s1 : State := { s with buffers := (s.buffers.map fun b => (b.1, b.2.filter waits)).filter fun b => b.2 ≠ [] }
  s.dies.foldl (fun t d => if d.2.log = [] then t else t.setDie d.1 { d.2 with log := d.2.log.filter waits }) s1

/-- A location written at a narrow scope (R87): what it held before goes on record, before what `s` has on record for it. -/
def State.limit (t s : State) (x : Limited) : State := { t with lim := x :: (s.lim.filter (·.loc = x.loc) ++ t.lim) }

/-- Performs one byte of a context's store at its home (R79, R86, R87): for a scope narrower than the package, what the location held
stays on record for contexts outside it. -/
def State.publishByte (cid scope num : Nat) (s : State) (o : OwnByte) : State :=
  let s1 := s.poke o.loc [o.val]
  let x : Limited := { loc := o.loc, scope := scope, inst := scopeInst scope cid, old := readByte s.mem o.loc, who := some cid, num := num, acc := o.acc }
  ((if scope ≤ 1 then s1 else s1.limit s x).markDirty o.pte).noteDirty cid o.loc

/-- The newest byte at each location, from bytes with the newest first; the earlier ones are never performed (R91). -/
def newest (os : List OwnByte) : List OwnByte := os.foldl (fun r o => if r.any (·.loc = o.loc) then r else o :: r) []

/-- Publishes bytes of a context, the newest first, at a scope (R86, R87, R91). -/
def State.publish (s : State) (cid scope : Nat) (os : List OwnByte) : State :=
  (((newest os).foldl (State.publishByte cid scope s.pubs) { s with pubs := s.pubs + 1 }).heal (os.map (·.loc))).trimHeld cid

/-- Data published at a narrower scope is published at a wider one (R87): `mine` gives the context whose instance of the scope sees it
from then on. A byte that every context sees hides what lay under it. -/
def widenLim (scope : Nat) (mine : Limited → Option Nat) : List Limited → List Limited
  | [] => []
  | x :: r =>
    match mine x with
    | none => x :: widenLim scope mine r
    | some cid =>
      if x.scope ≤ scope then x :: widenLim scope mine r
      else if scope ≤ 1 then (widenLim scope mine r).filter fun y => y.loc ≠ x.loc
      else { x with scope := scope, inst := scopeInst scope cid } :: widenLim scope mine r

/-- Two bytes on record are of one access, and in one aligned dword, which no context observes in part (R89). -/
def Limited.together (x y : Limited) : Bool := x.num = y.num && x.acc = y.acc && x.loc / 8 = y.loc / 8

/-- The context's stores that it published at a narrower scope, and that meet a condition in one of their bytes, are published again at a
scope (R86, R87, R89). -/
def State.widenStores (s : State) (cid scope : Nat) (cells : Nat → Bool) : State :=
  let met := s.lim.filter fun x => x.who = some cid && cells x.loc
  { s with lim := widenLim scope (fun x => if x.who = some cid && met.any x.together then some cid else none) s.lim }

/-- An acquire of a context outside a byte's scope misses it, as a bit of the free value `r` decides for its access (R87; DESIGN CHOICE,
log 5). -/
def State.missed (s : State) (r cid : Nat) (x : Limited) : Bool :=
  scopeInst x.scope cid ≠ x.inst && bitOf r (s.lim.findIdx x.together)

/-- What an acquire finds at a location (R85, R87, R89). -/
def State.acquireByte (s : State) (r cid l : Nat) : Byte :=
  match ((s.lim.filter (·.loc = l)).takeWhile (s.missed r cid)).getLast? with
  | some x => x.old
  | none => readByte s.mem l

/-- An acquire of the whole view (R85): the context's unpublished stores stay overlaid. -/
def State.acquireAll (s : State) (cid : Nat) : State :=
  let d := s.draw
  let c := s.ctx cid
  let outside := s.lim.filter fun x => scopeInst x.scope cid ≠ x.inst
  let view := outside.foldl (fun v x => writeByte v x.loc (s.acquireByte d.1 cid x.loc)) s.mem
  d.2.setCtx cid { c with view := view, own := c.own.filter fun o => !o.pub }

/-- The store that a published byte of the context keeps over its snapshot goes into the snapshot. -/
def Ctx.settleByte (c : Ctx) (l : Nat) : Ctx :=
  match c.own.find? fun o => o.pub && o.loc = l with
  | some o => { c with view := writeByte c.view l o.val, own := c.own.filter fun o => !(o.pub && o.loc = l) }
  | none => c

/-- An acquire of some bits of a byte (R85, R119). -/
def State.acquireBits (s : State) (r cid : Nat) (c : Ctx) (x : Nat × Nat) : Ctx :=
  let c1 := c.settleByte x.1
  let m := BitVec.ofNat 8 x.2
  { c1 with view := writeByte c1.view x.1 ((readByte c1.view x.1 &&& ~~~m) ||| (s.acquireByte r cid x.1 &&& m)) }

/-- An acquire of some locations, each with the bits that it refreshes (R85, R119). -/
def State.acquireAt (s : State) (cid : Nat) (ls : List (Nat × Nat)) : State :=
  let d := s.draw
  d.2.setCtx cid (ls.foldl (s.acquireBits d.1 cid) (s.ctx cid))

/-! ## Trap entry and return -/

inductive Kind where
  | exact | retired | async
  deriving DecidableEq, Repr

def Kind.code : Kind → Nat
  | .exact => 0 | .retired => 1 | .async => 2

/-- Clears the lock bit that a context holds (R94). -/
def State.dropLock (s : State) (cid : Nat) : State :=
  let c := s.ctx cid
  match c.lock with
  | none => s
  | some b =>
    let k := if b.shared then 0x30000 + b.part else b.part
    let x := s.core k
    (s.setCore k { x with locks := x.locks.filter fun y => !(y.1 = b && y.2 = cid) }).setCtx cid { c with lock := none }

/-- The entry of R394 in the context's own state: what is saved, the mode, the prefix, the loops, the vector. -/
def Ctx.enter (c : Ctx) (xbase : Word) (kind : Kind) (cause ilen : Nat) (xpc val : Word) : Ctx :=
  let c1 := { c with xpc := xpc, xcause := word (cause + kind.code * 64 + ilen * 256), xval := val }
  let c2 := ((c1.setStat 4 2 c.mode).setStat 6 1 (c.field 3 1)).setStat 3 1 0
  let c3 := if c.mode = 0 then c2.setStat 0 2 1 else c2
  let c4 := if c.field 26 1 = 1 then c3.setStat 27 1 1 else c3
  { c4 with saved := c.loops, loops := [Loop.off, Loop.off, Loop.off, Loop.off], pc := xbase + word (64 * cause),
            cameFrom := BitVec.allOnes 64, away := none, wait := .none, unserved := none, released := false, search := 0, recalling := false }

/-- Entry to the miss handler of POSL (R169): as trap entry, but XCAUSE and XVAL stay; s1 to s15 are set aside for z1 to z15, which
hold the key and the POSL's address. -/
def Ctx.enterMiss (c : Ctx) (xbase : Word) (z : Tab Word) (seq tag ord : Nat) : Ctx :=
  let c1 := c.enter xbase .exact 0x40 0 c.pc 0
  let zs := [(1, word seq), (2, word tag), (3, word ord), (14, c.pc)].foldl (fun t r => tput 0 t r.1 r.2) z
  { c1 with xcause := c.xcause, xval := c.xval, missPosl := some c.pc, under := c.s.filter fun r => r.1 < 16,
            s := zs.filter (fun r => 0 < r.1 && r.1 < 16) ++ c.s.filter fun r => 16 ≤ r.1 }

/-- ERET from the miss handler ends the selection of z1 to z15 (R169): the context's registers, and what the core's z keep. -/
def Ctx.leaveMiss (c : Ctx) : Ctx × Tab Word :=
  ({ c with missPosl := none, under := [], s := c.under ++ c.s.filter fun r => 16 ≤ r.1 }, c.s.filter fun r => r.1 < 16)

/-- Local offset of journal entry j (R401). -/
def jrnOff (j : Nat) : Nat := 0x0C00 + 32 * j
def State.jrnState (s : State) (core j : Nat) : Nat := (readByte s.mem (locLocal core (jrnOff j + 0x17))).toNat
def State.setJrnState (s : State) (core j v : Nat) : State :=
  s.poke (locLocal core (jrnOff j + 0x17)) [BitVec.ofNat 8 v]

/-- Refuses a posted operation (R402, R418): the entry keeps the cause and how much was done, and its cause becomes
pending in the context it names, or in the control context when that helper is not LIVE (R393); every cause of an MCRUN is POSTED_REFUSED (R398,
R412). `die` is the die whose log is full (R392). -/
def State.refusePost (s : State) (core j cause done addr die : Nat) : State :=
  let b := locLocal core (jrnOff j)
  let s1 := ((s.poke (b + 8) (toBytes 8 addr)).poke (b + 0x10) (toBytes 4 done)).poke (b + 0x14) [BitVec.ofNat 8 cause]
  let s2 := s1.setJrnState core j 2
  let x := (readByte s.mem (b + 0x15)).toNat
  let whom := if x ≠ 0 && (s.ctx (16 * core + x)).life ≠ .live then 16 * core else 16 * core + x
  let c := s2.ctx whom
  let ac : AsyncCause := match (if readByte s.mem (b + 0x16) = 3 then 0x11 else cause) with
    | 0x18 => { code := 0x18, val := word die, entry := some j }
    | 0x12 => { code := 0x12, val := word addr, entry := some j }
    | 0x13 => { code := 0x13, val := word addr, entry := some j }
    | _ => { code := 0x11, val := word cause, entry := some j }
  s2.setCtx whom { c with pend := c.pend ++ [ac] }

def Core.queue (c : Core) (q : Nat) : EQueue := tget EQueue.init c.q q
def Core.setQueue (c : Core) (q : Nat) (e : EQueue) : Core := { c with q := tput EQueue.init c.q q e }
/-- An entry of a core that is not yet complete. -/
def Core.pending (c : Core) (x : Nat × Nat) : Bool := (c.queue x.1).entries.any fun e => e.id = x.2

/-- Fences whose earlier entries have all completed go (R96). -/
def Core.settle (c : Core) : Core :=
  let keep (e : QEntry) : Bool := match e.op with | .fence after => after.any c.pending | _ => true
  [0, 1, 2, 3].foldl (fun x q => x.setQueue q { x.queue q with entries := (x.queue q).entries.filter keep }) c

/-- The entry of a queue with a number. -/
def Core.entry (c : Core) (q id : Nat) : Option QEntry := (c.queue q).entries.find? fun e => e.id = id

/-- Replaces an entry. -/
def Core.setEntry (c : Core) (q : Nat) (e : QEntry) : Core :=
  let x := c.queue q
  c.setQueue q { x with entries := x.entries.map fun y => if y.id = e.id then e else y }

/-- An entry of an engine queue completes: it goes, and so do the fences that waited for it alone. -/
def State.completeEntry (s : State) (core q id : Nat) : State :=
  let c := s.core core
  let x := c.queue q
  s.setCore core (c.setQueue q { x with entries := x.entries.filter fun y => y.id ≠ id }).settle

/-- Ends a program that MCRUN started (R267, R398): what it has not published is never performed, its queue entry completes, and a cause
refuses its journal entry, whose ADDR is the program's pc (DESIGN CHOICE, log 81). -/
def State.endProgram (s : State) (cid : Nat) (cause : Option Nat) (die : Nat) : State :=
  let c := s.ctx cid
  let s0 := (s.setCtx cid { c with life := .free, starter := none, own := c.own.filter (·.pub), pubs := [] }).trimHeld cid
  match c.starter with
  | none => s0
  | some (core, id) =>
    let e := (s.core core).entry 0 id
    let s1 := s0.completeEntry core 0 id
    match e.bind (·.jrn), cause with
    | some j, some x => s1.refusePost core j x 0 c.pc.toNat die
    | some j, none => s1.setJrnState core j 0
    | none, _ => s1

/-- Takes a cause in a context (R393, R394). In HANDLER mode it is a handler fault (R396); a program that MCRUN started ends
(R398). `xpc` is the address that XPC receives. -/
def State.takeTrap (s : State) (cid : Nat) (kind : Kind) (cause ilen : Nat) (xpc val : Word) : State :=
  let c := s.ctx cid
  if isMemCore cid then s.endProgram cid (some cause) 0
  else if c.mode = 1 then
    { s.setCtx cid { c with stopped := true, away := none, trapCyc := s.cyc } with
        hfaults := s.hfaults ++ [{ cid := cid, cause := cause, pc := xpc }] }
  else s.setCtx cid { c.enter (s.core (coreKey cid)).xbase kind cause ilen xpc val with trapCyc := s.cyc }

/-- ERET in the context's own state (R215): the mode, which SUPERVISOR never leaves (R390), IE, the prefix's hold, the loops. The pc
follows as ERET retires. -/
def Ctx.leave (c : Ctx) : Ctx :=
  let c1 := (c.setStat 0 2 (if c.mode = 2 then 2 else c.field 4 2)).setStat 3 1 (c.field 6 1)
  { c1.setStat 27 1 0 with loops := c.saved, inPre := false, owedAcq := none }

/-! ## Retirement -/

/-- The end check of R236 over the levels from the highest down: the levels after it, and where it sends the pc. -/
def loopEnd (next : Word) : List Loop → List Loop × Option Word
  | [] => ([], none)
  | l :: r =>
    if l.active && l.fin = next then
      if 1 < l.count.toNat then ({ l with count := l.count - 1, pass := l.pass + 1 } :: r, some l.start)
      else let x := loopEnd next r; ({ l with active := false } :: x.1, x.2)
    else let x := loopEnd next r; (l :: x.1, x.2)

/-- Retirement in sequence: past the instruction, or back to a loop's start (R236). -/
def Ctx.advance (c : Ctx) (len : Nat) : Ctx :=
  let next := c.pc + word len
  let x := loopEnd next c.loops.reverse
  { c with pc := x.2.getD next, loops := x.1.reverse, cameFrom := BitVec.allOnes 64, unserved := none, atBarrier := c.atBarrier && c.mode ≠ 0 }

/-- Retirement in sequence without the end check (R236, R237). -/
def Ctx.skip (c : Ctx) (len : Nat) : Ctx := { c with pc := c.pc + word len, cameFrom := BitVec.allOnes 64, unserved := none, atBarrier := c.atBarrier && c.mode ≠ 0 }

/-- A transfer of control, which skips the end check (R236). -/
def Ctx.jump (c : Ctx) (t : Word) : Ctx := { c with pc := t, cameFrom := c.pc, unserved := none, atBarrier := c.atBarrier && c.mode ≠ 0 }

/-- The pending prefix is consumed when the prefixed instruction retires (R201). -/
def Ctx.usePrefix (c : Ctx) (i : Op) : Ctx := if i.admitsPrefix && c.pfxLive then c.setStat 26 1 0 else c

/-- What an instruction does once every check of R204 has passed. -/
inductive Act where
  /-- the effect is made; go on in sequence -/
  | retire (s : State)
  /-- the same without the end check of R236 -/
  | skip (s : State)
  /-- the effect is made; control goes to an address -/
  | jump (s : State) (t : Word)
  /-- an exact cause; `s` differs from the state at issue by the lanes that R400 completes -/
  | trap (s : State) (cause : Nat) (val : Word)
  /-- the effect stands, and a retired cause is taken -/
  | retired (s : State) (cause : Nat) (val : Word)
  /-- the context waits at this instruction -/
  | stall (s : State)
  /-- the machine stops -/
  | stop (f : Fault)
  deriving DecidableEq, Repr

abbrev Out := Host.Outcome State Fault Refusal

/-- At its next boundary an away context goes home directly when a loop is active (R82) or a pre-emption has recalled it (R83). -/
def Ctx.homeward (c : Ctx) : Ctx :=
  if c.away ≠ none && c.wait = .none && (c.recalling || c.loops.any (·.active)) then { c with wait := .returning } else c

/-- The issuing context after an instruction of `len` bytes has retired in sequence. -/
def State.after (s : State) (i : Op) (len : Nat) : State := s.setMe ((s.me.usePrefix i).advance len).homeward

/-- The issuing context after an instruction that skips the end check has retired in sequence. -/
def State.skipped (s : State) (i : Op) (len : Nat) : State := s.setMe ((s.me.usePrefix i).skip len).homeward

/-- The issuing context after an instruction has transferred control. -/
def State.jumped (s : State) (i : Op) (t : Word) : State := s.setMe ((s.me.usePrefix i).jump t).homeward

/-- Carries out an `Act` for the issuing context. -/
def finish (i : Op) (len : Nat) (pc0 : Word) (a : Act) : Out :=
  match a with
  | .retire s => .next (s.after i len)
  | .skip s => .next (s.skipped i len)
  | .jump s t => .next (s.jumped i t)
  | .trap s cause val => .next (s.takeTrap s.cur .exact cause (len / 4) pc0 val)
  | .retired s cause val =>
    let s1 := s.setMe ((s.me.usePrefix i).advance len)
    .next (s1.takeTrap s.cur .retired cause (len / 4) pc0 val)
  | .stall s => .next (s.setMe { s.me with wlen := if s.me.wait = .none then s.me.wlen else len })
  | .stop f => .fault f

/-! ## The checks of R204 that need the state -/

/-- The context can issue (R45): live, not stopped, not waiting. -/
def Ctx.ready (c : Ctx) : Bool := c.life = .live && !c.stopped && c.wait = .none

/-- Step 5: only the control context of a compute core executes the vector, matrix and FMT classes. -/
def badCore (i : Op) (cid : Nat) : Bool := i.vectorClass && !isControl cid

/-- Step 7g: an instruction that does not admit the pending prefix, or an FMT while one is parked (R201, R202). -/
def badPrefix (i : Op) (c : Ctx) : Bool :=
  (c.pfxLive && !i.admitsPrefix) || (i = .fmt && c.field 27 1 = 1)

/-- The numbers without a dash in R219's USER column: MFSR reads them, and MTSR writes the writable fields of those marked W and
leaves the others, which are read-only, as they are. -/
def userReads (k : Nat) : Bool := k = 0 || (0x08 ≤ k && k ≤ 0x13) || 0x40 ≤ k

/-- The task instructions that memory, far-memory and supervisor cores execute (R269). -/
def taskAnywhere : Op → Bool
  | .done | .jdec | .cqadd | .rqadd | .launch | .cancel | .cancelLaunch => true
  | _ => false

/-- Step 8: PRIVILEGE (R212, R219, R269, R329). `k` is the K field. -/
def privileged (i : Op) (k : Nat) (cid : Nat) (c : Ctx) : Bool :=
  let op := i.row.op
  match i with
  | .eret | .waiti => c.mode = 0
  | .idle => c.mode ≠ 2
  | .mfsr | .mtsr => c.mode = 0 && !userReads k
  | .launch | .cancelLaunch => c.mode ≠ 2
  | _ => (0xE6 ≤ op && op ≤ 0xEE && !isCompute cid) || (0xF0 ≤ op && op ≤ 0xFE && !isCompute cid && !taskAnywhere i)

/-- XVAL of PRIVILEGE (R392). -/
def privVal (i : Op) (k : Nat) : Word := word (i.row.op + (if i = .mfsr || i = .mtsr then 256 * k else 0))

/-- The lower of two reasons: the first of R204's steps. -/
def firstReject (a b : Option Reject) : Option Reject :=
  match a, b with
  | some x, some y => if y.code < x.code then some y else some x
  | some x, none => some x
  | none, y => y

/-- The first check of R204 that fails for reasons of state; `dyn` is what the entry adds (R203 rule 5, R285, R301). -/
def stateReject (i : Op) (dyn : Option Reject) (cid : Nat) (c : Ctx) : Option Reject :=
  firstReject (if badCore i cid then some .core else none)
    (firstReject dyn (if badPrefix i c then some .formatPrefix else none))

/-- The predicate holds (R199). -/
def Ctx.predicate (c : Ctx) (h : Hdr) : Bool := c.preg h.p != h.neg

/-- An instruction that needs the vector unit. -/
def vectorUnit (i : Op) : Bool := i.isVector

/-- Issues an instruction: the checks of R204 from step 5 on, shipping home (R82), the predicate, the constant-window words among its operands
`as` (R427), the effect. `home` says that the instruction needs home resources. A context that is not ready does nothing, nor does a vector
instruction while an MMA holds the vector unit (R158). -/
def issue (i : Op) (h : Hdr) (len k : Nat) (home : Bool) (as : List Arg) (dyn : State → Option Reject) (body : State → Act) (s : State) : Out :=
  let c := s.me
  if !c.ready then .next s
  else if c.away ≠ none && home then .next (s.setMe { c with wait := .returning })
  else
    match stateReject i (dyn s) s.cur c with
    | some r => finish i len c.pc (.trap s 0x01 (word r.code))
    | none =>
      if privileged i k s.cur c then finish i len c.pc (.trap s 0x03 (privVal i k))
      else if !c.predicate h then finish i len c.pc (.retire s)
      else if vectorUnit i && isControl s.cur && s.myCore.vpath.isSome then .next s
      else match s.badConst as with
        | some n => finish i len c.pc (.trap s 0x19 (word (0xF1 * 2 ^ 56 + coreNo s.cur * 2 ^ 36 + 8 * n)))
        | none => finish i len c.pc (body s)

end Sys2Proof.Machine
end

