-- ==== Sys2Proof/Machine/Operands.lean ====
section
/-! DEFINITION. Operand forms: scalar sources and the constant window (R196), IMM32, memory operands (R26), register groups,
vector registers under rotation (R238), lanes (R278) and execution masks (R279). -/

namespace Sys2Proof.Machine

/-- IMM32 sign-extended to 64 bits (R209, R241). -/
def immWord (w : Nat) : Word := wordI (sext 32 w)

/-- A scalar source: a register, a word of the constant window, or IMM32. -/
def State.arg (s : State) (a : Arg) : Word :=
  match a with
  | .reg n => s.me.sreg n
  | .cw k => s.constWord s.cur k
  | .imm w => immWord w

/-- A scalar FP32 source: bits [31:0], or IMM32 as a bit pattern (R228). -/
def State.argF (s : State) (a : Arg) : Nat :=
  match a with
  | .imm w => w % 2 ^ 32
  | a => (s.arg a).toNat % 2 ^ 32

/-- The address of a memory operand: base plus index, or base plus sign-extended offset (R26, R244). -/
def State.addr (s : State) (o : Ops) : Word := s.arg o.a + s.arg o.b

/-- Element bits as a 64-bit register value: sign-extended for the I types, zero-extended for the rest (R223, R244). -/
def extendT (t : TCode) (v : Nat) : Word :=
  if TCode.signed t then wordI (sext (TCode.width t) v) else word (v % 2 ^ TCode.width t)

/-- The width W of a scalar operation (R223). -/
def intW (t : TCode) : Nat := if t = .i64 then 64 else 32

/-- The access size of a scalar load or store (R244). -/
def sizeT (t : TCode) : Nat := TCode.width t / 8

/-! ## Vector registers and lanes -/

/-- The physical register of a vector field under the innermost rotating loop (R238). -/
def rotate (ls : List Loop) (n : Nat) : Nat :=
  match ls.reverse.find? fun l => l.active && l.rot with
  | some l => if 48 ≤ n then 48 + (n - 48 + l.pass * l.rs) % 16 else n
  | none => n

def State.vreg (s : State) (n : Nat) : Nat := (tget 0 s.myCore.v (rotate s.me.loops n)).toNat
def State.setVreg (s : State) (n : Nat) (x : Nat) : State :=
  let c := s.myCore
  s.setMyCore { c with v := tput 0 c.v (rotate s.me.loops n) (BitVec.ofNat 1024 x) }
def State.kreg (s : State) (n : Nat) : Nat := (tget 0 s.myCore.k n).toNat
def State.setKreg (s : State) (n : Nat) (x : Nat) : State :=
  let c := s.myCore
  s.setMyCore { c with k := tput 0 c.k n (BitVec.ofNat 128 x) }

/-- n lanes of width w of a register value. -/
def lanesOf (w : Nat) : Nat → Nat → List Nat
  | 0, _ => []
  | n + 1, x => x % 2 ^ w :: lanesOf w n (x / 2 ^ w)

/-- A register value from its lanes. -/
def ofLanes (w : Nat) : List Nat → Nat
  | [] => 0
  | x :: xs => x % 2 ^ w + 2 ^ w * ofLanes w xs

/-- The elements of a group of g registers, in order (R278). -/
def State.vgroup (s : State) (w n : Nat) (g : Nat) : List Nat :=
  (List.range g).flatMap fun i => lanesOf w (1024 / w) (s.vreg (n + i))

/-- Writes a group of registers from its elements. -/
def State.setVgroup (s : State) (w n : Nat) : Nat → List Nat → State
  | 0, _ => s
  | g + 1, es => (s.setVreg n (ofLanes w (es.take (1024 / w)))).setVgroup w (n + 1) g (es.drop (1024 / w))

/-- K[3] masks with k[K[2:0]]; K[4] zeroes (R279). -/
def State.active (s : State) (k e : Nat) : Bool := !bitOf k 3 || bitOf (s.kreg (k % 8)) e

/-- The activity of n elements. -/
def State.actives (s : State) (k n : Nat) : List Bool := (List.range n).map (s.active k)

/-- Merging or zeroing the inactive elements (R279): `old` are the destination's elements, `new` the results. -/
def merge (zm : Bool) : List Bool → List Nat → List Nat → List Nat
  | a :: as, o :: os, n :: ns => (if a then n else if zm then 0 else o) :: merge zm as os ns
  | _, _, _ => []

/-- Writes a group's active elements, the others merged or zeroed as K[4] says. -/
def State.writeVec (s : State) (k w d g : Nat) (new : List Nat) : State :=
  s.setVgroup w d g (merge (bitOf k 4) (s.actives k (g * (1024 / w))) (s.vgroup w d g) new)

/-- A lane mask from truth values, lowest lane first. -/
def maskOf : List Bool → Nat
  | [] => 0
  | b :: bs => b.toNat + 2 * maskOf bs

/-! ## Checks of R204 that depend on the prefix and FMTD -/

/-- The lane type of a vector arithmetic instruction: FMTD's with .fd, else T (R285). -/
def State.laneType (s : State) (o : Ops) : TCode :=
  if 4 ≤ o.mx then .ofCode (bits s.me.fmtd.toNat 0 4) else o.t

/-- The default source format of a conversion (R301). -/
def convDefault (i : Op) : TCode := if i = .vdqnt then .e4m3 else .f32

/-- The source format of a conversion, the prefix's T2 where one is pending (R301). -/
def convSource (i : Op) (c : Ctx) : TCode := if c.pfxLive then c.pfxT2 else convDefault i

/-- The sizes of the source and destination groups of a conversion (R300). -/
def convGroups (src dst : TCode) : Nat × Nat :=
  let m := min src.laneW dst.laneW
  (src.laneW / m, dst.laneW / m)

/-- A pair of R132: both narrow or integer, or both wide. -/
def narrowFmt : TCode → Bool
  | .i8 | .u8 | .i4 | .e4m3 | .e5m2 | .e3m2 | .e2m1 => true
  | _ => false
def intFmt : TCode → Bool
  | .i8 | .u8 | .i4 => true
  | _ => false
def mmaPair (a b : TCode) : Bool := (narrowFmt a && narrowFmt b) || (a.wideFmt && b.wideFmt)

/-- The key that an MMA takes: the core's, under what the prefix and the instruction supply (R256, R337). -/
def State.mmaKey (s : State) (o : Ops) : Option WKey :=
  let c := s.me
  s.myCore.key.map fun k =>
    let k1 := if c.pfxLive then { k with fmt := c.pfxT2, scm := c.pfxScm } else k
    { k1 with rnd := c.pfxRnd o.rm }

/-- The checks of R336 that are decode steps: the accumulation's and the scale mode's, then the pair's. The B format and the scale
mode are the prefix's or the key's; with neither there is no B format to check, and R336's third check meets the missing key. -/
def State.mmaReject (s : State) (o : Ops) (iacc : Bool) : Option Reject :=
  let c := s.me
  let key := s.myCore.key
  let b := if c.pfxLive then some c.pfxT2 else key.map (·.fmt)
  let scm := if c.pfxLive then c.pfxScm else (key.map (·.scm)).getD 0
  let is (p : TCode → Bool) : Bool := b.any p
  if (iacc && (!intFmt o.t || is (!intFmt ·) || scm ≠ 0)) || (o.t.wideFmt && is TCode.wideFmt && scm ≠ 0) then some .modifier
  else if is (!mmaPair o.t ·) then some .type else none

/-- What the prefix and FMTD add to the checks of R204: groups whose size T2 gives (R203 rule 5), the type that FMTD supplies
(R285), the pair and the scale mode of VMVP (R294; a wide pair runs unscaled under mode 01: DESIGN CHOICE, log 42), the scale mode of a
conversion (R301). -/
def dynReject (i : Op) (o : Ops) (s : State) : Option Reject :=
  let c := s.me
  match i with
  | .vcvt | .vqnt | .vdqnt =>
    let src := convSource i c
    let g := convGroups src o.t
    if src = .i64 || o.t = .i64 then some .type
    else if !(groupOk o.a.num g.1 g.1 && groupOk o.d g.2 g.2) then some .register
    else if c.pfxLive && c.pfxScm ≠ 0 then some .modifier else none
  | .mma => s.mmaReject o (2 ≤ o.mx)
  | .xmma => s.mmaReject o false
  | .vmvp =>
    let b := if c.pfxLive then c.pfxT2 else o.t
    let scm := if c.pfxLive then c.pfxScm else 0
    if !mmaPair o.t b || (o.mx = 1 && !(intFmt o.t && intFmt b && scm = 0)) then some .type
    else if 2 ≤ scm then some .modifier else none
  | i =>
    if 0x70 ≤ i.row.op && i.row.op ≤ 0x83 && 4 ≤ o.mx then
      let t := s.laneType o
      if !i.row.t.contains t then some .type
      else if o.rm ≠ .rne && t.intLane then some .modifier else none
    else none

/-! ## The droop governor (R240) -/

/-- The vector registers among the sources of an instruction, group members counted. -/
def vectorSources (i : Op) (o : Ops) (c : Ctx) : List Nat :=
  let r := i.row
  let span (n g : Nat) : List Nat := (List.range g).map (n + ·)
  let field (cl : Cls) (n : Nat) : List Nat :=
    match cl with
    | .v => match i with
      | .vcvt | .vqnt | .vdqnt => span n (convGroups (convSource i c) o.t).1
      | _ => [n]
    | .voff => span n (32 / o.t.laneW)
    | .vmx => span n (2 ^ o.mx)
    | .vpb => span n (if o.t = .e3m2 then 4 else 2)
    | .vpd => span n (if o.t = .e3m2 then 3 else 1)
    | _ => []
  let b := match o.b with | .reg n => field r.b n | _ => []
  let d := if i = .vmvp then span o.d 4 else []
  (field r.a o.a.num ++ b ++ field r.c o.c.num ++ d).map (rotate c.loops)

/-- One step of the budget toward 8. -/
def budUp (b : Nat) : Nat := min 8 (2 * b)

/-- The demand cycles of an instruction that reads r registers: those that hold it count as bubbles. -/
def droopHold (r : Nat) : Nat → Nat → Nat → Nat × Nat
  | 0, bud, n => (bud, n)
  | k + 1, bud, n => if bud < r then droopHold r k (budUp bud) (n + 1) else (budUp bud, n)

/-- The governor's work before a control context's instruction issues. -/
def State.droop (s : State) (i : Op) (o : Ops) : State :=
  let r := min 8 (vectorSources i o s.me).eraseDups.length
  if r = 0 || !isControl s.cur then s
  else
    let c := s.myCore
    let x := droopHold r 3 c.bud 0
    s.setMyCore { c with bud := x.1, demand := s.cyc, bubl := c.bubl + word x.2 }

end Sys2Proof.Machine
end

