-- ==== Sys2Proof/Machine/Fetch.lean ====
section
/-! DEFINITION. Pointers and their checks (R66, R67), translation (R78 to R80), and instruction fetch (R188, R208, R222,
R399, R466). -/

namespace Sys2Proof.Machine

/-- The space code of a pointer (R247): 0 where step 1 of R67 fails. -/
def spaceCode (p : Nat) : Nat :=
  match bits p 56 8 with
  | 0x00 => if bits p 50 6 = 0 then 1 else 0
  | 0xF0 => if bits p 48 8 = 0 && bits p 36 12 < 3072 && bits p 32 4 ≤ 10 then 2 else 0
  | 0xF1 => if bits p 48 8 = 0 && bits p 17 19 = 0 && bits p 36 12 < 3072 then 3 else 0
  | 0xF2 => if bits p 47 9 = 0 && bits p 19 19 = 0 && bits p 38 9 < 384 then 4 else 0
  | 0xF3 => if bits p 45 11 = 0 && bits p 28 12 = 0 && bits p 40 5 < 24 && bits p 0 28 < 0xC000000 then 5 else 0
  | _ => 0

/-- The owner field names the executing part (R67 step 2); a global address has no owner. A memory core is no part that a core or
cluster field names, but lies on a die (R12). -/
def ownsPtr (cid p : Nat) : Bool :=
  match spaceCode p with
  | 1 => true
  | 2 => isCompute cid && bits p 36 12 = coreNo cid && bits p 32 4 = ctxNo cid
  | 3 => isCompute cid && bits p 36 12 = coreNo cid
  | 4 => isCompute cid && bits p 38 9 = clusterNo cid
  | 5 => !isSupervisor cid && bits p 40 5 = dieNo cid
  | _ => false

/-- The offset that SPCV returns (R247). -/
def ptrOffset (p : Nat) : Nat :=
  match spaceCode p with
  | 1 => bits p 0 51
  | 2 => bits p 0 32
  | 3 => bits p 0 17
  | 4 => bits p 0 19
  | 5 => bits p 0 28
  | _ => 0

/-- The global VA of a window 0x00 or 0xF0 pointer (R68). -/
def ptrVa (p : Nat) : Nat := if bits p 56 8 = 0xF0 then 2 ^ 50 + bits p 0 48 else bits p 0 51

/-- The generic pointer of a VA of a context: window 0xF0 for the private half (R68, R392). -/
def ptrOfVa (va : Nat) : Nat := if va < 2 ^ 50 then va else 0xF0 * 2 ^ 56 + (va - 2 ^ 50)

/-! ## Translation -/

/-- How a table walk ends (R78, R79). -/
inductive Walk where
  | leaf (e : TlbEntry)
  | absent (home : Nat)
  | bad
  deriving DecidableEq, Repr

/-- The walk from a table page at a level (R78): `k` levels remain below. A reserved bit, a TYPE of 11, a table entry at
level 3 and an absent entry with a HOME of 400 or more are bad (R79). A table page at a physical address that R76 does not give the
device reads zero, an absent entry; the spec does not say what such a walk reads (DESIGN CHOICE, log 39). -/
def walkFrom (root : Nat) (m : Tab Byte) (va : Nat) : Nat → Nat → Walk
  | 0, _ => .bad
  | k + 1, page =>
    let pte := page + 8 * bits va (15 + 12 * k) 12
    let e := readNat m pte 8
    let sz := 15 + 12 * k
    match bits e 0 2 with
    | 0 => if bits e 2 6 = 0 && bits e 8 10 < 400 then .absent (bits e 8 10) else .bad
    | 1 =>
      if bits e 48 16 ≠ 0 || bits e 8 7 ≠ 0 || bits e 2 1 ≠ 0 then .bad else walkFrom root m va k (bits e 15 33 * 2 ^ 15)
    | 2 =>
      if bits e 48 16 ≠ 0 || bits e 8 7 ≠ 0 || bits e 2 1 ≠ 0 || bits e 15 (12 * k) ≠ 0 then .bad
      else .leaf { root := root, va := va / 2 ^ sz * 2 ^ sz, pa := bits e 15 33 * 2 ^ 15, size := sz, r := bitOf e 3, w := bitOf e 4, x := bitOf e 5, pte := pte }
    | _ => .bad

/-- The three-level walk of a launch's address space (R78). -/
def walk (m : Tab Byte) (root va : Nat) : Walk := walkFrom root m va 3 root

/-- The table entries that a walk from a table page reads, with `k` levels left (R78): those that lead to another table page, and the
leaf's. -/
def walkPath (m : Tab Byte) (va : Nat) : Nat → Nat → List Nat
  | 0, _ => []
  | k + 1, page =>
    let pte := page + 8 * bits va (15 + 12 * k) 12
    let e := readNat m pte 8
    match bits e 0 2 with
    | 1 => pte :: walkPath m va k (bits e 15 33 * 2 ^ 15)
    | 2 => [pte]
    | _ => []

/-- The entries of a table page that are not absent. -/
def pageEntries (m : Tab Byte) (page : Nat) : List Nat :=
  (m.filter fun x => page ≤ x.1 && x.1 < page + 32768 && x.1 % 8 = 0 && x.2.toNat % 4 ≠ 0).map (·.1)

/-- The leaves under a table page that maps from a VA on, with `k` levels left (R78). -/
def leavesUnder (root : Nat) (m : Tab Byte) : Nat → Nat → Nat → List TlbEntry
  | 0, _, _ => []
  | k + 1, page, va =>
    (pageEntries m page).flatMap fun a =>
      let e := readNat m a 8
      let sz := 15 + 12 * k
      let at' := va + (a - page) / 8 * 2 ^ sz
      match bits e 0 2 with
      | 1 => leavesUnder root m k (bits e 15 33 * 2 ^ 15) at'
      | 2 => [{ root := root, va := at', pa := bits e 15 33 * 2 ^ 15, size := sz, r := bitOf e 3, w := bitOf e 4, x := bitOf e 5, pte := a }]
      | _ => []

/-- The leaves of an address space. -/
def leavesOf (m : Tab Byte) (root : Nat) : List TlbEntry := leavesUnder root m 3 root 0

/-- The table pages under one, with `k` levels left (R78). -/
def tablesUnder (m : Tab Byte) : Nat → Nat → List Nat
  | 0, _ => []
  | k + 1, page =>
    page :: (pageEntries m page).flatMap fun a => let e := readNat m a 8; if bits e 0 2 = 1 then tablesUnder m k (bits e 15 33 * 2 ^ 15) else []

/-- The address spaces of functions and launches, and their leaves. -/
def State.roots (s : State) : List Nat := (s.funcs.map (·.2.root) ++ s.launches.map (·.2.root)).eraseDups
def State.allLeaves (s : State) : List TlbEntry := s.roots.flatMap (leavesOf s.mem)

/-- No leaf's frame and no table page of these address spaces meets a range of memory. -/
def State.unused (s : State) (a n : Nat) : Bool :=
  !(s.allLeaves.any fun e => e.pa < a + n && a < e.pa + 2 ^ e.size)
    && !((s.roots.flatMap (tablesUnder s.mem 3)).any fun p => p < a + n && a < p + 2 ^ 15)

/-- A VA lies in a mapping. -/
def Mapping.holds (m : Mapping) (va : Nat) : Bool := m.va ≤ va && va < m.va + m.size

/-- The mapping of a host that holds a VA of an address space (R363). -/
def State.hostMapping (s : State) (root va : Nat) : Option Mapping :=
  s.funcs.findSome? fun x => if x.2.root = root then x.2.maps.find? (·.holds va) else none

/-- A VA lies in a context's private segment, up to a size (R68, R465). -/
def privateVa (size va : Nat) : Bool :=
  2 ^ 50 ≤ va && bits va 48 3 = 4 && bits va 36 12 < 3072 && bits va 32 4 ≤ 10 && bits va 0 32 < size

/-- A VA lies in a range that the address space reserves: a host's mapping, a loaded object, or a context's private segment (R465). -/
def State.reserved (s : State) (root va : Nat) : Bool :=
  (s.hostMapping root va).isSome || s.reserves.any (fun r => r.root = root && r.va ≤ va && va < r.va + r.size) || privateVa (tget 0 s.privs root) va

/-- A channel of bonded DRAM, or the expander of a CXL port that is up, has no free frame left (R76, R366, R414). -/
def State.noFrame (s : State) : Bool :=
  let full (base n : Nat) : Bool := (List.range (n / 2 ^ 15)).all fun i => !s.unused (base + 2 ^ 15 * i) (2 ^ 15)
  (List.range 384).any (fun m => full (m / 16 * 2 ^ 36 + m % 16 * 2 ^ 32) 0xC0000000)
    || s.cxlUp.any fun p => tget 0 s.cxlCap p ≠ 0 && full (2 ^ 47 + p * 2 ^ 41) (tget 0 s.cxlCap p)

/-- Two leaves share memory. -/
def TlbEntry.shares (a b : TlbEntry) : Bool := a.pa < b.pa + 2 ^ b.size && b.pa < a.pa + 2 ^ a.size

/-- A walk in an address space sets A in the entries that it read, where it ends at a leaf (R79). Of a walk that ends at an absent or a rejected
entry the rule does not say whether it sets A in the tables above: the model sets none (DESIGN CHOICE, log 69). -/
def State.walkMarks (s : State) (root va : Nat) : State :=
  match walk s.mem root va with
  | .leaf _ => { s with mem := (walkPath s.mem va 3 root).foldl (fun m p => writeByte m p (readByte m p ||| 0x40)) s.mem }
  | _ => s

/-- The TLB entry that maps a VA of an address space (R80). -/
def tlbFind (t : List TlbEntry) (root va : Nat) : Option TlbEntry :=
  t.find? fun e => e.root = root && e.va ≤ va && va < e.va + 2 ^ e.size

/-- An entry goes to the front; the least recently used ones beyond the size are lost (R80). -/
def tlbFill (t : List TlbEntry) (size : Nat) (e : TlbEntry) : List TlbEntry :=
  (e :: t.filter fun x => !(x.root = e.root && x.va = e.va)).take size

/-- The core whose TLBs and fetched blocks a context uses: where it is away (R82), or its own. -/
def State.tlbKey (s : State) (cid : Nat) : Nat :=
  match (s.ctx cid).away with
  | some a => 0x10000 + 16 * a.core
  | none => coreKey cid

/-- The root of a context's address space. -/
def State.rootFor (s : State) (cid : Nat) : Nat := (s.file cid).root

/-- The key of a fetched block: its address space and its place. -/
def blockKey (root va : Nat) : Nat := root * 2 ^ 46 + va / 32

/-- The physical address of a VA under an entry. -/
def TlbEntry.phys (e : TlbEntry) (va : Nat) : Nat := e.pa + va % 2 ^ e.size

/-- What a data access finds in the core's data TLB. A supervisor core reaches all device memory and addresses it
physically (R13, DEDUCED, log 15). -/
inductive Xlate where
  | hit (e : TlbEntry)
  | miss
  deriving DecidableEq, Repr

def State.xlate (s : State) (cid va : Nat) : Xlate :=
  if isSupervisor cid then .hit { root := 0, va := 0, pa := 0, size := 64, r := true, w := true, x := true, pte := 0 }
  else match tlbFind (s.core (s.tlbKey cid)).dtlb (s.rootFor cid) va with
    | some e => .hit e
    | none => .miss

/-- Marks a data translation most recently used (R80). -/
def State.touchTlb (s : State) (cid : Nat) (e : TlbEntry) : State :=
  if isSupervisor cid then s
  else
    let k := s.tlbKey cid
    let c := s.core k
    s.setCore k { c with dtlb := tlbFill c.dtlb 64 e }

/-- Marks an instruction translation most recently used (R80). -/
def State.touchItlb (s : State) (cid va : Nat) : State :=
  let k := s.tlbKey cid
  let c := s.core k
  match tlbFind c.itlb (s.rootFor cid) va with
  | some e => s.setCore k { c with itlb := tlbFill c.itlb 32 e }
  | none => s

/-- A TLB of the core at which a context executes takes a translation (R80). -/
def State.fillFirst (s : State) (cid : Nat) (fetch : Bool) (e : TlbEntry) : State :=
  let k := s.tlbKey cid
  let c := s.core k
  s.setCore k (if fetch then { c with itlb := tlbFill c.itlb 32 e } else { c with dtlb := tlbFill c.dtlb 64 e })

/-- The context executes at its own compute core, whose cluster has walkers and a second-level TLB (R80). -/
def State.inCluster (s : State) (cid : Nat) : Bool := isCompute cid && (s.ctx cid).away = none

/-- A walk that found a leaf for a VA: the entries are marked accessed, and the TLBs take the leaf (R79, R80). The second-level TLB gives up its
oldest entry (DESIGN CHOICE, log 39). -/
def State.fillTlb (s : State) (cid : Nat) (fetch : Bool) (va : Nat) (e : TlbEntry) : State :=
  let s1 := (s.walkMarks (s.rootFor cid) va).fillFirst cid fetch e
  if !s.inCluster cid then s1
  else
    let x := s1.cluster (clusterNo cid)
    s1.setCluster (clusterNo cid) { x with tlb := (e :: x.tlb.filter fun y => y ≠ e).take 2048 }

/-- The cluster's second-level TLB holds a translation of a VA (R80). -/
def State.secondTlb (s : State) (cid va : Nat) : Option TlbEntry :=
  if s.inCluster cid then tlbFind (s.cluster (clusterNo cid)).tlb (s.rootFor cid) va else none

/-- The translation of a VA that a context's data TLB lacks: what the second-level TLB or a walk finds, which the TLBs take (R79, R80). -/
def State.lookUp (s : State) (cid va : Nat) : State × Walk :=
  match s.secondTlb cid va with
  | some e => (s.fillFirst cid false e, .leaf e)
  | none => match walk s.mem (s.rootFor cid) va with
    | .leaf e => (s.fillTlb cid false va e, .leaf e)
    | w => (s, w)

/-! ## Fetch -/

/-- What a fetch at an address finds: the 32 bytes of its block, a wait, or a cause (R466, R399, R222). -/
inductive Fetched where
  | bytes (bs : List Byte)
  | wait (w : Wait)
  | cause (n : Nat)
  deriving DecidableEq, Repr

/-- The check of R466 on an address: window 0x00 alone holds code, a bad bit is SPACE_INVALID, another window ACCESS. -/
def fetchCause (va : Nat) : Option Nat :=
  let zero : Bool := match bits va 56 8 with
    | 0x00 => bits va 50 6 = 0
    | 0xF0 => bits va 48 8 = 0
    | 0xF1 => bits va 48 8 = 0 && bits va 17 19 = 0
    | 0xF2 => bits va 47 9 = 0 && bits va 19 19 = 0
    | 0xF3 => bits va 45 11 = 0 && bits va 28 12 = 0
    | _ => false
  if !zero then some 0x09 else if bits va 56 8 = 0 then none else some 0x07

/-- Fetches the block that holds an address. Blocks already fetched are used until FENCEI (R208, R222). -/
def State.fetch (s : State) (cid va : Nat) : Fetched :=
  let c := s.core (s.tlbKey cid)
  match fetchCause va with
  | some n => .cause n
  | none =>
    match tfind c.blocks (blockKey (s.rootFor cid) va) with
    | some bs => .bytes bs
    | none =>
      if isSupervisor cid then .wait (.block va)
      else match tlbFind c.itlb (s.rootFor cid) va with
        | none => .wait (.walk va true)
        | some e => if e.x then .wait (.block va) else .cause 0x07

/-- R188: an instruction of this length crosses its block. -/
def crosses (va len : Nat) : Bool := 32 < va % 32 + len

end Sys2Proof.Machine
end

