-- ==== Sys2Proof/Machine/Boundary.lean ====
section
/-! DEFINITION. What happens at an instruction boundary before an instruction issues: time, the asynchronous causes that may
be taken, the fetch with its causes, and the cause of a word that is no instruction (R188, R204, R205, R393, R399, R466). -/

namespace Sys2Proof.Machine

/-- Time passes by a positive number of cycles that the model does not fix (DESIGN CHOICE, log 4). -/
def State.tick (s : State) : State := { s with cyc := s.cyc + 1 + Config.cycles s.free, free := s.free + 1 }

/-- A context takes an asynchronous cause at this boundary (R393): one is pending, MODE is USER and IE is 1, and a
journal-reported cause of another context does not hold the core. -/
def State.takesAsync (s : State) (cid : Nat) : Bool :=
  let c := s.ctx cid
  let j := (s.core (coreKey cid)).jholder
  c.mode = 0 && c.ie && c.pend.any fun a => a.entry = none || j = none || j = some (ctxNo cid)

/-- An element of a list for which a function is least, the first on ties. -/
def leastBy {α : Type} (f : α → Nat) : List α → Option α
  | [] => none
  | x :: xs => match leastBy f xs with | none => some x | some y => if f y < f x then some y else some x

/-- The pending cause that the context takes next (R397 rule 3): SOFT_ERROR, then increasing code, the journal-reported
causes as one block at the place of their lowest code, in the order in which they were refused. -/
def nextAsync (jholder : Option Nat) (x : Nat) (pend : List AsyncCause) : Option AsyncCause :=
  let ok := pend.filter fun a => a.entry = none || jholder = none || jholder = some x
  let plain := ok.filter fun a => a.entry = none
  let jr := ok.filter fun a => a.entry ≠ none
  match plain.find? fun a => a.code = 0x19 with
  | some a => some a
  | none =>
    match leastBy (·.code) plain, leastBy (·.code) jr with
    | some a, some b => if b.code < a.code then jr.head? else some a
    | some a, none => some a
    | none, _ => jr.head?

/-- The requests for lock bits that a context has waiting are withdrawn; the bit it holds stays (R94, R404). -/
def State.withdrawLocks (s : State) (cid : Nat) : State :=
  if !isCompute cid then s
  else
    let held := (s.ctx cid).lock
    let clear (k : Nat) (s : State) : State :=
      let x := s.core k
      s.setCore k { x with locks := x.locks.filter fun y => !(y.2 = cid && some y.1 ≠ held) }
    clear (coreNo cid) (clear (0x30000 + clusterNo cid) s)

/-- An LLK of the context stands in line for a lock bit of its cluster (R404). -/
def State.inLine (s : State) (cid : Nat) : Bool :=
  match (s.ctx cid).wait with
  | .atomic r => r.kind = .llk && ((s.core (0x30000 + clusterNo cid)).locks.any fun y => y.2 = cid)
  | _ => false

/-- The context stands at an instruction boundary at which a cause may be taken (R393, R404). -/
def State.atBoundary (s : State) (cid : Nat) : Bool :=
  let c := s.ctx cid
  c.ready || (c.life = .live && !c.stopped && s.inLine cid)

/-- Takes the next pending asynchronous cause (R393, R394, R402, R404): a journal-reported one names its entry in XJRN, marks
it REPORTED and holds the core until ERET; PREEMPT clears the lock bit (R94). -/
def State.takeAsync (s : State) (cid : Nat) : State :=
  let c := s.ctx cid
  let k := coreKey cid
  match nextAsync (s.core k).jholder (ctxNo cid) c.pend with
  | none => s
  | some a =>
    let s0 := s.withdrawLocks cid
    let s1 := s0.setCtx cid { c with pend := c.pend.erase a }
    let s2 := match a.entry with
      | none => s1
      | some j => (s1.setCore k { s1.core k with xjrn := word j, jholder := some (ctxNo cid) }).setJrnState k j 3
    let s3 := s2.takeTrap cid .async a.code 0 c.pc a.val
    if a.code = 0x1A then
      let s4 := s3.dropLock cid
      s4.setCtx cid { s4.ctx cid with inPre := true }
    else s3

/-- What a fetch gives the issuing context: the 128 bits from its pc, or what happens instead. -/
inductive AtPc where
  | word (w : Nat)
  | out (o : Host.Outcome State Fault Refusal)

/-- The fetch of the context's next instruction: the causes of R466 and R399, a wait, FETCH_BOUNDARY, or the bits. -/
def State.fetchAt (s : State) (cid : Nat) : AtPc :=
  let c := s.ctx cid
  match s.fetch cid c.pc.toNat with
  | .cause n => .out (.next (s.takeTrap cid .exact n 0 c.pc c.pc))
  | .wait w => .out (.next ((s.setCtx cid { c with wait := w }).touchItlb cid c.pc.toNat))
  | .bytes bs =>
    let w := ofBytes ((bs.drop (c.pc.toNat % 32)).take 16)
    let len := w % 4
    if len ≠ 3 && crosses c.pc.toNat (lenBytes len) then
      .out (.next (s.takeTrap cid .exact 0x02 (lenBytes len / 4) c.pc c.cameFrom))
    else .word w

/-- ILLEGAL_ENCODING for a word that is no instruction, with the first reason that applies (R204, R205). LEN = 11 gives no
length, so its ILEN is a free value (DESIGN CHOICE, log 3). -/
def State.rejectWord (s : State) (d : Decoded) : Host.Outcome State Fault Refusal :=
  let c := s.me
  let st : Option Reject :=
    match d.instr with
    | none => none
    | some i =>
      match i.op with
      | none => none
      | some op =>
        stateReject op (match i.parts with | some (_, o, _) => dynReject op o s | none => none) s.cur c
  let r := (firstReject d.reject st).getD .opcode
  let ilen := if d.len = 0 then Config.free s.free % 8 else d.len / 4
  .next ({ s with free := s.free + 1 }.takeTrap s.cur .exact 0x01 ilen c.pc (word r.code))

end Sys2Proof.Machine
end

