-- ==== Sys2Proof/Machine/Access.lean ====
section
/-! DEFINITION. How an access of a context reaches memory: the checks of R67, R69 and R245, translation (R82), the
posted-store journal (R401, R402), watchpoints and trace records (R384 to R386), and the parts a release will have to reach
(R101). -/

namespace Sys2Proof.Machine

/-- The kinds of access that R245 tells apart. -/
inductive AKind where
  | load | store | lock | atomic
  deriving DecidableEq, Repr

/-- Where an access goes, or what happens instead. -/
inductive Access where
  | cause (n : Nat) (val : Word)
  | wait (va : Nat)
  | loc (off : Nat)
  | shared (l : Nat)
  | weight (l : Nat)
  | global (l : Nat) (e : TlbEntry)
  | unserved
  | stop (f : Fault)
  deriving DecidableEq, Repr

/-- Steps 1 to 3 of R67 for an access aligned to `al`: the first cause, if any. -/
def ptrCause (cid p al : Nat) : Option Nat :=
  if spaceCode p = 0 then some 0x09
  else if !ownsPtr cid p then some 0x08
  else if p % al ≠ 0 then some 0x0A
  else none

/-- The rules of local memory (R69, R245): CONST_WRITE for a write to the constant window, ACCESS for USER in the handler's
area. -/
def localCause (mode : Nat) (k : AKind) (off : Nat) : Option Nat :=
  if off < 0x800 then (if k = .load then none else some 0x1B)
  else if off < 0x1000 then (if mode = 0 then some 0x07 else none)
  else none

/-- A leaf permits the access (R79, R245). -/
def leafAllows (e : TlbEntry) (k : AKind) : Bool :=
  match k with
  | .load => e.r
  | .store => e.w
  | .lock => false
  | .atomic => e.r && e.w

/-- The part that holds a location lies on a lost die (R423, R425). -/
def State.lostLoc (s : State) (l : Nat) : Bool :=
  if l < 2 ^ 48 then bits l 47 1 = 0 && (s.die (bits l 36 6)).lost
  else if l < 2 * 2 ^ 48 then (s.die ((l - 2 ^ 48) / 2 ^ 17 / 128)).lost
  else if l < 3 * 2 ^ 48 then (s.die ((l - 2 * 2 ^ 48) / 2 ^ 19 / 16)).lost
  else (s.die ((l - 3 * 2 ^ 48) / 2 ^ 28)).lost

/-- A location lies in CXL memory whose port is not up (R454). -/
def State.portDown (s : State) (l : Nat) : Bool := l < 2 ^ 48 && bits l 47 1 = 1 && !s.cxlUp.contains (bits l 41 3)

/-- The core that a HOME field names cannot service an absence: a memory core of a lost die, or a far-memory core whose port is down (R414). -/
def State.lostHome (s : State) (m : Nat) : Bool := if m < 384 then (s.die (m / 16)).lost else !s.cxlUp.contains ((m - 384) / 2)

/-- The service of an absent entry cannot succeed: the core that HOME names has gone, or its port is down (R414). -/
def State.homeGone (s : State) (root va : Nat) : Bool := match walk s.mem root va with | .absent m => s.lostHome m | _ => false

/-- The service of an absent entry may fail (R414, R465): the VA lies in no reserved range, the mapping lacks a right, the core that HOME names has gone
or is a far-memory core, whose expander may return poison, or a channel or port that Smirvadin's policy may name has no frame left. -/
def State.mayRefuse (s : State) (root : Option Nat) (va : Nat) : Bool :=
  match root with
  | none => true
  | some r =>
    let far : Bool := match walk s.mem r va with | .absent m => 384 ≤ m | _ => false
    !s.reserved r va || (s.hostMapping r va).any (·.rights ≠ 7) || s.homeGone r va || far || s.noFrame

/-- The whole check of an access of `al`-byte alignment at a pointer, in the order of R67 and R397. A memory core has no path to the weight store of
its die (R13, R74): its load there raises ACCESS (DEDUCED, log 72). -/
def State.access (s : State) (cid p al : Nat) (k : AKind) : Access :=
  let c := s.ctx cid
  match ptrCause cid p al with
  | some n => .cause n (word p)
  | none =>
    match spaceCode p with
    | 3 => match localCause c.mode k (ptrOffset p) with
      | some n => .cause n (word p)
      | none => .loc (ptrOffset p)
    | 4 => .shared (locShared (bits p 38 9) (ptrOffset p))
    | 5 => if k = .load && isCompute cid then .weight (locWeight (bits p 40 5) (ptrOffset p)) else .cause 0x07 (word p)
    | _ =>
      if k = .lock then .cause 0x07 (word p)
      else match s.xlate cid (ptrVa p) with
        | .miss => if c.unserved.isSome then .unserved else .wait (ptrVa p)
        | .hit e =>
          if !leafAllows e k then .cause 0x07 (word p)
          else if paExists (e.phys (ptrVa p)) then .global (e.phys (ptrVa p)) e else .stop .noSuchMemory

/-- An access that hits the data TLB makes its translation the most recently used one (R80). One that is then refused, for its leaf's rights or
another cause, is no use of it (DESIGN CHOICE, log 75). -/
def State.touchAt (s : State) (cid p : Nat) : State :=
  match s.access cid p 1 .load with
  | .global _ e => s.touchTlb cid e
  | _ => s

/-- The bank of a weight-store unit is in its refresh window (R74, R75). -/
def State.refreshing (s : State) (l : Nat) : Bool :=
  let die := bits l 28 5
  let pos := (s.cyc - (s.die die).wsBase) % 2048
  let bank := l / 64 % 32
  64 * bank ≤ pos && pos < 64 * bank + 32

/-- A bank of some bytes of a weight store is in its refresh window: a read of several banks waits for its last one (R75). -/
def State.refreshingAny (s : State) (l n : Nat) : Bool :=
  (List.range (min 32 ((l % 64 + n + 63) / 64))).any fun i => s.refreshing (l + 64 * i)

/-! ## Watchpoints and trace -/

/-- Writes a trace record (R384): the oldest is overwritten when the ring is full; nothing where no ring is set. -/
def State.traceRec (s : State) (cid kind : Nat) (pc data : Word) : State :=
  let d := dieNo cid
  let x := s.die d
  if x.trace.size = 0 then s
  else
    let a := x.trace.base + 32 * x.trace.next
    let core := if isCompute cid then coreNo cid else 0x8000 + coreNo cid
    let bs := toBytes 8 s.cyc ++ toBytes 4 (s.ssn (coreKey cid)) ++ toBytes 2 core ++ toBytes 1 kind ++ toBytes 1 (ctxNo cid)
      ++ toBytes 8 pc.toNat ++ toBytes 8 data.toNat
    (s.poke a bs).setDie d { x with trace := { x.trace with next := (x.trace.next + 1) % x.trace.size } }

/-- The ACT field of a watchpoint of the core, where it matches an access (R385). -/
def watchMatch (x : Core) (w p size : Nat) (ld st : Bool) : Nat :=
  let a := (tget 0 x.waddr w).toNat
  let ctl := (tget 0 x.wctl w).toNat
  let len := 2 ^ min (bits ctl 0 5) 20
  if ((ld && bitOf ctl 5) || (st && bitOf ctl 6)) && p < a + len && a < p + size then bits ctl 7 2 else 0

/-- The watchpoints that some accesses of a compute core's context match: number, ACT and the first address matched. -/
def State.watchHits (s : State) (cid : Nat) (acc : List (Nat × Nat)) (ld st : Bool) : List (Nat × Nat × Nat) :=
  if !isCompute cid then []
  else
    let x := s.core (coreKey cid)
    [0, 1, 2, 3].filterMap fun w =>
      match acc.find? fun a => watchMatch x w a.1 a.2 ld st ≠ 0 with
      | some a => some (w, watchMatch x w a.1 a.2 ld st, a.1)
      | none => none

/-- Matches are recorded, and ACT 11 stops the core at its next boundary (R385, R386). -/
def State.noteHits (s : State) (pc : Word) (hits : List (Nat × Nat × Nat)) : State :=
  let s1 := hits.foldl (fun t x => t.traceRec s.cur 1 pc (word x.2.2)) s
  if hits.any fun x => x.2.1 = 3 then s1.setMyCore { s1.myCore with haltReq := true } else s1

/-- What the watchpoints do with accesses of an instruction that raises no WATCH: one that ends on a cause, or whose row of R412 has none
(DEDUCED, log 62). -/
def State.watchNotes (s : State) (pc : Word) (acc : List (Nat × Nat)) (ld st : Bool) : State := s.noteHits pc (s.watchHits s.cur acc ld st)

/-- The end of an instruction whose accesses matched: ACT 10 raises WATCH after retirement (R385, R386). -/
def State.endHits (s : State) (pc : Word) (hits : List (Nat × Nat × Nat)) : Act :=
  let s1 := s.noteHits pc hits
  if hits.any fun x => x.2.1 = 2 then .retired s1 0x05 (word ((hits.map fun x => 2 ^ x.1).sum)) else .retire s1

/-- The end of an instruction that made some accesses. -/
def State.watchedAll (s : State) (pc : Word) (acc : List (Nat × Nat)) (ld st : Bool) : Act := s.endHits pc (s.watchHits s.cur acc ld st)

/-- The end of an instruction that made some loads beside its other accesses. -/
def State.watchedWith (s : State) (pc : Word) (loads acc : List (Nat × Nat)) (ld st : Bool) : Act :=
  let a := s.watchHits s.cur acc ld st
  s.endHits pc (a ++ (s.watchHits s.cur loads true false).filter fun x => !a.any fun y => y.1 = x.1)

/-- The end of an instruction that made one access. -/
def State.watched (s : State) (pc : Word) (p size : Nat) (ld st : Bool) : Act := s.watchedAll pc [(p, size)] ld st

/-! ## The journal -/

/-- The first FREE entry of a core's journal at or after `j` (R401). -/
def State.freeEntry (s : State) (core : Nat) : Nat → Nat → Option Nat
  | 0, _ => none
  | k + 1, j => if s.jrnState core j = 0 then some j else s.freeEntry core k (j + 1)

/-- Opens a journal entry for the issuing context (R401, R402); nothing where none is FREE. Cores of other kinds keep no
journal, and open none. -/
def State.openEntry (s : State) (kind addr : Nat) : Option (Option Nat × State) :=
  if !isCompute s.cur then some (none, s)
  else
    let core := coreNo s.cur
    match s.freeEntry core 32 0 with
    | none => none
    | some j =>
      let bs := toBytes 8 s.me.pc.toNat ++ toBytes 8 addr ++ toBytes 4 0 ++ toBytes 1 0 ++ toBytes 1 (ctxNo s.cur)
        ++ toBytes 1 kind ++ toBytes 1 1 ++ toBytes 8 (s.ssn core)
      some (some j, s.poke (locLocal core (jrnOff j)) bs)

/-- The core's network interface remembers a destination of its traffic (R101). -/
def State.addDest (s : State) (cid : Nat) (d : Dest) : State :=
  let k := coreKey cid
  let c := s.core k
  if c.dests.contains d then s else s.setCore k { c with dests := d :: c.dests }

/-- Where traffic for a location goes. -/
def destOf (l : Nat) : Dest := if l < 2 ^ 48 then .memCore (ownerOf l) else .cluster ((l - 2 * 2 ^ 48) / 2 ^ 19)

/-- Sends a posted operation of the issuing context to its home (R402): it takes its place in the context's program order. -/
def State.sendPost (s : State) (x : Post) : State :=
  let c := s.me
  { s.setMe { c with ops := c.ops + 1 } with posts := s.posts ++ [{ x with cid := s.cur, num := c.ops + 1 }] }

/-- The bytes of a posted operation that its homes have accepted (R401). -/
def Post.done (x : Post) : Nat := ((x.parts.take x.took).map (·.2)).sum

/-- The location of the first part that is not accepted yet. -/
def Post.loc (x : Post) : Nat := ((x.parts.drop x.took).head?.map (·.1)).getD 0

/-- A posted operation before it is sent: no home has accepted a part of it. -/
def newPost (jrn : Option Nat) (p : Nat) (parts : List (Nat × Nat)) (req : Option AtomicReq) (refuse : Option Nat) : Post :=
  { cid := 0, jrn := jrn, ptr := p, parts := parts, took := 0, req := req, refuse := refuse.map fun c => (c, 0), arrived := false, num := 0 }

/-- Adds memory bytes that a context stores to shared or global memory, under a journal entry, and sends the store to its
home (R90, R244, R402). -/
def State.post (s : State) (jrn : Option Nat) (p l pte : Nat) (bs : List Byte) : State :=
  ((s.setMe (s.me.ownStore jrn (s.me.ops + 1) p pte l bs)).addDest s.cur (destOf l)).sendPost (newPost jrn p [(l, bs.length)] none none)

/-! ## Accesses of several 32-byte pieces -/

/-- The pieces of an access from piece `i` on: where each lies, or the first that fails and how. -/
def State.pieces (s : State) (cid p : Nat) (k : AKind) : Nat → Nat → Sum (Nat × Access) (List Access)
  | 0, _ => .inr []
  | n + 1, i =>
    match s.access cid (p + 32 * i) 32 k with
    | .loc o => (s.pieces cid p k n (i + 1)).map id (.loc o :: ·)
    | .shared l => (s.pieces cid p k n (i + 1)).map id (.shared l :: ·)
    | .weight l => (s.pieces cid p k n (i + 1)).map id (.weight l :: ·)
    | .global l e => (s.pieces cid p k n (i + 1)).map id (.global l e :: ·)
    | a => .inl (i, a)

/-- The location of a piece. -/
def Access.at (a : Access) (cid : Nat) : Nat :=
  match a with
  | .loc o => locLocal (coreNo cid) o
  | .shared l => l
  | .weight l => l
  | .global l _ => l
  | _ => 0

/-- The 32 bytes of a piece as a context reads them. -/
def State.pieceBytes (s : State) (cid : Nat) (a : Access) : List Byte :=
  match a with
  | .loc o => s.readLocal (coreNo cid) o 32
  | .weight l => readBytes s.mem l 32
  | a => (s.ctx cid).seeBytes (a.at cid) 32

/-- The context's own stores of a piece of shared or global memory, of a store at a place in program order and a pointer. -/
def State.ownPiece (s : State) (jrn : Option Nat) (num p : Nat) (a : Access) (bs : List Byte) : State :=
  match a with
  | .shared l => (s.setMe (s.me.ownStore jrn num p 0 l bs)).addDest s.cur (destOf l)
  | .global l e => ((s.touchTlb s.cur e).setMe ((s.touchTlb s.cur e).me.ownStore jrn num p e.pte l bs)).addDest s.cur (destOf l)
  | _ => s

/-- Sends an exact-cell operation to its home (R141, R402). -/
def State.postCell (s : State) (jrn : Option Nat) (r : AtomicReq) : State :=
  (s.addDest s.cur (destOf r.loc)).sendPost (newPost jrn r.ptr [(r.loc, 64)] (some r) none)

/-- A posted operation on a page whose service failed (R414): its home refuses it with PAGE_UNSERVICEABLE. A program that MCRUN
started keeps no journal, and the cause ends it (R398). -/
def State.postUnserved (s : State) (kind p : Nat) : Act :=
  if !isCompute s.cur then .trap s 0x06 (word p)
  else match s.openEntry kind p with
    | none => .stall s
    | some (j, s1) => .retire (s1.sendPost (newPost j p [] none (some 0x06)))

end Sys2Proof.Machine
end

