-- ==== Sys2Proof/Machine/Flags.lean ====
section
/-! DEFINITION. Conditions and flags: the condition codes of branches and compares (R194, R227, R230), and the accumulator
flags that rounding sets (R142). -/

namespace Sys2Proof.Machine

/-- The conditions of BRC (R194) on full 64-bit values. -/
def branchCond (cnd : Nat) (a b : Word) : Bool :=
  match cnd with
  | 0 => a = b
  | 1 => a ≠ b
  | 2 => a.toInt < b.toInt
  | 3 => b.toInt ≤ a.toInt
  | 4 => a.toInt ≤ b.toInt
  | 5 => b.toInt < a.toInt
  | 6 => a.toNat < b.toNat
  | 7 => b.toNat ≤ a.toNat
  | 8 => a.toNat ≤ b.toNat
  | 9 => b.toNat < a.toNat
  | 10 => bitOf a.toNat (b.toNat % 64)
  | _ => !bitOf a.toNat (b.toNat % 64)

/-- The conditions of CMP and CMPU, and of VCMP on integer lanes (R227, R284): on w-bit values x and y. -/
def intCond (w : Nat) (signed : Bool) (c x y : Nat) : Bool :=
  let a : Int := if signed then sext w x else (x % 2 ^ w : Nat)
  let b : Int := if signed then sext w y else (y % 2 ^ w : Nat)
  match c with
  | 0 => a = b
  | 1 => a ≠ b
  | 2 => a < b
  | 3 => b ≤ a
  | 4 => a ≤ b
  | 5 => b < a
  | 6 => bitOf x (y % w)
  | _ => !bitOf x (y % w)

/-- What a result written to an accumulator slot sets (R142): UNF for a nonzero result rounded inexactly below the smallest
normal, OVF for an overflow without SAT, SAT for a clamp, INV for a NaN. -/
def slotFlags (f : NumFlags) (old : Nat) : Nat := (f.or (.ofNat old)).toNat

end Sys2Proof.Machine
end

