-- ==== Sys2Proof/Machine/Scalar.lean ====
section
/-! DEFINITION. Scalar integer instructions (R223 to R227, 12). -/

namespace Sys2Proof.Machine

def noDyn (_ : State) : Option Reject := none

/-- A scalar instruction of this chapter: home resources are needed for a constant-window operand alone (R196, R211). -/
def issueS (i : Op) (h : Hdr) (o : Ops) (body : State → Act) (s : State) : Out :=
  issue i h (lenOf i h o) o.k o.usesCw [o.a, o.b, o.c] (dynReject i o) body s

/-- The signed value of the low w bits. -/
def sval (w : Nat) (x : Word) : Int := sext w x.toNat
/-- The unsigned value of the low w bits. -/
def uval (w : Nat) (x : Word) : Nat := x.toNat % 2 ^ w

/-- The results of R224, exact, on W-bit operands; R223 narrows and extends them. -/
def intOp (i : Op) (w : Nat) (x y z : Word) : Int :=
  let a := sval w x
  let b := sval w y
  let ua := uval w x
  let ub := uval w y
  match i with
  | .add => a + b
  | .sub => a - b
  | .mul => a * b
  | .mulh => a * b / 2 ^ w
  | .mulhu => ((ua * ub / 2 ^ w : Nat) : Int)
  | .div => if b = 0 then -1 else a.tdiv b
  | .divu => if ub = 0 then -1 else ((ua / ub : Nat) : Int)
  | .rem => if b = 0 then a else a.tmod b
  | .remu => if ub = 0 then a else ((ua % ub : Nat) : Int)
  | .and => ((ua &&& ub : Nat) : Int)
  | .or => ((ua ||| ub : Nat) : Int)
  | .xor => ((ua ^^^ ub : Nat) : Int)
  | .andn => ((ua &&& (2 ^ w - 1 - ub) : Nat) : Int)
  | .shl => ((ua * 2 ^ (ub % w) : Nat) : Int)
  | .shr => ((ua / 2 ^ (ub % w) : Nat) : Int)
  | .sar => a / 2 ^ (ub % w)
  | .rol => ((ua * 2 ^ (ub % w) + ua / 2 ^ (w - ub % w) : Nat) : Int)
  | .min => min a b
  | .max => max a b
  | .minu => ((min ua ub : Nat) : Int)
  | .maxu => ((max ua ub : Nat) : Int)
  | .mad => a * b + sval w z
  | .clz => ((if ua = 0 then w else w - 1 - ua.log2 : Nat) : Int)
  | .popc => ((((List.range w).filter fun k => bitOf ua k).length : Nat) : Int)
  | _ => 0

/-- A result wrapped to W bits and extended as T says (R223). -/
def extInt (t : TCode) (r : Int) : Word := extendT t (wrap (intW t) r)

/-- The scalar integer instructions that write sD from A, B and C under T. -/
def execInt (i : Op) (h : Hdr) (o : Ops) (s : State) : Out :=
  issueS i h o (fun s =>
    .retire (s.setS o.d (extInt o.t (intOp i (intW o.t) (s.arg o.a) (s.arg o.b) (s.arg o.c))))) s

/-- ADD (R224). -/
def execAdd (h : Hdr) (o : Ops) (s : State) : Out := execInt .add h o s
/-- SUB (R224). -/
def execSub (h : Hdr) (o : Ops) (s : State) : Out := execInt .sub h o s
/-- MUL (R224). -/
def execMul (h : Hdr) (o : Ops) (s : State) : Out := execInt .mul h o s
/-- MULH (R224). -/
def execMulh (h : Hdr) (o : Ops) (s : State) : Out := execInt .mulh h o s
/-- MULHU (R224). -/
def execMulhu (h : Hdr) (o : Ops) (s : State) : Out := execInt .mulhu h o s
/-- DIV (R224, signed quotient toward zero; R225). -/
def execDiv (h : Hdr) (o : Ops) (s : State) : Out := execInt .div h o s
/-- DIVU (R224, unsigned quotient; R225). -/
def execDivu (h : Hdr) (o : Ops) (s : State) : Out := execInt .divu h o s
/-- REM (R224, signed remainder; R225). -/
def execRem (h : Hdr) (o : Ops) (s : State) : Out := execInt .rem h o s
/-- REMU (R224, unsigned remainder; R225). -/
def execRemu (h : Hdr) (o : Ops) (s : State) : Out := execInt .remu h o s
/-- AND (R224). -/
def execAnd (h : Hdr) (o : Ops) (s : State) : Out := execInt .and h o s
/-- OR (R224). -/
def execOr (h : Hdr) (o : Ops) (s : State) : Out := execInt .or h o s
/-- XOR (R224). -/
def execXor (h : Hdr) (o : Ops) (s : State) : Out := execInt .xor h o s
/-- ANDN (R224). -/
def execAndn (h : Hdr) (o : Ops) (s : State) : Out := execInt .andn h o s
/-- SHL (R224). -/
def execShl (h : Hdr) (o : Ops) (s : State) : Out := execInt .shl h o s
/-- SHR (R224). -/
def execShr (h : Hdr) (o : Ops) (s : State) : Out := execInt .shr h o s
/-- SAR (R224). -/
def execSar (h : Hdr) (o : Ops) (s : State) : Out := execInt .sar h o s
/-- ROL (R224). -/
def execRol (h : Hdr) (o : Ops) (s : State) : Out := execInt .rol h o s
/-- MIN (R224). -/
def execMin (h : Hdr) (o : Ops) (s : State) : Out := execInt .min h o s
/-- MAX (R224). -/
def execMax (h : Hdr) (o : Ops) (s : State) : Out := execInt .max h o s
/-- MINU (R224). -/
def execMinu (h : Hdr) (o : Ops) (s : State) : Out := execInt .minu h o s
/-- MAXU (R224). -/
def execMaxu (h : Hdr) (o : Ops) (s : State) : Out := execInt .maxu h o s
/-- CLZ (R224). -/
def execClz (h : Hdr) (o : Ops) (s : State) : Out := execInt .clz h o s
/-- POPC (R224). -/
def execPopc (h : Hdr) (o : Ops) (s : State) : Out := execInt .popc h o s
/-- MAD (R224). -/
def execMad (h : Hdr) (o : Ops) (s : State) : Out := execInt .mad h o s

/-- CMP (R227): a signed condition into pD. -/
def execCmp (h : Hdr) (o : Ops) (s : State) : Out :=
  issueS .cmp h o (fun s =>
    .retire (s.setP o.d (intCond (intW o.t) true o.fn (s.arg o.a).toNat (s.arg o.b).toNat))) s

/-- CMPU (R227): an unsigned condition into pD. -/
def execCmpu (h : Hdr) (o : Ops) (s : State) : Out :=
  issueS .cmpu h o (fun s =>
    .retire (s.setP o.d (intCond (intW o.t) false o.fn (s.arg o.a).toNat (s.arg o.b).toNat))) s

/-- SEL (R224): sA where the predicate that C names is true, else sB. -/
def execSel (h : Hdr) (o : Ops) (s : State) : Out :=
  issueS .sel h o (fun s => .retire (s.setS o.d (if s.me.preg o.c.num then s.arg o.a else s.arg o.b))) s

/-- MOV (R224). -/
def execMov (h : Hdr) (o : Ops) (s : State) : Out :=
  issueS .mov h o (fun s => .retire (s.setS o.d (s.arg o.b))) s

/-- MOVI (R224): EXT64. -/
def execMovi (h : Hdr) (d : Nat) (imm : Nat) (s : State) : Out :=
  issue .movi h 16 0 false [] noDyn (fun s => .retire (s.setS d (word imm))) s

/-- The field that BFX and BFI name: position and width (R226). -/
def bitFieldSpec (b : Word) : Nat × Nat :=
  let pos := bits b.toNat 0 6
  (pos, min (bits b.toNat 8 7) (64 - pos))

/-- BFX (R226): a field, zero-extended or sign-extended as MX[0] says. -/
def execBfx (h : Hdr) (o : Ops) (s : State) : Out :=
  issueS .bfx h o (fun s =>
    let f := bitFieldSpec (s.arg o.b)
    let x := bits (s.arg o.a).toNat f.1 f.2
    .retire (s.setS o.d (if o.mx = 1 && f.2 ≠ 0 then wordI (sext f.2 x) else word x))) s

/-- BFI (R226): sC with a field replaced. -/
def execBfi (h : Hdr) (o : Ops) (s : State) : Out :=
  issueS .bfi h o (fun s =>
    let f := bitFieldSpec (s.arg o.b)
    .retire (s.setS o.d (setField (s.arg o.c) f.1 f.2 (s.arg o.a).toNat))) s

/-- ADDS (R224): the exact sum clamped, signed for I32 and I64, unsigned for U32. -/
def execAdds (h : Hdr) (o : Ops) (s : State) : Out :=
  issueS .adds h o (fun s =>
    let w := intW o.t
    let r : Int := if o.t = .u32 then ((uval w (s.arg o.a) + uval w (s.arg o.b) : Nat) : Int)
      else sval w (s.arg o.a) + sval w (s.arg o.b)
    .retire (s.setS o.d (extInt o.t (clampTo o.t r)))) s

/-- ABS (R224): with SAT the most negative number gives the largest. -/
def execAbs (h : Hdr) (o : Ops) (s : State) : Out :=
  issueS .abs h o (fun s =>
    let r : Int := ((sval (intW o.t) (s.arg o.a)).natAbs : Int)
    .retire (s.setS o.d (extInt o.t (if o.sat then clampTo o.t r else r)))) s

/-- NEG (R224): with SAT the most negative number gives the largest. -/
def execNeg (h : Hdr) (o : Ops) (s : State) : Out :=
  issueS .neg h o (fun s =>
    let r : Int := -sval (intW o.t) (s.arg o.a)
    .retire (s.setS o.d (extInt o.t (if o.sat then clampTo o.t r else r)))) s

end Sys2Proof.Machine
end

