-- ==== Sys2Proof/Machine/Mem.lean ====
section
/-! DEFINITION. Scalar loads and stores, and the space instructions (R241 to R248, 13). -/

namespace Sys2Proof.Machine

/-- A memory or space instruction of this chapter, whose home resources the operand decides. -/
def issueM (i : Op) (h : Hdr) (o : Ops) (home : Bool) (body : State → Act) (s : State) : Out :=
  issue i h (lenOf i h o) o.k home [o.a, o.b, o.c] (dynReject i o) body s

/-- The access needs home resources (R82, R242): an away context accesses global and private addresses alone (DEDUCED, log 72). -/
def State.localAddr (s : State) (o : Ops) : Bool := o.usesCw || (bits (s.addr o).toNat 56 8 ≠ 0 && bits (s.addr o).toNat 56 8 ≠ 0xF0)

/-- The registers that a load writes from its bytes: one value under T, or two dwords (R244). -/
def loadWrites (t : TCode) (two : Bool) (d : Nat) (bs : List Byte) : List (Nat × Word) :=
  if two then [(d, word (ofBytes (bs.take 8))), (d + 1, word (ofBytes (bs.drop 8)))]
  else [(d, extendT t (ofBytes bs))]

def Ctx.writes (c : Ctx) : List (Nat × Word) → Ctx
  | [] => c
  | w :: ws => (c.setS w.1 w.2).writes ws

/-- LD and LD2 (R244): local memory and the weight store answer at once, shared and global memory through the view; a global
load waits for its memory core (R46). A poisoned word raises SOFT_ERROR (R427). -/
def loadBody (two : Bool) (o : Ops) (s : State) : Act :=
  let p := (s.addr o).toNat
  let n := if two then 16 else sizeT o.t
  let pc := s.me.pc
  let done (l : Nat) (bs : List Byte) : Act :=
    if s.poisoned l n then .trap s 0x19 (word p)
    else (s.setMe (s.me.writes (loadWrites o.t two o.d bs))).watched pc p n true false
  match s.access s.cur p n .load with
  | .cause c v => .trap s c v
  | .wait va => .stall (s.setMe { s.me with wait := .walk va false })
  | .unserved => .trap s 0x06 (word p)
  | .stop f => .stop f
  | .loc off => done (locLocal (coreNo s.cur) off) (s.readLocal (coreNo s.cur) off n)
  | .shared l => done l (s.me.seeBytes l n)
  | .weight l => if s.refreshingAny l n then .stall s else done l (readBytes s.mem l n)
  | .global l e =>
    let s1 := s.touchTlb s.cur e
    .stall (s1.setMe { s1.me with wait := .answer (loadWrites o.t two o.d (s1.me.seeBytes l n)) p n l })

/-- LD (R244). -/
def execLd (h : Hdr) (o : Ops) (s : State) : Out := issueM .ld h o (s.localAddr o) (loadBody false o) s
/-- LD2 (R244): both dwords, or neither. -/
def execLd2 (h : Hdr) (o : Ops) (s : State) : Out := issueM .ld2 h o (s.localAddr o) (loadBody true o) s

/-- A store of bytes at a pointer: local memory is written at retirement (R88), shared and global memory under a journal entry
(R90, R402); with no entry FREE it stalls at issue. -/
def storeBody (p al : Nat) (bs : List Byte) (s : State) : Act :=
  let pc := s.me.pc
  let post (l pte : Nat) (s : State) : Act :=
    match s.openEntry 0 p with
    | none => .stall s
    | some (j, s1) => (s1.post j p l pte bs).watched pc p bs.length false true
  match s.access s.cur p al .store with
  | .cause c v => .trap s c v
  | .wait va => .stall (s.setMe { s.me with wait := .walk va false })
  | .unserved => s.postUnserved 0 p
  | .stop f => .stop f
  | .loc off => (s.poke (locLocal (coreNo s.cur) off) bs).watched pc p bs.length false true
  | .shared l => post l 0 s
  | .weight _ => .trap s 0x07 (word p)
  | .global l e => post l e.pte (s.touchTlb s.cur e)

/-- ST (R244). -/
def execSt (h : Hdr) (o : Ops) (s : State) : Out :=
  issueM .st h o (s.localAddr o)
    (fun s => storeBody (s.addr o).toNat (sizeT o.t) (toBytes (sizeT o.t) (s.arg o.c).toNat) s) s

/-- ST2 (R244): sC and the register after it. -/
def execSt2 (h : Hdr) (o : Ops) (s : State) : Out :=
  issueM .st2 h o (s.localAddr o)
    (fun s => storeBody (s.addr o).toNat 16
      (toBytes 8 (s.me.sreg o.c.num).toNat ++ toBytes 8 (s.me.sreg (o.c.num + 1)).toNat) s) s

/-- PREF (R246): asks for the translation of a global or private address; no cause, no register, no view changes. -/
def execPref (h : Hdr) (o : Ops) (s : State) : Out :=
  issueM .pref h o o.usesCw (fun s =>
    let p := (s.addr o).toNat
    if (spaceCode p = 1 || spaceCode p = 2) && ownsPtr s.cur p && !isSupervisor s.cur then
      .retire { s with prefs := s.prefs ++ [(s.cur, ptrVa p)] }
    else .retire s) s

/-- LEA (R244): the address, with no check and no access. -/
def execLea (h : Hdr) (o : Ops) (s : State) : Out :=
  issueM .lea h o o.usesCw (fun s => .retire (s.setS o.d (s.addr o))) s

/-- SPQ (R248): the space code, and whether the executing part owns the pointer. -/
def execSpq (h : Hdr) (o : Ops) (s : State) : Out :=
  issueM .spq h o o.usesCw (fun s =>
    let p := (s.arg o.a).toNat
    let c := spaceCode p
    .retire (s.setS o.d (word (c + 8 * (c ≠ 0 && ownsPtr s.cur p).toNat)))) s

/-- SPCV (R248): the offset of a pointer of space FN. -/
def execSpcv (h : Hdr) (o : Ops) (s : State) : Out :=
  issueM .spcv h o o.usesCw (fun s =>
    let p := (s.arg o.a).toNat
    if spaceCode p ≠ o.fn then .trap s 0x09 (word p)
    else if !ownsPtr s.cur p then .trap s 0x08 (word p)
    else .retire (s.setS o.d (word (ptrOffset p)))) s

/-- The offsets that SPMK accepts, exclusive (R247). -/
def spmkLimit (sp : Nat) : Nat :=
  match sp with
  | 1 => 2 ^ 50 | 2 => 2 ^ 32 | 3 => 2 ^ 17 | 4 => 2 ^ 19 | _ => 0xC000000

/-- The pointer of a window with an offset, stamped with the executing part (R66, R248): a memory core lies on a die (R12); where the
executing part has no number for the owner field, the owner is a free value (DESIGN CHOICE, log 16). -/
def spmkPtr (sp cid x owner : Nat) : Nat :=
  let core := if isCompute cid then coreNo cid else owner % 3072
  let ctx := if isCompute cid then ctxNo cid else owner % 11
  match sp with
  | 1 => x
  | 2 => 0xF0 * 2 ^ 56 + core * 2 ^ 36 + ctx * 2 ^ 32 + x
  | 3 => 0xF1 * 2 ^ 56 + core * 2 ^ 36 + x
  | 4 => 0xF2 * 2 ^ 56 + core / 8 * 2 ^ 38 + x
  | _ => 0xF3 * 2 ^ 56 + (if isMemCore cid && coreNo cid < 384 then dieNo cid else core / 128) * 2 ^ 40 + x

/-- SPMK (R248). -/
def execSpmk (h : Hdr) (o : Ops) (s : State) : Out :=
  issueM .spmk h o o.usesCw (fun s =>
    let x := (s.arg o.a).toNat
    if spmkLimit o.fn ≤ x then .trap s 0x09 (word x)
    else .retire { s.setS o.d (word (spmkPtr o.fn s.cur x (Config.free s.free))) with free := s.free + 1 }) s

/-- CHKB's answer (R248): the access passes R67 and R245 in the current mode and, for a global or private address, finds a
present leaf that permits it, whatever memory the leaf names. Its use of a translation counts, and the TLBs take the leaf that its walk finds (R80). -/
def State.chkb (s : State) (p n : Nat) (k : AKind) : State × Bool :=
  match s.access s.cur p n k with
  | .cause _ _ => (s, false)
  | .unserved => (s, false)
  | .wait va => let x := s.lookUp s.cur va; (x.1, match x.2 with | .leaf e => leafAllows e k | _ => false)
  | .global _ e => (s.touchTlb s.cur e, true)
  | _ => (s, true)

/-- CHKB (R248): never a cause, never a shipment. -/
def execChkb (h : Hdr) (o : Ops) (s : State) : Out :=
  issueM .chkb h o o.usesCw (fun s =>
    let x := s.chkb (s.addr o).toNat (sizeT o.t) (if o.mx = 0 then .load else .store)
    .retire (x.1.setP o.d x.2)) s

end Sys2Proof.Machine
end

