-- ==== Sys2Proof/Machine/Atomic.lean ====
section
/-! DEFINITION. Atomics (R92 to R94, R249 to R251, R140, R141, 13): an atomic on local memory is performed as it issues; one on
shared or global memory travels to its home and is performed there, bypassing the views. -/

namespace Sys2Proof.Machine

/-! ## Lock bits (R94, R251) -/

/-- The lock bit of a location of local or cluster shared memory. -/
def lockBitAt (l : Nat) : LockBit :=
  if l < 2 * 2 ^ 48 then
    let x := l - 2 ^ 48
    let w := x % 2 ^ 17 / 4
    { shared := false, part := x / 2 ^ 17, bank := (w + w / 32) % 32, bit := (w / 32 ^^^ w / 2048) % 64 }
  else
    let x := l - 2 * 2 ^ 48
    let y := x % 2 ^ 19
    { shared := true, part := x / 2 ^ 19, bank := y / 8 % 64, bit := (y / 512 ^^^ y / 32768) % 64 }

/-- The record that keeps a lock bit's holder and the contexts that wait for it, in order of arrival. -/
def lockKey (b : LockBit) : Nat := if b.shared then 0x30000 + b.part else b.part

/-- A context asks for a lock bit: the state in which it stands in line, and whether it is first (R94). -/
def State.wantLock (s : State) (cid : Nat) (b : LockBit) : State × Bool :=
  let x := s.core (lockKey b)
  let q := if x.locks.contains (b, cid) then x.locks else x.locks ++ [(b, cid)]
  (s.setCore (lockKey b) { x with locks := q }, (q.find? fun y => y.1 = b) = some (b, cid))

/-! ## What an atomic computes -/

/-- The new value of an integer atomic (R250). -/
def atomicNew (k : AtomicKind) (t : TCode) (v y cmp : Nat) : Nat :=
  let w := intW t
  let least (big : Bool) : Nat :=
    let lt := if t = .u32 then v % 2 ^ w < y % 2 ^ w else sext w v < sext w y
    if lt != big then v else y
  match k with
  | .add => (v + y) % 2 ^ w
  | .min => least false
  | .max => least true
  | .and => v &&& y
  | .or => v ||| y
  | .xor => v ^^^ y
  | .swp => y
  | .cas => if v = cmp then y else v
  | _ => v

/-- FAADD on an exact cell read as a number (R140, R141). -/
def cellAdd (cell x : Nat) : Nat :=
  let val := bits cell 0 320
  let fl := bits cell 320 8
  let rest := cell / 2 ^ 328
  let (val', fl') : Nat × Nat := match widen .f32 x with
    | .nan => (val, fl ||| 1)
    | .inf false => (val, fl ||| 2)
    | .inf true => (val, fl ||| 4)
    | .zero => (val, fl)
    | .fin neg m e =>
      let a := m * 2 ^ (e + 149).toNat
      (wrap 320 (if neg then (val : Int) - a else val + a), fl)
  packBits [(320, val'), (8, fl'), (184, rest)]

/-- ECRD on an exact cell (R141). -/
def cellRead (cell : Nat) (rm : Rnd) : Nat :=
  let fl := bits cell 320 8
  let v := sext 320 cell
  if bitOf fl 0 || (bitOf fl 1 && bitOf fl 2) then 0x7FC00000
  else if bitOf fl 1 then 0x7F800000
  else if bitOf fl 2 then 0xFF800000
  else if v = 0 then 0
  else roundF32 (.fin (v < 0) v.natAbs (-149)) rm false

def AtomicKind.isCell : AtomicKind → Bool
  | .fadd | .ecrd | .ecclr => true
  | _ => false

/-- The bytes that an atomic addresses, which are also its alignment (R249). -/
def atomicSize (k : AtomicKind) (t : TCode) : Nat := if k.isCell then 64 else sizeT t

/-- LD and ST of a watchpoint that an atomic matches (R385): it reads, writes, or does both. -/
def AtomicKind.reads : AtomicKind → Bool
  | .sul | .fadd | .ecclr => false
  | _ => true
def AtomicKind.writes : AtomicKind → Bool
  | .llk | .ecrd => false
  | _ => true

/-- Performs an atomic at its home for the issuing context (R92, R250, R251). LLK waits while another context holds its bit. -/
def atomicAct (r : AtomicReq) (s : State) : Act :=
  let n := atomicSize r.kind r.t
  let v := readNat s.mem r.loc n
  let pc := s.me.pc
  let done (s : State) : Act := s.watched pc r.ptr n r.kind.reads r.kind.writes
  let put (x : Nat) : State := ((s.poke r.loc (toBytes n x)).markDirty r.pte).noteDirty s.cur r.loc
  match r.kind with
  | .llk =>
    let b := lockBitAt r.loc
    let q := s.wantLock s.cur b
    if !q.2 then .stall q.1
    else if s.poisoned r.loc n then .trap (s.withdrawLocks s.cur) 0x19 (word r.ptr)
    else done ((q.1.setMe { q.1.me with lock := some b }).setS r.d (extendT r.t v))
  | .sul =>
    if s.me.lock = some (lockBitAt r.loc) then done (((put r.y.toNat).dropLock s.cur).setS r.d 0)
    else done ((s.dropLock s.cur).setS r.d 1)
  | .ecclr => done (put 0)
  | .fadd => if s.poisoned r.loc n then .trap s 0x19 (word r.ptr) else done (put (cellAdd v r.y.toNat))
  | .ecrd => if s.poisoned r.loc n then .trap s 0x19 (word r.ptr) else done (s.setS r.d (word (cellRead v r.rm)))
  | k =>
    if s.poisoned r.loc n then .trap s 0x19 (word r.ptr)
    else done ((put (atomicNew k r.t v (uval (intW r.t) r.y) (uval (intW r.t) r.cmp))).setS r.d (extendT r.t v))

/-- Everything earlier of the context that an atomic must follow has been performed (R86, R92): its posted atomics and the
releases that PUB started. -/
def State.atomicMay (s : State) (cid : Nat) : Bool :=
  (s.ctx cid).pubs = [] && !(s.posts.any fun x => x.cid = cid && x.req ≠ none && !x.arrived)

/-- The body of an atomic. An atomic without a result is posted (R402). -/
def atomicBody (k : AtomicKind) (o : Ops) (s : State) : Act :=
  let p := (s.addr o).toNat
  let n := atomicSize k o.t
  let y : Word := if k = .fadd then word (s.argF o.c) else s.arg o.c
  let req (l pte : Nat) : AtomicReq :=
    { kind := k, t := o.t, ptr := p, loc := l, y := y, cmp := s.me.sreg o.d, d := o.d, rm := o.rm, pte := pte }
  let drop (s : State) : State := if k = .llk then s.dropLock s.cur else s
  let posted := k = .fadd || k = .ecclr
  let send (l pte : Nat) (s : State) : Act :=
    if posted then
      match s.openEntry 1 p with
      | none => .stall s
      | some (j, s1) => (s1.postCell j (req l pte)).watched s1.me.pc p n k.reads k.writes
    else .stall ((s.setMe { s.me with wait := .atomic (req l pte) }).addDest s.cur (destOf l))
  match s.access s.cur p n (if k = .llk || k = .sul then .lock else .atomic) with
  | .cause c v => .trap s c v
  | .wait va => .stall (s.setMe { s.me with wait := .walk va false })
  | .unserved => if posted then s.postUnserved 1 p else .trap s 0x06 (word p)
  | .stop f => .stop f
  | .loc off => if s.atomicMay s.cur then atomicAct (req (locLocal (coreNo s.cur) off) 0) (drop s) else .stall s
  | .shared l => send l 0 (drop s)
  | .weight _ => .trap s 0x07 (word p)
  | .global l e => send l e.pte (s.touchTlb s.cur e)

/-- An atomic of a kind. -/
def execAtomic (i : Op) (k : AtomicKind) (h : Hdr) (o : Ops) (s : State) : Out :=
  issueM i h o (s.localAddr o) (atomicBody k o) s

/-- LLK (R251). -/
def execLlk (h : Hdr) (o : Ops) (s : State) : Out := execAtomic .llk .llk h o s
/-- SUL (R251). -/
def execSul (h : Hdr) (o : Ops) (s : State) : Out := execAtomic .sul .sul h o s
/-- AADD (R250). -/
def execAadd (h : Hdr) (o : Ops) (s : State) : Out := execAtomic .aadd .add h o s
/-- AMIN (R250). -/
def execAmin (h : Hdr) (o : Ops) (s : State) : Out := execAtomic .amin .min h o s
/-- AMAX (R250). -/
def execAmax (h : Hdr) (o : Ops) (s : State) : Out := execAtomic .amax .max h o s
/-- AAND (R250). -/
def execAand (h : Hdr) (o : Ops) (s : State) : Out := execAtomic .aand .and h o s
/-- AOR (R250). -/
def execAor (h : Hdr) (o : Ops) (s : State) : Out := execAtomic .aor .or h o s
/-- AXOR (R250). -/
def execAxor (h : Hdr) (o : Ops) (s : State) : Out := execAtomic .axor .xor h o s
/-- ASWP (R250). -/
def execAswp (h : Hdr) (o : Ops) (s : State) : Out := execAtomic .aswp .swp h o s
/-- ACAS (R250). -/
def execAcas (h : Hdr) (o : Ops) (s : State) : Out := execAtomic .acas .cas h o s
/-- FAADD (R141). -/
def execFaadd (h : Hdr) (o : Ops) (s : State) : Out := execAtomic .faadd .fadd h o s
/-- ECRD (R141). -/
def execEcrd (h : Hdr) (o : Ops) (s : State) : Out := execAtomic .ecrd .ecrd h o s
/-- ECCLR (R250). -/
def execEcclr (h : Hdr) (o : Ops) (s : State) : Out := execAtomic .ecclr .ecclr h o s

end Sys2Proof.Machine
end

