-- ==== Sys2Proof/Machine/Ecdsa.lean ====
section
/-! DEFINITION. ECDSA on P-521 with SHA-512 as FIPS 186-5 defines it (R9, R375, R380, R381). A point of the curve is its coordinates, and
none is the point at infinity. A digest is as `sha512` gives it, whose 512 bits are fewer than those of the order. -/

namespace Sys2Proof.Machine

/-- The field of P-521. -/
def fieldP521 : Nat := 2 ^ 521 - 1

/-- The order of P-521. -/
def orderP521 : Nat :=
  0x1FFFFFFFFFFFFFFFFFFFFFFFFFFFFFFFFFFFFFFFFFFFFFFFFFFFFFFFFFFFFFFFFFA51868783BF2F966B7FCC0148F709A5D03BB5C9B8899C47AEBB6FB71E91386409

/-- The coefficient b of P-521; its a is -3. -/
def coeffP521 : Nat :=
  0x051953EB9618E1C9A1F929A21A0B68540EEA2DA725B99B315F3B8B489918EF109E156193951EC7E937B1652C0BD3BB1BF073573DF883D2C34F1EF451FD46B503F00

abbrev Point := Option (Nat × Nat)

/-- The base point of P-521. -/
def baseP521 : Point := some
  (0x0C6858E06B70404E9CD9E3ECB662395B4429C648139053FB521F828AF606B4D3DBAA14B5E77EFE75928FE1DC127A2FFA8DE3348B3C1856A429BF97E7E31C2E5BD66,
   0x11839296A789A3BC0045C8A5FB42C7D1BD998F54449579B446817AFBD17273E662C97EE72995EF42640C550B9013FAD0761353C7086A272C24088BE94769FD16650)

/-- The k low bits of an exponent: b to that power, modulo m. -/
def powMod (m b : Nat) : Nat → Nat → Nat
  | 0, _ => 1 % m
  | k + 1, e => let h := powMod m (b * b % m) k (e / 2); if e % 2 = 1 then h * b % m else h

/-- The inverse modulo a prime of at most 521 bits. -/
def invMod (m x : Nat) : Nat := powMod m x 521 (m - 2)

/-- x - y in the field. -/
def subP521 (x y : Nat) : Nat := (x + (fieldP521 - y % fieldP521)) % fieldP521

/-- A point lies on the curve. -/
def onCurve : Point → Bool
  | none => true
  | some (x, y) => x < fieldP521 && y < fieldP521 && y * y % fieldP521 = (subP521 (x * x * x) (3 * x) + coeffP521) % fieldP521

/-- The third point of a line of slope l through two points, mirrored. -/
def chord (l x1 y1 x2 : Nat) : Point :=
  let x := subP521 (subP521 (l * l) x1) x2
  some (x, subP521 (l * subP521 x1 x) y1)

/-- The sum of two points. -/
def addPoint : Point → Point → Point
  | none, q => q
  | p, none => p
  | some (x1, y1), some (x2, y2) =>
    if x1 = x2 && (y1 + y2) % fieldP521 = 0 then none
    else if x1 = x2 then chord (subP521 (3 * x1 * x1) 3 * invMod fieldP521 (2 * y1) % fieldP521) x1 y1 x2
    else chord (subP521 y2 y1 * invMod fieldP521 (subP521 x2 x1) % fieldP521) x1 y1 x2

/-- The k low bits of e, times a point. -/
def mulPoint (p : Point) : Nat → Nat → Point
  | 0, _ => none
  | k + 1, e => let h := mulPoint (addPoint p p) k (e / 2); if e % 2 = 1 then addPoint h p else h

/-- The number that a digest stands for. -/
def digestNumber (digest : Nat) : Nat := ofBytesBig (toBytes 64 digest)

/-- r and s are a signature of a digest under a public key. -/
def verifies (key : Point) (digest r s : Nat) : Bool :=
  if r = 0 || orderP521 ≤ r || s = 0 || orderP521 ≤ s || key = none || !onCurve key then false
  else
    let w := invMod orderP521 s
    match addPoint (mulPoint baseP521 521 (digestNumber digest * w % orderP521)) (mulPoint key 521 (r * w % orderP521)) with
    | none => false
    | some v => v.1 % orderP521 = r

/-- The signature of a digest under a private key, with the number k that the signer draws. -/
def signWith (key k digest : Nat) : Nat × Nat :=
  let r := match mulPoint baseP521 521 k with | some v => v.1 % orderP521 | none => 0
  (r, invMod orderP521 k * (digestNumber digest + r * key) % orderP521)

end Sys2Proof.Machine
end

