-- ==== Sys2Proof/Machine/Tensor.lean ====
section
/-! DEFINITION. Tensor shape records and how they map coordinates to cells (R104 to R107, R126, R434). -/

namespace Sys2Proof.Machine

/-! ## The record -/

def Tsr.fmt (r : Tsr) : TCode := .ofCode (bits r.ctrl 0 4)
def Tsr.rank (r : Tsr) : Nat := bits r.ctrl 4 3
def Tsr.wrapBit (r : Tsr) (d : Nat) : Bool := bitOf r.ctrl (8 + d)
def Tsr.ro (r : Tsr) : Bool := bitOf r.ctrl 12
def Tsr.shareable (r : Tsr) : Bool := bitOf r.ctrl 13
/-- RAGGED, which a record of rank 1 ignores (R106). -/
def Tsr.ragged (r : Tsr) : Bool := bitOf r.ctrl 14 && r.rank ≠ 1
def Tsr.pd (r : Tsr) : Nat := bits r.ctrl 16 16

/-- A record from its 64 bytes (R104). -/
def Tsr.ofNat (x : Nat) : Tsr :=
  let four (w lo : Nat) : List Nat := (List.range 4).map fun i => bits x (lo + w * i) w
  { base := bits x 0 64, rag := bits x 64 64, ext := four 32 128, stride := (four 32 256).map (sext 32),
    origin := (four 16 384).map (sext 16), tile := four 8 448, ctrl := bits x 480 32 }

/-- The record's 64 bytes as a number. -/
def Tsr.toNat (r : Tsr) : Nat :=
  packBits ([(64, r.base), (64, r.rag)] ++ r.ext.map (32, ·) ++ r.stride.map (fun x => (32, wrap 32 x))
    ++ r.origin.map (fun x => (16, wrap 16 x)) ++ r.tile.map (8, ·) ++ [(32, r.ctrl)])

/-- The bound record of a register (R263). -/
def State.tsr (s : State) (cid n : Nat) : Option Tsr := tfind (s.core (fileKey cid)).t n

/-- The packed size in bytes of n elements (R126). -/
def packedSize (t : TCode) (n : Nat) : Nat :=
  match t with
  | .e3m2 => (n + 3) / 4 * 3
  | .i4 | .e2m1 => (n + 1) / 2
  | t => n * (TCode.width t / 8)

/-- The lowest index of a contradiction that TBIND reports (R106). -/
def Tsr.fault (r : Tsr) : Option Nat :=
  let k := r.rank
  let ok := 1 ≤ k && k ≤ 4
  let ds := if ok then List.range k else []
  let ext (d : Nat) : Nat := r.ext.getD d 0
  let str (d : Nat) : Nat := (r.stride.getD d 0).natAbs
  let row (d : Nat) : Nat := if d + 1 = k - 1 then packedSize r.fmt (ext (d + 1)) else str (d + 1) * ext (d + 1)
  let al := if TCode.width r.fmt < 8 then 1 else TCode.width r.fmt / 8
  let overlap := if r.ro then [] else (ds.filter fun d => d + 1 < k && !(r.ragged && d = 0) && str d < row d).map (6 + ·)
  let all := (if r.base % al ≠ 0 then [0] else []) ++ (ds.filter fun d => ext d = 0).map (2 + ·) ++ overlap
    ++ (ds.filter fun d => r.tile.getD d 0 = 0).map (14 + ·) ++ (if ok then [] else [19])
  all.head?

/-! ## Cells -/

/-- A cell: its byte offset from BASE, how many bytes hold it, and the bits of those bytes (R105). -/
structure Cell where
  rel : Int
  len : Nat
  off : Nat
  wid : Nat
  deriving DecidableEq, Repr

/-- The index of one dimension under ORIGIN and WRAP; none where it is OUTSIDE (R105). -/
def Tsr.index (r : Tsr) (d : Nat) (x : Int) : Option Int :=
  let e : Int := ((r.ext.getD d 0 : Nat) : Int)
  let i := x - r.origin.getD d 0
  let j := if r.wrapBit d && !(r.ragged && d ≤ 1) then i % e else i
  if 0 ≤ j && j < e then some j else none

def Tsr.indicesFrom (r : Tsr) : Nat → List Int → Option (List Int)
  | _, [] => some []
  | d, x :: xs =>
    match r.index d x, r.indicesFrom (d + 1) xs with
    | some i, some is => some (i :: is)
    | _, _ => none

/-- The indices of a coordinate; dimensions that the coordinate lacks are 0, as R111 stores them (DEDUCED, log 17). -/
def Tsr.indices (r : Tsr) (x : List Int) : Option (List Int) := r.indicesFrom 0 ((x ++ [0, 0, 0, 0]).take r.rank)

/-- The group of a ragged record that a coordinate lies in, where R105 gets that far. -/
def Tsr.group (r : Tsr) (x : List Int) : Option Nat :=
  if r.ragged then (r.indices x).bind fun is => is.head?.map Int.toNat else none

/-- R105: the cell of a coordinate, or OUTSIDE. `rag` gives a group's first row and its row count. -/
def Tsr.cell (r : Tsr) (rag : Nat → Nat × Nat) (x : List Int) : Option Cell :=
  match r.indices x with
  | none => none
  | some is =>
    let is' : Option (List Int) :=
      if r.ragged then
        match is with
        | g :: i :: rest =>
          let o := rag g.toNat
          if i < o.2 then some (0 :: (o.1 + i) :: rest) else none
        | l => some l
      else some is
    match is' with
    | none => none
    | some l =>
      let k := r.rank
      let addr := (((List.range (k - 1)).map fun d => l.getD d 0 * r.stride.getD d 0)).foldl (· + ·) 0
      let j := (l.getD (k - 1) 0).toNat
      some (match r.fmt with
        | .i4 | .e2m1 => { rel := addr + (j / 2 : Nat), len := 1, off := 4 * (j % 2), wid := 4 }
        | .e3m2 => { rel := addr + (3 * (j / 4) : Nat), len := 3, off := 6 * (j % 4), wid := 6 }
        | t => { rel := addr + (j * (TCode.width t / 8) : Nat), len := TCode.width t / 8, off := 0, wid := TCode.width t })

/-- The address of a cell as a generic pointer. -/
def Tsr.ptr (r : Tsr) (c : Cell) : Nat := wrap 64 (r.base + c.rel)

/-- A cell's value in its bytes. -/
def Cell.get (c : Cell) (bs : List Byte) : Nat := bits (ofBytes bs) c.off c.wid

/-- A cell's bytes with its value replaced. -/
def Cell.put (c : Cell) (bs : List Byte) (v : Nat) : List Byte :=
  let x := ofBytes bs
  toBytes c.len (x - bits x c.off c.wid * 2 ^ c.off + v % 2 ^ c.wid * 2 ^ c.off)

/-! ## Ragged records (R107, R434) -/

/-- A group's first row and row count from the record's words: OUTSIDE beyond min(G, EXT[0]), no rows where offsets decrease. -/
def ragGroup (ext0 g gcount o0 o1 : Nat) : Nat × Nat := if g < min gcount ext0 then (o0, o1 - o0) else (0, 0)

/-- What a context's read of a ragged record gives. -/
inductive RagRead where
  | ok (start count : Nat)
  | cause (n : Nat) (val : Word)
  | wait (va : Nat)
  | stop (f : Fault)

/-- One 32-bit word of a ragged record through the context's view, with the causes of LD (R434). A record
that lies in no global memory raises ACCESS here (DESIGN CHOICE, log 44). -/
def State.ragWord (s : State) (cid p : Nat) : Sum Nat RagRead :=
  match s.access cid p 4 .load with
  | .cause n v => .inr (.cause n v)
  | .wait va => .inr (.wait va)
  | .unserved => .inr (.cause 0x06 (word p))
  | .stop f => .inr (.stop f)
  | .global l _ =>
    if s.lostLoc l || s.portDown l then .inr (.cause 0x06 (word p))
    else if s.poisoned l 4 then .inr (.cause 0x19 (word p)) else .inl (ofBytes ((s.ctx cid).seeBytes l 4))
  | _ => .inr (.cause 0x07 (word p))

/-- The group of a ragged record, read through the context's view. -/
def State.ragRead (s : State) (cid : Nat) (r : Tsr) (g : Nat) : RagRead :=
  match s.ragWord cid r.rag with
  | .inr x => x
  | .inl n =>
    if min n (r.ext.getD 0 0) ≤ g then .ok 0 0
    else match s.ragWord cid (r.rag + 4 + 4 * g), s.ragWord cid (r.rag + 8 + 4 * g) with
      | .inr x, _ => x
      | _, .inr x => x
      | .inl a, .inl b => .ok a (b - a)

/-- The words that a read of a group of a ragged record accesses (R107). -/
def State.ragPlaces (s : State) (cid : Nat) (r : Tsr) (g : Nat) : List Nat :=
  match s.ragWord cid r.rag with
  | .inl n => if min n (r.ext.getD 0 0) ≤ g then [r.rag] else [r.rag, r.rag + 4 + 4 * g, r.rag + 8 + 4 * g]
  | .inr _ => [r.rag]

/-- Accesses at some addresses use their translations (R80). -/
def State.touchMany (s : State) (cid : Nat) (ps : List Nat) : State := ps.foldl (fun t p => t.touchAt cid p) s

end Sys2Proof.Machine
end

