-- ==== Sys2Proof/Machine/VecArith.lean ====
section
/-! DEFINITION. Vector arithmetic, majors 0x70 to 0x83 (R278 to R285, R139, 14). -/

namespace Sys2Proof.Machine

/-- A vector instruction needs home resources (R82) and follows the checks of R204. -/
def issueV (i : Op) (h : Hdr) (o : Ops) (body : State → Act) (s : State) : Out :=
  issue i h (lenOf i h o) o.k true [o.a, o.b, o.c] (dynReject i o) body s

/-- A vector source: the lanes of a register, or IMM32 broadcast (R282). -/
def State.lanes (s : State) (w : Nat) (a : Arg) : List Nat :=
  match a with
  | .imm x => List.replicate (1024 / w) (x % 2 ^ w)
  | a => lanesOf w (1024 / w) (s.vreg a.num)

/-- An integer lane read as its type says (R283). -/
def laneInt (t : TCode) (x : Nat) : Int := if TCode.signed t then sext (TCode.width t) x else (x % 2 ^ TCode.width t : Nat)

/-- An integer lane's result: wrapped, or clamped with SAT (R283). -/
def laneWrap (t : TCode) (sat : Bool) (r : Int) : Nat := wrap (TCode.width t) (if sat then clampTo t r else r)

/-- The element results of R282 on integer lanes. -/
def intLaneOp (i : Op) (t : TCode) (sat : Bool) (x y z : Nat) : Nat :=
  let w := TCode.width t
  let a := laneInt t x
  let b := laneInt t y
  match i with
  | .vadd => laneWrap t sat (a + b)
  | .vsub => laneWrap t sat (a - b)
  | .vmul => laneWrap t sat (a * b)
  | .vfma => laneWrap t sat (a * b + laneInt t z)
  | .vmin => if b < a then y else x
  | .vmax => if a < b then y else x
  | .vabs => laneWrap t sat a.natAbs
  | .vneg => laneWrap t sat (-a)
  | .vshl => x * 2 ^ (y % w) % 2 ^ w
  | .vshr => x / 2 ^ (y % w)
  | .vsar => wrap w (sext w x / 2 ^ (y % w))
  | _ => 0

/-- The element results of R282 and R283 on float lanes, rounded once. -/
def floatLaneOp (i : Op) (t : TCode) (rm : Rnd) (sat : Bool) (x y z : Nat) : Nat :=
  let a := widen t x
  let b := widen t y
  let r (v : Val) : Nat := (roundTo t v rm sat true).1
  match i with
  | .vadd => r (a.add b)
  | .vsub => r (a.add b.negate)
  | .vmul => r (a.mul b)
  | .vfma => r ((a.mul b).add (widen t z))
  | .vmin => fMinMax t false x y
  | .vmax => fMinMax t true x y
  | .vabs => fAbs t x
  | .vneg => fNeg t x
  | .vrcp => rcpF32 x rm
  | .vrsq => rsqF32 x rm
  | .vexp2 => exp2F32 x rm
  | .vlog2 => log2F32 x rm
  | _ => 0

/-- One element (R282). -/
def laneOp (i : Op) (t : TCode) (rm : Rnd) (sat : Bool) (x y z : Nat) : Nat :=
  match i with
  | .vand => TCode.held t (x &&& y)
  | .vor => TCode.held t (x ||| y)
  | .vxor => TCode.held t (x ^^^ y)
  | i => if TCode.isFloat t then floatLaneOp i t rm sat x y z else intLaneOp i t sat x y z

/-- A function of three lanes, lane by lane. -/
def zip3 (f : Nat → Nat → Nat → Nat) : List Nat → List Nat → List Nat → List Nat
  | x :: xs, y :: ys, z :: zs => f x y z :: zip3 f xs ys zs
  | _, _, _ => []

/-- The vector arithmetic instructions that write vD. -/
def execVec (i : Op) (h : Hdr) (o : Ops) (s : State) : Out :=
  issueV i h o (fun s =>
    let t := s.laneType o
    let w := t.laneW
    let es := zip3 (laneOp i t o.rm o.sat) (s.lanes w o.a) (s.lanes w o.b) (s.lanes w o.c)
    .retire (s.writeVec o.k w o.d 1 es)) s

/-- VADD (R282, R283). -/
def execVadd (h : Hdr) (o : Ops) (s : State) : Out := execVec .vadd h o s
/-- VSUB (R282, R283). -/
def execVsub (h : Hdr) (o : Ops) (s : State) : Out := execVec .vsub h o s
/-- VMUL (R282, R283). -/
def execVmul (h : Hdr) (o : Ops) (s : State) : Out := execVec .vmul h o s
/-- VFMA (R282, R283). -/
def execVfma (h : Hdr) (o : Ops) (s : State) : Out := execVec .vfma h o s
/-- VMIN (R282, R283). -/
def execVmin (h : Hdr) (o : Ops) (s : State) : Out := execVec .vmin h o s
/-- VMAX (R282, R283). -/
def execVmax (h : Hdr) (o : Ops) (s : State) : Out := execVec .vmax h o s
/-- VABS (R282, R283). -/
def execVabs (h : Hdr) (o : Ops) (s : State) : Out := execVec .vabs h o s
/-- VNEG (R282, R283). -/
def execVneg (h : Hdr) (o : Ops) (s : State) : Out := execVec .vneg h o s
/-- VAND (R282, R283). -/
def execVand (h : Hdr) (o : Ops) (s : State) : Out := execVec .vand h o s
/-- VOR (R282, R283). -/
def execVor (h : Hdr) (o : Ops) (s : State) : Out := execVec .vor h o s
/-- VXOR (R282, R283). -/
def execVxor (h : Hdr) (o : Ops) (s : State) : Out := execVec .vxor h o s
/-- VSHL (R282, R283). -/
def execVshl (h : Hdr) (o : Ops) (s : State) : Out := execVec .vshl h o s
/-- VSHR (R282, R283). -/
def execVshr (h : Hdr) (o : Ops) (s : State) : Out := execVec .vshr h o s
/-- VSAR (R282, R283). -/
def execVsar (h : Hdr) (o : Ops) (s : State) : Out := execVec .vsar h o s
/-- VRCP (R139). -/
def execVrcp (h : Hdr) (o : Ops) (s : State) : Out := execVec .vrcp h o s
/-- VRSQ (R139). -/
def execVrsq (h : Hdr) (o : Ops) (s : State) : Out := execVec .vrsq h o s
/-- VEXP2 (R139). -/
def execVexp2 (h : Hdr) (o : Ops) (s : State) : Out := execVec .vexp2 h o s
/-- VLOG2 (R139). -/
def execVlog2 (h : Hdr) (o : Ops) (s : State) : Out := execVec .vlog2 h o s

/-- The elements that are active and meet a condition, as a lane mask. -/
def maskWhere (act cond : List Bool) : Nat := maskOf ((act.zip cond).map fun x => x.1 && x.2)

/-- VCMP (R284). -/
def execVcmp (h : Hdr) (o : Ops) (s : State) : Out :=
  issueV .vcmp h o (fun s =>
    let t := s.laneType o
    let w := t.laneW
    let cond (x y : Nat) : Bool := if TCode.isFloat t then fCond t o.fn x y else intCond w (TCode.signed t) o.fn x y
    let cs := ((s.lanes w o.a).zip (s.lanes w o.b)).map fun x => cond x.1 x.2
    .retire (s.setKreg o.d (maskWhere (s.actives o.k (1024 / w)) cs))) s

/-- VSEL (R284): no execution mask; kC chooses. -/
def execVsel (h : Hdr) (o : Ops) (s : State) : Out :=
  issueV .vsel h o (fun s =>
    let t := s.laneType o
    let w := t.laneW
    let m := lanesOf 1 (1024 / w) (s.kreg o.c.num)
    .retire (s.setVreg o.d (ofLanes w (zip3 (fun c x y => TCode.held t (if c = 1 then x else y)) m (s.lanes w o.a) (s.lanes w o.b))))) s

end Sys2Proof.Machine
end

