-- ==== Sys2Proof/Machine/VecMem.lean ====
section
/-! DEFINITION. Vector memory (R295 to R299, R400, R443, 14). -/

namespace Sys2Proof.Machine

/-! ## Checks (R295) -/

/-- The first of two results that is one. -/
def firstSome {α : Type} (a b : Option α) : Option α := match a with | some x => some x | none => b

/-- SPACE_INVALID and SPACE_FOREIGN of a pointer. -/
def badPtr (cid p : Nat) : Option Nat :=
  if spaceCode p = 0 then some 0x09 else if !ownsPtr cid p then some 0x08 else none

/-- The byte spans that the engine owns: the filled slots of a ring and their scales (R443). -/
def Ring.owned (r : Ring) : List (Nat × Nat) :=
  (List.range r.occ).flatMap fun i =>
    let j := (r.head + i) % r.count
    (r.base * 256 + j * r.slotsz * 256, r.slotsz * 256) :: (if r.scl then [(r.sbase * 64 + 64 * j, 64)] else [])

def State.ringOwned (s : State) (core off n : Nat) : Bool :=
  (s.core core).o.any fun r => r.2.owned.any fun x => off < x.1 + x.2 && x.1 < off + n

/-- The cause of one lane's bytes at a local offset, computed without bound (R295, R245, R443). -/
def State.laneCause (s : State) (cid : Nat) (off : Int) (n : Nat) (st : Bool) : Option Nat :=
  if off < 0 || 0x20000 < off + n then some 0x07
  else
    let o := off.toNat
    if st && o < 0x800 then some 0x1B
    else if 0x800 < o + n && o < 0x1000 && (s.ctx cid).mode = 0 then some 0x07
    else if st && s.ringOwned (coreNo cid) o n then some 0x0F
    else if !st && s.poisoned (locLocal (coreNo cid) o) n then some 0x19
    else none

/-- The cause of a whole span of local memory, with its XVAL (R295): everything is checked before any effect. -/
def State.vecSpan (s : State) (p n al : Nat) (k : AKind) : Option (Nat × Nat) :=
  match badPtr s.cur p with
  | some c => some (c, p)
  | none =>
    if p % al ≠ 0 then some (0x0A, p)
    else if spaceCode p ≠ 3 then some (0x07, p)
    else
      let o := ptrOffset p
      if 0x20000 < o + n then some (0x07, p)
      else if k ≠ .load && o < 0x800 then some (0x1B, p)
      else if 0x800 < o + n && o < 0x1000 && s.me.mode = 0 then some (0x07, p)
      else none

/-- SOFT_ERROR for a span that holds a poisoned word (R427). -/
def State.poisonAt (s : State) (off n : Nat) : Option (Nat × Nat) :=
  if s.poisoned (locLocal (coreNo s.cur) off) n then some (0x19, 0xF1 * 2 ^ 56 + coreNo s.cur * 2 ^ 36 + off) else none

/-- The first active lane that fails, and its cause. -/
def firstFail (f : Int → Option Nat) : Nat → List Bool → List Int → Option (Nat × Nat)
  | i, a :: as, o :: os => if a then (match f o with | some c => some (i, c) | none => firstFail f (i + 1) as os) else firstFail f (i + 1) as os
  | _, _, _ => none

/-- XVAL of R400 for a failing lane, whatever its cause (DEDUCED, log 22). A soft error names its address (R428). -/
def laneVal (cid : Nat) (cause lane : Nat) (off : Int) : Word :=
  if cause = 0x19 then word (0xF1 * 2 ^ 56 + coreNo cid * 2 ^ 36 + off.toNat) else word (wrap 32 off + lane * 2 ^ 32)

/-- How far a vector memory instruction gets: the lanes that complete, and the cause that ends it. -/
structure Lanes where
  upto : Nat
  cause : Option (Nat × Word)
  deriving DecidableEq, Repr

/-- Checks the lanes of an access whose base pointer is `p` (R295, R400): a base outside the core's local memory fails the
lowest active lane. -/
def State.scanLanes (s : State) (p n : Nat) (st : Bool) (al : Nat) (act : List Bool) (offs : List Int) : Lanes :=
  let f (o : Int) : Option Nat :=
    if o % al ≠ 0 then some 0x0A else if spaceCode p ≠ 3 then some 0x07 else s.laneCause s.cur o n st
  match firstFail f 0 act offs with
  | none => { upto := act.length, cause := none }
  | some x => { upto := x.1, cause := some (x.2, laneVal s.cur x.2 x.1 (offs.getD x.1 0)) }

/-- The offset of the base pointer in local memory. -/
def localBase (p : Nat) : Int := ((bits p 0 17 : Nat) : Int)

/-- Merges the results of the lanes that complete; the lanes from there on keep their values. -/
def mergeUpto (zm : Bool) (upto : Nat) (act : List Bool) (old new : List Nat) : List Nat :=
  (merge zm act old new).take upto ++ old.drop upto

/-- The local bytes at an offset, as a number. -/
def State.localNat (s : State) (core : Nat) (off : Int) (n : Nat) : Nat := ofBytes (s.readLocal core off.toNat n)

/-- Stores the active lanes below `upto`, in order. -/
def State.storeLanes (s : State) (core n : Nat) : List Bool → List Int → List Nat → State
  | a :: as, o :: os, v :: vs => (if a then s.poke (locLocal core o.toNat) (toBytes n v) else s).storeLanes core n as os vs
  | _, _, _ => s

/-- The accesses of active lanes, for the watchpoints. -/
def laneAccesses (cid n : Nat) (act : List Bool) (offs : List Int) : List (Nat × Nat) :=
  ((act.zip offs).filter (·.1)).map fun x => (0xF1 * 2 ^ 56 + coreNo cid * 2 ^ 36 + x.2.toNat, n)

/-- Ends a vector memory instruction with the accesses of the lanes that completed, and those of a ragged record: the cause, with what the
watchpoints record, or retirement with its watchpoints (R385, R400). -/
def State.endLanes (s : State) (pc : Word) (l : Lanes) (loads acc : List (Nat × Nat)) (ld : Bool) : Act :=
  match l.cause with
  | some c => .trap ((s.watchNotes pc loads true false).watchNotes pc acc ld (!ld)) c.1 c.2
  | none => s.watchedWith pc loads acc ld (!ld)

/-- A load of lanes into vD. -/
def State.loadLanes (s : State) (o : Ops) (t : TCode) (l : Lanes) (act : List Bool) (offs : List Int) : Act :=
  let w := t.laneW
  let core := coreNo s.cur
  let vals := ((act.zip offs).zipIdx).map fun x => if x.1.1 && x.2 < l.upto then TCode.held t (s.localNat core x.1.2 (w / 8)) else 0
  let old := lanesOf w (1024 / w) (s.vreg o.d)
  (s.setVreg o.d (ofLanes w (mergeUpto (bitOf o.k 4) l.upto act old vals))).endLanes s.me.pc l [] (laneAccesses s.cur (w / 8) (act.take l.upto) offs) true

/-- The words that one store instruction's lanes cover whole, or DRAM lines, are whole again (R429). -/
def State.healLanes (s : State) (core n : Nat) (act : List Bool) (offs : List Int) : State :=
  s.heal (((act.zip offs).filter (·.1)).flatMap fun x => (List.range n).map fun i => locLocal core x.2.toNat + i)

/-- A store of the lanes of a vector register. -/
def State.putLanes (s : State) (v : Nat) (t : TCode) (l : Lanes) (act : List Bool) (offs : List Int) : Act :=
  let w := t.laneW
  let core := coreNo s.cur
  let vals := (lanesOf w (1024 / w) (s.vreg v)).map (TCode.held t)
  ((s.storeLanes core (w / 8) (act.take l.upto) offs vals).healLanes core (w / 8) (act.take l.upto) offs).endLanes s.me.pc l []
    (laneAccesses s.cur (w / 8) (act.take l.upto) offs) false

/-- The shared body of VLD, VST, VLDS and VSTS (R296): base, step between lanes, alignment of both. -/
def vecBody (o : Ops) (st : Bool) (v : Nat) (step : Int) (al stepAl : Nat) (s : State) : Act :=
  let t := o.t
  let w := t.laneW
  let n := 1024 / w
  let p := (s.addr o).toNat
  let act := s.actives o.k n
  match (if act.any id then badPtr s.cur p else none) with
  | some c => .trap s c (word p)
  | none =>
    if p % al ≠ 0 || step % stepAl ≠ 0 then .trap s 0x0A (word p)
    else
      let offs := (List.range n).map fun (i : Nat) => localBase p + i * step
      let l := s.scanLanes p (w / 8) st 1 act offs
      if st then s.putLanes v t l act offs else s.loadLanes o t l act offs

/-- VLD (R296). -/
def execVld (h : Hdr) (o : Ops) (s : State) : Out :=
  issueV .vld h o (vecBody o false o.d ((o.t.laneW / 8 : Nat) : Int) 4 1) s
/-- VST (R296). -/
def execVst (h : Hdr) (o : Ops) (s : State) : Out :=
  issueV .vst h o (vecBody o true o.c.num ((o.t.laneW / 8 : Nat) : Int) 4 1) s
/-- VLDS (R296): the stride is sC. -/
def execVlds (h : Hdr) (o : Ops) (s : State) : Out :=
  issueV .vlds h o (fun s => vecBody o false o.d (s.arg o.c).toInt (o.t.laneW / 8) (o.t.laneW / 8) s) s
/-- VSTS (R296): the stride is sD. -/
def execVsts (h : Hdr) (o : Ops) (s : State) : Out :=
  issueV .vsts h o (fun s => vecBody o true o.c.num (s.me.sreg o.d).toInt (o.t.laneW / 8) (o.t.laneW / 8) s) s

/-- VLDB (R296): one element for every active lane; everything is checked before any effect. -/
def execVldb (h : Hdr) (o : Ops) (s : State) : Out :=
  issueV .vldb h o (fun s =>
    let w := o.t.laneW
    let n := 1024 / w
    let p := (s.addr o).toNat
    let any := (s.actives o.k n).any id
    let bad := if any then s.vecSpan p (w / 8) (w / 8) .load
      else if p % (w / 8) ≠ 0 then some (0x0A, p) else none
    match firstSome bad (if any then s.poisonAt (ptrOffset p) (w / 8) else none) with
    | some c => .trap s c.1 (word c.2)
    | none =>
      let x := TCode.held o.t (s.localNat (coreNo s.cur) (localBase p) (w / 8))
      (s.writeVec o.k w o.d 1 (List.replicate n x)).watchedAll s.me.pc (if any then [(p, w / 8)] else []) true false) s

/-- A lane stored shares its address with a later active lane (R400). -/
def sharesLater : Nat → List Bool → List Int → Bool
  | 0, _, _ => false
  | k + 1, a :: as, o :: os => (a && ((as.zip os).any fun x => x.1 && x.2 = o)) || sharesLater k as os
  | _, _, _ => false

/-- VGATH and VSCAT (R298): U32 byte offsets in the group vB; no lane completes where R400 forbids it. -/
def gatherBody (o : Ops) (st : Bool) (s : State) : Act :=
  let w := o.t.laneW
  let n := 1024 / w
  let p := (s.arg o.a).toNat
  let act := s.actives o.k n
  match (if act.any id then badPtr s.cur p else none) with
  | some c => .trap s c (word p)
  | none =>
    let offs := (s.vgroup 32 o.b.num (n / 32)).map fun (x : Nat) => localBase p + x
    let l := s.scanLanes p (w / 8) st (w / 8) act offs
    let members := (List.range (n / 32)).map fun i => rotate s.me.loops (o.b.num + i)
    let none' := l.cause ≠ none &&
      (if st then sharesLater l.upto act offs else members.contains (rotate s.me.loops o.d))
    let l' := if none' then { l with upto := 0 } else l
    if st then s.putLanes o.c.num o.t l' act offs else s.loadLanes o o.t l' act offs

/-- VGATH (R298). -/
def execVgath (h : Hdr) (o : Ops) (s : State) : Out := issueV .vgath h o (gatherBody o false) s
/-- VSCAT (R298). -/
def execVscat (h : Hdr) (o : Ops) (s : State) : Out := issueV .vscat h o (gatherBody o true) s

/-! ## VTLD (R297) -/

/-- The checks of the record of VTLD: its lane width and columns, or XVAL of TSR_INVALID. -/
def vtldShape (r : Tsr) : Sum (Nat × Nat) Nat :=
  let t := r.fmt
  let w := t.laneW
  let cols := r.tile.getD 1 0
  let q := cols * w / 32
  if !(w = 8 || w = 16) || TCode.width t < 8 then .inr 18
  else if r.tile.getD 0 0 ≠ 1024 / w then .inr 14
  else if cols * w % 32 ≠ 0 || !(q = 1 || q = 2 || q = 4) then .inr 15
  else .inl (w, cols)

/-- Writes the columns of a tile: element c of row r to lane r of register c. -/
def State.writeCols (s : State) (k w : Nat) (rows : List Nat) : Nat → Nat → Nat → State
  | _, _, 0 => s
  | d, c, n + 1 => (s.writeVec k w d 1 (rows.map fun x => bits x (w * c) w)).writeCols k w rows (d + 1) (c + 1) n

/-- VTLD (R297). -/
def vtldBody (o : Ops) (s : State) : Act :=
  match s.tsr s.cur o.c.num with
  | none => .trap s 0x0B (word (0x100 + o.c.num))
  | some r =>
    match vtldShape r with
    | .inr x => .trap s 0x0B (word x)
    | .inl (w, cols) =>
      if o.d % cols ≠ 0 || 64 < o.d + cols then .trap s 0x01 5
      else
        let n := 1024 / w
        let len := cols * w / 8
        let p := (s.addr o).toNat
        let pitch := r.stride.getD 0 0
        let act := s.actives o.k n
        let offs := (List.range n).map fun (i : Nat) => localBase p + i * pitch
        match (if act.any id then badPtr s.cur p else none) with
        | some c => .trap s c (word p)
        | none =>
          if p % 4 ≠ 0 || pitch % 4 ≠ 0 then .trap s 0x0A (word p)
          else
            let l := s.scanLanes p len false 1 act offs
            match l.cause with
            | some c => .trap s c.1 (if c.1 = 0x19 then c.2 else word (wrap 64 (p + l.upto * pitch)))
            | none =>
              let rows := (act.zip offs).map fun x => if x.1 then s.localNat (coreNo s.cur) x.2 len else 0
              (s.writeCols o.k w rows o.d 0 cols).watchedAll s.me.pc (laneAccesses s.cur len act offs) true false

/-- VTLD (R297). -/
def execVtld (h : Hdr) (o : Ops) (s : State) : Out := issueV .vtld h o (vtldBody o) s

/-! ## VLDRG and VSTRG (R298) -/

/-- A region register, and its lattice as steps and phases. -/
def State.region (s : State) (cid n : Nat) : Region := tget Region.init (s.core (fileKey cid)).g n
def Region.lattice (g : Region) : Lat := g.lat.map fun x => (2 ^ x.1, x.2)
def Region.isEmpty (g : Region) : Bool := g.boxes = []
def Region.has (g : Region) (x : List Int) : Bool := g.boxes.any fun b => boxHas g.lattice b x

/-- The first `rank` coordinates that a group of two registers holds (R298, R326). -/
def State.point (s : State) (n rank : Nat) : List Int :=
  let a := (s.me.sreg n).toNat
  let b := (s.me.sreg (n + 1)).toNat
  [sext 32 a, sext 32 (a / 2 ^ 32), sext 32 b, sext 32 (b / 2 ^ 32)].take rank

/-- The coordinates of lane i. -/
def lanePoint (start : List Int) (i : Nat) : List Int := start.set (start.length - 1) (start.getD (start.length - 1) 0 + i)

/-- The cells of the lanes that are valid but for their mask: in the region and not OUTSIDE. -/
def laneCells (g : Region) (r : Tsr) (rag : Nat × Nat) (start : List Int) (n : Nat) : List (Option Cell) :=
  (List.range n).map fun i =>
    let x := lanePoint start i
    if g.has x then r.cell (fun _ => rag) x else none

/-- The group that a ragged record must be read for: that of the start point, where some lane's point lies in the region. -/
def ragNeeded (g : Region) (r : Tsr) (start : List Int) (n : Nat) : Option Nat :=
  ((List.range n).map (lanePoint start)).findSome? fun x => if g.has x then r.group x else none

end Sys2Proof.Machine
end

