-- ==== Sys2Proof/Machine/RegionOps.lean ====
section
/-! DEFINITION. The region instructions (R305 to R328, 15). -/

namespace Sys2Proof.Machine

/-- The region unit of a context's core is held by a GLD whose answer has not come (R268, R305). -/
def State.regionBusy (s : State) (cid : Nat) : Bool :=
  (List.range 16).any fun i => match (s.ctx (cid - ctxNo cid + i)).wait with | .gload _ _ _ _ => true | _ => false

/-- A region instruction needs home resources, and waits at issue while the region unit is busy (R305). -/
def issueG (i : Op) (h : Hdr) (o : Ops) (body : State → Act) (s : State) : Out :=
  issue i h (lenOf i h o) o.k true [o.a, o.b, o.c] (dynReject i o) (fun s => if s.regionBusy s.cur then .stall s else body s) s

def State.setRegion (s : State) (n : Nat) (r : Region) : State :=
  let k := fileKey s.cur
  let c := s.core k
  s.setCore k { c with g := tput Region.init c.g n r }

/-- The owner check of R110; the registers of a program context belong to it alone (R268). -/
def State.ownsRegion (s : State) (n : Nat) : Bool := !isCompute s.cur || (s.region s.cur n).owner = ctxNo s.cur

/-- ACCESS with XVAL 0 for a write to a region of another context (R438). -/
def State.owned (s : State) (n : Nat) (body : Act) : Act := if s.ownsRegion n then body else .trap s 0x07 0

/-- The record of a register, or TSR_INVALID (R433). -/
def State.bound (s : State) (n : Nat) (body : Tsr → Act) : Act :=
  match s.tsr s.cur n with
  | none => .trap s 0x0B (word (0x100 + n))
  | some r => body r

/-- The direction that GR and STAT.GRND give (R113). -/
def State.gdir (s : State) (gr : Nat) : GDir :=
  match (if gr = 0 then s.me.grnd else gr) with
  | 1 => .outer
  | 2 => .inner
  | _ => .trap

/-- BL, where 0 means 16 (R113). -/
def boxLimit (bl : Nat) : Nat := if bl = 0 then 16 else bl

/-- XVAL of REGION_OVERFLOW (R392). -/
def overflowVal (r : List Box) : Nat := if 256 < r.length then 257 else r.length

/-- A result region in canonical form, kept to BL boxes (R306), or the exact box count of an overflow under TRAP. -/
def roundRegion (bl : Nat) (dir : GDir) (r : Region) (exact : List Box) : Sum Nat Region :=
  match roundBoxes r.lattice (boxLimit bl) dir exact with
  | none => .inl (overflowVal exact)
  | some x => .inr { r with boxes := x.1, canon := true, inx := r.inx || x.2 }

/-- Writes a rounded result to gD, or raises REGION_OVERFLOW (R435). -/
def State.putRegion (s : State) (d bl gr : Nat) (r : Region) (exact : List Box) : Act :=
  match roundRegion bl (s.gdir gr) r exact with
  | .inl n => .trap s 0x0C (word n)
  | .inr r => .retire (s.setRegion d { r with owner := ctxNo s.cur })

/-- A lattice from steps and phases back to exponents. -/
def latExps (l : Lat) : List (Nat × Nat) := l.map fun x => (x.1.log2, x.2)

/-- The canonical form of a region's point set. -/
def Region.canonical (g : Region) : List Box := Sys2Proof.Machine.canon g.lattice g.boxes

/-- A box operand (R309). -/
def State.boxAt (s : State) (n rank : Nat) : Box :=
  (List.range rank).map fun d =>
    let w := (s.me.sreg (n + d)).toNat
    (sext 32 w, sext 32 (w / 2 ^ 32))

def regionTrap (s : State) (val : Nat) : Act := .trap s 0x0D (word val)

/-! ## Making regions -/

/-- GCLR (R309). -/
def execGclr (h : Hdr) (o : Ops) (s : State) : Out :=
  issueG .gclr h o (fun s => s.bound o.a.num fun t => s.owned o.d
    (.retire (s.setRegion o.d { Region.init with tsr := o.a.num, rank := t.rank, lat := List.replicate t.rank (0, 0), owner := ctxNo s.cur }))) s

/-- GMK, new mode (R310). -/
def execGmk (h : Hdr) (o : Ops) (s : State) : Out :=
  issueG .gmk h o (fun s => s.bound o.a.num fun t => s.owned o.d
    (let r := { Region.init with tsr := o.a.num, rank := t.rank, lat := List.replicate t.rank (0, 0) }
     s.putRegion o.d 0 0 r (Sys2Proof.Machine.canon r.lattice [s.boxAt o.b.num t.rank]))) s

/-- GMK.app (R310): the box as written, or the rounded canonical union beyond 16 boxes. -/
def execGmkApp (h : Hdr) (o : Ops) (s : State) : Out :=
  issueG .gmkApp h o (fun s => s.owned o.d
    (let g := s.region s.cur o.d
     let b := s.boxAt o.b.num g.rank
     if b.any Ival.isEmpty then .retire s
     else if g.boxes.length < 16 then
       .retire (s.setRegion o.d { g with boxes := g.boxes ++ [b], canon := false, owner := ctxNo s.cur })
     else s.putRegion o.d 0 0 g (Sys2Proof.Machine.canon g.lattice (g.boxes ++ [b])))) s

/-- The lattice that GMKI's codes give, or the first dimension below the rank whose code is 0 (R311). -/
def gmkiLat (imm rank : Nat) : Sum Nat (List (Nat × Nat)) :=
  let codes := (List.range rank).map fun d => bits imm (8 * d) 8
  match codes.findIdx? (· = 0) with
  | some d => .inl d
  | none => .inr (codes.map fun c => (c.log2, c - 2 ^ c.log2))

/-- GMKI (R311). -/
def execGmki (h : Hdr) (o : Ops) (x : Ext) (s : State) : Out :=
  issueG .gmki h o (fun s => s.bound o.a.num fun t => s.owned o.d
    (match gmkiLat x.imm t.rank with
     | .inl d => regionTrap s (0x100 + d)
     | .inr lat =>
       let r := { Region.init with tsr := o.a.num, rank := t.rank, lat := lat }
       s.putRegion o.d 0 0 r (Sys2Proof.Machine.canon r.lattice [s.boxAt o.b.num t.rank]))) s

/-! ## Moving regions -/

/-- GMOV (R313): every field but the owner is copied, CANON as it stands, though R112 has a region instruction set it (DEDUCED, log 40). -/
def execGmov (h : Hdr) (o : Ops) (s : State) : Out :=
  issueG .gmov h o (fun s => s.owned o.d
    (.retire (s.setRegion o.d { s.region s.cur o.a.num with owner := ctxNo s.cur }))) s

/-- The 544 bytes of R111, for a storing context. -/
def regionBytes (g : Region) (owner : Nat) : List Byte :=
  let flags := g.canon.toNat + 2 * g.inx.toNat + 4 * g.isEmpty.toNat + 8 * g.rag.toNat
  let lat (d : Nat) : Nat × Nat := if d < g.rank then g.lat.getD d (0, 0) else (0, 0)
  let ds := List.range 4
  let head := packBits ([(8, g.tsr), (8, g.rank), (8, g.boxes.length), (8, flags), (8, owner), (24, 0)]
    ++ ds.map (fun d => (4, (lat d).1)) ++ [(16, 0)] ++ ds.map (fun d => (8, (lat d).2)))
  let dim (b : Box) (d : Nat) : List Byte :=
    let i : Ival := if d < g.rank then b.getD d (0, 0) else (0, 0)
    toBytes 4 (wrap 32 i.1) ++ toBytes 4 (wrap 32 i.2)
  let box (n : Nat) : List Byte :=
    match g.boxes[n]? with | some b => ds.flatMap (dim b) | none => toBytes 32 0
  toBytes 32 head ++ (List.range 16).flatMap box

/-- The field offset that GLD reports, or the region loaded (R312). -/
def regionOfBytes (bs : List Byte) (owner : Nat) : Sum Nat Region :=
  let x := ofBytes (bs.take 32)
  let b (i : Nat) : Nat := bits x (8 * i) 8
  let rank := b 1
  let nbox := b 2
  let lat := (List.range rank).map fun d => (bits x (64 + 4 * d) 4, b (12 + d))
  let bad : List (Bool × Nat) :=
    [(64 ≤ b 0, 0), (rank = 0 || 4 < rank, 1), (16 < nbox, 2), (16 ≤ b 3, 3), (bits x 40 24 ≠ 0, 5),
     (lat.any fun l => 8 < l.1, 8), (bits x 80 16 ≠ 0, 0x0A), (lat.any fun l => 2 ^ l.1 ≤ l.2, 0x0C), (bits x 128 128 ≠ 0, 0x10)]
  match bad.find? (·.1) with
  | some p => .inl p.2
  | none =>
    let y := ofBytes bs
    let box (n : Nat) : Box := (List.range rank).map fun d =>
      let lo := 8 * (32 + 32 * n + 8 * d)
      (sext 32 (bits y lo 32), sext 32 (bits y (lo + 32) 32))
    let boxes := (List.range nbox).map box
    let r : Region := { tsr := b 0, rank := rank, lat := lat, canon := false, inx := bitOf (b 3) 1, rag := bitOf (b 3) 3,
                        boxes := boxes, owner := owner }
    .inr { r with canon := bitOf (b 3) 0 && r.canonical = boxes }

/-- An access of 544 bytes that runs past the end of its window (R312, R295). -/
def pastEnd (p : Nat) : Bool :=
  match spaceCode p with
  | 3 => 0x20000 < ptrOffset p + 544
  | 4 => 0x80000 < ptrOffset p + 544
  | 5 => 0xC000000 < ptrOffset p + 544
  | _ => false

/-- What stops an access of several pieces at piece `i`. -/
def State.pieceFail (s : State) (p : Nat) (a : Access) : Act :=
  match a with
  | .cause n _ => .trap s n (word p)
  | .wait va => .stall (s.setMe { s.me with wait := .walk va false })
  | .unserved => .trap s 0x06 (word p)
  | .stop f => .stop f
  | _ => .stall s

/-- GLD (R312): the load rules of R245, lines that are lost (R425, R454), the header's checks, CANON kept only for a canonical form. -/
def gldBody (o : Ops) (s : State) : Act :=
  let p := (s.addr o).toNat
  let pc := s.me.pc
  s.owned o.d
    (match s.access s.cur p 32 .load, s.pieces s.cur p .load (if pastEnd p then 0 else 17) 0 with
     | .cause n v, _ => .trap s n v
     | _, .inl x => s.pieceFail p x.2
     | _, .inr as =>
       if pastEnd p then .trap s 0x07 (word p)
       else if as.any fun a => s.lostLoc (a.at s.cur) || s.portDown (a.at s.cur) then .trap s 0x06 (word p)
       else if as.any fun a => s.poisoned (a.at s.cur) 32 then .trap s 0x19 (word p)
       else
         match regionOfBytes (as.flatMap (s.pieceBytes s.cur)) (ctxNo s.cur) with
         | .inl n => regionTrap s n
         | .inr r =>
           if as.any fun a => 3 * 2 ^ 48 ≤ a.at s.cur && s.refreshing (a.at s.cur) then .stall s
           else if spaceCode p ≤ 2 then
            let t := s.touchMany s.cur ((List.range 17).map fun i => p + 32 * i)
            .stall (t.setMe { t.me with wait := .gload o.d r p (as.map (·.at s.cur)) })
           else (s.setRegion o.d r).watched pc p 544 true false)

/-- GLD (R312). -/
def execGld (h : Hdr) (o : Ops) (s : State) : Out := issueG .gld h o (gldBody o) s

/-- GST (R312): performed at retirement in local memory, deferred under one journal entry elsewhere (R90, R402). A page whose
service failed refuses the store from its first piece on (R414). -/
def gstBody (o : Ops) (s : State) : Act :=
  let p := (s.addr o).toNat
  let pc := s.me.pc
  let bs := regionBytes (s.region s.cur o.c.num) (ctxNo s.cur)
  let part (i : Nat) : List Byte := (bs.drop (32 * i)).take 32
  let post (as : List Access) (refuse : Option Nat) : Act :=
    match s.openEntry 0 p with
    | none => .stall s
    | some (j, s1) =>
      let s2 := (as.zipIdx).foldl (fun t a => t.ownPiece j (s.me.ops + 1) p a.1 (part a.2)) s1
      let s3 := s2.sendPost (newPost j p (as.map fun a => (a.at s.cur, 32)) none refuse)
      if refuse = none then s3.watched pc p 544 false true else .retire s3
  match s.access s.cur p 32 .store, s.pieces s.cur p .store (if pastEnd p then 0 else 17) 0 with
  | .cause n v, _ => .trap s n v
  | _, .inl (i, .unserved) =>
    if !isCompute s.cur then .trap s 0x06 (word p)
    else match s.pieces s.cur p .store i 0 with
      | .inr as => post as (some 0x06)
      | .inl x => s.pieceFail p x.2
  | _, .inl x => s.pieceFail p x.2
  | _, .inr as =>
    if pastEnd p then .trap s 0x07 (word p)
    else if spaceCode p = 3 then (s.poke (locLocal (coreNo s.cur) (ptrOffset p)) bs).watched pc p 544 false true
    else post as none

/-- GST (R312). -/
def execGst (h : Hdr) (o : Ops) (s : State) : Out := issueG .gst h o (gstBody o) s

/-! ## Combining regions (R314, R115) -/

/-- A lattice of unit steps. -/
def Lat.isUnit (l : Lat) : Bool := l.all fun x => x.1 = 1

/-- R115 accepts a pair of lattices that are equal, or of which one is the unit lattice; any other is XVAL of REGION_LATTICE (R436). -/
def latPair (a b : Lat) : Option Nat :=
  if a = b || a.isUnit || b.isUnit then none else some (0x100 + ((a.zip b).findIdx fun x => x.1 ≠ x.2))

/-- The exact result of GUNI, GINT or GSUB with its lattice, or XVAL of REGION_LATTICE. -/
def regionBinary (i : Op) (a e : Region) : Sum Nat (Lat × List Box) :=
  let la := a.lattice
  let le := e.lattice
  if a.rank ≠ e.rank then .inl 0x1FF
  else if i = .gint then
    let l := interLat la le
    .inr (l.1, if l.2 then boxesInter l.1 a.boxes e.boxes else [])
  else if e.isEmpty then .inr (la, a.canonical)
  else if a.isEmpty then (if i = .guni then .inr (le, e.canonical) else .inr (la, []))
  else
    let op (l : Lat) (x y : List Box) : Lat × List Box :=
      (l, if i = .guni then Sys2Proof.Machine.canon l (x ++ y) else boxesMinus l x y)
    match latPair la le with
    | some v => .inl v
    | none =>
      if la = le then .inr (op la a.boxes e.boxes)
      else if la.isUnit then .inr (op la a.boxes (expandSlabs le e.boxes))
      else .inr (op le (expandSlabs la a.boxes) e.boxes)

/-- GUNI, GINT and GSUB (R314). -/
def execRegionBinary (i : Op) (h : Hdr) (o : Ops) (x : Ext) (s : State) : Out :=
  issueG i h o (fun s => s.owned o.d
    (let a := s.region s.cur o.a.num
     let e := s.region s.cur x.g2
     match regionBinary i a e with
     | .inl v => regionTrap s v
     | .inr r =>
       s.putRegion o.d x.bl x.gr { a with lat := latExps r.1, inx := a.inx || e.inx, rag := a.rag || e.rag } r.2)) s

/-- GUNI (R314). -/
def execGuni (h : Hdr) (o : Ops) (x : Ext) (s : State) : Out := execRegionBinary .guni h o x s
/-- GINT (R314). -/
def execGint (h : Hdr) (o : Ops) (x : Ext) (s : State) : Out := execRegionBinary .gint h o x s
/-- GSUB (R314). -/
def execGsub (h : Hdr) (o : Ops) (x : Ext) (s : State) : Out := execRegionBinary .gsub h o x s

/-! ## Reshaping -/

/-- The boxes of a region that hold a point. -/
def Region.full (g : Region) : List Box := g.boxes.filter fun b => boxCount g.lattice b ≠ 0

/-- The extent of a dimension that clip cuts to; a dimension with WRAP is not cut (R315). -/
def Tsr.clipIval (t : Tsr) (d : Nat) : Ival :=
  if t.rank ≤ d || (t.wrapBit d && !(t.ragged && d ≤ 1)) then (-(2 ^ 31), 2 ^ 31)
  else (t.origin.getD d 0, t.origin.getD d 0 + t.ext.getD d 0)

/-- The groups of a ragged record that a region meets. -/
def Tsr.groupsOf (t : Tsr) (g : Region) : List Nat :=
  match hullBox g.lattice g.boxes with
  | none => []
  | some h =>
    let i := h.getD 0 (0, 0)
    let o := t.origin.getD 0 0
    let lo := (max 0 (i.1 - o)).toNat
    let hi := min (max 0 (i.2 - o)).toNat (t.ext.getD 0 0)
    (List.range (hi - lo)).map (lo + ·)

/-- Reads some groups through the view, each as (group, first row, rows); or what stops the reading. -/
def State.ragMany (s : State) (t : Tsr) : List Nat → Sum RagRead (List (Nat × Nat))
  | [] => .inr []
  | g :: gs =>
    match s.ragRead s.cur t g with
    | .ok _ n => (s.ragMany t gs).map id ((g, n) :: ·)
    | x => .inl x

/-- The boxes that clip cuts a region to (R315): one, or one for each group of a ragged record. -/
def clipBoxes (t : Tsr) (rank : Nat) (groups : List (Nat × Nat)) : List Box :=
  let base : Box := (List.range rank).map t.clipIval
  if t.ragged && 2 ≤ rank then
    groups.map fun g =>
      let o0 := t.origin.getD 0 0 + g.1
      let o1 := t.origin.getD 1 0
      (base.set 0 (o0, o0 + 1)).set 1 (o1, o1 + (min g.2 (t.ext.getD 1 0) : Nat))
  else [base]

/-- Runs a body on clip(boxes) for a region of a register's TSR (R315, R322, R434); the ragged record's reads use their translations (R80), and
watchpoints record them (R385; DEDUCED, log 62). -/
def State.clipped (s : State) (g : Region) (boxes : List Box) (body : State → Tsr → List Box → Act) : Act :=
  s.bound g.tsr fun t =>
    let gs' := if t.ragged && 2 ≤ g.rank then t.groupsOf { g with boxes := boxes } else []
    match s.ragMany t gs' with
    | .inr gs =>
      let read := gs'.flatMap (s.ragPlaces s.cur t)
      body ((s.touchMany s.cur read).watchNotes s.me.pc (read.map (·, 4)) true false) t (boxesInter g.lattice boxes (clipBoxes t g.rank gs))
    | .inl (.cause n v) => .trap s n v
    | .inl (.wait va) => .stall (s.setMe { s.me with wait := .walk va false })
    | .inl (.stop f) => .stop f
    | .inl (.ok _ _) => .stall s

/-- The amounts of GDIL and GERO (R315). -/
def amounts (imm rank : Nat) : List Nat := (List.range rank).map fun d => bits imm (8 * d) 8

/-- GDIL (R315); with .clip its record is checked before the owner (R397). -/
def execGdil (h : Hdr) (o : Ops) (x : Ext) (s : State) : Out :=
  issueG .gdil h o (fun s =>
    let a := s.region s.cur o.a.num
    let r := cutRange a.lattice (a.full.map (dilateBox a.lattice (amounts x.imm a.rank)))
    let put (s : State) (bs : List Box) : Act := s.putRegion o.d x.bl x.gr { a with inx := a.inx || r.2 } bs
    if o.mx = 1 then s.bound a.tsr fun _ => s.owned o.d (s.clipped a r.1 (fun s _ bs => put s bs)) else s.owned o.d (put s r.1)) s

/-- GERO (R315). -/
def execGero (h : Hdr) (o : Ops) (x : Ext) (s : State) : Out :=
  issueG .gero h o (fun s => s.owned o.d
    (let a := s.region s.cur o.a.num
     s.putRegion o.d x.bl x.gr a (erodeBoxes a.lattice (amounts x.imm a.rank) a.boxes))) s

/-- GTRN (R316). -/
def execGtrn (h : Hdr) (o : Ops) (x : Ext) (s : State) : Out :=
  issueG .gtrn h o (fun s => s.owned o.d
    (let a := s.region s.cur o.a.num
     let t := s.point o.b.num a.rank
     let lat := (a.lat.zip t).map fun y => (y.1.1, ((y.1.2 + y.2) % 2 ^ y.1.1).toNat)
     let moved := a.boxes.map fun b => (b.zip t).map fun y => (y.1.1 + y.2, y.1.2 + y.2)
     let a' := { a with lat := lat }
     let r := cutRange a'.lattice moved
     s.putRegion o.d x.bl x.gr { a' with inx := a.inx || r.2 } r.1)) s

/-- The elements whose dimension a mask keeps. -/
def keepDims {α : Type} (mask : Nat) (xs : List α) : List α := (xs.zipIdx).filterMap fun x => if bitOf mask x.2 then some x.1 else none

/-- GPRJ (R317). -/
def execGprj (h : Hdr) (o : Ops) (x : Ext) (s : State) : Out :=
  issueG .gprj h o (fun s => s.bound x.t1 fun t => s.owned o.d
    (let a := s.region s.cur o.a.num
     let mask := bits x.imm 0 4
     match ((List.range 4).filter (bitOf mask)).find? (a.rank ≤ ·) with
     | some d => regionTrap s (0x100 + d)
     | none =>
       let lat := keepDims mask a.lat
       if lat.length ≠ t.rank then regionTrap s 0x1FF
       else
         let r := { a with tsr := x.t1, rank := lat.length, lat := lat }
         s.putRegion o.d x.bl x.gr r (Sys2Proof.Machine.canon r.lattice (a.full.map (keepDims mask))))) s

/-- GSPL (R318): neither result is written when either overflows (R435). -/
def execGspl (h : Hdr) (o : Ops) (x : Ext) (s : State) : Out :=
  issueG .gspl h o (fun s => s.owned o.d (s.owned x.g2
    (let a := s.region s.cur o.a.num
     let d := bits x.imm 0 2
     if a.rank ≤ d then regionTrap s (0x100 + d)
     else
       let cs := a.canonical
       let c := if o.mx = 1 then splitVol a.lattice cs d else (s.arg o.b).toInt
       let parts := Sys2Proof.Machine.splitAt a.lattice cs d c
       let dir := s.gdir x.gr
       match roundRegion x.bl dir a parts.1, roundRegion x.bl dir a parts.2 with
       | .inr lo, .inr hi =>
         .retire ((s.setRegion o.d { lo with owner := ctxNo s.cur }).setRegion x.g2 { hi with owner := ctxNo s.cur })
       | _, _ => .trap s 0x0C (word (max (overflowVal parts.1) (overflowVal parts.2)))))) s

/-- GCAN (R319). -/
def execGcan (h : Hdr) (o : Ops) (x : Ext) (s : State) : Out :=
  issueG .gcan h o (fun s => s.owned o.d
    (let a := s.region s.cur o.a.num
     s.putRegion o.d x.bl x.gr a a.canonical)) s

/-- GHUL (R320). -/
def execGhul (h : Hdr) (o : Ops) (s : State) : Out :=
  issueG .ghul h o (fun s => s.owned o.d
    (let a := s.region s.cur o.a.num
     s.putRegion o.d 0 0 a (match hullBox a.lattice a.boxes with | some b => [b] | none => []))) s

/-- The lattice of GLAT's sB, or the first dimension at fault (R321). -/
def glatLat (w rank : Nat) : Sum Nat (List (Nat × Nat)) :=
  let l := (List.range rank).map fun d => (bits w (4 * d) 4, bits w (16 + 8 * d) 8)
  match l.findIdx? fun x => 8 < x.1 || 2 ^ x.1 ≤ x.2 with
  | some d => .inl d
  | none => .inr l

/-- GLAT (R115, R321, R436): its pair of lattices stands under the row of R115 for operations that have none of their own, its result under the
row of GINT (DEDUCED, log 61). -/
def execGlat (h : Hdr) (o : Ops) (s : State) : Out :=
  issueG .glat h o (fun s => s.owned o.d
    (let a := s.region s.cur o.a.num
     match glatLat (s.arg o.b).toNat a.rank with
     | .inl d => regionTrap s (0x100 + d)
     | .inr l =>
       let m : Lat := l.map fun y => (2 ^ y.1, y.2)
       match latPair a.lattice m with
       | some v => regionTrap s v
       | none =>
       let x := interLat a.lattice m
       s.putRegion o.d 0 0 { a with lat := latExps x.1 } (if x.2 then Sys2Proof.Machine.canon x.1 a.boxes else []))) s

/-- GLAT.unit (R321). -/
def execGlatUnit (h : Hdr) (o : Ops) (s : State) : Out :=
  issueG .glatUnit h o (fun s => s.owned o.d
    (let a := s.region s.cur o.a.num
     let r := { a with lat := List.replicate a.rank (0, 0) }
     s.putRegion o.d 0 0 r (Sys2Proof.Machine.canon r.lattice (expandSlabs a.lattice a.full)))) s

/-- GLAT.rd (R321). -/
def execGlatRd (h : Hdr) (o : Ops) (s : State) : Out :=
  issueG .glatRd h o (fun s =>
    let a := s.region s.cur o.a.num
    let l (d : Nat) : Nat × Nat := a.lat.getD d (0, 0)
    let ds := List.range 4
    .retire (s.setS o.d (word (packBits (ds.map (fun d => (4, (l d).1)) ++ ds.map fun d => (8, (l d).2)))))) s

/-- GRAG (R322). -/
def execGrag (h : Hdr) (o : Ops) (s : State) : Out :=
  issueG .grag h o (fun s =>
    let a := s.region s.cur o.a.num
    s.bound a.tsr fun _ => s.owned o.d
      (s.clipped a a.boxes fun s t bs => s.putRegion o.d 0 0 { a with rag := a.rag || t.ragged } bs)) s

/-! ## Reading regions -/

/-- GVOL (R323). -/
def execGvol (h : Hdr) (o : Ops) (s : State) : Out :=
  issueG .gvol h o (fun s =>
    let a := s.region s.cur o.a.num
    .retire (s.setS o.d (word (min (volume a.lattice a.canonical) (2 ^ 64 - 1))))) s

/-- GNBX (R324). -/
def execGnbx (h : Hdr) (o : Ops) (s : State) : Out :=
  issueG .gnbx h o (fun s =>
    let a := s.region s.cur o.a.num
    .retire (s.setS o.d (word (packBits [(8, a.boxes.length), (1, a.canon.toNat), (1, a.inx.toNat), (1, a.isEmpty.toNat),
      (1, a.rag.toNat), (4, a.rank), (6, a.tsr)])))) s

/-- GBOX (R325). -/
def execGbox (h : Hdr) (o : Ops) (s : State) : Out :=
  issueG .gbox h o (fun s =>
    let a := s.region s.cur o.a.num
    let b := a.boxes[(s.arg o.b).toNat % 16]?
    let w (d : Nat) : Word := match b.bind (·[d]?) with
      | some i => word (wrap 32 i.1 + 2 ^ 32 * wrap 32 i.2) | none => 0
    .retire (s.setMe (s.me.setGroup o.d ((List.range 4).map w)))) s

/-- GTST.pt (R326). -/
def execGtstPt (h : Hdr) (o : Ops) (s : State) : Out :=
  issueG .gtstPt h o (fun s =>
    let a := s.region s.cur o.a.num
    .retire (s.setP o.d (a.has (s.point o.b.num a.rank)))) s

/-- The shared points of two regions (R326): their lattice and canonical form. -/
def sharedPoints (a b : Region) : Lat × List Box :=
  let l := interLat a.lattice b.lattice
  (l.1, if l.2 then boxesInter l.1 a.boxes b.boxes else [])

/-- Every point of a lies in b. -/
def regionSub (a b : Region) : Bool :=
  let x := sharedPoints a b
  volume x.1 x.2 = volume a.lattice a.canonical

/-- GTST on two regions. -/
def execRegionTest (i : Op) (f : Region → Region → Bool) (h : Hdr) (o : Ops) (s : State) : Out :=
  issueG i h o (fun s =>
    let a := s.region s.cur o.a.num
    let b := s.region s.cur o.b.num
    if a.rank ≠ b.rank then regionTrap s 0x1FF else .retire (s.setP o.d (f a b))) s

/-- GTST.ovl (R326). -/
def execGtstOvl (h : Hdr) (o : Ops) (s : State) : Out := execRegionTest .gtstOvl (fun a b => (sharedPoints a b).2 ≠ []) h o s
/-- GTST.sub (R326). -/
def execGtstSub (h : Hdr) (o : Ops) (s : State) : Out := execRegionTest .gtstSub regionSub h o s
/-- GTST.eq (R326). -/
def execGtstEq (h : Hdr) (o : Ops) (s : State) : Out := execRegionTest .gtstEq (fun a b => regionSub a b && regionSub b a) h o s

/-- Run k of one box: its first point and length; or the runs left after it (R327). -/
def boxRun (lat : Lat) (b : Box) (k : Nat) : Sum (List Int × Nat) Nat :=
  let cs := (lat.zip b).map fun x => ivalCount x.1 x.2
  let outer := cs.take (cs.length - 1)
  let runs := if cs.contains 0 then 0 else outer.foldl (· * ·) 1
  if runs ≤ k then .inr (k - runs)
  else
    -- the outer coordinates as digits of k, d0 the most significant
    let digits := (outer.foldr (fun c x => (x.1 / c, x.1 % c :: x.2)) ((k, []) : Nat × List Nat)).2
    let at' (d : Nat) : Int :=
      let sp := lat.getD d (1, 0)
      (normIval sp (b.getD d (0, 0))).1 + ((digits.getD d 0 * sp.1 : Nat) : Int)
    .inl ((List.range cs.length).map at', cs.getD (cs.length - 1) 0)

/-- Run k of the stored boxes; none past the last. -/
def findRun (lat : Lat) : List Box → Nat → Option (List Int × Nat)
  | [], _ => none
  | b :: bs, k => match boxRun lat b k with | .inl r => some r | .inr k' => findRun lat bs k'

/-- GWALK (R327). -/
def execGwalk (h : Hdr) (o : Ops) (s : State) : Out :=
  issueG .gwalk h o (fun s =>
    let a := s.region s.cur o.a.num
    let ws : List Word := match findRun a.lattice a.boxes (s.arg o.b).toNat with
      | none => [0, 0, 0]
      | some r =>
        let c (d : Nat) : Nat := wrap 32 (r.1.getD d 0)
        [word (c 0 + 2 ^ 32 * c 1), word (c 2 + 2 ^ 32 * c 3), word r.2]
    .retire (s.setMe (s.me.setGroup o.d ws))) s

/-- GOWN (R328). -/
def execGown (h : Hdr) (o : Ops) (s : State) : Out :=
  issueG .gown h o (fun s => s.owned o.a.num
    (let w := (s.arg o.b).toNat
     if 10 < w then .trap s 0x07 0
     else .retire (s.setRegion o.a.num { s.region s.cur o.a.num with owner := w }))) s

end Sys2Proof.Machine
end

