-- ==== Sys2Proof/Machine/MatArith.lean ====
section
/-! DEFINITION. The order of sums of the matrix engine, which the array, the vector path and VMVP share (R126, R131 to R137,
R142). -/

namespace Sys2Proof.Machine

/-- n elements of a format from packed bytes (R126). -/
def packedElems (t : TCode) (n : Nat) (bs : List Byte) : List Nat :=
  let w := TCode.width t
  let x := ofBytes bs
  (List.range n).map fun i => x / 2 ^ (w * i) % 2 ^ w

/-- Bytes of one row of 128 elements (R147). -/
def rowBytes (t : TCode) : Nat := 16 * TCode.width t

/-- acc plus the products of some elements of A with the rows of W, column by column, exact (R133, R135, R136). -/
def addProducts (acc : List Val) : List Val → List (List Val) → List Val
  | a :: as, w :: ws => addProducts (List.zipWith (fun x y => x.add (a.mul y)) acc w) as ws
  | _, _ => acc

/-- The sum of products with no other term (R133). -/
def sumProducts : List Val → List (List Val) → List Val
  | a :: as, w :: ws => addProducts (w.map a.mul) as ws
  | _, _ => []

/-- One rounding of an accumulator: an infinite term gives that infinity, and SAT clamps an overflow only (R136). An exact zero is
-0 where every term is, else +0, or -0 under RDN (R128). -/
def roundAcc (rm : Rnd) (sat : Bool) : Val → Nat × NumFlags
  | .inf s => roundTo .f32 (.inf s) rm false true
  | .fin false 0 _ => roundTo .f32 .zero rm sat true
  | v => roundTo .f32 v rm sat true

/-- Rounds every column once: the results, and the flags they set (R142). -/
def roundCols (rm : Rnd) (sat : Bool) (vs : List Val) : List Nat × NumFlags :=
  let rs := vs.map (roundAcc rm sat)
  (rs.map (·.1), rs.foldl (fun f r => f.or r.2) .none)

/-- The groups of 16 of the wide formats (R135). -/
def wideGroups (rm : Rnd) (sat : Bool) : Nat → List Nat → List Val → List (List Val) → List Nat × NumFlags
  | 0, acc, _, _ => (acc, .none)
  | n + 1, acc, a, w =>
    let r := roundCols rm sat (addProducts (acc.map (widen .f32)) (a.take 16) (w.take 16))
    let x := wideGroups rm sat n r.1 (a.drop 16) (w.drop 16)
    (x.1, r.2.or x.2)

/-- The exact integer sums of R134. -/
def intSums (acc : List Int) : List Int → List (List Int) → List Int
  | a :: as, w :: ws => intSums (List.zipWith (fun x y => x + a * y) acc w) as ws
  | _, _ => acc

/-- Integer-only accumulation (R134). -/
def intStep (acc : List Nat) (a : List Int) (w : List (List Int)) : List Nat × NumFlags :=
  let rs := intSums (acc.map (sext 32)) a w
  (rs.map (wrap 32), { NumFlags.none with ovf := rs.any fun r => r < -(2 ^ 31) || 2 ^ 31 ≤ r })

/-- The value of an element of an integer format. -/
def elemInt (t : TCode) (x : Nat) : Int := if TCode.signed t then sext (TCode.width t) x else (x % 2 ^ TCode.width t : Nat)

/-- One K-tile step of one row (R133 to R137): `acc` are the row's 128 accumulators, `a` its 128 elements, `w` the tile's 128
rows, and `c` the scale of R131. -/
def rowStep (ta tw : TCode) (rm : Rnd) (sat iacc : Bool) (c : Val) (acc a : List Nat) (w : List (List Nat)) : List Nat × NumFlags :=
  if iacc then intStep acc (a.map (elemInt ta)) (w.map fun r => r.map (elemInt tw))
  else
    let av := a.map (widen ta)
    let wv := w.map fun r => r.map (widen tw)
    if ta.wideFmt then wideGroups rm sat 8 acc av wv
    else roundCols rm sat (List.zipWith (fun x s => (widen .f32 x).add (s.mul c)) acc (sumProducts av wv))

/-- A scale as an exact value; scale mode 00 gives 1 (R131). -/
def scaleVal (used : Bool) (x : Nat) : Val := if used then widen .f32 x else .fin false 1 0

/-- The scale c of a row's step: in scale mode 11 the product of both scales, rounded to FP32 in the step's mode (R131). -/
def stepScale (scm : Nat) (rm : Rnd) (a w : Nat) : Val :=
  match scm with
  | 0 => scaleVal false 0
  | 1 => scaleVal true w
  | 2 => scaleVal true a
  | _ => widen .f32 (roundF32 ((widen .f32 a).mul (widen .f32 w)) rm false)

end Sys2Proof.Machine
end

