-- ==== Sys2Proof/Machine/System.lean ====
section
/-! DEFINITION. System instructions and system registers (R211 to R222, 12). -/

namespace Sys2Proof.Machine

/-- A system instruction needs home resources (R211). -/
def issueSys (i : Op) (h : Hdr) (o : Ops) (body : State → Act) (s : State) : Out :=
  issue i h (lenOf i h o) o.k true [o.a, o.b, o.c] (dynReject i o) body s

/-- NOP (R213): no effect. -/
def execNop (s : State) : Out :=
  issue .nop { p := 0, neg := false, wide := false } 8 0 false [] noDyn (fun s => .retire s) s

/-- A BRK that a core under jdb meets: a breakpoint record, whose DATA is a free value, and the core stops at its next exchange boundary or
DONE (R384, R386; DESIGN CHOICE, log 52). -/
def State.breakpoint (s : State) : State :=
  if !s.myCore.jdb then s
  else
    let d := s.draw
    let t := d.2.traceRec s.cur 3 s.me.pc (word d.1)
    t.setMyCore { t.myCore with haltReq := true }

/-- BRK (R214): BREAKPOINT with XVAL = n, before any effect. -/
def execBrk (h : Hdr) (o : Ops) (s : State) : Out := issueSys .brk h o (fun s => .trap s.breakpoint 0x04 (word o.k)) s

/-- TRAP (R214): BREAKPOINT with XVAL = 0x100 + n. -/
def execTrap (h : Hdr) (o : Ops) (s : State) : Out := issueSys .trap h o (fun s => .trap s 0x04 (word (0x100 + o.k))) s

/-- A position translation entry matches a retirement: the tag in GAP mode, the whole sequence in CLOSE mode (R168, R170). -/
def ptbHit (r : Retired) (e : PtbEntry) : Bool := bits e 160 32 = r.seq && (r.close || bits e 156 4 = r.tag)

/-- A core applies the retirements that an acquire covers: `covers` says whether it refreshes a record's bytes (R170). -/
def State.applyRetired (s : State) (cid : Nat) (covers : Retired → Bool) : State :=
  if !isCompute cid then s
  else
    let c := s.core (coreKey cid)
    let due := s.retired.filter fun r => !c.retDone.contains r.id && covers r
    let drop (e : PtbEntry) : PtbEntry := if due.any fun r => ptbHit r e then e - bits e 135 1 * 2 ^ 135 else e
    if due = [] then s else s.setCore (coreKey cid) { c with ptb := c.ptb.map drop, retDone := c.retDone ++ due.map (·.id) }

/-- An acquire point that refreshes the whole view (R85, R170). -/
def State.acquireWhole (s : State) (cid : Nat) : State := (s.acquireAll cid).applyRetired cid fun _ => true

/-- A context of the core is in its handler for PREEMPT, so its network interface lands nothing (R406). -/
def State.interfaceHeld (s : State) (core : Nat) : Bool := (List.range 11).any fun x => let c := s.ctx (16 * core + x); c.life = .live && c.inPre

/-- A message lands in local memory (R105, R257). -/
def State.landNow (s : State) (core : Nat) (m : Spilled) : State :=
  let l := locLocal core m.off
  if m.count ≠ 0 then s.poke l (toBytes 8 ((readNat s.mem l 8 + m.count) % 2 ^ 64))
  else
    let c : Cell := { rel := 0, len := m.len, off := m.lo, wid := m.wid }
    (s.poke l (c.put (readBytes s.mem l m.len) m.val)).mend m.tag ((List.range m.wid).map (8 * l + m.lo + ·))

def Core.ring (c : Core) (n : Nat) : Ring := tget Ring.init c.o n
def Core.setRing (c : Core) (n : Nat) (r : Ring) : Core := { c with o := tput Ring.init c.o n r }

/-- TAIL and OCC advance by n slots; nothing where OCC would pass COUNT (R98, R255, R333). -/
def Ring.advance (r : Ring) (n : Nat) : Option Ring :=
  if r.count < r.occ + n then none else some { r with tail := (r.tail + n) % r.count, occ := r.occ + n }

/-- HEAD passes n slots (R98). -/
def Ring.pop (r : Ring) (n : Nat) : Ring := { r with head := (r.head + n) % r.count, occ := r.occ - n }

/-- XVAL of RING_OWNED for an event on a ring (R392). -/
def Ring.val (r : Ring) (n : Nat) : Word := word (n + 256 * r.occ)

/-- An asynchronous cause becomes pending in a context (R393). -/
def State.pendTo (s : State) (cid code : Nat) (val : Word) : State :=
  let c := s.ctx cid
  s.setCtx cid { c with pend := c.pend ++ [{ code := code, val := val, entry := none }] }

/-- A landing transfer advances a ring of a compute core; one that would pass COUNT is an asynchronous RING_OWNED of its control
context (R255, R443). -/
def State.advanceRing (s : State) (core n slots : Nat) : State :=
  let c := s.core core
  match (c.ring n).advance slots with
  | some r => s.setCore core (c.setRing n r)
  | none => s.pendTo (16 * core) 0x0F ((c.ring n).val n)

/-- A landing watch's report: a record of kind 2 and WATCH pending in the receiving core's control context (R385, R393). -/
def State.landingReport (s : State) (core : Nat) (pc data : Word) : State :=
  (s.traceRec (16 * core) 2 pc data).pendTo (16 * core) 0x05 16

/-! ### Packets from peers (R368, R369) -/

/-- The traffic with a peer under a port's numbers. -/
def uetKey (peer port : Nat) : Nat := 16 * peer + port
def State.uetOf (s : State) (peer port : Nat) : Uet := tget Uet.init s.uet (uetKey peer port)
def State.setUet (s : State) (peer port : Nat) (x : Uet) : State := { s with uet := tput Uet.init s.uet (uetKey peer port) x }

/-- Every packet up to a number has been received where the ones after `base` have; the markers that they complete are acknowledged (R369). -/
def Uet.settle : Nat → Uet → Uet
  | 0, x => x
  | k + 1, x =>
    if x.ahead.contains (x.base + 1) then Uet.settle k { x with base := x.base + 1, ahead := x.ahead.erase (x.base + 1) }
    else { x with markers := x.markers.filter fun m => x.base < m, gathered := (x.markers.filter fun m => m ≤ x.base).foldl max x.gathered }

/-- A packet with a number has come before. -/
def Uet.seen (x : Uet) (num : Nat) : Bool := num ≤ x.base || x.ahead.contains num

/-- A packet has been received and performed. -/
def Uet.take (x : Uet) (num : Nat) : Uet := if x.seen num then x else Uet.settle (x.ahead.length + 2) { x with ahead := num :: x.ahead }

/-- A marker has arrived (R369). -/
def Uet.mark (x : Uet) (num : Nat) : Uet := Uet.settle (x.ahead.length + 1) { x with markers := num :: x.markers }

/-- The packets of a step have been performed, or given up: their numbers count for the markers of their port (R369). -/
def State.performed (s : State) (x : CStep) : State :=
  x.arrived.foldl (fun t p => t.setUet x.peer p.port ((t.uetOf x.peer p.port).take p.num)) s

/-- The data of a local RECV have landed (R369, R371). -/
def State.stepLanded (s : State) (l va : Nat) : State :=
  match s.steps.findIdx? fun x => x.launch = l && x.va = va && x.stage = 1 && !x.landed with
  | none => s
  | some n => match s.steps[n]? with
    | some x => let t := s.performed x; { t with steps := t.steps.set n { x with landed := true } }
    | none => s

/-! ### Landing -/

/-- What the network interface does with an arrival at its core. -/
def State.landHeld (core : Nat) (s : State) (h : Held) : State :=
  match h with
  | .msg m => s.landNow core m
  | .step l va => s.stepLanded l va
  | .ring n slots => s.advanceRing core n slots
  | .report pc data => s.landingReport core pc data

/-- What a core's interface spilled lands, in order. -/
def State.drainSpill (s : State) (core : Nat) : State :=
  let c := s.core core
  if c.spill = [] then s else c.spill.foldl (State.landHeld core) (s.setCore core { c with spill := [] })

/-- The interface lands what it spilled once no context is in its handler for PREEMPT (R406). -/
def State.landSpilled (s : State) (core : Nat) : State := if s.interfaceHeld core then s else s.drainSpill core

/-- An arrival at a core lands, after all that was spilled before it, or joins the spill buffer while the core's interface is held; what the
core itself sent lands throughout (R98, R406). -/
def State.landOrSpill (s : State) (own : Bool) (core : Nat) (h : Held) : State :=
  if own then s.landHeld core h
  else if s.interfaceHeld core then
    let c := s.core core
    s.setCore core { c with spill := c.spill ++ [h] }
  else State.landHeld core (s.landSpilled core) h

/-- The bytes of the messages in a core's spill buffer. -/
def Core.spilled (c : Core) : Nat := (c.spill.map fun h => match h with | .msg m => m.len | _ => 0).sum

/-- A message of n bytes may land or be spilled: the spill buffer holds 256 KiB, and with it full a sender waits (R406). -/
def State.mayLand (s : State) (own : Bool) (core n : Nat) : Bool :=
  own || !s.interfaceHeld core || (s.core core).spilled + n ≤ 2 ^ 18

/-- ERET (R215, R393, R395, R406): the return in the context's own state, the journal-reported cause's hold on the core ends, and
an acquire that a barrier owed the context is performed; the selection of z1 to z15 ends (R169). -/
def State.eret (s : State) (cid : Nat) : State :=
  let c := s.ctx cid
  let s0 := match c.missPosl with
    | none => s
    | some _ => (s.setCtx cid c.leaveMiss.1).setCore (coreKey cid) { s.core (coreKey cid) with z := c.leaveMiss.2 }
  let s1 := s0.setCtx cid (s0.ctx cid).leave
  let k := s1.core (coreKey cid)
  let s2 := if k.jholder = some (ctxNo cid) then s1.setCore (coreKey cid) { k with jholder := none } else s1
  let s3 := if isCompute cid then s2.landSpilled (coreNo cid) else s2
  match c.owedAcq with
  | some _ => s3.acquireWhole cid
  | none => s3

/-- DOMAIN_LOST of a barrier that released with an error while the context was in its handler is taken as ERET ends, for the SYNC
before XPC (R395, R420); `owed` is none, or 0 where no error was owed. -/
def State.eretLost (s : State) (cid : Nat) (owed : Option Nat) : State :=
  match owed with
  | some (v + 1) => s.takeTrap cid .retired 0x15 2 ((s.ctx cid).xpc - 8) (word v)
  | _ => s

/-- ERET (R215). It transfers to XPC without the end check and keeps no address for FETCH_BOUNDARY but its own. -/
def execEret (h : Hdr) (o : Ops) (s : State) : Out :=
  issueSys .eret h o (fun s =>
    match s.me.owedAcq with
    | some (_ + 1) => let t := (s.eret s.cur).eretLost s.cur s.me.owedAcq; .jump t t.me.pc
    | _ => .jump (s.eret s.cur) s.me.xpc) s

/-- SYSC (R216): the request joins the launch's service queue, and the context waits for the answer. -/
def execSysc (h : Hdr) (o : Ops) (s : State) : Out :=
  issueSys .sysc h o (fun s =>
    let a := s.arg o.a
    let b := s.arg o.b
    let q : SyscReq := { launch := (s.file s.cur).launch.getD 0, cid := s.cur, a := a, b := b }
    .stall { s.setMe { s.me with wait := .sysc o.d a b } with sysc := s.sysc ++ [q] }) s

/-- PFX as FMT writes it (R201): HOLD 0, V 1, RV, RND, SCM, T2. -/
def pfxBits (t2 : TCode) (rv : Bool) (rnd : Rnd) (scm : Nat) : Nat :=
  t2.code + 16 * (scm % 4) + 64 * rnd.code + 512 * rv.toNat + 1024

/-- FMT (R200, R201). -/
def execFmt (t2 : TCode) (rv : Bool) (rnd : Rnd) (scm : Nat) (s : State) : Out :=
  issue .fmt { p := 0, neg := false, wide := false } 8 0 true [] noDyn
    (fun s => .retire (s.setMe (s.me.setStat 16 12 (pfxBits t2 rv rnd scm)))) s

/-- PREEMPT is pending for a core, on one of its contexts (R393). -/
def State.preemptPending (s : State) (core : Nat) : Bool :=
  (List.range 11).any fun i => (s.ctx (16 * core + i)).pend.any fun a => a.code = 0x1A

/-- PREEMPT has reached the core: it is pending on a context, or a context is in its handler (R157, R404). -/
def State.preempting (s : State) (core : Nat) : Bool :=
  s.interfaceHeld core || s.preemptPending core

/-- WAITI (R218): waits until an asynchronous cause is pending for the context or a PREEMPT for its core, then retires. -/
def execWaiti (h : Hdr) (o : Ops) (s : State) : Out :=
  issueSys .waiti h o (fun s =>
    if s.me.pend = [] && !(isCompute s.cur && s.preemptPending (coreNo s.cur)) then .stall s else .retire s) s

/-- IDLE (R218): waits until the core's doorbell rings or an asynchronous cause is pending, then retires. -/
def execIdle (h : Hdr) (o : Ops) (s : State) : Out :=
  issueSys .idle h o (fun s =>
    let k := coreKey s.cur
    if s.bells.contains k then .retire { s with bells := s.bells.filter fun x => x ≠ k }
    else if s.me.pend = [] then .stall s else .retire s) s

/-- MFSR's value (R219 to R221). WSREF is the die's elapsed cycles, FRAME above POS (R75); on an I/O die, which has no weight
store, it is a free value. -/
def State.sysRead (s : State) (cid k : Nat) : Word :=
  let c := s.ctx cid
  let x := s.core (coreKey cid)
  let io := isSupervisor cid || 384 ≤ coreNo cid
  match k with
  | 0x00 => c.stat
  | 0x01 => c.xpc
  | 0x02 => c.xcause
  | 0x03 => c.xval
  | 0x04 => x.xjrn
  | 0x05 => x.xbase
  | 0x08 => word (if isMemCore cid && 384 ≤ coreNo cid then coreNo cid - 384 else coreNo cid)
  | 0x09 => if isCompute cid then word (clusterNo cid) else BitVec.allOnes 64
  | 0x0A => if isCompute cid || (isMemCore cid && coreNo cid < 384) then word (dieNo cid) else BitVec.allOnes 64
  | 0x0B => word s.pkgid
  | 0x0C => word (s.ssn (coreKey cid))
  | 0x0D => word s.cyc
  | 0x0E => x.bubl
  | 0x0F => if !isCompute cid && io then word (Config.free s.free) else word (s.cyc - (s.die (dieNo cid)).wsBase)
  | 0x10 => x.mvth
  | 0x11 => x.hold
  | 0x12 => c.fmtd
  | 0x13 => word (s.canreq cid).toNat
  | k =>
    let m := (k - 0x40) / 8
    if 0x40 ≤ k && k ≤ 0x7F then word ((tget 0 s.meas m).toNat / 2 ^ (64 * (k % 8))) else 0

/-- MTSR's write (R219 to R221): the writable fields of a register. The three writes of R221 leave their field. -/
def State.sysWrite (s : State) (cid k : Nat) (w : Word) : State :=
  let c := s.ctx cid
  let ck := coreKey cid
  let x := s.core ck
  let v := w.toNat
  match k with
  | 0x00 =>
    let g := bits v 8 2
    let c1 := if g = 0 then c else c.setStat 8 2 g
    if c.mode = 0 then s.setCtx cid c1
    else
      let pm := bits v 4 2
      let c2 := if pm = 3 || c.mode < pm then c1 else c1.setStat 4 2 pm
      s.setCtx cid (((c2.setStat 16 12 (bits v 16 12)).setStat 6 1 (bits v 6 1)).setStat 3 1 (bits v 3 1))
  | 0x01 => s.setCtx cid { c with xpc := w }
  | 0x02 => s.setCtx cid { c with xcause := word (bits v 0 11) }
  | 0x03 => s.setCtx cid { c with xval := w }
  | 0x04 => s.setCore ck { x with xjrn := word (bits v 0 5) }
  | 0x05 => s.setCore ck { x with xbase := word (v / 4096 * 4096) }
  | 0x10 => s.setCore ck { x with mvth := word (min (v / 16 * 16) 128) }
  | 0x11 => s.setCore ck { x with hold := word (min v 1023) }
  | 0x12 => s.setCtx cid { c with fmtd := word (bits v 0 4) }
  | _ => s

/-- MFSR (R221). -/
def execMfsr (h : Hdr) (o : Ops) (s : State) : Out :=
  issueSys .mfsr h o (fun s => .retire { s.setS o.d (s.sysRead s.cur o.k) with free := s.free + 1 }) s

/-- MTSR (R221). -/
def execMtsr (h : Hdr) (o : Ops) (s : State) : Out :=
  issueSys .mtsr h o (fun s => .retire (s.sysWrite s.cur o.k (s.arg o.a))) s

/-- The fetched blocks and instruction TLB entries of an address space go from the memory cores, where its contexts may be away (R82, R222). -/
def State.discardAway (s : State) (root : Nat) : State :=
  ((s.cores.map (·.1)).filter fun k => 0x10000 ≤ k && k < 0x20000).foldl (fun t k =>
    let c := t.core k
    t.setCore k { c with blocks := c.blocks.filter fun b => b.1 / 2 ^ 46 ≠ root, itlb := c.itlb.filter fun e => e.root ≠ root }) s

/-- FENCEI (R222): the core's fetched blocks and instruction TLB entries go, and those from which a context of the core that is away would fetch. -/
def execFencei (h : Hdr) (o : Ops) (s : State) : Out :=
  issueSys .fencei h o (fun s =>
    let t := s.discardAway (s.rootFor s.cur)
    .retire (t.setMyCore { t.myCore with blocks := [], itlb := [] })) s

end Sys2Proof.Machine
end

