-- ==== Sys2Proof/Machine/Release.lean ====
section
/-! DEFINITION. Release and acquire points (R85, R86, R93, R101, R102, R165, R170, R402, R403), and the cells of a region that
ACQ, PUB and WAITG act on (R119). -/

namespace Sys2Proof.Machine

/-! ## Release points -/

/-- A journal entry of the context holds its release points: an OPEN one of kind 0, 1 or 4, or a REFUSED one (R403). -/
def State.journalHolds (s : State) (cid : Nat) : Bool :=
  (List.range 32).any fun j =>
    let b := locLocal (coreNo cid) (jrnOff j)
    let at' (o : Nat) : Nat := (readByte s.mem (b + o)).toNat
    at' 0x15 = ctxNo cid && (at' 0x17 = 2 || (at' 0x17 = 1 && (at' 0x16 ≤ 1 || at' 0x16 = 4)))

/-- An earlier token entry of the core names one of the records that the context has pending to retire (R346). -/
def State.tokensHold (s : State) (cid : Nat) : Bool :=
  let names (e : QEntry) : Bool := match e.op with
    | .kvapp va _ _ | .kvseal va | .spset va _ => (s.ctx cid).sprets.any fun r => r.1 = va
    | _ => false
  ((s.unit cid).queue 3).entries.any names

/-- The number of FREE journal entries of a core. -/
def State.freeEntries (s : State) (core : Nat) : Nat := ((List.range 32).filter fun j => s.jrnState core j = 0).length

/-- A release point of the context may issue (R93, R402, R403). -/
def State.mayIssueRelease (s : State) (cid : Nat) : Bool :=
  let c := s.ctx cid
  !(s.posts.any fun x => x.cid = cid && !x.arrived) && !(isCompute cid && s.journalHolds cid)
    && (c.sprets = [] || (!s.tokensHold cid && c.sprets.length ≤ s.freeEntries (coreNo cid)))

/-- A release point may issue, and the releases before it have performed (R86). -/
def State.mayRelease (s : State) (cid : Nat) : Bool := (s.ctx cid).pubs = [] && s.mayIssueRelease cid

/-- The next place in a context's program order (R86). -/
def State.nextOp (s : State) (cid : Nat) : State := s.setCtx cid { s.ctx cid with ops := (s.ctx cid).ops + 1 }

/-- What some engine entries landed is published at a scope: pairs of a location and the context that issued the entry (R86, R97). -/
def State.publishLanded (s : State) (scope : Nat) (ls : List (Nat × Nat)) : State :=
  let mine (x : Limited) : Option Nat :=
    if x.who.isSome then none else (ls.find? fun y => y.1 = x.loc && x.inst = scopeInst x.scope y.2).map (·.2)
  { s with lim := widenLim scope mine s.lim }

/-- What a context's appends landed is published by its release points (R164); at package scope nothing is left for a wider one. -/
def State.publishAppends (s : State) (cid scope : Nat) : State :=
  let c := s.unit cid
  let x := c.queue 3
  let s1 := s.publishLanded scope (x.landed.filter fun y => y.2 = cid)
  if scope ≤ 1 then s1.setUnit cid (c.setQueue 3 { x with landed := x.landed.filter fun y => y.2 ≠ cid }) else s1

/-- Publishes every store of the context at a scope, those of an earlier release at a narrower scope with them, and what its appends landed
(R86, R87, R91, R164). -/
def State.publishAll (s : State) (cid scope : Nat) : State :=
  let s1 := (s.widenStores cid scope fun _ => true).publishAppends cid scope
  let c := s1.ctx cid
  (s1.setCtx cid { c with own := c.own.map fun o => { o with pub := true } }).publish cid scope (c.own.filter fun o => !o.pub)

/-- The destinations that a release at a scope sends flush markers to, none at die scope or narrower (R101, R102). -/
def State.releaseDests (s : State) (cid scope : Nat) : Dests := if scope ≤ 1 then (s.unit cid).dests.map fun d => (d, false) else []

/-- The set of destinations is emptied as a release at package or system scope performs (R101). -/
def State.emptyDests (s : State) (cid scope : Nat) : State := if scope ≤ 1 then s.setUnit cid { s.unit cid with dests := [] } else s

/-- Opens a journal entry of a compute core for a context, at an address (R401). -/
def State.openFor (s : State) (cid kind addr : Nat) : Option Nat × State :=
  let core := coreNo cid
  match s.freeEntry core 32 0 with
  | none => (none, s)
  | some j =>
    let bs := toBytes 8 (s.ctx cid).pc.toNat ++ toBytes 8 addr ++ toBytes 4 0 ++ toBytes 1 0 ++ toBytes 1 (ctxNo cid)
      ++ toBytes 1 kind ++ toBytes 1 1 ++ toBytes 8 (s.ssn core)
    (some j, s.poke (locLocal core (jrnOff j)) bs)

/-- Sends the pending retirements of a context to their records' homes, each under a journal entry, as a release point issues (R346,
R402). They perform after the stores that it publishes. -/
def State.sendRetirements (s : State) (cid : Nat) : State :=
  let c := s.ctx cid
  c.sprets.foldl (fun t r =>
      let x := t.openFor cid 5 r.1
      { x.2 with retiring := x.2.retiring ++ [{ cid := cid, va := r.1, tag := r.2, jrn := x.1, num := c.ops + 1 }] })
    (s.setCtx cid { c with sprets := [], ops := c.ops + 1 })

/-- The release of a context that waits for its retirements alone is over when the last has performed (R165, R346). -/
def State.retireCheck (s : State) (cid : Nat) : State :=
  let c := s.ctx cid
  if c.wait = .retirements && !(s.retiring.any fun r => r.cid = cid) then s.setCtx cid { c with wait := .none, released := true } else s

/-- A waiting release performs when its last acknowledgement has come: everything is published, and the context goes on once its retirements
have performed (R86, R101, R346). -/
def State.releaseCheck (s : State) (cid : Nat) : State :=
  match (s.ctx cid).wait with
  | .release scope [] =>
    let s1 := (s.publishAll cid scope).emptyDests cid scope
    (s1.setCtx cid { s1.ctx cid with wait := .retirements }).retireCheck cid
  | _ => s

/-- A release point of the issuing context at a scope, then what follows it. The instruction goes on once the release has performed, at
once where it has no destination and no retirement (R101, R102, R165). -/
def State.releasing (s : State) (scope : Nat) (next : State → Act) : Act :=
  let c := s.me
  if c.released then next (s.setMe { c with released := false })
  else if !s.mayRelease s.cur then .stall s
  else
    let s1 := s.sendRetirements s.cur
    let s2 := (s1.setMe { s1.me with wait := .release scope (s1.releaseDests s1.cur scope) }).releaseCheck s1.cur
    if s2.me.released then next (s2.setMe { s2.me with released := false }) else .stall s2

/-- The oldest publication that PUB started performs: its stores, those to its cells that an earlier release published at a narrower scope,
and what the context's appends landed (R86, R87, R164, R266). -/
def State.pubPerform (s : State) (cid : Nat) (p : Pub) : State :=
  let c := s.ctx cid
  let mine (o : OwnByte) : Bool := !o.pub && o.rel = p.num
  let s1 := s.setCtx cid { c with pubs := c.pubs.drop 1, own := c.own.map fun o => if mine o then { o with pub := true } else o }
  (((s1.widenStores cid p.scope p.cells.contains).publish cid p.scope (c.own.filter mine)).publishAppends cid p.scope).emptyDests cid p.scope

/-- Performs the publications that PUB started, the oldest first, up to one that waits for acknowledgements; a release sends its markers when
those before it have performed (R86, R101, R102). -/
def State.pubRun (cid : Nat) : Nat → State → State
  | 0, s => s
  | k + 1, s =>
    let c := s.ctx cid
    match c.pubs with
    | [] => s
    | p :: r =>
      match p.dests.getD (s.releaseDests cid p.scope) with
      | [] => State.pubRun cid k (s.pubPerform cid p)
      | ds => s.setCtx cid { c with pubs := { p with dests := some ds } :: r }

/-- The publications of a context go on after an acknowledgement. -/
def State.pubCheck (s : State) (cid : Nat) : State := State.pubRun cid (s.ctx cid).pubs.length s

/-! ## Acquire points -/

/-- Some locations take in a byte of a retirement's record, whose bytes lie in one or two runs (R160). -/
def coversRecord (ls : List (Nat × Nat)) (r : Retired) : Bool := ls.any fun l => r.runs.any fun x => x.1 ≤ l.1 && l.1 < x.1 + x.2

/-- An acquire point that refreshes the cells of a region, as bytes each with the bits that they hold (R85, R119, R170). -/
def State.acquireCells (s : State) (cid : Nat) (ls : List (Nat × Nat)) : State :=
  (s.acquireAt cid ls).applyRetired cid (coversRecord ls)

/-! ## Cells -/

/-- Where an engine or a home finds a byte of memory: its location, with the table entry of its page for a global one; or the
cause of a refusal (R418), an absent page, or no memory. -/
inductive Home where
  | at_ (l pte : Nat)
  | refuse (cause : Nat)
  | absent (va : Nat)
  | hole
  deriving DecidableEq, Repr

/-- A byte at a generic pointer as a part acting in an address space finds it (R78, R79, R253); a root of none is the physical
space of the supervisor. -/
def State.homeIn (s : State) (root : Option Nat) (p : Nat) (write : Bool) : Home :=
  let here (l pte : Nat) : Home := if s.lostLoc l then .refuse 0x15 else if s.portDown l then .refuse 0x06 else .at_ l pte
  match spaceCode p with
  | 3 => if ptrOffset p < 2 ^ 17 then here (locLocal (bits p 36 12) (ptrOffset p)) 0 else .refuse 0x07
  | 4 => here (locShared (bits p 38 9) (ptrOffset p)) 0
  | 5 => if write then .refuse 0x07 else here (locWeight (bits p 40 5) (ptrOffset p)) 0
  | 0 => .refuse 0x07
  | _ =>
    match root with
    | none => if paExists (ptrVa p) then here (ptrVa p) 0 else .hole
    | some r => match walk s.mem r (ptrVa p) with
      | .leaf e =>
        if (if write then e.w else e.r) then (if paExists (e.phys (ptrVa p)) then here (e.phys (ptrVa p)) e.pte else .hole)
        else .refuse 0x07
      | .absent m => if s.lostHome m then .refuse 0x06 else .absent (ptrVa p)
      | .bad => .refuse 0x06

/-- The bytes from a pointer, or the first that is not found. -/
def State.homesIn (s : State) (root : Option Nat) (p : Nat) (write : Bool) : Nat → Sum Home (List (Nat × Nat))
  | 0 => .inr []
  | n + 1 =>
    match s.homeIn root p write with
    | .at_ l pte => (s.homesIn root (p + 1) write n).map id ((l, pte) :: ·)
    | h => .inl h

/-- The address space that a context's accesses use. -/
def State.space (s : State) (cid : Nat) : Option Nat := if isSupervisor cid then none else some (s.file cid).root

def State.home (s : State) (cid p : Nat) (write : Bool) : Home := s.homeIn (s.space cid) p write
def State.homes (s : State) (cid p : Nat) (write : Bool) (n : Nat) : Sum Home (List (Nat × Nat)) := s.homesIn (s.space cid) p write n

/-- n bytes at a VA as its home holds them; zero where no memory can be read. -/
def State.rdIn (s : State) (root : Option Nat) (va n : Nat) : Nat :=
  match s.homesIn root va false n with
  | .inr ls => ofBytes (ls.map fun l => readByte s.mem l.1)
  | .inl _ => 0

/-- The addresses of a range of n bytes at which a page may begin, and its last byte. -/
def rangeEnds (p n : Nat) : List Nat := if n = 0 then [] else (List.range ((n + 0x7FFF) / 0x8000)).map (p + 0x8000 * ·) ++ [p + n - 1]

/-- A home's walks for the bytes from a pointer set A in the entries that they read (R79). -/
def State.markHomes (s : State) (root : Option Nat) (p n : Nat) : State :=
  match root with
  | some r => if spaceCode p = 1 || spaceCode p = 2 then (rangeEnds p n).foldl (fun t q => t.walkMarks r (ptrVa q)) s else s
  | none => s

/-- Writes bytes at a VA at their homes, which mark what they walk (R79). -/
def State.wrIn (s : State) (root : Option Nat) (va n v : Nat) : State :=
  match s.homesIn root va true n with
  | .inr ls =>
    State.heal ((ls.zip (toBytes n v)).foldl (fun t x => ((t.poke x.1.1 [x.2]).markDirty x.1.2).markFrame (s.funcOf root) x.1.1) (s.markHomes root va n))
      (ls.map (·.1))
  | .inl _ => s

/-- A page pool of an address space is in use (R161, R373). -/
def State.notePool (s : State) (root p : Nat) : State := if s.pools.contains (root, p) then s else { s with pools := (root, p) :: s.pools }

/-- A 32-bit word at its home, or why it cannot be read. -/
def State.homeWordIn (s : State) (root : Option Nat) (p : Nat) : Sum Home Nat :=
  match s.homesIn root p false 4 with
  | .inr ls => if ls.any fun l => s.poisoned l.1 1 then .inl (.refuse 0x19) else .inr (ofBytes (ls.map fun l => readByte s.mem l.1))
  | .inl h => .inl h

/-- A group's rows as an engine finds them at the record's home (R107, R434). -/
def State.homeGroupIn (s : State) (root : Option Nat) (r : Tsr) (g : Nat) : Sum Home (Nat × Nat) :=
  match s.homeWordIn root r.rag with
  | .inl h => .inl h
  | .inr n =>
    if min n (r.ext.getD 0 0) ≤ g then .inr (0, 0)
    else match s.homeWordIn root (r.rag + 4 + 4 * g), s.homeWordIn root (r.rag + 8 + 4 * g) with
      | .inr a, .inr b => .inr (a, b - a)
      | .inl h, _ => .inl h
      | _, .inl h => .inl h

/-- The cell of a coordinate as an engine finds it in an address space: none where it is OUTSIDE, or why the ragged record cannot be read. -/
def State.homeCellIn (s : State) (root : Option Nat) (r : Tsr) (x : List Int) : Sum Home (Option Cell) :=
  match r.group x with
  | none => .inr (r.cell (fun _ => (0, 0)) x)
  | some g => match s.homeGroupIn root r g with
    | .inl h => .inl h
    | .inr o => .inr (r.cell (fun _ => o) x)

def State.homeCell (s : State) (cid : Nat) (r : Tsr) (x : List Int) : Sum Home (Option Cell) := s.homeCellIn (s.space cid) r x

/-- An engine's walks for the ragged record of a coordinate and for its cell, where it has one, set A in the entries that they read (R79). -/
def State.markCell (s : State) (root : Option Nat) (r : Tsr) (x : List Int) (c : Option Cell) : State :=
  let s1 := match r.group x with
    | some g => (s.markHomes root r.rag 4).markHomes root (r.rag + 4 + 4 * g) 8
    | none => s
  match c with
  | some b => s1.markHomes root (r.ptr b) b.len
  | none => s1

/-- The points of some boxes in the order of R116. -/
def pointsOf (lat : Lat) (bs : List Box) : List (List Int) := bs.flatMap (boxPts lat)

/-- The location of a byte that some access of the context may reach: a page that it may write and not read counts. -/
def State.placeOf (s : State) (cid p : Nat) : Option Nat :=
  match s.home cid p false with
  | .at_ l _ => some l
  | _ => match s.home cid p true with | .at_ l _ => some l | _ => none

/-- The bytes that hold a cell's bits, as offsets from its first byte, each with those bits. -/
def Cell.masks (c : Cell) : List (Nat × Nat) :=
  (List.range c.len).filterMap fun i =>
    let lo := max c.off (8 * i)
    let hi := min (c.off + c.wid) (8 * i + 8)
    if lo < hi then some (i, 2 ^ (hi - 8 * i) - 2 ^ (lo - 8 * i)) else none

/-- The shared and global bytes of a region's cells in a tensor, each with the bits that the cell holds (R119). -/
def State.cellLocs (s : State) (cid : Nat) (r : Tsr) (g : Region) : List (Nat × Nat) :=
  (pointsOf g.lattice g.canonical).flatMap fun x =>
    match s.homeCell cid r x with
    | .inr (some c) => c.masks.filterMap fun b => match s.placeOf cid (r.ptr c + b.1) with
      | some l => if l < 2 ^ 48 || (2 * 2 ^ 48 ≤ l && l < 3 * 2 ^ 48) then some (l, b.2) else none
      | none => none
    | _ => []

/-- The walks for the cells of a region in a tensor, and for its ragged record, set A in the entries that they read (R79). -/
def State.markCells (s : State) (cid : Nat) (r : Tsr) (g : Region) : State :=
  (pointsOf g.lattice g.canonical).foldl (fun t x => match s.homeCell cid r x with | .inr c => t.markCell (s.space cid) r x c | .inl _ => t) s

end Sys2Proof.Machine
end

