-- ==== Sys2Proof/Machine/Engine.lean ====
section
/-! DEFINITION. Engine queues, rings, and what an MMA captures at issue (R95, R96, R98, R146 to R149, R335 to R337, R443). -/

namespace Sys2Proof.Machine

/-! ## Queues -/

/-- Places an entry at the end of a queue of the issuing context's core (R95), with its number; it takes its place in the context's program
order (R86). -/
def State.enqueue (s : State) (q : Nat) (op : QOp) (jrn : Option Nat) : State × Nat :=
  let c := s.myCore
  let e : QEntry := { id := c.nextId, ctx := s.cur, pc := s.me.pc, op := op, jrn := jrn, performed := false, num := s.me.ops + 1 }
  let x := c.queue q
  ((s.setMyCore { c.setQueue q { x with entries := x.entries ++ [e] } with nextId := c.nextId + 1 }).nextOp s.cur, c.nextId)

def QOp.isFence : QOp → Bool
  | .fence _ => true
  | _ => false
def QOp.isMark : QOp → Bool
  | .mark _ _ _ => true
  | _ => false
def QOp.isXfer : QOp → Bool
  | .xfer _ => true
  | _ => false

/-- The entries ahead of one in its queue. -/
def Core.ahead (c : Core) (q id : Nat) : List QEntry := (c.queue q).entries.takeWhile fun e => e.id ≠ id

/-- Every release of a context before a place in its program order has performed (R86): the others wait as PUBs, for a context that waits at
another release point issues nothing. A completion mark that has not completed holds nothing but the marks after it: whether it is one of the
releases that later ones wait for is not said (DESIGN CHOICE, log 55). -/
def State.releasedBefore (s : State) (cid num : Nat) : Bool := !((s.ctx cid).pubs.any fun p => p.num < num)

/-- An entry stands where its engine may start it: all ahead of it in its queue have been performed, no fence ahead of it waits,
and, for a transfer, its context's earlier releases have been performed (R86, R95, R96). -/
def State.mayPerform (s : State) (core q : Nat) (e : QEntry) : Bool :=
  let c := s.core core
  !e.performed && (c.ahead q e.id).all (fun x => !x.op.isFence && (x.performed || x.op.isMark))
    && (!e.op.isXfer || s.releasedBefore e.ctx e.num)

/-! ## Accumulators and keys -/

/-- The engine slots of an accumulator register (R148); a register that the launch's table does not list keeps its default slot (DESIGN
CHOICE, log 41). -/
def State.amap (s : State) (core n : Nat) : AMap := (tfind (s.core core).a n).getD { slot := 4 * (core % 8) + n, len := 1 }

/-- The engine slots that a core's accumulator registers map to. -/
def State.coreSlots (s : State) (core : Nat) : List Nat := (List.range 4).flatMap fun n => let m := s.amap core n; (List.range m.len).map (m.slot + ·)

/-- The bytes of a tile (R144). -/
def tileBytes (t : TCode) : Nat := 128 * rowBytes t

/-- The ring conditions of R147, the accumulator's rows (R149), and the end of the tile's window (R336). -/
def State.mmaAccess (s : State) (core : Nat) (k : WKey) (ring acc rows steps : Nat) (afmt : TCode) : Bool :=
  let r := (s.core core).ring ring
  r.count = 0 || r.slotsz * 256 < 16 * rowBytes afmt || (2 ≤ k.scm && !r.scl) || 16 * (s.amap core acc).len < rows
    || (if spaceCode k.ptr = 5 then 0xC000000 else 0x20000) < ptrOffset k.ptr + steps * tileBytes k.fmt

/-- The hold limit that IMM32 gives, nothing where HOLD gives it (R335); it is read as the operation arrives. -/
def mmaHold (imm : Nat) : Option Nat := if bitOf imm 20 then none else some (bits imm 10 10)

/-- The task that a context runs: its record, or the range that it holds (R152). -/
def Ctx.task (c : Ctx) : Option Nat := match c.record with | some r => some r | none => c.range.map (·.va)

/-- The MMA that the issuing core captures (R335 to R337). -/
def mmaOp (o : Ops) (task : Option Nat) (imm ring acc : Nat) (iacc : Bool) (k : WKey) (tsr : Option Tsr) (steps : List Nat) (ready : Bool) : MmaOp :=
  { ring := ring, acc := acc, rows := bits imm 0 8, afmt := o.t, sat := o.sat, iacc := iacc, key := k, hold := mmaHold imm,
    prio := bits imm 8 2, steps := steps, cur := 0, tsr := tsr, busy := false, ready := ready, waits := none, task := task }

/-! ## Grants (R118) -/

/-- The domain record at a VA of an address space holds a compute core (R59, R264). A .dom grant reads it at each access, for the spec does not say
when its core set is taken (DESIGN CHOICE, log 77). -/
def State.domainHas (s : State) (root : Option Nat) (va core : Nat) : Bool :=
  match s.homeIn root (va + core / 8) false with
  | .at_ l _ => bitOf (readByte s.mem l).toNat (core % 8)
  | _ => false

/-- A box holds, in one dimension, a coordinate of the lattice that names the same cells as `x`: `x`, or under WRAP one that differs from it by
a multiple of the extent (R105). A step is at most 256, so 256 candidates settle it. -/
def dimMeets (sp : Nat × Nat) (i : Ival) (wrap : Option Nat) (x : Int) : Bool :=
  let here (v : Int) : Bool := i.1 ≤ v && v < i.2 && (v - sp.2) % sp.1 = 0
  match wrap with
  | none => here x
  | some e => (List.range 256).any fun k => here (i.1 + (x - i.1) % (e : Int) + (k * e : Nat))

/-- A granted region holds a coordinate that names the same cell as `x` in an accessor's record (R118). A grant keeps BASE and coordinates
alone: they are read in the accessor's record, and one of lower rank covers every value of the dimensions that it lacks (DESIGN CHOICE, log 54). -/
def Region.meetsCell (g : Region) (r : Tsr) (x : List Int) : Bool :=
  let wrapOf (d : Nat) : Option Nat := if r.wrapBit d && !(r.ragged && d ≤ 1) then some (r.ext.getD d 1) else none
  g.boxes.any fun b => (List.range g.rank).all fun d =>
    dimMeets (g.lattice.getD d (1, 0)) (b.getD d (0, 0)) (wrapOf d) (x.getD d 0)

/-- A live grant covers the cell of a point of a tensor for an accessor of a protection domain, or for its core in a domain record of the
granter's address space, which stands for compute cores alone (R59, R118, R264). -/
def State.grantedTo (s : State) (cid pd : Nat) (r : Tsr) (x : List Int) (write : Bool) : Bool :=
  let root (n : Nat) : Option Nat := if n = 0 then none else some (s.launchOf n).root
  r.pd = pd || s.grants.any fun g =>
    let y := g.2
    y.base = r.base && (!write || y.write) && y.region.meetsCell r x
      && (if y.dom then isCompute cid && s.domainHas (root y.launch) y.target (coreNo cid) else y.target = pd)

/-- The same for a context of a launch. -/
def State.granted (s : State) (cid : Nat) (r : Tsr) (x : List Int) (write : Bool) : Bool := s.grantedTo cid (s.myLaunch cid).pd r x write

end Sys2Proof.Machine
end

