-- ==== Sys2Proof/Machine/Transfer.lean ====
section
/-! DEFINITION. Transfers: XGET, XSEND, XCOPY, XMMA and XCNT as they issue, how their points land, and how they end (R99, R116,
R117, R252 to R257, R402, R418 to R420). -/

namespace Sys2Proof.Machine

/-- An instruction of the transfer class needs home resources (R82). -/
def issueX (i : Op) (h : Hdr) (o : Ops) (body : State → Act) (s : State) : Out :=
  issue i h (lenOf i h o) o.k true [o.a, o.b, o.c] (dynReject i o) body s

/-! ## Checks at issue -/

/-- The windows that a transfer's source admits (R253); in an MCRUN program XSEND takes global lines alone. -/
def srcAdmits (k : XKind) (cid sp : Nat) : Bool :=
  match k with
  | .get | .mma => sp ≠ 3
  | .send => if isMemCore cid then sp = 1 else sp = 3
  | .copy => sp = 1 || sp = 2
  | .cnt => sp = 3

/-- The windows that its destination admits (R253); an MCRUN program sends to its starting core or to global memory. -/
def dstAdmits (s : State) (k : XKind) (cid p : Nat) : Bool :=
  let sp := spaceCode p
  match k with
  | .get | .mma => sp = 3 && isCompute cid && bits p 36 12 = coreNo cid
  | .send =>
    if isMemCore cid then sp = 1 || (sp = 3 && (s.ctx cid).starter.map (·.1) = some (bits p 36 12)) else sp ≠ 5
  | .copy => sp = 1 || sp = 2
  | .cnt => sp = 3 || sp = 1

/-- The cause of a record's BASE: R67 with its exception for a local destination, then the window. -/
def State.baseCause (s : State) (k : XKind) (dst : Bool) (p : Nat) : Option Nat :=
  if spaceCode p = 0 then some 0x09
  else if !(dst && spaceCode p = 3) && !ownsPtr s.cur p then some 0x08
  else if !(if dst then dstAdmits s k s.cur p else srcAdmits k s.cur (spaceCode p)) then some 0x07 else none

/-- The cause of a local cell (R69, R253). -/
def localCellCause (mode : Nat) (dst : Bool) (p len : Nat) : Option Nat :=
  if spaceCode p ≠ 3 then none
  else
    let off := ptrOffset p
    if dst && off < 0x800 then some 0x1B
    else if 0x20000 < off + len || (off < 0x1000 && (dst || (mode = 0 && 0x800 < off + len))) then some 0x07 else none

/-- A cell of a record as it is found now: a ragged group that cannot be read now is found by the engine. -/
def State.cellNow (s : State) (root : Option Nat) (r : Tsr) (x : List Int) : Option Cell := match s.homeCellIn root r x with | .inr c => c | .inl _ => none

/-- The cause of a cell of a transfer's source or destination in the areas of local memory, with its address. -/
def Tsr.areaCause (r : Tsr) (mode : Nat) (dst : Bool) (c : Cell) : Option (Nat × Nat) :=
  (localCellCause mode dst (r.ptr c) c.len).map fun n => (n, r.ptr c)

/-- The first cause of a point of a transfer: the areas of local memory, then the grants of R118. Where one side lies in a ragged group that
cannot be read at issue the other is checked all the same (R69); a point that is OUTSIDE is skipped. -/
def State.pointCause (s : State) (src dst : Tsr) (x : List Int) : Option (Nat × Nat) :=
  let mode := s.me.mode
  match s.homeCell s.cur src x, s.homeCell s.cur dst x with
  | .inr none, _ => none
  | _, .inr none => none
  | .inl _, .inl _ => none
  | .inl _, .inr (some b) => dst.areaCause mode true b
  | .inr (some a), .inl _ => src.areaCause mode false a
  | .inr (some a), .inr (some b) =>
    firstSome (firstSome (dst.areaCause mode true b) (src.areaCause mode false a))
      (if !s.granted s.cur src x false then some (0x07, src.ptr a)
       else if !s.granted s.cur dst x true then some (0x07, dst.ptr b) else none)

/-- The first cause of the points of a transfer. -/
def State.pointsCause (s : State) (src dst : Tsr) (xs : List (List Int)) : Option (Nat × Nat) := xs.findSome? (s.pointCause src dst)

/-- The cause of XCNT's count offset (R257). -/
def countCause (off dst : Nat) : Option (Nat × Nat) :=
  if off % 8 ≠ 0 then some (0x0A, off)
  else if off = 0 then none
  else if spaceCode dst ≠ 3 || off < 0x1000 || 0x20000 < off + 8 then some (0x07, off) else none

/-! ## Source cells -/

/-- Byte values at locations, identity words of the constant window computed (R70). -/
def State.byteAt (s : State) (l : Nat) : Byte :=
  if 2 ^ 48 ≤ l && l < 2 * 2 ^ 48 then ((s.readLocal ((l - 2 ^ 48) / 2 ^ 17) ((l - 2 ^ 48) % 2 ^ 17) 1).getD 0 0) else readByte s.mem l

/-- How one point of a transfer ends. -/
inductive PointEnd where
  | landed (s : State) (locs : List Nat)
  /-- one of its cells is OUTSIDE; the state has the marks of the walks -/
  | skipped (s : State)
  | refused (cause : Nat) (addr : Nat)
  | absent (p : Nat)
  /-- the receiving core's spill buffer is full (R406), or the source's weight bank is in its refresh window (R75) -/
  | busy
  | hole

/-- Sorts what stops a byte of a point. -/
def Home.pointEnd (h : Home) (p : Nat) : PointEnd :=
  match h with
  | .refuse n => .refused n p
  | .absent _ => .absent p
  | _ => .hole

/-- The value of a source cell, read now or as the exchange phase began (R254). -/
def State.sourceValue (s : State) (root : Option Nat) (r : Tsr) (c : Cell) : Sum PointEnd Nat :=
  match s.homesIn root (r.ptr c) false c.len with
  | .inl h => .inl (h.pointEnd (r.ptr c))
  | .inr ls =>
    if ls.any fun l => s.poisoned l.1 1 then .inl (.refused 0x19 (r.ptr c))
    else if ls.any fun l => 3 * 2 ^ 48 ≤ l.1 && s.refreshing l.1 then .inl .busy
    else .inr (TCode.held r.fmt (c.get (ls.map fun l => s.byteAt l.1)))

/-- The contents of a send's source cells (R254); one that cannot be read is found as it moves. -/
def State.captured (s : State) (x : Transfer) : List (Option Nat) :=
  x.todo.map fun pt =>
    match s.homeCellIn x.root x.src pt with
    | .inr (some c) => match s.sourceValue x.root x.src c with | .inr v => some v | .inl _ => none
    | _ => none

/-- The context is in a compute phase of a phased launch (R60, R220). -/
def State.inCompute (s : State) (cid : Nat) : Bool := isCompute cid && (s.myLaunch cid).phased && (s.ctx (16 * coreNo cid)).phase = 1

/-- R254: a send of a phased launch that waits for the exchange phase, whichever phase it was issued in. -/
def State.isHeld (s : State) (k : XKind) (dst : Nat) : Bool :=
  isCompute s.cur && (s.myLaunch s.cur).phased && (match k with
    | .send => spaceCode dst = 3 && bits dst 36 12 ≠ coreNo s.cur
    | .cnt => spaceCode dst ≠ 3 || bits dst 36 12 ≠ coreNo s.cur
    | _ => false)

/-- Carries out a transfer whose checks have passed: held (R254), or an entry of its queue that stands in the
outstanding-transfer table (R117), under a journal entry (R402). XMMA's MMA waits in qm (R159). A held send of a core that has arrived
already reads its source at issue, and one issued in the exchange phase announces itself then (DEDUCED, log 30). -/
def State.placeTransfer (s : State) (q : Nat) (x : Transfer) (g : Region) (mma : Option MmaOp) : Act :=
  let core := s.myCore
  let held := s.isHeld x.kind x.dst.base
  if !held && 32 ≤ core.outst.length then .stall s
  else match s.openEntry 2 x.dst.base with
    | none => .stall s
    | some (j, s1) =>
      if held then
        let c := s1.myCore
        let d := s1.dom (c.launch.getD 0) c.bdom
        let vals := if (s1.ctx (16 * coreNo s1.cur)).phase = 2 then some (s1.captured x) else none
        let h : HeldSend := { id := c.nextId, ctx := s1.cur, launch := c.launch.getD 0, dom := c.bdom, jrn := j,
                              xfer := some { x with vals := vals, announced := d.exchange }, slot := none, num := s1.me.ops + 1 }
        .retire ((s1.setMyCore { c with held := c.held ++ [h], nextId := c.nextId + 1 }).nextOp s1.cur)
      else
        let m : Option Nat := mma.map fun _ => s1.myCore.nextId + 1
        let s2 := s1.enqueue q (.xfer { x with mma := m }) j
        let c := s2.1.myCore
        let hull : Box := (hullBox g.lattice g.boxes).getD []
        let s3 := s2.1.setMyCore { c with outst := c.outst ++ [{ base := x.dst.base, hull := hull, queue := q, entry := s2.2 }] }
        match mma with
        | none => .retire s3
        | some op => .retire (s3.enqueue 1 (.mma op) none).1

/-- The checks of a transfer in the order of R397 and R433, then what it does. -/
def transferBody (k : XKind) (o : Ops) (x : Ext) (s : State) : Act :=
  match s.tsr s.cur x.t2, s.tsr s.cur x.t1 with
  | none, _ => .trap s 0x0B (word (0x100 + x.t2))
  | some _, none => .trap s 0x0B (word (0x100 + x.t1))
  | some src, some dst =>
    let g := s.region s.cur o.a.num
    let todo := pointsOf g.lattice g.canonical
    let count := if k = .cnt then bits x.imm 0 17 else 0
    if src.fmt ≠ dst.fmt then .trap s 0x0B 18
    else if isMemCore s.cur && (k = .get || k = .mma || k = .cnt) then .trap s 0x07 0
    else if dst.ro then .trap s 0x07 0
    else match s.baseCause k true dst.base, s.baseCause k false src.base with
      | some n, _ => .trap s n (word dst.base)
      | none, some n => .trap s n (word src.base)
      | none, none =>
        match s.pointsCause src dst todo, countCause count dst.base with
        | some e, _ => .trap s e.1 (word e.2)
        | none, some e => .trap s e.1 (word e.2)
        | none, none =>
          let adv : Option (Nat × Nat) :=
            if k = .mma then some (o.d, bits x.imm 0 8 / 16) else if o.mx % 2 = 1 then some (o.d, x.imm) else none
          let t : Transfer := { tag := coreKey s.cur * 2 ^ 32 + s.myCore.nextId, kind := k, src := src, dst := dst, dstIdx := x.t1, lat := g.lattice, boxes := g.canonical, todo := todo,
                                landed := 0, adv := adv, count := count, mma := none, vals := none, announced := false, watch := false, mode := s.me.mode,
                                pd := (s.myLaunch s.cur).pd, root := s.space s.cur, parked := [], failed := none, dropped := [] }
          if k = .mma then
            match s.mmaKey o with
            | none => .trap s 0x07 0
            | some key =>
              if s.mmaAccess (coreNo s.cur) key o.d o.c.num (bits x.imm 0 8) 1 o.t then .trap s 0x07 0
              else s.placeTransfer x.q t g (some (mmaOp o s.me.task x.imm o.d o.c.num false key s.myCore.keyTsr [0] false))
          else s.placeTransfer x.q t g none

/-- XGET (R252 to R255). -/
def execXget (h : Hdr) (o : Ops) (x : Ext) (s : State) : Out := issueX .xget h o (transferBody .get o x) s
/-- XSEND (R252 to R255). -/
def execXsend (h : Hdr) (o : Ops) (x : Ext) (s : State) : Out := issueX .xsend h o (transferBody .send o x) s
/-- XCOPY (R252 to R255). -/
def execXcopy (h : Hdr) (o : Ops) (x : Ext) (s : State) : Out := issueX .xcopy h o (transferBody .copy o x) s
/-- XMMA (R159, R256). -/
def execXmma (h : Hdr) (o : Ops) (x : Ext) (s : State) : Out := issueX .xmma h o (transferBody .mma o x) s
/-- XCNT (R257). -/
def execXcnt (h : Hdr) (o : Ops) (x : Ext) (s : State) : Out := issueX .xcnt h o (transferBody .cnt o x) s

/-! ## Landing -/

/-- Writes bytes at their homes in shared or global memory, of which the bits from `off` on, `wid` of them, are those that land under a tag. What a
transfer lands is published by a mark (R97): until then only the context that issued it is sure to see it. The homes join the destinations of its
core's releases (R101). -/
def State.landShared (s : State) (cid tag off wid : Nat) (ls : List (Nat × Nat)) (bs : List Byte) : State :=
  State.mend ((ls.zip bs).foldl (fun t x =>
    let l := x.1.1
    let y : Limited := { loc := l, scope := 5, inst := scopeInst 5 cid, old := readByte t.mem l, who := none, num := s.pubs, acc := 0 }
    ((((t.poke l [x.2]).markDirty x.1.2).noteDirty cid l).limit t y).addDest cid (destOf l)) { s with pubs := s.pubs + 1 })
    tag (bitPlaces (ls.map (·.1)) off wid)

/-- The cause of a point's cells in the areas of local memory (R69), found as it moves where its ragged group could not be read at issue. -/
def Transfer.areaCause (x : Transfer) (p q n : Nat) : Option (Nat × Nat) :=
  match localCellCause x.mode true q n, localCellCause x.mode false p n with
  | some c, _ => some (c, q)
  | none, some c => some (c, p)
  | none, none => none

/-- Data that a compute core sends may land in a core's local memory: not in that core's compute phase, except its own (R254). -/
def State.mayReceive (s : State) (cid core : Nat) : Bool := !(isCompute cid && coreNo cid ≠ core && s.inCompute (16 * core))

/-- Lands one point (R79, R105, R116, R118, R252). `val` is the value read at the start of the exchange phase, for a held send. -/
def State.landPoint (s : State) (cid : Nat) (x : Transfer) (pt : List Int) (val : Option Nat) : PointEnd :=
  match s.homeCellIn x.root x.src pt, s.homeCellIn x.root x.dst pt with
  | .inl h, _ => h.pointEnd x.src.rag
  | _, .inl h => h.pointEnd x.dst.rag
  | .inr (some a), .inr (some b) =>
    let p := x.src.ptr a
    let q := x.dst.ptr b
    let walked (t : State) : State := (t.markCell x.root x.src pt (some a)).markCell x.root x.dst pt (some b)
    match x.areaCause p q b.len with
    | some c => .refused c.1 c.2
    | none =>
    if !s.grantedTo cid x.pd x.src pt false then .refused 0x07 p
    else if !s.grantedTo cid x.pd x.dst pt true then .refused 0x07 q
    else
      match (match val with | some v => Sum.inr v | none => s.sourceValue x.root x.src a), s.homesIn x.root q true b.len with
      | .inl e, _ => e
      | _, .inl h => h.pointEnd q
      | .inr v, .inr ls =>
        if spaceCode q = 3 then
          let core := bits q 36 12
          let own := isCompute cid && coreNo cid = core
          if !s.mayReceive cid core || !s.mayLand own core b.len then .busy
          else
            let s1 := (walked s).landOrSpill own core (.msg { tag := x.tag, off := ptrOffset q, len := b.len, lo := b.off, wid := b.wid, val := v, count := 0 })
            .landed (if own then s1 else s1.addDest cid (.cluster (core / 8))) []
        else
          let old := ls.map fun l => readByte s.mem l.1
          .landed ((walked s).landShared cid x.tag b.off b.wid ls (b.put old v)) (ls.map (·.1))
  | .inr a, .inr b => .skipped ((s.markCell x.root x.src pt a).markCell x.root x.dst pt b)

/-- A local range meets the landing range of a core; LHI at or below LLO disables it (R385). -/
def Core.landingMeets (c : Core) (off n : Nat) : Bool :=
  c.llo.toNat < c.lhi.toNat && off < c.lhi.toNat && c.llo.toNat < off + n && n ≠ 0

/-- The point touches the landing range of the core that receives it (R385). -/
def State.landingWatched (s : State) (x : Transfer) (pt : List Int) : Bool :=
  match s.cellNow x.root x.dst pt with
  | some b => let q := x.dst.ptr b; spaceCode q = 3 && (s.core (bits q 36 12)).landingMeets (ptrOffset q) b.len
  | none => false

/-- The aligned 4-byte words of local memory that a point's cell in a record holds in part. -/
def State.cellWords (s : State) (root : Option Nat) (r : Tsr) (pt : List Int) : List Nat :=
  match s.cellNow root r pt with
  | some b =>
    let q := r.ptr b
    if spaceCode q ≠ 3 || (q % 4 = 0 && b.len % 4 = 0) then [] else (List.range ((q % 4 + b.len + 3) / 4)).map (q / 4 + ·)
  | none => []

/-- The value of a transfer's point j, where it was read before it moves. -/
def Transfer.valAt (x : Transfer) (j : Nat) : Option Nat := (x.vals.bind fun v => v[j]?).getD none

/-- The words that the source of point j holds in part, where it is read as the point moves. -/
def State.readWords (s : State) (x : Transfer) (j : Nat) : List Nat :=
  if x.announced || (x.valAt j).isSome then [] else s.cellWords x.root x.src (x.todo.getD j [])

/-- The words that point j writes in part, and those that it reads in part while it moves, which go whole (R99; DEDUCED, log 47). -/
def State.partWords (s : State) (x : Transfer) (j : Nat) : List Nat := s.cellWords x.root x.dst (x.todo.getD j []) ++ s.readWords x j

/-- The first point that a transfer has left and that shares one of some words. -/
def State.nextPart (s : State) (x : Transfer) (part : List Nat) : Option Nat :=
  if part = [] then none else (List.range x.todo.length).find? fun j => (s.partWords x j).any part.contains

/-- A point that a transfer has left shares one of some words. -/
def State.wordsOpen (s : State) (x : Transfer) (part : List Nat) : Bool := (s.nextPart x part).isSome

/-- Two points of a transfer land in one cell. -/
def State.sameCell (s : State) (x : Transfer) (a b : List Int) : Bool :=
  match s.cellNow x.root x.dst a, s.cellNow x.root x.dst b with
  | some c, some d => c = d
  | _, _ => false

/-! ## Landing buffers (R419) -/

/-- The points that wait in memory cores' landing buffers. -/
def State.allParked (s : State) : List (List Int × Nat × Nat) :=
  s.cores.flatMap fun c =>
    (c.2.held.filterMap (·.xfer)).flatMap (·.parked)
      ++ [0, 1, 2, 3].flatMap fun q => (c.2.queue q).entries.flatMap fun e => match e.op with | .xfer x => x.parked | _ => []

/-- The bytes that wait in a memory core's landing buffer. -/
def bytesAt (ps : List (List Int × Nat × Nat)) (m : Nat) : Nat := ((ps.filter fun p => p.2.1 = m).map (·.2.2)).sum

/-- A point of a counted send whose page is absent, as the memory core that HOME names keeps it. -/
def State.parkedAs (s : State) (x : Transfer) (pt : List Int) : List Int × Nat × Nat :=
  match s.cellNow x.root x.dst pt, x.root with
  | some b, some r => (pt, (match walk s.mem r (ptrVa (x.dst.ptr b)) with | .absent h => h | _ => 0), b.len)
  | _, _ => (pt, 0, 0)

/-- Some points go to landing buffers, 256 KiB each; nothing where one is full, and the sender waits (R419, R426). -/
def State.parks (s : State) (x : Transfer) (pts : List (List Int)) : Option Transfer :=
  let new := (pts.filter fun p => !x.parked.any (·.1 = p)).map (s.parkedAs x)
  if new.all fun n => bytesAt s.allParked n.2.1 + bytesAt new n.2.1 ≤ 2 ^ 18 then some { x with parked := x.parked ++ new } else none

/-- The service of a point's page fails, or its home refuses it: the point and those after it are dropped, and those before it that wait for
their pages keep their turn (R420). -/
def Transfer.drop (x : Transfer) (j cause addr : Nat) : Transfer :=
  { x with todo := x.todo.take j, vals := x.vals.map (·.take j), dropped := x.todo.drop j ++ x.dropped,
           parked := x.parked.filter fun p => (x.todo.take j).contains p.1, failed := some (cause, addr) }

/-- A transfer without its point j. -/
def Transfer.without (x : Transfer) (j : Nat) : Transfer :=
  { x with todo := x.todo.eraseIdx j, vals := x.vals.map fun v => v.eraseIdx j, parked := x.parked.filter fun p => some p.1 ≠ x.todo[j]? }

/-! ## Ends -/

/-- The journal entry of a finished operation returns to FREE (R402). -/
def State.closeEntry (s : State) (core : Nat) (j : Option Nat) : State :=
  match j with
  | some n => s.setJrnState core n 0
  | none => s

/-- The PC that a journal entry keeps. -/
def State.jrnPc (s : State) (core : Nat) (j : Option Nat) : Nat :=
  match j with
  | some n => readNat s.mem (locLocal core (jrnOff n)) 8
  | none => 0

/-- A transfer's landing at a watched range, for the receiving core's report (R384, R385): the instruction's address, and the source core with the
entry's number. -/
def landingData (pc : Word) (cid id : Nat) : Word × Word := (pc, word (coreNo cid + id * 2 ^ 32))

/-- The end of a transfer adds to its count word (R257). -/
def Transfer.counts (x : Transfer) : Bool := x.count ≠ 0 && x.landed ≠ 0 && spaceCode x.dst.base = 3

/-- The last landing of a transfer may advance its ring and add to its count word at its destination: not in that core's compute phase, except its
own (R254, R257, R406). -/
def State.mayFinish (s : State) (cid : Nat) (x : Transfer) : Bool :=
  let dest := bits x.dst.base 36 12
  let own := isCompute cid && coreNo cid = dest
  (!x.counts && (x.adv.isNone || spaceCode x.dst.base ≠ 3)) || (s.mayReceive cid dest && (!x.counts || s.mayLand own dest 8))

/-- A transfer touched the landing range of the core that receives it, with its data or with the addition to its count word (R385). -/
def State.landingSeen (s : State) (x : Transfer) : Bool :=
  x.watch || (x.counts && (s.core (bits x.dst.base 36 12)).landingMeets x.count 8)

/-- What the last landing of a transfer does at its destination: its ring and its count word, and its journal entry (R98, R255, R257, R402). -/
def State.landedAll (s : State) (cid : Nat) (jrn : Option Nat) (x : Transfer) : State :=
  let dest := bits x.dst.base 36 12
  let isLocal := spaceCode x.dst.base = 3
  let own := isCompute cid && coreNo cid = dest
  let s1 := match x.adv with
    | some a => if isLocal then s.landOrSpill own dest (.ring a.1 a.2) else s
    | none => s
  let s2 := if x.counts then
      s1.landOrSpill own dest (.msg { tag := x.tag, off := x.count, len := 8, lo := 0, wid := 64, val := 0, count := x.landed }) else s1
  s2.closeEntry (coreNo cid) jrn

/-- A transfer leaves the outstanding-transfer table (R117). -/
def State.leaveTable (s : State) (core q id : Nat) : State :=
  let c := s.core core
  s.setCore core { c with outst := c.outst.filter fun e => !(e.queue = q && e.entry = id) }

/-- A transfer is refused: what has landed stays, nothing else lands, and XMMA's MMA completes without effect (R159, R418). A
program that MCRUN started ends (R398). -/
def State.refuseTransfer (s : State) (core q : Nat) (e : QEntry) (x : Transfer) (cause addr : Nat) : State :=
  let s1 := (s.leaveTable core q e.id).completeEntry core q e.id
  let s2 := match x.mma with | some m => s1.completeEntry core 1 m | none => s1
  match e.jrn with
  | some j => s2.refusePost (coreNo e.ctx) j cause x.landed addr 0
  | none => if isMemCore e.ctx then s2.endProgram e.ctx (some cause) 0 else s2

/-- A transfer completes (R254 to R256). -/
def State.completeTransfer (s : State) (core q : Nat) (e : QEntry) (x : Transfer) : State :=
  let dest := bits x.dst.base 36 12
  let own := isCompute e.ctx && coreNo e.ctx = dest
  let d := landingData e.pc e.ctx e.id
  let s0 := s.landedAll e.ctx e.jrn x
  let s1 := ((if s.landingSeen x then s0.landOrSpill own dest (.report d.1 d.2) else s0).leaveTable core q e.id).completeEntry core q e.id
  match x.mma with
  | none => s1
  | some m =>
    let c := s1.core core
    match c.entry 1 m with
    | some y => match y.op with
      | .mma op => s1.setCore core (c.setEntry 1 { y with op := .mma { op with ready := true } })
      | _ => s1
    | none => s1

/-- Remembers what a queue's entry landed in shared or global memory, for the marks (R97). -/
def State.noteLanded (s : State) (core q cid : Nat) (ls : List Nat) : State :=
  let c := s.core core
  let x := c.queue q
  s.setCore core (c.setQueue q { x with landed := x.landed ++ ls.map fun l => (l, cid) })

/-- A queued transfer stays in its queue with the points that it has left. -/
def State.stay (core q : Nat) (e : QEntry) (x : State × Transfer) : State :=
  x.1.setCore core ((x.1.core core).setEntry q { e with op := .xfer x.2, performed := true })

/-- The bytes of a point that goes to a landing buffer go with it (R419). -/
def State.keepVal (s : State) (x : Transfer) (j : Nat) : Transfer :=
  let v := match s.cellNow x.root x.src (x.todo.getD j []) with
    | some c => match s.sourceValue x.root x.src c with | .inr v => some v | .inl _ => none
    | none => none
  if (x.valAt j).isSome then x else { x with vals := some ((x.vals.getD (x.todo.map fun _ => none)).set j v) }

/-- A counted send whose point finds its page absent leaves it to a landing buffer, and lands those that follow (R419). -/
def Transfer.overtakes (x : Transfer) : Bool := x.kind = .cnt && spaceCode x.dst.base ≠ 3

/-- A point before j of a transfer that waits for its page names the cell of point j (R116, R419). -/
def State.cellWaits (s : State) (x : Transfer) (j : Nat) : Bool := (x.todo.take j).any fun p => s.sameCell x p (x.todo.getD j [])

/-- The last point of a queued transfer has gone: it completes, or the refusal that waited for the points before it follows (R420). The ring of
a transfer with an advance passes no slot whose data an earlier transfer of its queue has still to land (R98, R255; DEDUCED, log 56). -/
def State.endQueued (s : State) (core q : Nat) (e : QEntry) (x : Transfer) : State :=
  let into (y : QEntry) : Bool := match y.op with
    | .xfer z => spaceCode z.dst.base = 3 && bits z.dst.base 36 12 = bits x.dst.base 36 12
    | _ => false
  match x.failed with
  | some c => s.refuseTransfer core q e x c.1 c.2
  | none =>
    if !s.mayFinish e.ctx x || (x.adv.isSome && ((s.core core).ahead q e.id).any into) then State.stay core q e (s, x)
    else s.completeTransfer core q e x

/-- A queued transfer is refused at its point j: at once, or when the points before it that wait for their pages have gone (R418, R420). -/
def State.refuseAt (s : State) (core q : Nat) (e : QEntry) (x : Transfer) (j cause addr : Nat) : State :=
  if j = 0 then s.refuseTransfer core q e x cause addr else State.stay core q e (s, x.drop j cause addr)

/-- Lands the next points of a queued transfer from its point `j` on, those before it waiting for their pages (R419): `n` of them and those that
share an aligned word of local memory with them (R99), or, where one of them has to wait, those before the last such word. The state after
them, or that in which the transfer completes, is refused or has nowhere to go. `fail` says that the service of an absent page fails, where it may (R414, R465);
`part` holds the words that are open, and `safe` the last state in which none was. -/
def State.moveTransfer (core q : Nat) (e : QEntry) (fail : Bool) : Nat → Nat → Nat → List Nat → State × Transfer → State → Transfer → Sum Fault State
  | 0, _, _, _, safe, _, _ => .inr (State.stay core q e safe)
  | k + 1, n, j, part, safe, s, x =>
    let cut := s.wordsOpen x part
    let safe1 := if cut then safe else (s, x)
    if n = 0 && !cut then .inr (State.stay core q e safe1)
    else match x.todo[j]? with
      | none => .inr (if x.todo = [] then s.endQueued core q e x else State.stay core q e (s, x))
      | some pt =>
        let wait (f : Bool) (p : Nat) : Sum Fault State :=
          if f && s.mayRefuse x.root (ptrVa p) then .inr (s.refuseAt core q e x j 0x06 p)
          else if x.overtakes then
            match s.parks x (x.todo.take (j + 1)) with
            | some y => State.moveTransfer core q e fail k (n - 1) (j + 1) ((if cut then part else []) ++ s.readWords x j) safe1 s (s.keepVal y j)
            | none => .inr (State.stay core q e safe1)
          else .inr (State.stay core q e safe1)
        if s.cellWaits x j then wait false 0
        else match s.landPoint e.ctx x pt (x.valAt j) with
        | .landed s1 ls =>
          let y := { x.without j with landed := x.landed + 1, watch := x.watch || s.landingWatched x pt }
          State.moveTransfer core q e fail k (n - 1) j ((if cut then part else []) ++ s.partWords x j) safe1 (s1.noteLanded core q e.ctx ls) y
        | .skipped s1 => State.moveTransfer core q e fail k (n - 1) j part safe1 s1 (x.without j)
        | .refused c a => .inr (s.refuseAt core q e x j c a)
        | .absent p => wait fail p
        | .busy => .inr (State.stay core q e safe1)
        | .hole => .inl .noSuchMemory

/-- Moves at least `n` points of a queued transfer, or its end where n passes them all. -/
def State.moveSome (s : State) (core q : Nat) (e : QEntry) (fail : Bool) (n : Nat) (x : Transfer) : Sum Fault State :=
  State.moveTransfer core q e fail (x.todo.length + 1) n 0 [] (s, x) s x

/-- The transfer that a queue of a core holds under a number, where its engine may move it (R95, R254). -/
def State.movable (s : State) (core q id : Nat) : Option (QEntry × Transfer) :=
  match (s.core core).entry q id with
  | none => none
  | some e => match e.op with
    | .xfer x => if e.performed || s.mayPerform core q e then some (e, x) else none
    | _ => none

end Sys2Proof.Machine
end

