-- ==== Sys2Proof/Machine/Queues.lean ====
section
/-! DEFINITION. Timed slots, marks, fences and waits, binding, protection, acquire and publish, and programs on memory cores
(R258 to R268, R96, R97). -/

namespace Sys2Proof.Machine

/-! ## Timed slots -/

/-- [x, x + n) lies in the program area (R69). -/
def inProgram (x n : Nat) : Bool := 0x1000 ≤ x && x + n ≤ 0x20000

/-- The first condition of R258 that fails. -/
def State.slotFault (s : State) (n len : Nat) : Option Nat :=
  let c := s.myCore
  if !s.inCompute s.cur then some 1
  else match c.rows[n]? with
    | none => some 2
    | some r => if c.used.contains (c.bdom, n) then some 3 else if len % 4 ≠ 0 || r.len < len then some 4 else none

/-- XSTS (R258); one of no bytes uses its slot and holds nothing. -/
def execXsts (h : Hdr) (o : Ops) (x : Ext) (s : State) : Out :=
  issueX .xsts h o (fun s =>
    let n := bits x.imm 0 8
    let src := (s.arg o.a).toNat
    let len := (s.arg o.c).toNat
    let dst := (s.me.sreg o.d).toNat
    match s.slotFault n len with
    | some k => .trap s 0x10 (word (n + 256 * k))
    | none =>
      if len ≠ 0 && !inProgram src len then .trap s 0x07 (word src)
      else if len ≠ 0 && !inProgram dst len then .trap s 0x07 (word dst)
      else
        let c := s.myCore
        let t : TimedSend := { pc := s.me.pc, slot := n, dest := ((c.rows[n]?).map (·.dest)).getD 0, src := src, dst := dst, len := len, data := none }
        let y : HeldSend := { id := c.nextId, ctx := s.cur, launch := c.launch.getD 0, dom := c.bdom, jrn := none, xfer := none, slot := some t, num := s.me.ops + 1 }
        .retire ((s.setMyCore { c with held := if len = 0 then c.held else c.held ++ [y], used := (c.bdom, n) :: c.used, nextId := c.nextId + 1 }).nextOp s.cur)) s

/-! ## Marks, fences and waits -/

/-- QMARK (R259). A completion mark is a release point, which the context's journal entries hold as it issues (R86, R403). -/
def execQmark (h : Hdr) (o : Ops) (s : State) : Out :=
  issueX .qmark h o (fun s =>
    if isCompute s.cur && s.journalHolds s.cur then .stall s
    else
      let q := o.fn / 8
      let m := (s.myCore.queue q).marks
      let m' := (m + 1) % 2 ^ 32
      let s1 := (s.enqueue q (.mark m' (o.fn % 8) none) none).1
      let c := s1.myCore
      .retire ((s1.setMyCore (c.setQueue q { c.queue q with marks := m' })).setS o.d (word (q + 4 * m')))) s

/-- WAITQ (R260). -/
def execWaitq (h : Hdr) (o : Ops) (s : State) : Out :=
  issueX .waitq h o (fun s =>
    let w := (s.arg o.a).toNat
    let x := s.myCore.queue (w % 4)
    let m := bits w 2 32
    if bits w 34 30 ≠ 0 then .trap s 0x07 0
    else if 2 ^ 31 ≤ (x.marks + 2 ^ 32 - m) % 2 ^ 32 then .retire (s.setS o.d 1)
    else if x.entries.any fun e => match e.op with | .mark k _ _ => k = m | _ => false then .stall s
    else .retire (s.setS o.d 0)) s

/-- QFENCE (R96, R261): a fence in each named queue, which waits for what those queues hold. -/
def execQfence (h : Hdr) (o : Ops) (s : State) : Out :=
  issueX .qfence h o (fun s =>
    let qs := [0, 1, 2, 3].filter (bitOf o.k)
    let after : List (Nat × Nat) := qs.flatMap fun q =>
      ((s.myCore.queue q).entries.filter fun e => !e.op.isFence).map fun e => (q, e.id)
    .retire (if after = [] then s else qs.foldl (fun t q => (t.enqueue q (.fence after) none).1) s)) s

/-- Two boxes share a point of their span. Of boxes of different ranks the dimensions that both have are compared (DESIGN CHOICE, log 76). -/
def boxesMeet (a b : Box) : Bool := a ≠ [] && b ≠ [] && (a.zip b).all fun x => max x.1.1 x.2.1 < min x.1.2 x.2.2

/-- A transfer that WAITG waits for is outstanding: one with the operand's BASE whose hull meets the operand's (R117). The rule gives the hull test
and says that it misses no transfer into the operand; one whose coordinates differ by EXT under WRAP, or by another ORIGIN, lands in the operand's
cells under a hull that does not meet, and the model keeps to the test (DESIGN CHOICE, log 70). -/
def State.landingInto (s : State) (r : Tsr) (g : Region) : Bool :=
  let hull : Box := (hullBox g.lattice g.boxes).getD []
  s.myCore.outst.any fun e => e.base = r.base && boxesMeet e.hull hull

/-- WAITG (R117, R262). -/
def execWaitg (h : Hdr) (o : Ops) (s : State) : Out :=
  issueX .waitg h o (fun s =>
    let g := s.region s.cur o.a.num
    match s.tsr s.cur g.tsr with
    | none => .retire s
    | some r =>
      if g.isEmpty then .retire s
      else if s.landingInto r g then .stall s
      else .retire ((s.markCells s.cur r g).acquireCells s.cur (s.cellLocs s.cur r g))) s

/-- A completion mark may begin its release: its context's earlier releases and posted atomics have performed (R86, R93). -/
def State.markMay (s : State) (e : QEntry) : Bool :=
  s.releasedBefore e.ctx e.num && !(s.posts.any fun x => x.cid = e.ctx && x.req.isSome && !x.arrived && x.num < e.num)

/-- QMARK_COMPLETION: the mark at the head of a queue sends its flush markers, if any, and once they are acknowledged it completes and
publishes what the entries before it landed (R86, R93, R97, R101). -/
def execQmarkCompletion (core q : Nat) (s : State) : Out :=
  let x := (s.core core).queue q
  match x.entries with
  | e :: _ => match e.op with
    | .mark m scope dests =>
      if !s.markMay e then .next s
      else match dests.getD (s.releaseDests e.ctx scope) with
        | [] =>
          let s1 := ((s.publishLanded scope x.landed).completeEntry core q e.id).emptyDests e.ctx scope
          let c := s1.core core
          .next (if scope ≤ 1 then s1.setCore core (c.setQueue q { c.queue q with landed := [] }) else s1)
        | ds => .next (s.setCore core ((s.core core).setEntry q { e with op := .mark m scope (some ds) }))
    | _ => .next s
  | [] => .next s

/-! ## Binding -/

def State.setTsr (s : State) (n : Nat) (r : Option Tsr) : State :=
  let c := s.file s.cur
  s.setFile s.cur { c with t := match r with | some x => tins c.t n x | none => tdel c.t n }

/-- A context of a compute core that is no control context. -/
def isHelper (cid : Nat) : Bool := isCompute cid && ctxNo cid ≠ 0

/-- TBIND (R106, R263): the record through the view, its checks, the register. A global record's answer comes from its home. HELPER_BUSY comes
last, after the record's own checks (R397). -/
def tbindBody (o : Ops) (s : State) : Act :=
  let p := (s.arg o.a).toNat
  let pc := s.me.pc
  let bind (bs : List Byte) (l : Nat) (wait : Bool) (s : State) : Act :=
    let r := Tsr.ofNat (ofBytes bs)
    if s.poisoned l 64 then .trap s 0x19 (word p)
    else match r.fault with
      | some n => .trap s 0x0B (word n)
      | none =>
        if isHelper s.cur then .trap s 0x16 0
        else if wait then .stall (s.setMe { s.me with wait := .bind o.d r p l })
        else (s.setTsr o.d (some r)).watched pc p 64 true false
  match s.access s.cur p 64 .load with
  | .cause n v => .trap s n v
  | .wait va => .stall (s.setMe { s.me with wait := .walk va false })
  | .unserved => .trap s 0x06 (word p)
  | .stop f => .stop f
  | .loc off => bind (s.readLocal (coreNo s.cur) off 64) (locLocal (coreNo s.cur) off) false s
  | .shared l => bind (s.me.seeBytes l 64) l false s
  | .weight l => if s.refreshing l then .stall s else bind (readBytes s.mem l 64) l false s
  | .global l e => bind (s.me.seeBytes l 64) l true (s.touchTlb s.cur e)

/-- TBIND (R263). -/
def execTbind (h : Hdr) (o : Ops) (s : State) : Out := issueX .tbind h o (tbindBody o) s

/-- TUNB (R263). -/
def execTunb (h : Hdr) (o : Ops) (s : State) : Out :=
  issueX .tunb h o (fun s => if isHelper s.cur then .trap s 0x16 0 else .retire (s.setTsr o.d none)) s

/-! ## Protection -/

/-- The lowest free entry of the grant table. -/
def freeGrant (g : Tab Grant) : Nat → Nat → Option Nat
  | 0, _ => none
  | n + 1, i => if (tfind g i).isNone then some i else freeGrant g n (i + 1)

/-- GRNT (R264). -/
def execGrnt (h : Hdr) (o : Ops) (x : Ext) (s : State) : Out :=
  issueX .grnt h o (fun s =>
    s.bound x.t1 fun t =>
      let g := s.region s.cur o.a.num
      let b := (s.arg o.b).toNat
      if t.pd ≠ (s.myLaunch s.cur).pd then .trap s 0x07 0
      else if g.inx then .trap s 0x0E (word o.a.num)
      else match freeGrant s.grants 1024 0 with
        | none => .retire (s.setS o.d (BitVec.allOnes 64))
        | some i =>
          let dom := o.mx % 2 = 1
          let y : Grant := { launch := ((s.file s.cur).launch).getD 0, base := t.base, region := { g with boxes := g.canonical },
                             dom := dom, target := if dom then b else bits b 0 16, write := 2 ≤ o.mx }
          .retire ({ s with grants := tins s.grants i y }.setS o.d (word i))) s

/-- GREV (R265): the result is rounded INNER to 16 boxes, and an EMPTY one frees the entry. -/
def execGrev (h : Hdr) (o : Ops) (x : Ext) (s : State) : Out :=
  issueX .grev h o (fun s =>
    let g := s.region s.cur o.a.num
    let i := (s.arg o.b).toNat
    let _ := x
    if g.inx then .trap s 0x0E (word o.a.num)
    else match tfind s.grants i with
      | none => .retire (s.setS o.d 1)
      | some y =>
        if y.launch ≠ ((s.file s.cur).launch).getD 0 then .retire (s.setS o.d 1)
        else match regionBinary .gsub y.region g with
          | .inl v => regionTrap s v
          | .inr r =>
            let bs := ((roundBoxes r.1 16 .inner r.2).map (·.1)).getD []
            let y' : Grant := { y with region := { y.region with lat := latExps r.1, boxes := bs, canon := true } }
            .retire ({ s with grants := if bs = [] then tdel s.grants i else tins s.grants i y' }.setS o.d 0)) s

/-! ## Acquire and publish -/

/-- The bytes of the cells that ACQ and PUB act on (R119, R266): nothing for an EMPTY region, nor over a local or weight record. -/
def State.regionCells (s : State) (n : Nat) (body : List (Nat × Nat) → State → Act) : Act :=
  let g := s.region s.cur n
  if g.isEmpty then .retire s
  else s.bound g.tsr fun r =>
    if spaceCode r.base = 3 || spaceCode r.base = 5 then .retire s else body (s.cellLocs s.cur r g) (s.markCells s.cur r g)

/-- ACQ (R85, R266). -/
def execAcq (h : Hdr) (o : Ops) (x : Ext) (s : State) : Out :=
  issueX .acq h o (fun s => let _ := x; s.regionCells o.a.num fun ls t => .retire (t.acquireCells t.cur ls)) s

/-- Two bytes that a context stores are of one access, and in one aligned dword, which is performed whole (R89). -/
def OwnByte.together (x y : OwnByte) : Bool := x.acc = y.acc && x.loc / 8 = y.loc / 8

/-- The stores of a context that a PUB over some locations takes: those of which a byte lies there, each whole in its aligned dword (R89;
DEDUCED, log 45). -/
def Ctx.takenBy (c : Ctx) (cells : List Nat) (num : Nat) : List OwnByte :=
  let open_ (b : OwnByte) : Bool := !b.pub && b.rel = 0
  let met := c.own.filter fun b => open_ b && cells.contains b.loc
  c.own.map fun b => if open_ b && met.any b.together then { b with rel := num } else b

/-- PUB (R86, R266): the release point does not wait. It takes the context's stores to its cells, those that lie there in part whole
(R89; DEDUCED, log 45); one that needs markers, or that follows one that is not yet performed, performs later, before the context's later
releases. -/
def pubBody (o : Ops) (s : State) : Act :=
  s.regionCells o.a.num fun ls s =>
    if !s.mayIssueRelease s.cur then .stall s
    else
      let s1 := s.sendRetirements s.cur
      let c := s1.me
      let cells := ls.map (·.1)
      .retire ((s1.setMe { c with pubs := c.pubs ++ [{ num := c.ops, scope := o.fn, cells := cells, dests := none }],
                                  own := c.takenBy cells c.ops }).pubCheck s1.cur)

/-- PUB (R266). -/
def execPub (h : Hdr) (o : Ops) (x : Ext) (s : State) : Out := issueX .pub h o (fun s => let _ := x; pubBody o s) s

/-! ## Programs on memory cores -/

/-- MCRUN (R267). -/
def execMcrun (h : Hdr) (o : Ops) (s : State) : Out :=
  issueX .mcrun h o (fun s =>
    let p := (s.arg o.c).toNat
    if spaceCode p = 0 then .trap s 0x09 (word p)
    else if spaceCode p ≠ 1 then .trap s 0x07 (word p)
    else match s.openEntry 3 p with
      | none => .stall s
      | some (j, s1) => .retire (s1.enqueue 0 (.mcrun (s.arg o.a) (s.arg o.b) p) j).1) s

/-- The context's stores over its snapshot, as one view (R43, R84). -/
def Ctx.wholeView (c : Ctx) : Tab Byte := c.own.reverse.foldl (fun v o => writeByte v o.loc o.val) c.view

/-- Starts a context of the launch's address space: USER mode after reset, at an address, with a view (R43, R267). -/
def Ctx.start (pc : Word) (view : Tab Byte) (regs : List (Nat × Word)) : Ctx :=
  { Ctx.init statReset with pc := pc, life := .live, view := view, s := regs.foldl (fun t r => tput 0 t r.1 r.2) [] }

/-- MCRUN_PROGRAM_START: context `j` of the memory core that owns the line starts the program that a core's qc holds (R267, R268).
A page whose service fails refuses the entry (R414). -/
def execMcrunProgramStart (core id j : Nat) (fail : Bool) (s : State) : Out :=
  match (s.core core).entry 0 id with
  | none => .next s
  | some e =>
    match e.op with
    | .mcrun code arg line =>
      if !s.mayPerform core 0 e then .next s
      else
        let refuse (n : Nat) : Out :=
          let s1 := s.completeEntry core 0 id
          .next (match e.jrn with
            | some k => s1.refusePost (coreNo e.ctx) k n 0 line 0
            | none => if isMemCore e.ctx then s1.endProgram e.ctx (some n) 0 else s1)
        match s.home e.ctx line false with
        | .refuse n => refuse n
        | .absent va => if fail && s.mayRefuse (s.space e.ctx) va then refuse 0x06 else .next s
        | .hole => .fault .noSuchMemory
        | .at_ l _ =>
          let cid := 0x10000 + 16 * ownerOf l + j % 8
          if (s.ctx cid).life ≠ .free then .next s
          else
            let c := s.ctx e.ctx
            let f := s.file e.ctx
            let regs : List (Nat × Word) := [(1, arg), (2, word (coreNo e.ctx)), (3, word (ctxNo e.ctx))]
            let s1 := (s.markHomes (s.space e.ctx) line 1).setCtx cid { Ctx.start code c.wholeView regs with starter := some (core, id) }
            let s2 := (s1.setFile cid { s1.file cid with launch := f.launch, root := f.root, t := [], g := [] }).addDest e.ctx (.memCore (ownerOf l))
            .next (s2.setCore core ((s2.core core).setEntry 0 { e with performed := true }))
    | _ => .next s

end Sys2Proof.Machine
end

