-- ==== Sys2Proof/Machine/Matrix.lean ====
section
/-! DEFINITION. The matrix class (R329 to R343): rings, keys, MMA, drains, and what qm, the setter and the array do with them
(R144 to R159, R441, R442). -/

namespace Sys2Proof.Machine

/-! ## Rings (R332, R333) -/

/-- The configuration that MRING and a ring entry write; none where R332 refuses it. -/
def ringOfWord (w : Nat) : Option Ring :=
  let count := bits w 32 8
  let slotsz := bits w 26 6
  let base := bits w 17 9
  let sbase := bits w 6 11
  let scl := bitOf w 0
  if bits w 40 24 ≠ 0 || bits w 1 5 ≠ 0 then none
  else if count ≠ 0 && (slotsz = 0 || !inProgram (base * 256) (count * slotsz * 256) || (scl && !inProgram (sbase * 64) (count * 64))) then none
  else some { tail := 0, head := 0, occ := 0, count := count, slotsz := slotsz, base := base, sbase := sbase, scl := scl }

/-- A ring's state in the layout of R146. -/
def Ring.toWord (r : Ring) : Nat :=
  packBits [(1, r.scl.toNat), (5, 0), (11, r.sbase), (9, r.base), (6, r.slotsz), (8, r.count), (8, r.occ), (8, r.head), (8, r.tail)]

/-- An MMA that has not retired names the ring, or a transfer that has not completed advances it (R332). -/
def State.ringBusy (s : State) (core n : Nat) : Bool :=
  let adv (x : Transfer) : Bool := x.adv.map (·.1) = some n && spaceCode x.dst.base = 3 && bits x.dst.base 36 12 = core
  let ent (e : QEntry) : Bool := match e.op with | .xfer x => adv x | _ => false
  let mma (e : QEntry) : Bool := match e.op with | .mma m => m.ring = n | _ => false
  ((s.core core).queue 1).entries.any mma
    || s.cores.any fun c => [0, 3].any (fun q => (c.2.queue q).entries.any ent) || c.2.held.any fun h => h.xfer.any adv

/-- MRING (R332). -/
def execMring (h : Hdr) (o : Ops) (s : State) : Out :=
  issueX .mring h o (fun s =>
    let c := s.myCore
    match ringOfWord (s.arg o.a).toNat with
    | none => .trap s 0x07 0
    | some r =>
      if (c.ring o.d).occ ≠ 0 || s.ringBusy (coreNo s.cur) o.d then .trap s 0x0F ((c.ring o.d).val o.d)
      else .retire (s.setMyCore (c.setRing o.d r))) s

/-- MRING.rd (R332). -/
def execMringRd (h : Hdr) (o : Ops) (s : State) : Out :=
  issueX .mringRd h o (fun s => .retire (s.setS o.d (word (s.myCore.ring o.a.num).toWord))) s

/-- MRADV (R333): local stores are performed as they retire (R88), so there is none to wait for. -/
def execMradv (h : Hdr) (o : Ops) (s : State) : Out :=
  issueX .mradv h o (fun s =>
    let c := s.myCore
    let r := c.ring o.d
    let n := (s.arg o.a).toNat
    if r.count = 0 || 255 < n then .trap s 0x07 0
    else if n = 0 then .retire s
    else match r.advance n with
      | none => .trap s 0x0F (r.val o.d)
      | some r' => .retire (s.setMyCore (c.setRing o.d r'))) s

/-! ## Keys (R334) -/

/-- The coordinates of a tensor. -/
def Tsr.coords (r : Tsr) : List (List Int) :=
  boxPts (unitLat r.rank) ((List.range r.rank).map fun d => (r.origin.getD d 0, r.origin.getD d 0 + r.ext.getD d 0))

/-- A read grant covers the cells of a tile, where the record's PD is not the launch's (R118, R334). -/
def State.tileGranted (s : State) (cid : Nat) (r : Tsr) (p n : Nat) : Bool :=
  r.pd = (s.myLaunch cid).pd || r.coords.all fun x =>
    match s.homeCell cid r x with
    | .inr (some c) => r.ptr c + c.len ≤ p || p + n ≤ r.ptr c || s.granted cid r x false
    | _ => true

/-- MLDW (R334): R69, which is step 4 of R67, comes before the alignment. -/
def execMldw (h : Hdr) (o : Ops) (x : Ext) (s : State) : Out :=
  issueX .mldw h o (fun s =>
    s.bound x.t1 fun t =>
      let p := (s.arg o.a).toNat
      if t.fmt ≠ o.t then .trap s 0x0B 18
      else match badPtr s.cur p with
        | some n => .trap s n (word p)
        | none =>
          if spaceCode p ≠ 3 && spaceCode p ≠ 5 then .trap s 0x07 (word p)
          else if spaceCode p = 3 && (localCellCause s.me.mode false p (min (tileBytes o.t) (2 ^ 17 - ptrOffset p))).isSome then .trap s 0x07 (word p)
          else if p % 64 ≠ 0 then .trap s 0x0A (word p)
          else if !s.tileGranted s.cur t p (tileBytes o.t) then .trap s 0x07 (word p)
          else
            let k : WKey := { ptr := p, fmt := o.t, scale := x.imm, scm := o.mx, rnd := .rne, pd := if t.shareable then none else some t.pd }
            .retire (s.setMyCore { s.myCore with key := some k, keyTsr := some t })) s

/-! ## MMA (R335 to R337) -/

/-- The K-tiles that a region covers, among the first `n` (R120, R337). -/
def sparseSteps (g : Region) (n : Nat) : List Nat :=
  let sp := g.lattice.getD 0 (1, 0)
  (List.range n).filter fun t =>
    g.canonical.any fun b =>
      let i := b.getD 0 (0, 0)
      i.1 ≤ (t : Int) && (t : Int) < i.2 && ((t : Int) - sp.2) % sp.1 = 0

/-- MMA (R336, R337). -/
def execMma (h : Hdr) (o : Ops) (x : Ext) (s : State) : Out :=
  issueX .mma h o (fun s =>
    match s.mmaKey o with
    | none => .trap s 0x07 0
    | some key =>
      let n := bits x.imm 21 8 + 1
      if s.mmaAccess (coreNo s.cur) key o.a.num o.d (bits x.imm 0 8) n o.t then .trap s 0x07 0
      else
        let steps := if o.mx % 2 = 1 then sparseSteps (s.region s.cur x.g2) n else List.range n
        .retire (s.enqueue 1 (.mma (mmaOp o s.me.task x.imm o.a.num o.d (2 ≤ o.mx) key s.myCore.keyTsr steps true)) none).1) s

/-! ## Draining and keeping slots (R338 to R343) -/

/-- The checks of R339 and R341 for a pointer to a buffer of the core's own local memory, with its length. -/
def State.bufferCause (s : State) (p al n : Nat) : Option Nat :=
  match badPtr s.cur p with
  | some c => some c
  | none => if p % al ≠ 0 then some 0x0A else if spaceCode p ≠ 3 || !inProgram (ptrOffset p) n then some 0x07 else none

/-- MDRN (R339): sA by itself, then sC, then the rows. -/
def execMdrn (h : Hdr) (o : Ops) (s : State) : Out :=
  issueX .mdrn h o (fun s =>
    let p := (s.arg o.a).toNat
    let c := (s.arg o.c).toNat
    let rb := rowBytes o.t
    let rows := 16 * (s.amap (coreNo s.cur) o.b.num).len
    let pitch := if c = 0 then rb else c
    match s.bufferCause p 4 1 with
    | some n => .trap s n (word p)
    | none =>
      if c ≠ 0 && (c % 4 ≠ 0 || c < rb) then .trap s 0x07 0
      else if !inProgram (ptrOffset p) ((rows - 1) * pitch + rb) then .trap s 0x07 (word p)
      else .retire (s.enqueue 1 (.drain (ptrOffset p) o.b.num pitch o.t o.rm o.sat (2 ≤ o.mx) []) none).1) s

/-- MZRO (R340). -/
def execMzro (h : Hdr) (o : Ops) (s : State) : Out := issueX .mzro h o (fun s => .retire (s.enqueue 1 (.zero o.d) none).1) s

/-- MSWP (R341). -/
def execMswp (h : Hdr) (o : Ops) (s : State) : Out :=
  issueX .mswp h o (fun s =>
    let p := (s.arg o.a).toNat
    match s.bufferCause p 64 (8200 * (s.amap (coreNo s.cur) o.d).len) with
    | some n => .trap s n (word p)
    | none => .retire (s.enqueue 1 (.swap (ptrOffset p) o.d) none).1) s

/-- The engine slots of an accumulator register of the core. -/
def State.engSlots (s : State) (core acc : Nat) : List Nat := (List.range (s.amap core acc).len).map ((s.amap core acc).slot + ·)

/-- MFLG and MFLG.clr (R342). -/
def execMflg (h : Hdr) (o : Ops) (s : State) : Out :=
  issueX .mflg h o (fun s =>
    let x := s.cluster (clusterNo s.cur)
    let ss := s.engSlots (coreNo s.cur) o.a.num
    let w := packBits (ss.map fun n => (4, tget 0 x.flags n))
    let s1 := if o.mx = 1 then s.setCluster (clusterNo s.cur) { x with flags := ss.foldl (fun f n => tput 0 f n 0) x.flags } else s
    .retire (s1.setS o.d (word w))) s

/-- MHOLD.fire (R343). -/
def execMholdFire (h : Hdr) (o : Ops) (s : State) : Out := issueX .mholdFire h o (fun s => .retire (s.enqueue 1 .holdFire none).1) s
/-- MHOLD.set (R343). -/
def execMholdSet (h : Hdr) (o : Ops) (s : State) : Out :=
  issueX .mholdSet h o (fun s => .retire (s.enqueue 1 (.holdSet (min (s.arg o.a).toNat 1023)) none).1) s

end Sys2Proof.Machine
end

