-- ==== Sys2Proof/Machine/Setter.lean ====
section
/-! DEFINITION. The matrix engine of a cluster: accumulator slots, the setter, groups and tiles, the vector path, and the entries
of qm (R144, R147 to R158, R338 to R343, R441, R442). -/

namespace Sys2Proof.Machine

/-! ## Accumulator slots (R149) -/

/-- Row r of an engine slot: its 128 elements. -/
def slotRow (x : BitVec 65536) (r : Nat) : List Nat := lanesOf 32 128 (x.toNat / 2 ^ (4096 * r))

/-- An engine slot with row r replaced. -/
def setSlotRow (x : BitVec 65536) (r : Nat) (vs : List Nat) : BitVec 65536 :=
  BitVec.ofNat 65536 (x.toNat - bits x.toNat (4096 * r) 4096 * 2 ^ (4096 * r) + ofLanes 32 vs * 2 ^ (4096 * r))

/-- A row of a slot holds a poisoned element (R427). -/
def Cluster.rowBad (x : Cluster) (slot r : Nat) : Bool := x.bad.any fun b => b.1 = slot && b.2 / 128 = r

/-! ## One step of one member (R133 to R137, R147, R149) -/

/-- The result of a step: the rows of the accumulator register with the flags that each sets, or the member's cause. -/
abbrev StepRows := Sum Nat (List (List Nat × NumFlags))

/-- The 128 rows of a tile from its bytes. -/
def tileRows (t : TCode) (bs : List Byte) : List (List Nat) :=
  (List.range 128).map fun k => packedElems t 128 ((bs.drop (k * rowBytes t)).take (rowBytes t))

/-- Row i of a step: read from its ring slot, with its scale, and accumulated. -/
def State.stepRow (s : State) (core : Nat) (m : MmaOp) (w : List (List Nat)) (i : Nat) : Sum Nat (List Nat × NumFlags) :=
  let r := (s.core core).ring m.ring
  let slot := (r.head + i / 16) % r.count
  let at' := r.base * 256 + slot * r.slotsz * 256 + i % 16 * rowBytes m.afmt
  let sc := r.sbase * 64 + 64 * slot + 4 * (i % 16)
  let es := (s.amap core m.acc).slot + i / 16
  let x := s.cluster (core / 8)
  if s.poisoned (locLocal core at') (rowBytes m.afmt) || (2 ≤ m.key.scm && s.poisoned (locLocal core sc) 4) || x.rowBad es (i % 16) then
    .inl 0x19
  else
    let a := packedElems m.afmt 128 (s.readLocal core at' (rowBytes m.afmt))
    let c := stepScale m.key.scm m.key.rnd (ofBytes (s.readLocal core sc 4)) m.key.scale
    .inr (rowStep m.afmt m.key.fmt m.key.rnd m.sat m.iacc c (slotRow (tget 0 x.slots es) (i % 16)) a w)

/-- All rows of a step, or the first cause. -/
def State.stepRows (s : State) (core : Nat) (m : MmaOp) (w : List (List Nat)) : Nat → StepRows
  | 0 => .inr []
  | n + 1 =>
    match s.stepRows core m w n, s.stepRow core m w n with
    | .inl c, _ => .inl c
    | _, .inl c => .inl c
    | .inr rs, .inr r => .inr (rs ++ [r])

/-- Writes the rows of a step to the accumulator register, and sets its slots' flags (R142, R149). -/
def State.writeRows (s : State) (core acc : Nat) (rows : List (List Nat × NumFlags)) : State :=
  let base := (s.amap core acc).slot
  let x := s.cluster (core / 8)
  s.setCluster (core / 8) (rows.zipIdx.foldl (fun y r =>
    let n := base + r.2 / 16
    { y with slots := tput 0 y.slots n (setSlotRow (tget 0 y.slots n) (r.2 % 16) r.1.1), flags := tput 0 y.flags n (slotFlags r.1.2 (tget 0 y.flags n)) }) x)

/-! ## The tile (R144) -/

/-- Where a tile lies. -/
def WKey.loc (k : WKey) : Nat :=
  if spaceCode k.ptr = 5 then locWeight (bits k.ptr 40 5) (ptrOffset k.ptr) else locLocal (bits k.ptr 36 12) (ptrOffset k.ptr)

/-- A bank that holds some of a tile is in its refresh window, and the tile's read waits (R75). -/
def State.tileBusy (s : State) (k : WKey) : Bool := spaceCode k.ptr = 5 && s.refreshingAny k.loc (tileBytes k.fmt)

/-- A tile's bytes as they lie in the weight store or in local memory, or SOFT_ERROR. -/
def State.tileNow (s : State) (k : WKey) : Sum Nat (List Byte) :=
  let n := tileBytes k.fmt
  if s.poisoned k.loc n then .inl 0x19
  else .inr (if spaceCode k.ptr = 5 then readBytes s.mem k.loc n else s.readLocal (bits k.ptr 36 12) (ptrOffset k.ptr) n)

/-- The MMA of a qm entry. -/
def Core.mmaAt (c : Core) (id : Nat) : Option MmaOp :=
  match c.entry 1 id with
  | some e => match e.op with | .mma m => some m | _ => none
  | none => none

/-! ## The setter (R151 to R155) -/

def SEntry.isHeld (e : SEntry) : Bool := e.life = .held
def SEntry.running (e : SEntry) : Bool := match e.life with | .running _ => true | _ => false
def SEntry.group (e : SEntry) : Option Nat := match e.life with | .held => none | .fired g => some g | .running g => some g

/-- R154: an earlier entry of the same core names the same accumulator register or the same ring; `vp` holds the core, register and
ring of each MMA on a vector path, which later entries follow in qm order (R158). -/
def ineligible (vp : List (Nat × Nat × Nat)) (es : List SEntry) (e : SEntry) : Bool :=
  ((es.takeWhile fun y => !(y.core = e.core && y.id = e.id && y.step = e.step)).any fun y => y.core = e.core && (y.acc = e.acc || y.ring = e.ring))
    || vp.any fun v => v.1 = e.core && (v.2.1 = e.acc || v.2.2 = e.ring)

/-- The core, accumulator register and ring of each MMA that runs on a vector path of the cluster (R158). -/
def State.vecSteps (s : State) (cl : Nat) : List (Nat × Nat × Nat) :=
  (List.range 8).flatMap fun i =>
    let c := s.core (8 * cl + i)
    match c.vpath.bind c.mmaAt with
    | some m => [(8 * cl + i, m.acc, m.ring)]
    | none => []

/-- The members of a firing: eligible HELD entries of the key in order of arrival, up to the first that passes 128 rows. -/
def takeMembers : Nat → List SEntry → List SEntry
  | _, [] => []
  | room, e :: es => if e.rows ≤ room then e :: takeMembers (room - e.rows) es else []

/-- An entry goes into a list in order of arrival cycle, after those of its own cycle. -/
def insertArrival (e : SEntry) : List SEntry → List SEntry
  | [] => [e]
  | y :: ys => if e.arrive < y.arrive then e :: y :: ys else y :: insertArrival e ys

/-- Entries in order of arrival (R153): an MMA that waited for a FREE entry keeps the cycle in which it arrived. -/
def byArrival (es : List SEntry) : List SEntry := es.foldl (fun r e => insertArrival e r) []

/-- Fires a key (R153): `first` is the priority-3 entry that is taken first, if one arrived. -/
def Cluster.fire (x : Cluster) (vp : List (Nat × Nat × Nat)) (k : WKey) (first : Option SEntry) : Cluster :=
  let ok := byArrival (x.setter.filter fun e => e.isHeld && e.key = k && !ineligible vp x.setter e)
  let order := match first with | some f => (ok.filter (· = f)) ++ ok.filter (· ≠ f) | none => ok
  let ms := takeMembers 128 order
  if ms = [] then x
  else
    let g : Group := { id := x.nextGroup, key := k, prio := (ms.map (·.prio)).foldl max 0 }
    ({ x with setter := x.setter.map (fun e => if ms.contains e then { e with life := .fired g.id } else e),
              groups := x.groups ++ [g], nextGroup := x.nextGroup + 1 })

/-- Events 1, 2 and 4 of R153 hold for a key. A deadline that has passed counts in every later cycle, whether or not its entry is
eligible (R155). -/
def Cluster.mustFire (x : Cluster) (now : Nat) (k : WKey) : Bool :=
  let held := x.setter.filter fun e => e.isHeld && e.key = k
  128 ≤ (held.map (·.rows)).sum || held.any (fun e => e.deadline ≤ now)
    || (x.running.isNone && x.preload.isNone && x.groups = [] && x.setter.all fun e => !e.isHeld || e.key = k)

/-- When an event of R153 came for a key for which one holds: at the earliest deadline that has passed, or now, and not before the setter last
changed, at `since`. -/
def Cluster.dueAt (x : Cluster) (since now : Nat) (k : WKey) : Nat :=
  max since ((x.setter.filter fun e => e.isHeld && e.key = k).foldl (fun m e => min m e.deadline) now)

/-- Fires every key for which an event of R153 holds, in the order in which the events came. Of two whose events came in one cycle, the key of the
oldest HELD entry fires first: the spec does not say which counts as the first (R155; DESIGN CHOICE, log 67). -/
def Cluster.settle (vp : List (Nat × Nat × Nat)) (since now : Nat) : Nat → Cluster → Cluster
  | 0, x => x
  | n + 1, x =>
    match leastBy (fun e => x.dueAt since now e.key) (x.setter.filter fun e => e.isHeld && !ineligible vp x.setter e && x.mustFire now e.key) with
    | none => x
    | some e => ((x.fire vp e.key none).settle vp since now n)

/-! ## The ends of members (R152, R442) -/

def State.setMma (s : State) (core : Nat) (e : QEntry) (m : MmaOp) (performed : Bool) : State :=
  s.setCore core ((s.core core).setEntry 1 { e with op := .mma m, performed := performed })

/-- An entry of the setter becomes FREE; its group, with PRELOAD where that holds the group's tile, goes with its last member. -/
def State.dropMember (s : State) (cl : Nat) (e : SEntry) : State :=
  let x := s.cluster cl
  let rest := x.setter.filter (· ≠ e)
  let last := !(rest.any fun y => y.group = e.group)
  s.setCluster cl { x with setter := rest, groups := if last then x.groups.filter (fun g => some g.id ≠ e.group) else x.groups,
                           running := if last && x.running = e.group then none else x.running,
                           preload := if last then x.preload.filter (fun p => some p.1 ≠ e.group) else x.preload }

/-- The entries of qm, of the setter and of the vector path that a core still has go without effect, as a launch reaches it: the launch observes
no value or flag that another has left (R150; DESIGN CHOICE, log 58). -/
def State.dropMatrix (s : State) (core : Nat) : State :=
  let cl := core / 8
  let s1 := ((s.cluster cl).setter.filter fun e => e.core = core).foldl (fun t e => t.dropMember cl e) s
  let c := s1.core core
  s1.setCore core { (c.setQueue 1 { c.queue 1 with entries := [] }).settle with vpath := none }

/-- A step of an MMA is over: its slots are popped, and the MMA retires with its last step (R152, R337). -/
def State.stepOver (s : State) (core id : Nat) : State :=
  let c := s.core core
  match c.entry 1 id with
  | none => s
  | some e => match e.op with
    | .mma m =>
      let s1 := s.setCore core (c.setRing m.ring ((c.ring m.ring).pop (m.rows / 16)))
      if m.steps = [] then s1.completeEntry core 1 id else s1.setMma core e { m with busy := false } e.performed
    | _ => s

/-- A member fails (R441, R442): MATRIX_MEMBER becomes pending, the slots of this step and the later ones are popped as far as
they are filled, and the qm entry completes. -/
def State.memberFails (s : State) (core id cause : Nat) : State :=
  let c := s.core core
  match c.entry 1 id with
  | none => s
  | some e => match e.op with
    | .mma m =>
      let r := c.ring m.ring
      let n := min r.occ (m.rows / 16 * (m.steps.length + 1))
      let s1 := (s.setCore core (c.setRing m.ring (r.pop n))).pendTo (16 * core) 0x14 (word (cause + 256 * m.acc + 65536 * m.cur))
      s1.completeEntry core 1 id
    | _ => s

/-- The member's protection domain still reads the tile (R441). -/
def State.memberMayRead (s : State) (core id : Nat) (k : WKey) : Bool :=
  match (s.core core).mmaAt id with
  | some m => match m.tsr with
    | some r => s.tileGranted (16 * core) r k.ptr (tileBytes k.fmt)
    | none => true
  | none => true

/-! ## The next tile (R144, R155) -/

/-- The next tile is chosen where PRELOAD is free, that of the FIRED group of highest priority, the first that fired among equals, and PRELOAD
reads it where no bank of it is in its refresh window; a member that may no longer read it fails then (R441). A tile whose key ACTIVE holds is not
read again (R75, R144, R155). -/
def State.loadNext (s : State) (cl : Nat) : State :=
  let x := s.cluster cl
  let next : Option Nat := (leastBy (fun (g : Group) => 3 - g.prio) (x.groups.filter fun g => some g.id ≠ x.running)).map (·.id)
  match (x.preload.filter fun p => x.groups.any fun g => g.id = p.1).or (next.map fun g => (g, none)) with
  | some (g, none) =>
    let load (k : WKey) : Option (Sum Nat (List Byte)) :=
      match x.active with
      | some a => if a.1 = k then some (.inr a.2) else if s.tileBusy k then none else some (s.tileNow k)
      | none => if s.tileBusy k then none else some (s.tileNow k)
    let s1 := s.setCluster cl { x with preload := some (g, (x.groups.find? fun y => y.id = g).bind fun y => load y.key) }
    let fresh : Bool := match (x.groups.find? fun y => y.id = g).map (·.key) with
      | some k => !s.tileBusy k && !(x.active.any fun a => a.1 = k)
      | none => false
    if !fresh then s1
    else (x.setter.filter fun e => e.group = some g && !s.memberMayRead e.core e.id e.key).foldl
      (fun (t : State) (e : SEntry) => (t.memberFails e.core e.id 0x07).dropMember cl e) s1
  | _ => s

/-! ## Arrival (R151) -/

/-- The ring slots that a core's pending steps have claimed (R151). -/
def State.claimed (s : State) (core ring : Nat) : Nat :=
  let set := (s.cluster (core / 8)).setter.filter fun e => e.core = core && e.ring = ring
  let vec := ((s.core core).vpath.bind fun id => (s.core core).entry 1 id).map fun e => match e.op with
    | .mma m => if m.ring = ring then m.rows / 16 else 0
    | _ => 0
  (set.map fun e => e.rows / 16).sum + vec.getD 0

/-- The step of an MMA that arrives next, with its tile's key. -/
def MmaOp.nextKey (m : MmaOp) : WKey := { m.key with ptr := m.key.ptr + m.steps.headD 0 * tileBytes m.key.fmt }

/-- The MMA with its next step under way; its place at the head of qm frees with the last one. -/
def MmaOp.begin (m : MmaOp) : MmaOp := { m with cur := m.steps.headD 0, steps := m.steps.drop 1, busy := true, waits := none }

/-- An MMA enters the setter with its next step (R151, R152): a 128-row MMA that matches no HELD entry fires at once, and a priority-3 one fires its
key (R153). -/
def State.enterSetter (s : State) (core : Nat) (e : QEntry) (m : MmaOp) : State :=
  let x := s.cluster (core / 8)
  let k := m.nextKey
  let matched := x.setter.any fun y => y.isHeld && y.key = k
  let s1 := s.setMma core e m.begin (m.steps.length = 1)
  let lim := if s.preempting core || (!matched && m.rows = 128) then 0 else m.hold.getD (s.core core).hold.toNat
  let now := m.waits.getD s.cyc
  let y : SEntry := { core := core, id := e.id, ctx := e.ctx, task := m.task, step := m.steps.headD 0, acc := m.acc,
                      ring := m.ring, rows := m.rows, prio := m.prio, key := k, arrive := now, deadline := now + lim, life := .held }
  let x1 := { x with setter := x.setter ++ [y] }
  s1.setCluster (core / 8) (if m.prio = 3 then x1.fire (s1.vecSteps (core / 8)) k (some y) else x1)

/-- The MMA that waits at the head of a core's qm for a FREE entry of the setter (R151). -/
def Core.waitingMma (c : Core) : Option (QEntry × MmaOp) :=
  (c.queue 1).entries.findSome? fun e => match e.op with | .mma m => if m.waits.isSome then some (e, m) else none | _ => none

/-- MMAs that wait enter as entries become FREE, in order of core number (R151). -/
def State.enterWaiting (s : State) (cl : Nat) : State :=
  (List.range 8).foldl (fun t i => match (t.core (8 * cl + i)).waitingMma with
    | some (e, m) => if (t.cluster cl).setter.length < 16 then t.enterSetter (8 * cl + i) e m else t
    | none => t) s

/-- The keys for which an event of R153 has come fire. -/
def State.fireDue (s : State) (cl since : Nat) : State := s.setCluster cl ((s.cluster cl).settle (s.vecSteps cl) since s.cyc 17)

/-- What fires by now fires, and what waits for a FREE entry enters; the next tile is read, and where members of its group fail, so that their
entries become FREE and what they blocked eligible, the same again in that cycle (R151, R153, R155, R441). -/
def State.settleFrom (cl : Nat) : Nat → Nat → State → State
  | 0, _, s => s
  | k + 1, since, s =>
    let t := ((s.fireDue cl since).enterWaiting cl).fireDue cl s.cyc
    let u := t.loadNext cl
    if (u.cluster cl).setter.length < (t.cluster cl).setter.length then State.settleFrom cl k s.cyc u else u

/-- The setter of a cluster is brought up to now: nothing in it has changed since its last event, and each key fires in its own cycle. -/
def State.settleSetter (s : State) (cl : Nat) : State := State.settleFrom cl 17 0 s

/-- The setter of a cluster after a change of this cycle. -/
def State.settleNow (s : State) (cl : Nat) : State := State.settleFrom cl 17 s.cyc s

/-- MMA_ARRIVAL: the MMA at the head of a core's qm reaches the setter with its next step, or runs on the vector path, or
completes where it has no step (R149, R151). Keys whose deadline has come fire before it (R155). With no entry FREE it waits, and keeps its arrival
cycle. -/
def execMmaArrival (core id : Nat) (s : State) : Out :=
  let c := s.core core
  match c.entry 1 id with
  | none => .next s
  | some e =>
    match e.op with
    | .mma m =>
      if !s.mayPerform core 1 e || !m.ready || m.busy || m.waits.isSome then .next s
      else if m.steps = [] then .next (s.completeEntry core 1 id)
      else if (c.ring m.ring).occ < s.claimed core m.ring + m.rows / 16 then .next s
      else
        let s := s.settleSetter (core / 8)
        let x := s.cluster (core / 8)
        if !(x.setter.any fun y => y.isHeld && y.key = m.nextKey) && m.rows < c.mvth.toNat then
          if c.vpath.isSome || x.setter.any fun y => y.core = core && (y.acc = m.acc || y.ring = m.ring) then .next s
          else let s1 := s.setMma core e m.begin (m.steps.length = 1); .next (s1.setCore core { s1.core core with vpath := some id })
        else if 16 ≤ x.setter.length then .next (s.setMma core e { m with waits := some s.cyc } false)
        else .next ((s.enterSetter core e m).settleNow (core / 8))
    | _ => .next s

/-- SETTER_DEADLINE: a cluster's setter fires the keys whose events of R153 have come. -/
def execSetterDeadline (cl : Nat) (s : State) : Out := .next (s.settleSetter cl)

/-- The step of an MMA on a tile's rows: written, or failed. -/
def State.runStep (s : State) (core id : Nat) (k : WKey) (tile : Sum Nat (List Byte)) : State :=
  match (s.core core).mmaAt id, tile with
  | some _, .inl n => s.memberFails core id n
  | some m, .inr bs =>
    let m' := { m with key := k }
    match s.stepRows core m' (tileRows k.fmt bs) m.rows with
    | .inl n => s.memberFails core id n
    | .inr rows => (s.writeRows core m.acc rows).stepOver core id
  | _, _ => s

/-- GROUP_STREAM_START: PRELOAD, which has loaded, becomes ACTIVE, its group streams, and the next tile begins to load (R144, R155). A tile
that cannot be read fails every member (R441). -/
def execGroupStreamStart (cl : Nat) (s : State) : Out :=
  let s := s.settleSetter cl
  let x := s.cluster cl
  match x.preload with
  | some (id, some tile) =>
    match x.groups.find? fun y => y.id = id with
    | none => .next s
    | some g =>
      if x.running.isSome then .next s
      else
        let ms := x.setter.filter fun e => e.group = some g.id
        let x1 := { x with setter := x.setter.map (fun e => if e.group = some g.id then { e with life := .running g.id } else e),
                           active := match tile with | .inr bs => some (g.key, bs) | .inl _ => none, preload := none, running := some g.id }
        let s1 := s.setCluster cl x1
        let s2 := match tile with
          | .inl n => ms.foldl (fun (t : State) (e : SEntry) => (t.memberFails e.core e.id n).dropMember cl { e with life := .running g.id }) s1
          | .inr _ => s1
        .next (s2.settleNow cl)
  | _ => .next s

/-- MEMBER_ROWS_WRITTEN: the last row of a running member is written (R152, R156). -/
def execMemberRowsWritten (cl core id : Nat) (s : State) : Out :=
  let s := s.settleSetter cl
  let x := s.cluster cl
  match x.setter.find? fun e => e.running && e.core = core && e.id = id with
  | none => .next s
  | some e => .next (((s.runStep core id e.key (match x.active with | some a => .inr a.2 | none => .inl 0x19)).dropMember cl e).settleNow cl)

/-- VECTOR_PATH_COMPLETE: an MMA's step on the vector path finishes, with the array's results (R137, R158). -/
def execVectorPathComplete (core : Nat) (s : State) : Out :=
  let s := s.settleSetter (core / 8)
  let c := s.core core
  match c.vpath with
  | none => .next s
  | some id =>
    match c.mmaAt id with
    | some m =>
      let k := { m.key with ptr := m.key.ptr + m.cur * tileBytes m.key.fmt }
      let s1 := s.setCore core { c with vpath := none }
      if s.tileBusy k then .next s
      else .next ((if s1.memberMayRead core id k then s1.runStep core id k (s1.tileNow k) else s1.memberFails core id 0x07).settleNow (core / 8))
    | none => .next (s.setCore core { c with vpath := none })

/-! ## The other entries of qm (R338 to R343) -/

/-- An element as MDRN converts it under R129 or R130, with the flags that it sets: none for FP32 to FP32, I32 to I32, or a NaN
(R339). -/
def drainElem (t : TCode) (rm : Rnd) (sat iacc : Bool) (x : Nat) : Nat × NumFlags :=
  let src : TCode := if iacc then .i32 else .f32
  let v := widen src x
  let r := roundTo t v rm sat (!iacc)
  (r.1, if t = src || v = .nan then .none else r.2)

/-- The rows that MDRN writes before the first poisoned one, as bytes with their flags, and whether one is poisoned (R442). -/
def Cluster.drainRows (x : Cluster) (slots : List Nat) (t : TCode) (rm : Rnd) (sat iacc : Bool) : List (List Byte × Nat × NumFlags) × Option Nat :=
  let all := slots.flatMap fun n => (List.range 16).map fun r => (n, r)
  let good := all.takeWhile fun a => !x.rowBad a.1 a.2
  let row (a : Nat × Nat) : List Byte × Nat × NumFlags :=
    let es := (slotRow (tget 0 x.slots a.1) a.2).map (drainElem t rm sat iacc)
    (toBytes (rowBytes t) (ofLanes (TCode.width t) (es.map (·.1))), a.1, (es.map (·.2)).foldl NumFlags.or .none)
  (good.map row, (all[good.length]?).map (·.1))

/-- Asynchronous SOFT_ERROR for an accumulator slot (R428, R442). -/
def State.accError (s : State) (core slot : Nat) : State := s.pendTo (16 * core) 0x19 (word (0xFF * 2 ^ 56 + 9 + slot * 256))

/-- Deadlines of a core's HELD entries change, once what is due has fired, and what must fire then fires (R157, R343). -/
def State.setDeadlines (s : State) (core : Nat) (f : SEntry → Nat) : State :=
  let cl := core / 8
  let t := s.settleSetter cl
  let x := t.cluster cl
  (t.setCluster cl { x with setter := x.setter.map fun e => if e.isHeld && e.core = core then { e with deadline := f e } else e }).settleNow cl

/-- Every earlier qm entry that names the accumulator register has completed (R338). -/
def State.accFree (s : State) (core id acc : Nat) : Bool :=
  !(((s.core core).ahead 1 id).any fun e => match e.op with
    | .mma m => m.acc = acc
    | .drain _ a _ _ _ _ _ _ | .zero a | .swap _ a => a = acc
    | _ => false)

/-- An engine of a core has landed data in the core's landing range: a trace record, and no cause, for R412's row of MDRN and MSWP lists no WATCH
(R384, R385; DEDUCED, log 62). -/
def State.noteEngineLanding (s : State) (core : Nat) (e : QEntry) (rs : List (Nat × Nat)) : State :=
  if !(rs.any fun r => (s.core core).landingMeets r.1 r.2) then s else s.traceRec (16 * core) 2 e.pc (word (core + e.id * 2 ^ 32))

/-- MSWP's exchange (R341), whose data land, or nothing where an element is poisoned (R442). -/
def State.swapSlots (s : State) (core : Nat) (e : QEntry) (off acc : Nat) : State :=
  let cl := core / 8
  let x := s.cluster cl
  let ss := s.engSlots core acc
  match ss.find? fun n => x.bad.any fun b => b.1 = n with
  | some n => s.accError core n
  | none =>
    let old := ss.flatMap fun n => toBytes 8192 (tget 0 x.slots n).toNat
    let oldFlags := ss.flatMap fun n => toBytes 8 (tget 0 x.flags n)
    let buf (j : Nat) : Nat := ofBytes (s.readLocal core (off + 8192 * j) 8192)
    let flg (j : Nat) : Nat := ofBytes (s.readLocal core (off + 8192 * ss.length + 8 * j) 8) % 16
    let x1 := ss.zipIdx.foldl (fun y n => { y with slots := tput 0 y.slots n.1 (BitVec.ofNat 65536 (buf n.2)), flags := tput 0 y.flags n.1 (flg n.2) }) x
    ((s.setCluster cl x1).poke (locLocal core off) (old ++ oldFlags)).noteEngineLanding core e [(off, 8200 * ss.length)]

/-- The rows that MDRN has read land in local memory. -/
def State.landDrain (s : State) (core : Nat) (e : QEntry) (out : Landing) : State :=
  (out.foldl (fun t r => t.poke (locLocal core r.1) r.2) s).noteEngineLanding core e (out.map fun r => (r.1, r.2.length))

/-- QM_ENTRY_PERFORM: MDRN, MZRO, MSWP or MHOLD at the head of qm acts (R338, R343). What MDRN read lands as it completes; where a row holds an
error, the rows before it have landed before the cause is pending (R442). -/
def execQmEntryPerform (core id : Nat) (s : State) : Out :=
  let c := s.core core
  match c.entry 1 id with
  | none => .next s
  | some e =>
    if !s.mayPerform core 1 e then .next s
    else
      let cl := core / 8
      let x := s.cluster cl
      let mark (s : State) (op : QOp) : State := s.setCore core ((s.core core).setEntry 1 { e with op := op, performed := true })
      match e.op with
      | .drain off acc pitch t rm sat iacc _ =>
        if !s.accFree core id acc then .next s
        else
          let d := x.drainRows (s.engSlots core acc) t rm sat iacc
          let out : Landing := d.1.zipIdx.map fun r => (off + r.2 * pitch, r.1.1)
          let s1 := s.setCluster cl { x with flags := d.1.foldl (fun f r => tput 0 f r.2.1 (slotFlags r.2.2 (tget 0 f r.2.1))) x.flags }
          .next (match d.2 with
            | some n => mark ((s1.landDrain core e out).accError core n) (.drain off acc pitch t rm sat iacc [])
            | none => mark s1 (.drain off acc pitch t rm sat iacc out))
      | .zero acc =>
        if !s.accFree core id acc then .next s
        else
          let ss := s.engSlots core acc
          .next (mark (s.setCluster cl { x with slots := ss.foldl (fun t n => tput 0 t n 0) x.slots, flags := ss.foldl (fun t n => tput 0 t n 0) x.flags,
                                                bad := x.bad.filter fun b => !ss.contains b.1 }) e.op)
      | .swap off acc => if !s.accFree core id acc then .next s else .next (mark (s.swapSlots core e off acc) e.op)
      | .holdFire => .next ((s.completeEntry core 1 id).setDeadlines core fun _ => 0)
      | .holdSet n => .next ((s.completeEntry core 1 id).setDeadlines core fun y => y.arrive + n)
      | _ => .next s

/-- QM_ENTRY_COMPLETE: the last byte or row of a drain, zero or swap is written (R338). -/
def execQmEntryComplete (core id : Nat) (s : State) : Out :=
  match (s.core core).entry 1 id with
  | none => .next s
  | some e =>
    if !e.performed then .next s
    else match e.op with
      | .drain _ _ _ _ _ _ _ out => .next ((s.landDrain core e out).completeEntry core 1 id)
      | .zero _ | .swap _ _ => .next (s.completeEntry core 1 id)
      | _ => .next s

end Sys2Proof.Machine
end

