-- ==== Sys2Proof/Machine/Token.lean ====
section
/-! DEFINITION. The token and heap class (R160 to R171, R344 to R349, R445 to R447, R467): sequence records, cache pages, the
position translation buffer, and heaps. -/

namespace Sys2Proof.Machine

/-! ## Memory at its home -/

/-- A range of bytes that a token operation uses at its home: where, how many, and whether it is written. -/
abbrev Range := Nat × Nat × Bool

/-- Why some ranges cannot be used at their homes, the first reason; pages are the unit of translation. What is read needs R, and what is
written R and W, as for an atomic (R79, R164, R245). -/
def State.blocked (s : State) (cid : Nat) (rs : List Range) : Option Home :=
  let stop (p : Nat) (w : Bool) : Option Home := match s.home cid p w with | .at_ _ _ => none | h => some h
  (rs.flatMap fun r => (rangeEnds r.1 r.2.1).map fun p => (p, r.2.2)).findSome? fun p =>
    (stop p.1 false).or (if p.2 then stop p.1 true else none)

/-- A home's walks for some ranges set A in the entries that they read (R79). -/
def State.markRanges (s : State) (cid : Nat) (rs : List Range) : State :=
  rs.foldl (fun t r => t.markHomes (s.space cid) r.1 r.2.1) s

def State.rd (s : State) (cid va n : Nat) : Nat := s.rdIn (s.space cid) va n
def State.wr (s : State) (cid va n v : Nat) : State := s.wrIn (s.space cid) va n v

/-- Writes bytes that an entry of qk lands: the issuing context alone is sure to see them until they are published (R97, R164). -/
def State.wrLanded (s : State) (core cid va : Nat) (bs : List Byte) : State :=
  match s.homes cid va true bs.length with
  | .inr ls => (s.landShared cid 0 0 (8 * ls.length) ls bs).noteLanded core 3 cid (ls.map (·.1))
  | .inl _ => s

/-! ## Sequence records (R160 to R163, R445) -/

/-- The address of a tag's entry. -/
def tagVa (va tag : Nat) : Nat := va + 0x40 + 16 * tag

/-- The last page of a tag's list, where it has one. -/
def State.lastPage (s : State) (cid va tag : Nat) : Option Nat :=
  let n := s.rd cid (tagVa va tag + 12) 2
  if n = 0 then none else some (s.rd cid (s.rd cid (tagVa va tag) 8 + 8 * (n - 1)) 8)

/-- SPAN_INVALID of the record, for every operation (R445). -/
def State.spanBad (s : State) (cid va : Nat) : Bool :=
  let ctrl := s.rd cid (va + 0x20) 4
  let pool := s.rd cid (va + 0x18) 8
  (bits ctrl 0 2 = 1) || bits ctrl 14 18 ≠ 0 || 32 < bits ctrl 8 6 || (List.range 16).any (fun t => 1 < s.rd cid (tagVa va t + 14) 1)
    || s.rd cid (pool + 4) 4 < s.rd cid pool 4

/-- The open page of a tag: not sealed. -/
def State.openPage (s : State) (cid va tag : Nat) : Option Nat :=
  match s.lastPage cid va tag with
  | some p => if s.rd cid (p + 0x7D3D) 1 % 2 = 1 then none else some p
  | none => none

/-- SPAN_INVALID of the open page's trailer (R445). -/
def State.trailerBad (s : State) (cid va tag p : Nat) : Bool :=
  s.rd cid (p + 0x7D38) 4 ≠ s.rd cid va 4 || s.rd cid (p + 0x7D37) 1 ≠ tag || 31 < s.rd cid (p + 0x7D3C) 1

/-- What every token operation needs to reach: the record, which all but KVSEAL write, and the pool's counts, which a take or a return writes
(R161, R445). -/
def State.recordRanges (s : State) (cid va : Nat) (record pool : Bool) : List Range := [(va, 832, record), (s.rd cid (va + 0x18) 8, 8, pool)]

/-- What is needed to find the open page of the current tag: the last place of its list and the page there, which is written where it is open
and has room, and otherwise only read (R164). -/
def State.openRanges (s : State) (cid va : Nat) : List Range :=
  let tag := bits (s.rd cid (va + 0x20) 4) 4 4
  let n := s.rd cid (tagVa va tag + 12) 2
  let room := (s.openPage cid va tag).any fun p => s.rd cid (p + 0x7D3C) 1 < 31
  if n = 0 || s.spanBad cid va then []
  else [(s.rd cid (tagVa va tag) 8 + 8 * (n - 1), 8, false), ((s.lastPage cid va tag).getD 0, 0x8000, room)]

/-- What KVSEAL needs to reach (R345). -/
def State.sealRanges (s : State) (cid va : Nat) : List Range := s.recordRanges cid va false false ++ s.openRanges cid va

/-- The rest of a page's slots become VOID, and the page is sealed (R164). -/
def State.sealPage (s : State) (cid p : Nat) : State :=
  let fill := s.rd cid (p + 0x7D3C) 1
  let s1 := ((List.range 31).filter (fill ≤ ·)).foldl (fun t i => t.wr cid (p + 0x7D18 + i) 1 2) s
  (s1.wr cid (p + 0x7D3C) 1 31).wr cid (p + 0x7D3D) 1 (s.rd cid (p + 0x7D3D) 1 ||| 1)

/-! ## Appending (R164) -/

/-- The largest magnitude of the finite elements of a vector of FP32 elements, as its bits. -/
def vecAmax (xs : List Nat) : Nat := ((xs.map (· % 2 ^ 31)).filter (· < 0x7F800000)).foldl max 0

/-- a > 448 × scale. -/
def overScale (a scale : Nat) : Bool :=
  match widen .f32 scale with
  | .nan => false
  | v => (widen .f32 a).cmp ((Val.fin false 448 0).mul v) = .gt

/-- The scale of a new page (R164). -/
def newScale (a head : Nat) : Nat :=
  if a = 0 then 0x3F800000 else roundF32 (((widen .f32 a).mul (.fin false (2 ^ head) 0)).div (.fin false 448 0)) .rne false

/-- A stored element (R164). -/
def storedElem (x scale : Nat) : Nat :=
  match widen .f32 x with
  | .nan => 0x7F
  | .inf _ => 0x7F
  | v => (roundTo .e4m3 (v.div (widen .f32 scale)) .rne true true).1

/-- Takes a page from the pool into a tag's list, with the scales of the token's vectors and an empty trailer; KV_POOL_EMPTY
where there is none (R161, R164). R164 writes SCALE alone of a new page's header: the model clears SST and the whole of PFL, and POS and the reserved
bytes keep what they held (DESIGN CHOICE, log 68). -/
def State.takePage (s : State) (cid va tag : Nat) (amax : List Nat) : Sum Nat (State × Nat) :=
  let pool := s.rd cid (va + 0x18) 8
  let free := s.rd cid pool 4
  let tv := tagVa va tag
  let n := s.rd cid (tv + 12) 2
  if free = 0 || 64 * s.rd cid (tv + 15) 1 ≤ n then .inl 0x12
  else
    let p := s.rd cid (pool + 8 + 8 * (free - 1)) 8
    let head := bits (s.rd cid (va + 0x20) 4) 2 2
    let s1 := (((s.wr cid pool 4 (free - 1)).wr cid (s.rd cid tv 8 + 8 * n) 8 p).wr cid (tv + 12) 2 (n + 1)).wr cid (tv + 14) 1 1
    let s2 := amax.zipIdx.foldl (fun t a => t.wr cid (p + 0x7C00 + 4 * a.2) 4 (newScale a.1 head)) s1
    let s3 := ((s2.wr cid (p + 0x7D37) 1 tag).wr cid (p + 0x7D38) 4 (s.rd cid va 4)).wr cid (p + 0x7D3C) 2 0
    .inr (((List.range 31).foldl (fun t i => t.wr cid (p + 0x7D18 + i) 1 0) s3).notePool (s.file cid).root pool, p)

/-- The FP32 elements of vector j of a token. -/
def State.tokenVec (s : State) (core src j : Nat) : List Nat := lanesOf 32 128 (ofBytes (s.readLocal core (src + 512 * j) 512))

/-- The open page with room that an append finds, and whether it seals it early and takes another (R164). -/
def State.appendPage (s : State) (cid va : Nat) (amax : List Nat) : Option (Nat × Bool) :=
  let pos := s.rd cid (va + 8) 8
  let early (p : Nat) : Bool :=
    (s.rd cid (p + 0x7C20) 8 + s.rd cid (p + 0x7D3C) 1) % 2 ^ 64 ≠ pos
      || amax.zipIdx.any fun a => overScale a.1 (s.rd cid (p + 0x7C00 + 4 * a.2) 4)
  ((s.openPage cid va (bits (s.rd cid (va + 0x20) 4) 4 4)).filter fun p => s.rd cid (p + 0x7D3C) 1 < 31).map fun p => (p, early p)

/-- What an append needs to reach: beyond the rest, the pool's slot, the list's place and the page where it takes one (R161, R164). -/
def State.appendRanges (s : State) (core cid va src : Nat) : List Range :=
  let tv := tagVa va (bits (s.rd cid (va + 0x20) 4) 4 4)
  let pool := s.rd cid (va + 0x18) 8
  let free := s.rd cid pool 4
  let n := s.rd cid (tv + 12) 2
  let takes := match s.appendPage cid va ((List.range 8).map fun j => vecAmax (s.tokenVec core src j)) with | some x => x.2 | none => true
  let got := !(s.spanBad cid va) && takes && free ≠ 0 && n < 64 * s.rd cid (tv + 15) 1
  s.recordRanges cid va true got ++ s.openRanges cid va ++
    if !got then []
    else [(pool + 8 + 8 * (free - 1), 8, false), (s.rd cid tv 8 + 8 * n, 8, true), (s.rd cid (pool + 8 + 8 * (free - 1)) 8, 0x8000, true)]

/-- One append: the cause that fails it whole, or the state and the stored position (R164, R445). -/
def State.append (s : State) (core cid va src : Nat) : Sum Nat (State × Nat) :=
  let tag := bits (s.rd cid (va + 0x20) 4) 4 4
  if s.spanBad cid va || (match s.openPage cid va tag with | some p => s.trailerBad cid va tag p | none => false) then .inl 0x13
  else
    let vec := s.tokenVec core src
    let amax := (List.range 8).map fun j => vecAmax (vec j)
    let pos := s.rd cid (va + 8) 8
    let page : Sum Nat (State × Nat) := match s.appendPage cid va amax with
      | some (p, true) => (s.sealPage cid p).takePage cid va tag amax
      | some (p, false) => .inr (s, p)
      | none => s.takePage cid va tag amax
    match page with
    | .inl c => .inl c
    | .inr (s1, p) =>
      let i := s1.rd cid (p + 0x7D3C) 1
      let s2 := ((s1.wr cid (va + 8) 8 (pos + 1)).wr cid (p + 0x7C20 + 8 * i) 8 pos).wr cid (p + 0x7D18 + i) 1 1
      let s3 := (s2.wr cid (p + 0x7D3C) 1 (i + 1)).wr cid (tagVa va tag + 8) 4 (s.rd cid (tagVa va tag + 8) 4 + 1)
      let s4 := if i + 1 = 31 then s3.wr cid (p + 0x7D3D) 1 (s3.rd cid (p + 0x7D3D) 1 ||| 1) else s3
      let at' (j : Nat) : Nat := p + 0x400 * i + 0x200 * (j % 2) + 128 * (j / 2)
      .inr ((List.range 8).foldl (fun t j =>
        let sc := s4.rd cid (p + 0x7C00 + 4 * j) 4
        t.wrLanded core cid (at' j) ((vec j).map fun x => BitVec.ofNat 8 (storedElem x sc))) s4, pos)

/-- KVSEAL (R164, R345). -/
def State.sealTag (s : State) (cid va : Nat) : Sum Nat State :=
  let tag := bits (s.rd cid (va + 0x20) 4) 4 4
  if s.spanBad cid va then .inl 0x13
  else match s.openPage cid va tag with
    | none => .inr s
    | some p => if s.trailerBad cid va tag p then .inl 0x13
      else if s.rd cid (p + 0x7D3C) 1 < 31 then .inr (s.sealPage cid p) else .inr s

/-- SPSET (R345). -/
def State.setTag (s : State) (cid va tag : Nat) : Sum Nat State :=
  let ctrl := s.rd cid (va + 0x20) 4
  if s.spanBad cid va then .inl 0x13 else .inr (s.wr cid (va + 0x20) 4 (ctrl - bits ctrl 4 4 * 16 + tag * 16))

/-! ## Retiring (R165) -/

/-- Sorted insertion of an interval by its start. -/
def insIval (x : Nat × Nat) : List (Nat × Nat) → List (Nat × Nat)
  | [] => [x]
  | y :: ys => if x.1 ≤ y.1 then x :: y :: ys else y :: insIval x ys

/-- Merges an interval with those of a sorted list that touch it. -/
def mergeFrom (x : Nat × Nat) : List (Nat × Nat) → List (Nat × Nat)
  | [] => [x]
  | y :: ys => if y.1 ≤ x.2 then mergeFrom (x.1, max x.2 y.2) ys else x :: mergeFrom y ys

/-- Merges touching intervals of a sorted list. -/
def mergeIvals : List (Nat × Nat) → List (Nat × Nat)
  | [] => []
  | x :: r => mergeFrom x r

/-- The pages of a tag. -/
def State.tagPages (s : State) (cid va tag : Nat) : List Nat :=
  (List.range (s.rd cid (tagVa va tag + 12) 2)).map fun i => s.rd cid (s.rd cid (tagVa va tag) 8 + 8 * i) 8

/-- The stored positions of a tag's FILLED slots. -/
def State.filledPositions (s : State) (cid va tag : Nat) : List Nat :=
  (s.tagPages cid va tag).flatMap fun p =>
    ((List.range 31).filter fun i => s.rd cid (p + 0x7D18 + i) 1 = 1).map fun i => s.rd cid (p + 0x7C20 + 8 * i) 8

/-- What a retirement needs to reach: the record and the pool's counts, the tag's list and pages, which it only reads, and the pool's slots
that the pages return to. -/
def State.retireRanges (s : State) (cid va tag : Nat) : List Range :=
  let pool := s.rd cid (va + 0x18) 8
  let n := s.rd cid (tagVa va tag + 12) 2
  if s.spanBad cid va || s.rd cid (tagVa va tag + 14) 1 = 0 then s.recordRanges cid va false false
  else s.recordRanges cid va true true ++ [(s.rd cid (tagVa va tag) 8, 8 * n, false)]
    ++ (s.tagPages cid va tag).map (fun p => (p, 0x8000, false)) ++ [(pool + 8 + 8 * s.rd cid pool 4, 8 * n, true)]

/-- The bytes of a record as runs of locations, one for each page that it lies in. -/
def State.recordRuns (s : State) (cid va : Nat) : List (Nat × Nat) :=
  let n := min 832 (0x8000 - va % 0x8000)
  [(va, n), (va + n, 832 - n)].filterMap fun r =>
    match s.home cid r.1 false with | .at_ l _ => if r.2 = 0 then none else some (l, r.2) | _ => none

/-- One retirement at the record's home: SPAN_INVALID, or the state after it; an EMPTY tag has no effect (R165, R170, R346). The pages
return to the pool in the order of the tag's list; the spec gives no order (DESIGN CHOICE, log 43). -/
def State.retire (s : State) (cid va tag : Nat) : Sum Nat State :=
  if s.spanBad cid va then .inl 0x13
  else if s.rd cid (tagVa va tag + 14) 1 = 0 then .inr s
  else
    let ctrl := s.rd cid (va + 0x20) 4
    let ps := s.filledPositions cid va tag
    let old := (List.range (bits ctrl 8 6)).map fun i => (s.rd cid (va + 0x140 + 16 * i) 8, s.rd cid (va + 0x148 + 16 * i) 8)
    let holes := mergeIvals ((old ++ ps.map fun p => (p, p + 1)).foldr insIval [])
    if 32 < holes.length then .inl 0x13
    else
      let pool := s.rd cid (va + 0x18) 8
      let pages := s.tagPages cid va tag
      let free := s.rd cid pool 4
      let s1 := pages.zipIdx.foldl (fun t p => t.wr cid (pool + 8 + 8 * (free + p.2)) 8 p.1) s
      let s2 := (s1.wr cid pool 4 (free + pages.length)).notePool (s.file cid).root pool
      let s3 := ((s2.wr cid (tagVa va tag + 8) 4 0).wr cid (tagVa va tag + 12) 2 0).wr cid (tagVa va tag + 14) 1 0
      let s4 := holes.zipIdx.foldl (fun t h => (t.wr cid (va + 0x140 + 16 * h.2) 8 h.1.1).wr cid (va + 0x148 + 16 * h.2) 8 h.1.2) s3
      let s5 := (s4.wr cid (va + 0x20) 4 (ctrl - bits ctrl 8 6 * 256 + holes.length * 256)).wr cid (va + 0x10) 8 (s.rd cid (va + 0x10) 8 + ps.length)
      .inr { s5 with retired := s5.retired ++ [{ id := s5.retired.length, runs := s.recordRuns cid va, seq := s.rd cid va 4, tag := tag, close := ctrl % 2 = 1 }] }

/-! ## The instructions (R344 to R346) -/

/-- The checks of a sequence record's address (R344). -/
def seqCause (p : Nat) : Option Nat := if spaceCode p ≠ 1 then some 0x07 else if p % 64 ≠ 0 then some 0x0A else none

/-- The checks of KVAPP's source (R344). -/
def sourceCause (x : Nat) : Option Nat := if !inProgram x 4096 then some 0x07 else if x % 64 ≠ 0 then some 0x0A else none

/-- A posted token operation: an entry of qk under a journal entry of kind 4 (R402). -/
def State.postToken (s : State) (p : Nat) (op : QOp) : Act :=
  match s.openEntry 4 p with
  | none => .stall s
  | some (j, s1) => .retire (s1.enqueue 3 op j).1

/-- KVAPP (R344): with D not 0 the context waits for the append. -/
def execKvapp (h : Hdr) (o : Ops) (s : State) : Out :=
  issueX .kvapp h o (fun s =>
    let p := (s.arg o.a).toNat
    let x := (s.arg o.b).toNat
    match seqCause p, sourceCause x with
    | some n, _ => .trap s n (word p)
    | none, some n => .trap s n (word x)
    | none, none =>
      if o.d = 0 then s.postToken p (.kvapp p x 0)
      else
        let y := s.enqueue 3 (.kvapp p x o.d) none
        .stall (y.1.setMe { y.1.me with wait := .token y.2 o.d })) s

/-- KVSEAL (R345). -/
def execKvseal (h : Hdr) (o : Ops) (s : State) : Out :=
  issueX .kvseal h o (fun s =>
    let p := (s.arg o.a).toNat
    match seqCause p with
    | some n => .trap s n (word p)
    | none => s.postToken p (.kvseal p)) s

/-- SPSET (R345). -/
def execSpset (h : Hdr) (o : Ops) (s : State) : Out :=
  issueX .spset h o (fun s =>
    let p := (s.arg o.a).toNat
    let t := (s.arg o.b).toNat
    match seqCause p with
    | some n => .trap s n (word p)
    | none => if 16 ≤ t then .trap s 0x07 0 else s.postToken p (.spset p t)) s

/-- SPRET (R346). -/
def execSpret (h : Hdr) (o : Ops) (s : State) : Out :=
  issueX .spret h o (fun s =>
    let p := (s.arg o.a).toNat
    let t := (s.arg o.b).toNat
    match seqCause p with
    | some n => .trap s n (word p)
    | none =>
      if 16 ≤ t then .trap s 0x07 0
      else if 8 ≤ s.me.sprets.length then .trap s 0x17 0xFFFF
      else .retire (s.setMe { s.me with sprets := s.me.sprets ++ [(p, t)] })) s

/-- A context that waits for its append goes on: the position is written, or the cause is taken exactly (R344, R445). -/
def State.tokenAnswer (s : State) (e : QEntry) (d : Nat) (r : Sum Nat Nat) (va : Nat) : State :=
  let c := s.ctx e.ctx
  if c.wait ≠ .token e.id d then s
  else match r with
    | .inr p => s.setCtx e.ctx (({ c with wait := .none }.setS d (word p)).advance c.wlen)
    | .inl n => (s.setCtx e.ctx { c with wait := .none }).takeTrap e.ctx .exact n (c.wlen / 4) c.pc (word va)

/-- The end of a token entry: performed, or refused (R402, R445). -/
def State.tokenEnd (s : State) (core : Nat) (e : QEntry) (va d : Nat) (r : Sum Nat (State × Nat)) : State :=
  match r with
  | .inr (s1, p) =>
    let s2 := (s1.completeEntry core 3 e.id).closeEntry core e.jrn
    if d = 0 then s2 else s2.tokenAnswer e d (.inr p) va
  | .inl n =>
    let s1 := s.completeEntry core 3 e.id
    match e.jrn with
    | some j => s1.refusePost core j n 0 va 0
    | none => s1.tokenAnswer e d (.inl n) va

/-- TOKEN_OP_PERFORM: an entry of qk performs as one atomic at its record's home (R164, R345). -/
def execTokenOpPerform (core id : Nat) (s : State) : Out :=
  match (s.core core).entry 3 id with
  | none => .next s
  | some e =>
    if !s.mayPerform core 3 e then .next s
    else
      let go (va d : Nat) (rs : List Range) (r : State → Sum Nat (State × Nat)) : Out :=
        match s.blocked e.ctx rs with
        | none =>
          let s0 := s.markRanges e.ctx rs
          let s1 := match s.home e.ctx va false with | .at_ l _ => s0.addDest e.ctx (destOf l) | _ => s0
          .next (s1.tokenEnd core e va d (r s1))
        | some (.refuse n) => .next (s.tokenEnd core e va d (.inl n))
        | some .hole => .fault .noSuchMemory
        | some _ => .next s
      match e.op with
      | .kvapp va src d => go va d (s.appendRanges core e.ctx va src) fun t => t.append core e.ctx va src
      | .kvseal va => go va 0 (s.sealRanges e.ctx va) fun t => (t.sealTag e.ctx va).map (fun c => c) fun t => (t, 0)
      | .spset va tag => go va 0 (s.recordRanges e.ctx va true false) fun t => (t.setTag e.ctx va tag).map (fun c => c) fun t => (t, 0)
      | _ => .next s

/-- The release point that sent a retirement has published its stores (R346). -/
def State.retirementMay (s : State) (r : Retiring) : Bool :=
  let c := s.ctx r.cid
  !(c.pubs.any fun p => p.num ≤ r.num) && !(match c.wait with | .release _ _ => r.num = c.ops | _ => false)

/-- SPAN_RETIREMENT_PERFORM: retirement `n` on its way performs at its record's home or is refused there, and its release point may
go on (R165, R346, R402, R447). -/
def execSpanRetirementPerform (n : Nat) (s : State) : Out :=
  match s.retiring[n]? with
  | none => .next s
  | some r =>
    -- retirements of one context perform in issue order, after the stores that their release point publishes
    if !s.retirementMay r || (s.retiring.take n).any fun x => x.cid = r.cid then .next s
    else
      let core := coreNo r.cid
      let ended (t : State) : Out := .next ({ t with retiring := t.retiring.eraseIdx n }.retireCheck r.cid)
      let refuse (c : Nat) : Out := ended (match r.jrn with | some j => s.refusePost core j c 0 r.va 0 | none => s)
      let rs := s.retireRanges r.cid r.va r.tag
      match s.blocked r.cid rs with
      | some (.refuse c) => refuse c
      | some .hole => .fault .noSuchMemory
      | some _ => .next s
      | none => match (s.markRanges r.cid rs).retire r.cid r.va r.tag with
        | .inl c => refuse c
        | .inr t => ended (t.closeEntry core r.jrn)

/-! ## Position translation (R168, R169, R347, R348, R467) -/

def ptbValid (e : PtbEntry) : Bool := bitOf e 135
def ptbKey (e : PtbEntry) : Nat × Nat × Nat := (bits e 160 32, bits e 156 4, bits e 136 20)

/-- The four registers that a POSL on an entry writes (R347). -/
def poslHit (e : PtbEntry) (slot : Nat) : List Word :=
  let page := word (bits e 80 36 * 2 ^ 15)
  if bitOf e 134 then [1, 0, 0, 0]
  else if bits e 129 5 ≤ slot || 31 ≤ slot then [2, page, 0, 0]
  else [0, page, word (bits e 40 40 + slot), word (bits e 0 40 + slot)]

/-- POSL (R347, R169, R467). Any answer from an entry, HOLE and VOID among them, marks it most recently used (DESIGN CHOICE, log 78). -/
def poslBody (o : Ops) (s : State) : Act :=
  let a := (s.arg o.a).toNat
  let b := (s.arg o.b).toNat
  let k : Nat × Nat × Nat := (bits a 0 32, bits b 8 4, bits b 16 20)
  let c := s.myCore
  match c.ptb.find? fun e => ptbValid e && ptbKey e = k with
  | some e =>
    let s1 := s.setMyCore { c with ptb := e :: c.ptb.erase e }
    .retire (s1.setMe (s1.me.setGroup o.d (poslHit e (bits b 0 5))))
  | none =>
    let miss : Act := .retire (s.setMe (s.me.setGroup o.d [3, 0, 0, 0]))
    if s.me.mode ≠ 0 || !(s.myLaunch s.cur).miss then miss
    else if (List.range 11).any fun x => (s.ctx (16 * coreNo s.cur + x)).missPosl.isSome then .stall s
    else .stall (s.setMe (s.me.enterMiss c.xbase c.z k.1 k.2.1 k.2.2))

/-- POSL (R347). -/
def execPosl (h : Hdr) (o : Ops) (s : State) : Out := issueX .posl h o (poslBody o) s

/-- The buffer after POSF writes an entry (R348): the newest first, at most 64; invalid ones give way before the oldest. A write is a use of its
entry (DESIGN CHOICE, log 78). -/
def ptbWrite (l : List PtbEntry) (e : PtbEntry) : List PtbEntry :=
  let rest := l.filter fun x => ptbValid x && ptbKey x ≠ ptbKey e
  if ptbValid e then (e :: rest).take 64 else rest

/-- POSF (R348). -/
def execPosf (h : Hdr) (o : Ops) (s : State) : Out :=
  issueX .posf h o (fun s =>
    let w (i : Nat) : Nat := (s.me.sreg (o.a.num + i)).toNat
    let e : PtbEntry := w 0 + 2 ^ 64 * w 1 + 2 ^ 128 * w 2
    if bits e 116 13 ≠ 0 then .trap s 0x07 0
    else .retire (s.setMyCore { s.myCore with ptb := ptbWrite s.myCore.ptb e })) s

/-- POSI: entries that match go (R348). -/
def posiBody (hit : State → PtbEntry → Bool) (s : State) : Act :=
  .retire (s.setMyCore { s.myCore with ptb := s.myCore.ptb.filter fun e => !hit s e })

/-- POSI.tag (R348). -/
def execPosiTag (h : Hdr) (o : Ops) (s : State) : Out :=
  issueX .posiTag h o (posiBody fun s e => bits e 160 32 = bits (s.arg o.a).toNat 0 32 && bits e 156 4 = bits (s.arg o.b).toNat 0 4) s
/-- POSI.seq (R348). -/
def execPosiSeq (h : Hdr) (o : Ops) (s : State) : Out :=
  issueX .posiSeq h o (posiBody fun s e => bits e 160 32 = bits (s.arg o.a).toNat 0 32) s
/-- POSI.all (R348). -/
def execPosiAll (h : Hdr) (o : Ops) (s : State) : Out := issueX .posiAll h o (posiBody fun _ _ => true) s

/-! ## Heaps (R171, R349) -/

/-- A heap entry: score bits and id. -/
abbrev HeapEntry := Nat × Nat

/-- The order of R171: the higher score is larger, then the lower id; a NaN is below every number. -/
def heapLt (x y : HeapEntry) : Bool :=
  let nan (a : Nat) : Bool := 0x7F800000 < a % 2 ^ 31
  let byId : Bool := y.2 < x.2
  if nan x.1 then (if nan y.1 then byId else true)
  else if nan y.1 then false
  else match (widen .f32 x.1).cmp (widen .f32 y.1) with
    | .lt => true
    | .gt => false
    | .eq => byId

def siftUp : Nat → Nat → List HeapEntry → List HeapEntry
  | 0, _, h => h
  | fuel + 1, i, h =>
    let p := (i - 1) / 2
    let x := h.getD i (0, 0)
    let y := h.getD p (0, 0)
    if i ≠ 0 && heapLt x y then siftUp fuel p ((h.set i y).set p x) else h

def siftDown : Nat → Nat → List HeapEntry → List HeapEntry
  | 0, _, h => h
  | fuel + 1, i, h =>
    match h[2 * i + 1]? with
    | none => h
    | some l =>
      let j := match h[2 * i + 2]? with | some r => if heapLt r l then 2 * i + 2 else 2 * i + 1 | none => 2 * i + 1
      let x := h.getD i (0, 0)
      let y := h.getD j (0, 0)
      if heapLt y x then siftDown fuel j ((h.set i y).set j x) else h

/-- HSIFT on a heap's entries: the entries after it, and whether the new one was placed. -/
def heapSift (k : Nat) (h : List HeapEntry) (x : HeapEntry) : List HeapEntry × Bool :=
  if h.length < k then (siftUp 64 h.length (h ++ [x]), true)
  else match h.head? with
    | some r => if heapLt r x then (siftDown 64 0 (h.set 0 x), true) else (h, false)
    | none => (h, false)

/-- HPOP: the last entry goes to the root and sifts down. -/
def heapPop (h : List HeapEntry) : List HeapEntry :=
  match h.getLast?, h with
  | some l, _ :: _ => siftDown 64 0 ((h.set 0 l).take (h.length - 1))
  | _, _ => []

/-- A heap at a local offset: K and the live entries. -/
def State.heapAt (s : State) (core off : Nat) : Nat × List HeapEntry :=
  let rd (o n : Nat) : Nat := ofBytes (s.readLocal core o n)
  (rd off 2, (List.range (rd (off + 2) 2)).map fun i => (rd (off + 8 + 8 * i) 4, rd (off + 12 + 8 * i) 2))

/-- The first check of R349 that fails, and SOFT_ERROR for a poisoned word (R427). -/
def State.heapCause (s : State) (off : Nat) : Option (Nat × Nat) :=
  let h := s.heapAt (coreNo s.cur) off
  if off % 8 ≠ 0 then some (0x0A, off)
  else if !inProgram off 8 || !inProgram off (8 + 8 * h.1) then some (0x07, off)
  else if h.1 = 0 || 64 < h.1 || h.1 < h.2.length then some (0x07, 0)
  else s.poisonAt off (8 + 8 * h.2.length)

/-- Writes a heap's count and entries; an entry's reserved bytes are written as zero. -/
def State.putHeap (s : State) (core off : Nat) (h : List HeapEntry) : State :=
  h.zipIdx.foldl (fun t e => t.poke (locLocal core (off + 8 + 8 * e.2)) (toBytes 4 e.1.1 ++ toBytes 4 e.1.2))
    (s.poke (locLocal core (off + 2)) (toBytes 2 h.length))

/-- What watchpoints record of a heap instruction's accesses, to a heap that holds up to `n` entries; it raises no WATCH (R385, R412; DEDUCED,
log 62). -/
def State.noteHeap (s : State) (off n : Nat) (st : Bool) : State :=
  s.watchNotes s.me.pc [(0xF1 * 2 ^ 56 + coreNo s.cur * 2 ^ 36 + off, 8 + 8 * n)] true st

/-- HSIFT (R349). -/
def execHsift (h : Hdr) (o : Ops) (s : State) : Out :=
  issueX .hsift h o (fun s =>
    let off := (s.arg o.a).toNat
    match s.heapCause off with
    | some c => .trap s c.1 (word c.2)
    | none =>
      let hp := s.heapAt (coreNo s.cur) off
      let r := heapSift hp.1 hp.2 (bits (s.arg o.b).toNat 0 32, bits (s.arg o.c).toNat 0 16)
      let s1 := s.noteHeap off (if r.2 then max hp.2.length r.1.length else hp.2.length) r.2
      .retire (((if r.2 then s1.putHeap (coreNo s.cur) off r.1 else s1)).setS o.d (word r.2.toNat))) s

/-- HPOP (R349). -/
def execHpop (h : Hdr) (o : Ops) (s : State) : Out :=
  issueX .hpop h o (fun s =>
    let off := (s.arg o.a).toNat
    match s.heapCause off with
    | some c => .trap s c.1 (word c.2)
    | none =>
      match (s.heapAt (coreNo s.cur) off).2 with
      | [] => let s1 := s.noteHeap off 0 false; .retire (s1.setMe (s1.me.setGroup o.d [0, BitVec.allOnes 64]))
      | r :: es =>
        let s1 := (s.noteHeap off (es.length + 1) true).putHeap (coreNo s.cur) off (heapPop (r :: es))
        .retire (s1.setMe (s1.me.setGroup o.d [word r.1, word r.2]))) s

end Sys2Proof.Machine
end

