-- ==== Sys2Proof/Machine/Sched.lean ====
section
/-! DEFINITION. Records, cluster queues, graph nodes, cancellation, and the end of a launch (R47 to R51, R174 to R186, R468). -/

namespace Sys2Proof.Machine

/-! ## Responses to functions (R362, R363, R383, R451) -/

/-- Functions 0 and 1 are the physical functions of ports 0 and 1; 2 to 65 are the 64 virtual functions, on port 0 until boot has divided them
(R361; DESIGN CHOICE, log 51). -/
def funcReset (f : Nat) : Func := Func.init (if f = 1 then 1 else 0)
def State.func (s : State) (f : Nat) : Func := tget (funcReset f) s.funcs f
def State.setFunc (s : State) (f : Nat) (x : Func) : State := { s with funcs := tput (funcReset f) s.funcs f x }

/-- The number names a function (R361). -/
def isFunc (f : Nat) : Bool := f < 66

/-- A response entry as its 256 bits: TAG, STATUS, VALUE. -/
def responseWord (tag status value : Nat) : Nat := packBits [(32, tag), (32, status), (64, value), (128, 0)]

/-- The responses that wait take the slots that are free; each raises MSI-X. -/
def Func.flush : Nat → Func → Func
  | 0, x => x
  | k + 1, x =>
    match x.waiting with
    | [] => x
    | w :: r =>
      if x.rspTail - x.rspHead < 256 then
        Func.flush k { x with rsp := tput 0 x.rsp (x.rspTail % 256) w, rspTail := x.rspTail + 1, waiting := r, msix := x.msix + 1 }
      else x

/-- Writes a response; an unsolicited one that finds no free slot waits for one. -/
def State.respond (s : State) (f tag status value : Nat) : State :=
  let x := s.func f
  let y := { x with waiting := x.waiting ++ [responseWord tag status value] }
  s.setFunc f (y.flush (y.waiting.length))

/-- Smirvadin sends an unsolicited response to every function but those that are left out and those whose own port has failed (R451, R453); it runs
once boot has released it (R375, R383, R451). -/
def State.notify (s : State) (out : Nat → Bool) (value : Nat) : State :=
  if s.birhiry.boot ≠ 2 then s
  else (List.range 66).foldl (fun t f => if out f || s.hostLost.contains (s.func f).port then t else t.respond f 0xFFFFFFFF 0 value) s

/-- An event to the hosts, whose detail has 16 bits (R451). -/
def State.hostEvent (s : State) (kind detail : Nat) : State := s.notify (fun _ => false) (0x200 + kind + 0x10000 * (detail % 2 ^ 16))

/-- Grants that end: each tells the other functions (R383, R463). -/
def State.endProfilers (s : State) (gone : Profiler → Bool) : State :=
  (s.profilers.filter gone).foldl (fun t p => t.notify (· = p.func) (0x100 + p.kind)) { s with profilers := s.profilers.filter fun p => !gone p }

/-- The launches of a function that have not ended. -/
def State.launchesOf (s : State) (f : Nat) : List Nat := (s.launches.filter fun x => x.2.func = f && x.2.stage < 2).map (·.1)

/-- The grants of a function end when its launches have all completed (R463). -/
def State.endGrants (s : State) (f : Nat) : State := if s.launchesOf f = [] then s.endProfilers fun p => p.func = f else s

/-! ## Migrating functions (R457) -/

def State.mig (s : State) (f : Nat) : Migration := tget Migration.init s.migs f
def State.setMig (s : State) (f : Nat) (m : Migration) : State := { s with migs := tput Migration.init s.migs f m }

/-- A function's launches do not run here: its final copy is acknowledged, or its COMMIT has been sent or is awaited, or it runs on another package
(R457). -/
def State.migGone (s : State) (f : Nat) : Bool := let m := (s.mig f).stage; (2 ≤ m && m ≤ 4) || m = 6

/-! ## Records (R47, R48, R51) -/

/-- The address space of a launch; launch 0 stands for none, and a supervisor core's addresses are physical. -/
def State.rootOf (s : State) (l : Nat) : Option Nat := if l = 0 then none else some (s.launchOf l).root
def State.rdL (s : State) (l va n : Nat) : Nat := s.rdIn (s.rootOf l) va n
def State.wrL (s : State) (l va n v : Nat) : State := s.wrIn (s.rootOf l) va n v

/-- The offset of a record's control word. -/
def ctrlAt (kind : Nat) : Nat := if kind = 1 then 0x1C else 0x14

/-- A reserved bit of a control word is set, or its KIND is 11 (R48). -/
def ctrlBad (ctrl : Nat) : Bool := bits ctrl 9 23 ≠ 0 || bits ctrl 6 2 ≠ 0 || bits ctrl 2 2 = 3

/-- Hardware writes STATE: 0 QUEUED, 1 RUNNING, 2 COMPLETE, 3 CANCELLED. A unit of the launch lies nowhere. -/
def State.setRec (s : State) (l kind va st : Nat) : State :=
  if va = 0 then s
  else
    let c := s.rdL l (va + ctrlAt kind) 4
    s.wrL l (va + ctrlAt kind) 4 (c - bits c 4 2 * 16 + st * 16)

/-- CREQ of a record. -/
def State.recCreq (s : State) (l kind va : Nat) : Bool := va ≠ 0 && bitOf (s.rdL l (va + ctrlAt kind) 4) 8
def State.setCreq (s : State) (l kind va : Nat) : State :=
  if va = 0 then s else s.wrL l (va + ctrlAt kind) 4 (s.rdL l (va + ctrlAt kind) 4 ||| 256)

/-- A record reaches COMPLETE or CANCELLED, and is counted (R182, R184). -/
def State.finishRec (s : State) (l kind va : Nat) (done : Bool) : State :=
  let s1 := s.setRec l kind va (if done then 2 else 3)
  let x := s1.launchOf l
  if l = 0 then s1 else s1.setLaunch l (if done then { x with units := x.units + 1 } else { x with ncanc := x.ncanc + 1 })

/-! ## Queues (R175 to R178) -/

def levelOf (x : Cluster) (l prio : Nat) : Nat := (x.queue.filter fun r => r.launch = l && r.prio = prio).length

/-- A level of a launch takes one more record: 32 on the die, the rest in the launch's backing area (R176). -/
def Cluster.room (x : Cluster) (l prio : Nat) : Bool :=
  let parked (p : Nat) : Nat := (x.parked.filter fun r => r.launch = l && r.prio = p).length
  levelOf x l prio + parked prio < 32 || ([0, 1, 2, 3].map fun p => levelOf x l p + parked p - 32).sum < 32768

/-- AGE of an empty level is zero (R178). -/
def Cluster.ageReset (x : Cluster) : Cluster :=
  { x with age := x.age.zipIdx.map fun a => if x.queue.any (fun r => r.prio = a.2) then a.1 else 0 }

/-- A record joins its queue, or is set CANCELLED on arrival (R185). -/
def State.arrive (s : State) (cl : Nat) (r : QRec) : State :=
  if (s.launchOf r.launch).cancelled then s.finishRec r.launch r.kind r.va false
  else
    let s1 := s.setRec r.launch r.kind r.va 0
    let x := s1.cluster cl
    s1.setCluster cl { x with queue := x.queue ++ [r] }

/-- The record in the form of a queue entry. -/
def queued (l va kind prio : Nat) : QRec := { va := va, launch := l, kind := kind, prio := prio, core := none, parker := 0, parkDom := 0, unit := none, ctx := 0 }

/-- A launch ends FAILED with a reason (R182); the first reason stays. -/
def State.failLaunch (s : State) (l reason : Nat) : State :=
  let x := s.launchOf l
  s.setLaunch l { x with failed := some (x.failed.getD reason) }

/-- The kind of a record that no queue or context holds. A control word of a waiting continuation or graph node at offset 0x14 says so; else a
range task is one whose offset 0x1C holds a control word of that kind and whose bounds are in order (R47, R51; DESIGN CHOICE, log 49). A range
that has ended, with LO at HI, is no waiting record. -/
def State.kindAt (s : State) (l va : Nat) : Nat :=
  let j := s.rdL l (va + 0x10) 4
  let a := s.rdL l (va + 0x14) 4
  let c := s.rdL l (va + 0x1C) 4
  let range := bits c 2 2 = 1 && !ctrlBad c && j ≤ a
  let waits := !ctrlBad a && bits a 2 2 ≠ 1 && bits a 4 2 = 0 && j ≠ 0 && !(range && j = a && 2 ≤ bits c 4 2)
  if range && !waits then 1 else bits a 2 2

/-- JDEC on a record at its home (R50, R275): its code, and the record it takes to zero, with its KIND and PRIO. One on a record that was cancelled
returns 1 and enqueues nothing: a range task's cancelled STATE says so, for its LO may not be zero (R184). -/
def State.jdec (s : State) (l va : Nat) : State × Nat × Option QRec :=
  let j := s.rdL l (va + 0x10) 4
  let kind := s.kindAt l va
  let ctrl := s.rdL l (va + ctrlAt kind) 4
  let s1 := s.markHomes (s.rootOf l) va 32
  if j = 0 || (kind = 1 && bits ctrl 4 2 = 3) then (s1, 1, none)
  else (s1.wrL l (va + 0x10) 4 (j - 1), 0, if j = 1 then some (queued l va kind (bits ctrl 0 2)) else none)

/-- The die scheduler's reads of a graph node mark what it walks (R79). -/
def State.markNode (s : State) (l va : Nat) : State :=
  let r := s.rootOf l
  ((s.markHomes r va 32).markHomes r (s.rdL l va 8) 8).markHomes r (s.rdL l (va + 8) 8) 8

/-- The die scheduler takes a graph node and chooses (R180, R181): the state, and the chosen successor's record and cluster. -/
def State.nodeChoice (s : State) (l va : Nat) : State × Option (Nat × Nat) :=
  let w := s.rdL l (s.rdL l va 8) 8
  let table := s.rdL l (va + 8) 8
  let node := s.rdL l (va + 0x18) 8
  let n := s.rdL l table 8
  if node % 4 = 3 || 4 ≤ node || ctrlBad (s.rdL l (va + 0x14) 4) then (s.failLaunch l 0x01, none)
  else
    let i := if node % 4 = 1 then (if w < n then w else n - 1) else if w ≠ 0 then 0 else 1
    let s1 := if node % 4 = 2 && w ≠ 0 then s.wrL l (va + 0x10) 4 1 else s.finishRec l 2 va true
    let rec_ := s.rdL l (table + 8 + 16 * i) 8
    (if i < n then s1.markHomes (s.rootOf l) (table + 8 + 16 * i) 16 else s1, if i < n && rec_ ≠ 0 then some (rec_, s.rdL l (table + 16 + 16 * i) 2) else none)

/-- A record reaches a queue: a graph node is taken at once, and its successor goes to the cluster that its list entry names (R175, R181, R183;
DEDUCED, log 57). Also the cluster whose queue has no room for the record that it comes to, which then enqueues nothing (R176). `fuel` bounds a
chain of nodes; a node beyond it waits in the queue for the die scheduler. -/
def State.deliverTo : Nat → Nat → QRec → State → State × Option Nat
  | 0, cl, r, s => if (s.cluster cl).room r.launch r.prio then (s.arrive cl r, none) else (s, some cl)
  | fuel + 1, cl, r, s =>
    if r.kind = 2 && !(s.launchOf r.launch).cancelled then
      let x := (s.markNode r.launch r.va).nodeChoice r.launch r.va
      match x.2 with
      | none => (x.1, none)
      | some (va, to') =>
        let y := x.1.jdec r.launch va
        match y.2.2 with
        | some q => deliverTo fuel (to' % 384) q y.1
        | none => (y.1, none)
    else if (s.cluster cl).room r.launch r.prio then (s.arrive cl r, none)
    else (s, some cl)

/-- The graph nodes that one record may pass through in one step: more than an address space holds, so that a longer chain goes round nodes that
loop (log 57). -/
def nodeFuel : Nat := 2 ^ 51

/-- A record that the hardware itself enqueues: where there is no room its launch ends FAILED (R176). -/
def State.deliver (s : State) (cl : Nat) (r : QRec) : State :=
  let x := s.deliverTo nodeFuel cl r
  if x.2.isSome then x.1.failLaunch r.launch 0x17 else x.1

/-- A graph node that waits in a cluster's queue goes on (R181). -/
def State.runNodes (s : State) : State :=
  match s.clusters.findSome? fun c => (c.2.queue.find? fun r => r.kind = 2).map fun r => (c.1, r) with
  | none => s
  | some (cl, r) =>
    let x := s.cluster cl
    State.deliver (s.setCluster cl { x with queue := x.queue.erase r }) cl r

/-- The launch whose queue takes a record that the list of launch l names for a cluster: l while it is active, and after it an active
launch of its address space that may use a core of the cluster (R176, R183; DESIGN CHOICE, log 49). -/
def State.ownerFor (s : State) (l cl : Nat) : Option Nat :=
  let x := s.launchOf l
  if x.stage = 1 then some l
  else (s.launches.find? fun y => y.2.stage = 1 && y.2.root = x.root && y.2.cores.any fun c => c / 8 = cl).map (·.1)

/-- Signals a list in the layout of R183: JDEC on each entry's record, in list order. A record whose JOIN reaches zero where no active launch has a
core in the named cluster is queued nowhere, and a cluster number beyond the package's is used as it stands (DESIGN CHOICE, log 80). -/
def State.signal (s : State) (l list : Nat) : State :=
  if list = 0 then s
  else (List.range (s.rdL l list 8)).foldl (fun t i =>
    let va := t.rdL l (list + 8 + 16 * i) 8
    let cl := t.rdL l (list + 16 + 16 * i) 2
    if va = 0 then t
    else
      let y := t.jdec l va
      match y.2.2, t.ownerFor l cl with
      | some q, some o => y.1.deliver cl { q with launch := o }
      | _, _ => y.1) (s.markHomes (s.rootOf l) list (8 + 16 * s.rdL l list 8))

/-! ### Pops -/

/-- A unit whose launch is resident all at once waits (R59, R64). -/
def State.promised (s : State) (r : QRec) : Bool := r.unit.isSome && r.ctx = 0 && (s.launchOf r.launch).coRes

/-- A core, once idle, can take a waiting unit: the launch may use it, it has not left the launch, the launch has no image of it, and its die works
(R64, R182, R407, R423). -/
def State.canSeat (s : State) (core : Nat) (u : QRec) : Bool :=
  let x := s.launchOf u.launch
  x.cores.contains core && !x.left.contains core && !(s.images.any fun i => i.launch = u.launch && i.num = core) && !(s.die (core / 128)).lost

/-- The sublists of a list. -/
def sublists : List Nat → List (List Nat)
  | [] => [[]]
  | c :: r => sublists r ++ (sublists r).map (c :: ·)

/-- Units that any core of their cluster may take find a core each among some cores: no set of the cores has more units to itself than it has
cores. -/
def seated (can : Nat → QRec → Bool) (units : List QRec) (cores : List Nat) : Bool :=
  (sublists cores).all fun t => (units.filter fun u => cores.all fun c => !can c u || t.contains c).length ≤ t.length

/-- The cores of a cluster that belong to no launch, and that no unit placed on them keeps (R59, R64). -/
def State.idleCores (s : State) (cl : Nat) : List Nat :=
  let placed := (s.cluster cl).queue.filter fun u => s.promised u && u.core.isSome
  ((List.range 8).map (8 * cl + ·)).filter fun c => (s.core c).launch = none && !placed.any fun u => u.core = some c

/-- The units that wait for any core of a cluster, of launches that are resident all at once. -/
def State.looseUnits (s : State) (cl : Nat) : List QRec := (s.cluster cl).queue.filter fun u => s.promised u && u.core = none

/-- An idle core is kept for a unit of a launch that is resident all at once (R59, R64): one that is placed on it, or one that would find no core
once this one has taken the record. -/
def State.keptFrom (s : State) (core : Nat) (r : QRec) : Bool :=
  let cl := core / 8
  let loose := s.looseUnits cl
  let idle := s.idleCores cl
  if (s.cluster cl).queue.any fun u => s.promised u && u.core = some core then r.core ≠ some core || !s.promised r
  else !seated s.canSeat (loose.erase r) (idle.erase core) && (!loose.contains r || seated s.canSeat loose idle)

/-- The asker may take a record: of its kind, of its launch or of one that it may join, placed on its core or on none (R177, R468). -/
def State.mayTake (s : State) (core kind : Nat) (r : QRec) : Bool :=
  let x := s.launchOf r.launch
  r.kind = kind && r.ctx = 0 && (r.core = none || r.core = some core) && x.stage = 1 && !x.held && x.cores.contains core && !x.left.contains core
    && (match (s.core core).launch with | some l => l = r.launch | none => !s.keptFrom core r)

/-- The level that a pop serves (R178). -/
def servedLevel (age : List Nat) (levels : List Nat) : Option Nat :=
  match [0, 1, 2].find? fun l => levels.contains l && 64 ≤ age.getD l 0 with
  | some l => some l
  | none => levels.foldl (fun b l => match b with | some x => some (max x l) | none => some l) none

/-- Round robin: the launch after the one last served. The rule names no order among launches; the model goes by launch id (R177; DESIGN CHOICE, log
79). -/
def nextLaunch (last : Option Nat) (ls : List Nat) : Option Nat :=
  let after := match last with | some x => ls.filter (x < ·) | none => ls
  let least (l : List Nat) : Option Nat := l.foldl (fun b x => match b with | some y => some (min x y) | none => some x) none
  match least after with
  | some x => some x
  | none => least ls

/-- Pops a record for a core (R177, R178): the counters and the round-robin pointer move with it. A level none of whose records the asker may take is
passed over as an empty one, and ages as one that is not, so that its AGE may pass 64 (DESIGN CHOICE, log 79). -/
def State.pop (s : State) (core kind : Nat) : Option (State × QRec) :=
  let cl := core / 8
  let x := s.cluster cl
  let ok := x.queue.filter (s.mayTake core kind)
  match servedLevel x.age (ok.map (·.prio)) with
  | none => none
  | some lv =>
    let here := ok.filter fun r => r.prio = lv
    match nextLaunch ((x.last.getD lv none)) (here.map (·.launch)) with
    | none => none
    | some l =>
      match here.find? fun r => r.launch = l with
      | none => none
      | some r =>
        let age := x.age.zipIdx.map fun a =>
          if a.2 = lv then 0 else if a.2 < lv && x.queue.any (fun q => q.prio = a.2) then a.1 + 1 else a.1
        some (s.setCluster cl ({ x with queue := x.queue.erase r, last := x.last.set lv (some l), age := age }).ageReset, r)

/-! ## What a launch has left (R182, R185) -/

/-- A core belongs to a launch. -/
def State.joined (s : State) (l core : Nat) : Bool := (s.core core).launch = some l

/-- A context runs a record or holds a range. -/
def Ctx.holdsWork (c : Ctx) : Bool := c.record.isSome || c.range.isSome

/-- A job-wide switch has the launch's contexts in its images (R407). -/
def State.switchedOut (s : State) (l : Nat) : Bool := s.images.any fun x => x.launch = l

/-- A context of one of the launch's cores, or of an image of it, runs a record or holds a range. -/
def State.runs (s : State) (l : Nat) : Bool :=
  (s.ctxs.any fun c => isCompute c.1 && s.joined l (coreNo c.1) && c.2.holdsWork)
    || s.images.any fun x => x.launch = l && x.ctxs.any (·.holdsWork)

/-- Clusters in order of number. -/
def State.clusterList (s : State) : List (Nat × Cluster) := s.clusters

/-- Cancels every queued and parked record of a launch (R185). -/
def State.cancelQueued (s : State) (l : Nat) : State :=
  s.clusters.foldl (fun t c =>
    let mine := (c.2.queue ++ c.2.parked).filter fun r => r.launch = l
    let t1 := t.setCluster c.1 ({ c.2 with queue := c.2.queue.filter (fun r => r.launch ≠ l), parked := c.2.parked.filter fun r => r.launch ≠ l }).ageReset
    mine.foldl (fun u r => u.finishRec l r.kind r.va false) t1) s

/-- Records of the launch that wait in a queue or are parked. -/
def State.waiting (s : State) (l : Nat) : Bool := s.clusters.any fun c => (c.2.queue ++ c.2.parked).any fun r => r.launch = l

/-- Writes the completion record (R182). -/
def State.writeCompletion (s : State) (l status reason : Nat) : State :=
  let x := s.launchOf l
  let fssn := if x.phased then (s.dom l 0).ssn else 0
  let w (t : State) (o n v : Nat) : State := t.wrL l (x.fin + o) n v
  let s1 := w (w (w (w s 0 4 status) 4 4 reason) 8 4 l) 0x0C 4 0
  let s2 := w (w (w s1 0x10 8 x.start) 0x18 8 (if status = 1 || status = 4 then 0 else s.cyc)) 0x20 8 x.units
  w (w (w s2 0x28 8 x.ncanc) 0x30 8 fssn) 0x38 8 0

/-- The launch's release (R182): what its cores published at a narrower scope is published at the launch's; what a stopped core has
not published is dropped (R430). A core that runs another launch by then has begun it without those stores. -/
def State.launchRelease (s : State) (l : Nat) : State :=
  let x := s.launchOf l
  let mine (y : Limited) : Option Nat :=
    (x.cores.find? fun c => if y.scope = 5 then y.inst / 16 = c else y.inst = scopeInst y.scope (16 * c)).map (16 * ·)
  let s1 : State := { s with lim := widenLim x.scope mine s.lim }
  (x.cores.filter fun c => (s.core c).launch = none).foldl (fun t c => (List.range 11).foldl (fun u i =>
    let k := u.ctx (16 * c + i)
    if k.own.any (fun o => !o.pub) then (u.setCtx (16 * c + i) { k with own := k.own.filter (·.pub), pubs := [] }).trimHeld (16 * c + i) else u) t) s1

/-- The ranges that contexts of cores that have left the launch hold are cancelled, and counted where they have a record (R182, R184). -/
def State.dropOrphans (s : State) (l : Nat) : State :=
  let x := s.launchOf l
  x.orphans.foldl (fun t g => if g.2.va = 0 then t else t.finishRec l 1 g.2.va false) (s.setLaunch l { x with orphans := [] })

/-- Held traffic of the launch waits for an exchange phase (R254). -/
def State.exchangesLeft (s : State) (l : Nat) : Bool := (s.launchOf l).cores.any fun c => (s.core c).held.any fun h => h.launch = l

/-- Nothing can take up what the launch has left: every core that it may use has left it, or none is in it and no record waits (R182; DEDUCED, log
48). Records that wait only where every usable core has left keep the launch open while another core has not, as R182 asks for every core. -/
def State.abandoned (s : State) (l : Nat) : Bool :=
  let x := s.launchOf l
  x.cores.all x.left.contains || !(s.waiting l || x.cores.any (s.joined l) || s.switchedOut l)

/-- A launch completes when nothing of it is queued, running, joined or switched out, and its held traffic has moved (R182; DEDUCED, log 48): the
record, then the dependants, and the profiler grants of a function that has no launch left (R463). Records and ranges that nothing can take up are
cancelled first. A launch whose function was reset ends CANCELLED (R453). -/
def State.checkLaunch (s : State) (l : Nat) : State :=
  let x := s.launchOf l
  if x.stage ≠ 1 then s
  else
    let s1 := if s.abandoned l then (if s.waiting l then s.cancelQueued l else s).dropOrphans l else s
    if s1.waiting l || s1.runs l || s1.switchedOut l || x.cores.any (s1.joined l) || s1.exchangesLeft l then s1
    else
      let y := s1.launchOf l
      let status := if y.failed.isSome then 5 else if y.ncanc = 0 && !y.withdrawn then 2 else 3
      let s2 := (s1.launchRelease l).writeCompletion l status (y.failed.getD 0)
      let s3 := s2.setLaunch l { y with stage := 2 }
      let s4 := { s3 with domains := s3.domains.filter fun d => d.1 / 16 ≠ l }
      (s4.signal l y.deps).endGrants y.func

/-! ## Cancellation (R184, R185) -/

/-- Marks a range with CREQ where a condition holds. -/
def RangeTask.ask (g : RangeTask) (which : RangeTask → Bool) : RangeTask := { g with creq := g.creq || which g }

/-- A context that runs or holds a record of some VAs sees CREQ (R184, R277). -/
def Ctx.ask (c : Ctx) (which : Nat → Bool) : Ctx :=
  { c with canreq := c.canreq || c.record.any which, range := c.range.map (·.ask fun g => which g.va) }

/-- Every context of a launch, in its cores or switched out, that runs or holds a record of a VA sees CREQ, and the ranges of cores that have
left keep it (R184, R185, R277). -/
def State.requestCancel (s : State) (l : Nat) (which : Nat → Bool) : State :=
  let x := s.launchOf l
  let s1 := s.setLaunch l { x with orphans := x.orphans.map fun g => (g.1, g.2.ask fun g => which g.va) }
  let s2 : State := { s1 with images := s1.images.map fun y => if y.launch = l then { y with ctxs := y.ctxs.map (·.ask which) } else y }
  s2.ctxs.foldl (fun t c => if isCompute c.1 && s.joined l (coreNo c.1) then t.setCtx c.1 (c.2.ask which) else t) s2

/-- Where the record at a VA of an address space lies. -/
def State.recordAt (s : State) (root : Option Nat) (va : Nat) : Option Nat :=
  if va = 0 then none else match s.homeIn root va false with | .at_ l _ => some l | _ => none

/-- A record that hardware knows: its launch, kind and VA, and whether it runs or is held as a range. -/
structure Found where
  launch : Nat
  kind : Nat
  va : Nat
  runs : Bool
  deriving DecidableEq, Repr

/-- What a context of a launch runs and holds. -/
def Ctx.work (l : Nat) (c : Ctx) : List Found :=
  (c.record.map fun va => ({ launch := l, kind := 0, va := va, runs := true } : Found)).toList
    ++ (c.range.map fun g => ({ launch := l, kind := 1, va := g.va, runs := true } : Found)).toList

/-- The records that are queued, parked, running or held, those of a launch that is switched out among them. -/
def State.known (s : State) : List Found :=
  let queued := s.clusters.flatMap fun c => (c.2.queue ++ c.2.parked).map fun r => ({ launch := r.launch, kind := r.kind, va := r.va, runs := false } : Found)
  let running := s.ctxs.flatMap fun c =>
    match (if isCompute c.1 then (s.core (coreNo c.1)).launch else none) with
    | none => []
    | some l => c.2.work l
  let away := s.images.flatMap fun x => x.ctxs.flatMap (Ctx.work x.launch)
  let orphans := s.launches.flatMap fun x => x.2.orphans.map fun g => ({ launch := x.1, kind := 1, va := g.2.va, runs := true } : Found)
  queued ++ running ++ away ++ orphans

/-- The known record that a VA in the address space of launch l names, the launch's own first. -/
def State.findRec (s : State) (l va : Nat) : Option Found :=
  match s.recordAt (s.rootOf l) va with
  | none => none
  | some at' =>
    let same (f : Found) : Bool := s.recordAt (s.rootOf f.launch) f.va = some at'
    match s.known.find? fun f => f.launch = l && same f with
    | some f => some f
    | none => s.known.find? same

/-- CANCEL on a record of a launch (R184): the code, 0 DONE, 1 LATE or 2 ALREADY. -/
def State.cancelRec (s : State) (l va : Nat) : State × Nat :=
  match s.findRec l va with
  | some f =>
    if f.runs then ((s.setCreq f.launch f.kind f.va).requestCancel f.launch (· = f.va), 1)
    else
      let other (r : QRec) : Bool := !(r.launch = f.launch && r.va = f.va)
      let s1 := s.clusters.foldl (fun t c =>
        t.setCluster c.1 ({ c.2 with queue := c.2.queue.filter other, parked := c.2.parked.filter other }).ageReset) s
      (s1.finishRec f.launch f.kind f.va false, 0)
  | none =>
    let kind := s.kindAt l va
    match bits (s.rdL l (va + ctrlAt kind) 4) 4 2 with
    | 2 | 3 => (s, 2)
    | 1 => (s.setCreq l kind va, 1)
    | _ => ((if kind = 1 then s else s.wrL l (va + 0x10) 4 0).finishRec l kind va false, 0)

/-- CANCEL naming a launch record (R185). -/
def State.cancelLaunch (s : State) (l : Nat) : State × Nat :=
  let x := s.launchOf l
  if x.stage = 2 then (s, 2)
  else
    let late := s.runs l || x.orphans ≠ []
    let s1 := (s.setLaunch l { x with cancelled := true }).cancelQueued l
    let mine := s1.known.filter fun f => f.launch = l && f.runs
    let s2 := (mine.foldl (fun t f => t.setCreq l f.kind f.va) s1).requestCancel l fun _ => true
    (s2.checkLaunch l, if late then 1 else 0)

end Sys2Proof.Machine
end

