-- ==== Sys2Proof/Machine/Exchange.lean ====
section
/-! DEFINITION. How queued and held transfers move, the exchange phase, and the barrier release (R59 to R63, R254, R258, R387,
R395, R419 to R424, R449). -/

namespace Sys2Proof.Machine

/-! ## Queued transfers -/

/-- TRANSFER_START of a queued transfer: its engine lands n of its points, or some more (R95, R99, R252, R254). -/
def State.startQueued (s : State) (core q id n : Nat) (fail : Bool) : Out :=
  match s.movable core q id with
  | none => .next s
  | some (e, x) =>
    match s.moveSome core q e fail n x with
    | .inl f => .fault f
    | .inr t => .next t

/-- TRANSFER_COMPLETE of a queued transfer: the rest of its points, and its end. -/
def State.completeQueued (s : State) (core q id : Nat) (fail : Bool) : Out :=
  match s.movable core q id with
  | none => .next s
  | some (e, x) =>
    match s.moveSome core q e fail (x.todo.length + 1) x with
    | .inl f => .fault f
    | .inr t => .next t

/-! ## The exchange phase -/

/-- The source cells of some held sends of a core get the contents of this moment (R254). -/
def State.captureSends (s : State) (core : Nat) (which : HeldSend → Bool) : State :=
  let c := s.core core
  let look (x : Transfer) : Transfer := if x.vals.isSome then x else { x with vals := some (s.captured x) }
  let held := c.held.map fun h => if which h then { h with xfer := h.xfer.map look } else h
  s.setCore core { c with held := held }

/-- As a core of a launch arrives or leaves, the SEND steps that wait and read its local memory keep what it holds (R371). -/
def State.keepSteps (s : State) (l core : Nat) : State :=
  let look (x : CStep) : CStep :=
    if x.launch = l && x.op = 0 && x.stage = 0 && spaceCode x.addr = 3 && bits x.addr 36 12 = core then
      { x with kept := some (writeBytes [] 0 (s.readLocal core (ptrOffset x.addr) x.len)) } else x
  { s with steps := s.steps.map look }

/-- A held send belongs to a domain's exchange. -/
def HeldSend.of (h : HeldSend) (l d : Nat) : Bool := h.launch = l && h.dom = d

/-- The exchange phase of a domain begins: the bytes of timed slots are read, and every counted send announces itself (R258, R424). -/
def State.beginSends (l d : Nat) (s : State) (core : Nat) : State :=
  let c := s.core core
  let tell (x : Transfer) : Transfer := { x with announced := true }
  let read (t : TimedSend) : TimedSend := { t with data := some (s.readLocal core t.src t.len) }
  let held := c.held.map fun h => if h.of l d then { h with xfer := h.xfer.map tell, slot := h.slot.map read } else h
  s.setCore core { c with held := held }

def State.lostCore (s : State) (core : Nat) : Bool := (s.die (core / 128)).lost

/-- The members that wait at SYNC for a domain's release. -/
def State.syncing (s : State) (x : Domain) : List Nat :=
  x.members.filter fun c => x.arrived.any (fun a => a.1 = c) && !x.gone.contains c && !s.lostCore c

/-- Held traffic of a domain waits to move. -/
def State.domainHolds (s : State) (l d : Nat) : Bool := (s.dom l d).members.any fun c => (s.core c).held.any (·.of l d)

/-- The exchange phase of a domain begins when its last member has arrived, with SYNC or by leaving (R60, R272, R423, R449); with no
member at SYNC it runs where held traffic remains (DEDUCED, log 48). -/
def State.checkExchange (s : State) (l d : Nat) : State :=
  let x := s.dom l d
  let here (c : Nat) : Bool := x.arrived.any (fun a => a.1 = c) || x.gone.contains c || s.lostCore c
  if x.exchange || (s.syncing x = [] && !s.domainHolds l d) || !x.members.all here then s
  else (x.members.filter fun c => !s.lostCore c).foldl (State.beginSends l d) (s.setDom l d { x with exchange := true })

/-- A held send moves: its domain is in its exchange phase. -/
def State.exchanging (s : State) (h : HeldSend) : Bool := (s.dom h.launch h.dom).exchange

def Core.heldSend (c : Core) (id : Nat) : Option HeldSend := c.held.find? fun h => h.id = id
def Core.dropHeld (c : Core) (id : Nat) : Core := { c with held := c.held.filter fun h => h.id ≠ id }

/-- A point of a transfer is one that lands: neither of its cells is OUTSIDE. -/
def State.lands (s : State) (x : Transfer) (pt : List Int) : Bool :=
  match s.homeCellIn x.root x.src pt, s.homeCellIn x.root x.dst pt with
  | .inr none, _ => false
  | _, .inr none => false
  | _, _ => true

/-- Points of a counted send that did not land, for the core that reports them: the receiver for a local destination, else the
sender (R420, R421, R424). -/
def State.missingOf (s : State) (core : Nat) (x : Transfer) (lost : Bool) : Missing :=
  { core := if spaceCode x.dst.base = 3 then bits x.dst.base 36 12 else core, base := x.dst.base, tsr := x.dstIdx, lat := x.lat,
    points := (x.todo ++ x.dropped).filter (s.lands x), lost := lost }

/-- A held send is refused: its remaining points are dropped, its journal entry refused, and the exchange ends in error (R420). -/
def State.refuseHeld (s : State) (core : Nat) (h : HeldSend) (x : Transfer) (cause addr : Nat) : State :=
  let s1 := s.setCore core ((s.core core).dropHeld h.id)
  let s2 := match h.jrn with | some j => s1.refusePost core j cause x.landed addr 0 | none => s1
  let y := s2.dom h.launch h.dom
  s2.setDom h.launch h.dom { y with missing := y.missing ++ [s.missingOf core x false], refused := true }

/-- The page of a point's destination is absent, and its point waits in a landing buffer (R419). -/
def State.pointWaits (s : State) (cid : Nat) (x : Transfer) (pt : List Int) : Bool :=
  match s.landPoint cid x pt (some 0) with
  | .absent _ => true
  | _ => false

/-- Point j of a held send may land now: it is the first, or the points before it wait for their pages and none names its cell
(R116, R419). -/
def State.mayOvertake (s : State) (cid : Nat) (x : Transfer) (j : Nat) : Bool :=
  (x.todo.take j).all (s.pointWaits cid x) && !s.cellWaits x j

/-- Lands point j of a held send, and then the points that share an aligned word of local memory with it (R99); or what stops one of
them, before which none has landed. The locations are those in shared and global memory. -/
def State.heldGroup (cid : Nat) : Nat → State → Transfer → Nat → List Nat → List Nat → Sum PointEnd (State × Transfer × List Nat)
  | 0, s, x, _, _, ls => .inr (s, x, ls)
  | k + 1, s, x, j, part, ls =>
    match x.todo[j]? with
    | none => .inr (s, x, ls)
    | some pt =>
      let goOn (s : State) (y : Transfer) (part ls : List Nat) : Sum PointEnd (State × Transfer × List Nat) :=
        match s.nextPart y part with
        | some i => State.heldGroup cid k s y i part ls
        | none => .inr (s, y, ls)
      match s.landPoint cid x pt (x.valAt j) with
      | .landed s1 l1 =>
        goOn s1 { x.without j with landed := x.landed + 1, watch := x.watch || s.landingWatched x pt } (part ++ s.partWords x j) (ls ++ l1)
      | .skipped s1 => goOn s1 (x.without j) part ls
      | e => .inl e

/-- A held send keeps the points that it has left. -/
def State.keepHeld (s : State) (core : Nat) (h : HeldSend) (x : Transfer) : State :=
  let c := s.core core
  s.setCore core { c with held := c.held.map fun z => if z.id = h.id then { z with xfer := some x } else z }

/-- What held traffic of a domain landed in shared and global memory: its barrier publishes it (R60). -/
def State.noteHeld (s : State) (h : HeldSend) (ls : List Nat) : State :=
  let y := s.dom h.launch h.dom
  if ls = [] then s else s.setDom h.launch h.dom { y with landed := y.landed ++ ls.map fun l => (l, h.ctx) }

/-- A held send keeps what it has left; where nothing is left but a refusal, that follows (R420). -/
def State.settleHeld (s : State) (core : Nat) (h : HeldSend) (x : Transfer) : State :=
  match x.todo, x.failed with
  | [], some c => s.refuseHeld core h x c.1 c.2
  | _, _ => s.keepHeld core h x

/-- Lands point j of a held send, and those that go with it, once the points before it are in landing buffers (R419). `fail` says that the service
of its page fails: that point and those after it are dropped (R420). -/
def State.moveHeld (s : State) (core : Nat) (h : HeldSend) (x : Transfer) (j : Nat) (fail : Bool) : Sum Fault State :=
  if x.todo.length ≤ j || !s.mayOvertake h.ctx x j then .inr s
  else match s.parks x (x.todo.take j) with
    | none => .inr s
    | some z =>
      match State.heldGroup h.ctx x.todo.length s z j [] [] with
      | .inr y => .inr ((y.1.settleHeld core h y.2.1).noteHeld h y.2.2)
      | .inl (.refused n a) => .inr (s.settleHeld core h (z.drop j n a))
      | .inl (.absent p) => .inr (if fail && s.mayRefuse x.root (ptrVa p) then s.settleHeld core h (z.drop j 0x06 p) else s)
      | .inl .hole => .inl .noSuchMemory
      | .inl _ => .inr s

/-- A held send of a core in its exchange phase, once its context's earlier releases have performed (R86). -/
def State.heldNow (s : State) (core id : Nat) : Option (HeldSend × Transfer) :=
  match (s.core core).heldSend id with
  | some h => if s.exchanging h && s.releasedBefore h.ctx h.num then h.xfer.map fun x => (h, x) else none
  | none => none

/-- The report of a landing that an exchange phase keeps for its end (R385); a timed slot's raises nothing at the receiver (R422). -/
def State.keepReport (s : State) (l d dest : Nat) (slot : Bool) (x : Word × Word) : State :=
  let y := s.dom l d
  s.setDom l d { y with reports := y.reports ++ [(dest, slot, x)] }

/-- An earlier held send of the core goes to the same core's local memory. -/
def State.heldBefore (s : State) (core : Nat) (h : HeldSend) (x : Transfer) : Bool :=
  ((s.core core).held.takeWhile fun y => y.id ≠ h.id).any fun y => match y.xfer with
    | some z => spaceCode z.dst.base = 3 && bits z.dst.base 36 12 = bits x.dst.base 36 12
    | none => false

/-- A held send completes once nothing is left of it and its count word may land; one with an advance, once the earlier ones to that core have
(R98, R254, R255, R257, R385; DEDUCED, log 56). -/
def State.completeHeld (s : State) (core : Nat) (h : HeldSend) (x : Transfer) : State :=
  if !s.mayFinish h.ctx x || (x.adv.isSome && s.heldBefore core h x) then s
  else
    let s1 := if s.landingSeen x then s.keepReport h.launch h.dom (bits x.dst.base 36 12) false (landingData (word (s.jrnPc core h.jrn)) h.ctx h.id) else s
    let s2 := s1.landedAll h.ctx h.jrn x
    s2.setCore core ((s2.core core).dropHeld h.id)

/-- The points of a held send from the first on, until one waits. -/
def State.moveHeldAll (s : State) (core id : Nat) (fail : Bool) : Nat → Sum Fault State
  | 0 => .inr s
  | k + 1 =>
    match s.heldNow core id with
    | none => .inr s
    | some (h, x) =>
      match x.todo with
      | [] => .inr (s.completeHeld core h x)
      | _ :: _ =>
        match s.moveHeld core h x 0 fail with
        | .inl f => .inl f
        | .inr t => t.moveHeldAll core id fail k

/-- TRANSFER_START: an engine of a core moves a transfer of queue q, at most n points, or point n of a held send (q = 4). -/
def execTransferStart (core q id n : Nat) (fail : Bool) (s : State) : Out :=
  if q < 4 then s.startQueued core q id n fail
  else match s.heldNow core id with
    | none => .next s
    | some (h, x) =>
      match s.moveHeld core h x n fail with
      | .inl f => .fault f
      | .inr t => .next t

/-- TRANSFER_COMPLETE: the last points of a transfer land, and it completes. -/
def execTransferComplete (core q id : Nat) (fail : Bool) (s : State) : Out :=
  if q < 4 then s.completeQueued core q id fail
  else match s.heldNow core id with
    | none => .next s
    | some (_, x) =>
      match s.moveHeldAll core id fail (x.todo.length + 1) with
      | .inl f => .fault f
      | .inr t => .next t

/-- SLOT_LANDING: the bytes of a timed slot land (R258, R406), and the receiving cluster joins the sender's destinations (R101); those of a core
whose die is lost do not move (R422). -/
def execSlotLanding (core id : Nat) (s : State) : Out :=
  match (s.core core).heldSend id with
  | some h =>
    match (if s.exchanging h && s.releasedBefore h.ctx h.num then h.slot else none) with
    | none => .next s
    | some t =>
      let s1 := s.setCore core ((s.core core).dropHeld id)
      match t.data with
      | some bs =>
        let m : Spilled := { tag := 0, off := t.dst, len := t.len, lo := 0, wid := 8 * t.len, val := ofBytes bs, count := 0 }
        if s1.lostCore t.dest || s1.lostCore core then .next s1
        else if !s1.mayReceive h.ctx t.dest || !s1.mayLand (t.dest = core) t.dest t.len then .next s
        else
          let s2 := (s1.landOrSpill (t.dest = core) t.dest (.msg m)).addDest h.ctx (.cluster (t.dest / 8))
          .next (if (s1.core t.dest).landingMeets t.dst t.len then s2.keepReport h.launch h.dom t.dest true (t.pc, word (core + id * 2 ^ 32)) else s2)
      | none => .next s1
  | none => .next s

/-! ## The barrier release -/

/-- The cone record of a superstep, where a ring is placed (R63, R387, R449). -/
def State.coneRecord (s : State) (x : Domain) : State :=
  match x.arrived with
  | [] => s
  | a :: r =>
    if x.coneBase = 0 then s
    else
      let early := r.foldl (fun m y => min m y.2) a.2
      let late := r.foldl (fun m y => max m y.2) a.2
      let sum := (x.arrived.map fun y => y.2 - early).sum
      let last := (x.arrived.filter fun y => y.2 = late).foldl (fun m y => min m y.1) 0xFFF
      let n := readNat s.mem x.coneBase 8
      let bs := toBytes 8 early ++ toBytes 8 late ++ toBytes 8 sum ++ toBytes 4 last ++ toBytes 4 x.ssn
      (s.poke (x.coneBase + 64 + 32 * (n % 4096)) bs).poke x.coneBase (toBytes 8 (n + 1))

/-- The missing points of some sends as a region of at most 16 boxes, rounded OUTER (R421). -/
def missingRegion (ms : List Missing) : Region :=
  match ms with
  | [] => Region.init
  | m :: r =>
    let lat := if r.all fun x => x.lat = m.lat then m.lat else unitLat m.lat.length
    let boxes : List Box := (ms.flatMap (·.points)).map fun p => (p.take lat.length).map fun c => (c, c + 1)
    let exact := canon lat boxes
    match roundBoxes lat 16 .outer exact with
    | some b => { Region.init with tsr := m.tsr, rank := lat.length, lat := latExps lat, boxes := b.1, inx := b.2 }
    | none => Region.init

/-- The exchange status block of a core (R421). -/
def State.statusBlock (s : State) (core ssn : Nat) (x : Domain) : State :=
  let ms := x.missing.filter fun m => m.core = core
  let b := locLocal core 0x0880
  match ms with
  | [] => (s.poke b (toBytes 8 ssn ++ toBytes 4 0 ++ toBytes 1 (x.lostDie.getD 0x1F))).poke (b + 0x10) (toBytes 16 0)
  | m :: _ =>
    let same := ms.filter fun y => y.base = m.base
    let flags := (ms.any (·.lost)).toNat + 2 * (ms.any fun y => !y.lost).toNat + 4 * (same.length != ms.length).toNat
    let pts := (ms.map fun y => y.points.length).sum
    let die := x.lostDie.getD 0x1F
    s.poke b (toBytes 8 ssn ++ toBytes 4 flags ++ toBytes 1 die ++ toBytes 3 0 ++ toBytes 4 ms.length ++ toBytes 4 0 ++ toBytes 8 pts
      ++ toBytes 8 m.base ++ toBytes 24 0 ++ regionBytes (missingRegion same) 0)

/-- The records that cores parked in a domain's superstep enter the queues, in order of core number and of issue (R60, R176). -/
def State.unpark (s : State) (l d : Nat) (members : List Nat) : State :=
  members.foldl (fun t c =>
    let x := t.cluster (c / 8)
    let here (r : QRec) : Bool := r.launch = l && r.parkDom = d && r.parker = c
    let mine := x.parked.filter here
    let t1 := t.setCluster (c / 8) { x with parked := x.parked.filter fun r => !here r }
    mine.foldl (fun u r => u.deliver (c / 8) r) t1) s

/-- The debug stop that waits for an exchange boundary or for DONE in task mode (R386). -/
def State.haltAt (s : State) (core : Nat) : State :=
  let c := s.core core
  if c.haltReq then (s.setCore core { c with haltReq := false }).setCtx (16 * core) { s.ctx (16 * core) with stopped := true } else s

/-- SYNC of a member ends (R60, R276, R395, R420): PHASE, the acquire, and DOMAIN_LOST for an error release. In a handler XPC moves on,
and ERET performs the acquire. -/
def State.releaseMember (s : State) (core : Nat) (err : Option Nat) : State :=
  let cid := 16 * core
  let c := (s.ctx cid).setStat 30 2 1
  if c.mode = 1 then
    s.setCtx cid { c with xpc := c.xpc + 8, atBarrier := true, owedAcq := some (match err with | some v => v + 1 | none => 0) }
  else
    let pc := c.pc
    let s1 := (s.setCtx cid { c.advance 8 with atBarrier := true }).acquireWhole cid
    match err with
    | some v => s1.takeTrap cid .retired 0x15 2 pc (word v)
    | none => s1

/-- How far pieces of data reach without a gap, from an offset on. -/
def reach (ps : List Piece) : Nat → Nat → Nat
  | 0, x => x
  | k + 1, x => match ps.find? fun p => p.off ≤ x && x < p.off + p.len with | some p => reach ps k (p.off + p.len) | none => x

/-- All the data of a RECV have arrived (R371). -/
def CStep.full (x : CStep) : Bool := x.len ≤ reach x.arrived (x.arrived.length + 1) 0

/-- The markers of every port that the data of a RECV came by have been gathered (R369, R370). -/
def State.gathered (s : State) (x : CStep) : Bool := x.arrived.all fun p => p.num ≤ (s.uetOf x.peer p.port).gathered

/-- A RECV into the local memory of a member that has not left has all its data, which lands in this exchange phase (R371). -/
def State.stepDue (l : Nat) (members : List Nat) (x : CStep) : Bool :=
  x.launch = l && x.op = 1 && x.stage = 1 && !x.landed && spaceCode x.addr = 3 && members.contains (bits x.addr 36 12) && x.full

/-- The end of a domain's exchange: what its held traffic landed is published at its scope, and its landings are reported (R60, R385). -/
def State.exchangeEnd (s : State) (x : Domain) : State :=
  x.reports.foldl (fun t r =>
    if r.2.1 then t.traceRec (16 * r.1) 2 r.2.2.1 r.2.2.2 else t.landOrSpill false r.1 (.report r.2.2.1 r.2.2.2)) (s.publishLanded x.scope x.landed)

/-- BARRIER_RELEASE of a domain of a launch, when its exchange has ended (R60 step 4, R63, R276, R420, R423). -/
def execBarrierRelease (l d : Nat) (s : State) : Out :=
  let x := s.dom l d
  let cores := s.syncing x
  if !x.exchange || s.steps.any (State.stepDue l (x.members.filter fun c => !x.gone.contains c)) || s.domainHolds l d then .next s
  else
    let err := if x.refused || x.lostDie.isSome then some (d + (x.lostDie.getD 0x1F) * 256) else none
    let s1 := ((s.coneRecord x).exchangeEnd x).setDom l d
      { x with ssn := x.ssn + 1, arrived := [], exchange := false, missing := [], refused := false, lostDie := none, landed := [], reports := [] }
    let told := (cores ++ x.missing.map (·.core)).eraseDups.filter fun c => !s.lostCore c
    let s2 := if err.isSome then told.foldl (fun t c => t.statusBlock c x.ssn x) s1 else s1
    let s3 := cores.foldl (fun t c => t.setCore c { t.core c with used := (t.core c).used.filter fun u => u.1 ≠ d }) s2
    let s4 := s3.unpark l d x.members
    .next ((cores.foldl (fun t c => (t.releaseMember c err).haltAt c) s4).checkLaunch l)

end Sys2Proof.Machine
end

