-- ==== Sys2Proof/Machine/Task.lean ====
section
/-! DEFINITION. Task and superstep instructions (R42 to R44, R47 to R52, R174 to R185, R269 to R277). -/

namespace Sys2Proof.Machine

/-! ## Shared parts -/

/-- What is reserved to the control context: a helper raises HELPER_BUSY (R269). -/
def controlOnly (body : State → Act) (s : State) : Act := if isHelper s.cur then .trap s 0x16 0 else body s

/-- The number of the launch that a context belongs to; 0 for none. -/
def State.launchNo (s : State) (cid : Nat) : Nat := ((s.file cid).launch).getD 0

/-- A helper of the core is LIVE (R44). -/
def State.helpersLive (s : State) (core : Nat) : Bool := (List.range 10).any fun i => (s.ctx (16 * core + i + 1)).life = .live

/-- The effect of an instruction that drops its context's lock bit as it releases (R94). -/
def State.dropping (s : State) (scope : Nat) (next : State → Act) : Act := s.releasing scope fun t => next (t.dropLock t.cur)

/-- A record named by a task instruction, as its home finds it (R270): the body, a wait for its page, or, where no memory can be
read, a result that the spec does not state: a free value in the destination. -/
def State.atRecord (s : State) (d p : Nat) (body : State → Act) : Act :=
  match s.access s.cur p 1 .atomic with
  | .wait va => .stall (s.setMe { s.me with wait := .walk va false })
  | .global _ e => body ((s.touchTlb s.cur e).markHomes (s.space s.cur) p 32)
  | .stop f => .stop f
  | _ => let x := s.draw; .retire (x.2.setS d (word x.1))

/-- No memory can be read at a record's address. -/
def State.unread (s : State) (p : Nat) : Bool :=
  match s.access s.cur p 1 .atomic with
  | .wait _ => false
  | .global _ _ => false
  | .stop _ => false
  | _ => true

/-! ## Joining and leaving a launch -/

/-- The ring that an entry of the initial ring table configures (R146, R148): as MRING would, and none where it refuses (R35, R332). -/
def ringOf (v : Nat) : Ring := (ringOfWord v).getD Ring.init

/-- The entries of a kind that apply to a core: one that names the core overrides one for every core (R148). Of two entries alike in core,
kind and index the first counts (DESIGN CHOICE, log 41). -/
def tableFor (rings : List (Nat × Nat × Nat × Nat)) (core kind : Nat) : List (Nat × Nat) :=
  (List.range 4).filterMap fun i =>
    let mine (c : Nat) : Option (Nat × Nat × Nat × Nat) := rings.find? fun r => r.1 = c && r.2.1 = kind && r.2.2.1 = i
    match mine core, mine 0xFFFFFFFF with
    | some r, _ => some (i, r.2.2.2)
    | none, some r => some (i, r.2.2.2)
    | none, none => none

/-- STAT at launch entry (R220): USER, IE 1, GRND 01, and PHASE 01 in a phased launch. -/
def entryStat (phased : Bool) : Word := if phased then 0x40000108 else 0x108

/-- Launch entry of a core (R42, R43, R59, R110, R146, R148, R150, R158, R174, R177, R220, R240, R334, R405): the constant block, the save block's offset, the
registers that it sets, and the accumulator slots. Matrix operations that an earlier launch left in the core's queue go (R150; DESIGN CHOICE, log 58). -/
def State.joinLaunch (s : State) (l core : Nat) : State :=
  let s := s.dropMatrix core
  let x := s.launchOf l
  let c := s.core core
  let a : Tab AMap := (tableFor x.rings core 1).map fun r => (r.1, { slot := bits r.2 0 5, len := bits r.2 8 4 })
  let o : Tab Ring := (tableFor x.rings core 0).map fun r => (r.1, ringOf r.2)
  let c1 : Core := { c with
    launch := some l, root := x.root, xbase := word (x.xbase.toNat / 4096 * 4096), hlim := x.hlim, rank := (x.cores.filter (· < core)).length, ssbase := 0,
    rows := (x.slots.filter fun r => r.1 = core).map (·.2), a := a, o := o, key := none, keyTsr := none, mvth := 0, bubl := 0, bud := 2,
    bdom := 0, used := [], itlb := [], dtlb := [], blocks := [], g := c.g.map fun g => (g.1, { g.2 with owner := 0 }) }
  let s1 := ((s.setCore core c1).poke (locLocal core 0) x.block).poke (locLocal core 0x800) (toBytes 8 (if x.saveb then 0x1E000 else 0))
  let slots := s1.coreSlots core
  let y := s1.cluster (core / 8)
  let s2 := s1.setCluster (core / 8) { y with slots := slots.foldl (fun t n => tput 0 t n 0) y.slots,
                                              flags := slots.foldl (fun t n => tput 0 t n 0) y.flags,
                                              bad := y.bad.filter fun b => !slots.contains b.1 }
  (List.range 11).foldl (fun t i =>
    let k := t.ctx (16 * core + i)
    t.setCtx (16 * core + i) { k with stat := entryStat x.phased, stopped := false, inPre := false, life := if i = 0 then k.life else .free }) s2

/-- The ranges that the contexts of a core hold as it leaves the launch stay with the launch (R182). -/
def State.leaveRanges (s : State) (l core : Nat) : State :=
  (List.range 11).foldl (fun t i =>
    let cid := 16 * core + i
    match (t.ctx cid).range with
    | none => t
    | some g =>
      let x := t.launchOf l
      (t.setLaunch l { x with orphans := x.orphans ++ [(cid, g)] }).setCtx cid { t.ctx cid with range := none }) s

/-- PHASE of every context of a core (R220). -/
def State.setPhases (s : State) (core v : Nat) : State :=
  (List.range 11).foldl (fun t i => t.setCtx (16 * core + i) ((t.ctx (16 * core + i)).setStat 30 2 v)) s

/-- A core leaves its launch, and counts as arrived in every domain from then on (R272). A leave in a compute phase counts as an arrival in that
superstep's cone record, where the core had not arrived already (R63, R449). Its held sends have the contents of this moment. What its engine
queues still hold stays, and moves when its turn comes, up to the core's next launch entry: the spec does not say what becomes of it (DESIGN CHOICE,
log 58). -/
def State.leaveLaunch (s : State) (core : Nat) : State :=
  match (s.core core).launch with
  | none => s
  | some l =>
    let s0 := ((s.captureSends core fun h => h.launch = l).keepSteps l core).leaveRanges l core
    let s1 := s0.setLaunch l { s0.launchOf l with left := core :: (s0.launchOf l).left }
    let s2 := (s1.setCore core { s1.core core with launch := none }).setPhases core 0
    let s3 := (List.range 16).foldl (fun t d =>
      let y := t.dom l d
      if y.members.contains core then
        let now := if y.exchange || y.arrived.any (fun a => a.1 = core) then [] else [(core, t.cyc)]
        (t.setDom l d { y with gone := core :: y.gone, arrived := y.arrived ++ now }).checkExchange l d
      else t) s2
    s3.checkLaunch l

/-- A context's record ends (R272): it is set COMPLETE and dropped. -/
def State.endRecord (s : State) (cid va : Nat) : State :=
  let s1 := s.finishRec (s.launchNo cid) 0 va true
  s1.setCtx cid { s1.ctx cid with record := none, canreq := false }

/-! ## Helpers -/

/-- SPAWN (R43, R271). -/
def execSpawn (h : Hdr) (o : Ops) (s : State) : Out :=
  issueX .spawn h o (controlOnly fun s =>
    let cid := s.cur + o.fn
    let c := s.ctx cid
    if s.myCore.hlim < o.fn || c.life ≠ .free then .trap s 0x16 (word o.fn)
    else
      let n := Ctx.start (s.arg o.a) s.me.wholeView [(1, s.arg o.b)]
      .retire (s.setCtx cid { c with pc := n.pc, s := n.s, p := 0, life := .live, view := n.view, own := [], loops := n.loops,
                                     wait := .none, inPre := false, cameFrom := n.cameFrom, canreq := false })) s

/-- JOINH (R44, R271). -/
def execJoinh (h : Hdr) (o : Ops) (s : State) : Out :=
  issueX .joinh h o (controlOnly fun s =>
    let c := s.ctx (s.cur + o.fn)
    match c.life with
    | .free => .retire (s.setS o.d 1)
    | .live => .stall s
    | .ended => .retire ((s.setCtx (s.cur + o.fn) { c with life := .free }).setS o.d 0)) s

/-! ## DONE (R272) -/

/-- DONE of a control context that has a record, or CQGET's part of it: the helpers, the release, the record. -/
def State.doneRecord (s : State) (va : Nat) (next : State → Act) : Act :=
  if s.helpersLive (coreNo s.cur) then .stall s
  else s.dropping (s.myLaunch s.cur).unitScope fun t => next (t.endRecord t.cur va)

/-- The debug stop of a task-mode core at its DONE (R386). -/
def State.haltTask (s : State) (cid : Nat) : State := if (s.myLaunch cid).phased then s else s.haltAt (coreNo cid)

/-- An entry that a context placed waits in a queue of its core. -/
def State.placed (s : State) (cid : Nat) : Bool := [0, 1, 2, 3].any fun q => ((s.unit cid).queue q).entries.any fun e => e.ctx = cid

/-- What a program's own entries landed is published at package scope as it ends (R267). -/
def State.publishPlaced (s : State) (cid : Nat) : State :=
  [0, 1, 2, 3].foldl (fun t q =>
    let c := t.unit cid
    let x := c.queue q
    let mine (y : Nat × Nat) : Bool := y.2 = cid
    (t.publishLanded 1 (x.landed.filter mine)).setUnit cid (c.setQueue q { x with landed := x.landed.filter fun y => !mine y })) s

/-- DONE of a program that MCRUN started (R267): what it placed has completed, its stores are published, its queue entry ends. -/
def State.doneProgram (s : State) : Act :=
  if s.placed s.cur then .stall s
  else s.releasing 1 fun t => .retire ((t.publishPlaced t.cur).endProgram t.cur none 0)

/-- DONE by its issuer. -/
def doneBody (s : State) : Act :=
  if isMemCore s.cur then s.doneProgram
  else if isSupervisor s.cur then s.dropping 0 .retire
  else if isHelper s.cur then
    s.dropping (s.myLaunch s.cur).unitScope fun t =>
      let t1 := match t.me.record with | some va => t.endRecord t.cur va | none => t
      .retire (t1.setMe { t1.me with life := .ended })
  else match s.me.record with
    | some va => s.doneRecord va fun t => .retire (t.haltTask t.cur)
    | none =>
      if s.helpersLive (coreNo s.cur) then .stall s
      else s.dropping (s.myLaunch s.cur).unitScope fun t => .retire ((t.haltTask t.cur).leaveLaunch (coreNo t.cur))

/-- DONE (R272). -/
def execDone (h : Hdr) (o : Ops) (s : State) : Out := issueX .done h o doneBody s

/-! ## Taking records (R273, R274) -/

/-- A pop is the launch's first dispatch where none came before (R182). -/
def State.firstDispatch (s : State) (l : Nat) : State :=
  let x := s.launchOf l
  if x.start = 0 then s.setLaunch l { x with start := s.cyc } else s

/-- A popped record's core belongs to its launch from then on (R177 rule 6). -/
def State.taken (s : State) (core : Nat) (r : QRec) : State :=
  (if (s.core core).launch = none then s.joinLaunch r.launch core else s).firstDispatch r.launch

/-- CODE, FRAME and ARG of a continuation record; a unit of the launch has its launch's, and its index (R57). -/
def State.recFields (s : State) (r : QRec) : Word × Word × Word :=
  match r.unit with
  | some u => ((s.launchOf r.launch).code, (s.launchOf r.launch).frame, word u)
  | none => (word (s.rdL r.launch r.va 8), word (s.rdL r.launch (r.va + 8) 8), word (s.rdL r.launch (r.va + 0x18) 8))

/-- The units of a context level start in the helpers of the core whose control context takes their parent's first unit (R57). Their helpers acquire
the whole view: R43 gives SPAWN's helper a view, and no rule gives theirs one (DESIGN CHOICE, log 73). -/
def State.startUnits (s : State) (core : Nat) (r : QRec) : State :=
  match r.unit with
  | none => s
  | some u =>
    let x := s.cluster (core / 8)
    let mine (q : QRec) : Bool := q.launch = r.launch && q.ctx ≠ 0 && q.core = r.core && q.unit = some (u + q.ctx)
    (x.queue.filter mine).foldl (fun t q =>
      let cid := 16 * core + q.ctx
      let f := t.recFields q
      let c := t.ctx cid
      let n := Ctx.start f.1 [] [(1, f.2.2), (62, f.2.1)]
      (t.setCtx cid { c with pc := n.pc, s := n.s, p := 0, life := .live, own := [], loops := n.loops, wait := .none,
                             inPre := false, cameFrom := n.cameFrom, record := some q.va, canreq := false }).acquireWhole cid)
      (s.setCluster (core / 8) ({ x with queue := x.queue.filter fun q => !mine q }).ageReset)

/-- The end test of CQGET (R273). -/
def State.endTest (s : State) (core l : Nat) : Bool :=
  let queued := (s.cluster (core / 8)).queue.any fun r => r.launch = l && r.kind = 0
  let runs := if (s.launchOf l).phased then
      (s.dom l (s.core core).bdom).members.any fun c => (s.core c).launch = some l && (List.range 11).any fun i => (s.ctx (16 * c + i)).record.isSome
    else s.runs l
  !queued && !runs

/-- CQGET's wait and its pop. -/
def cqgetPop (o : Ops) (s : State) : Act :=
  let core := coreNo s.cur
  match s.pop core 0 with
  | some (s1, r) =>
    let s2 := (s1.taken core r).setRec r.launch 0 r.va 1
    let f := s2.recFields r
    let c := s2.me
    let creq := s2.recCreq r.launch 0 r.va
    let regs := [(o.d, f.1), (62, f.2.1), (1, f.2.2), (63, c.pc + 8)]
    let c1 : Ctx := { regs.foldl (fun k w => k.setS w.1 w.2) c with record := some r.va, canreq := creq }
    .jump ((s2.setMe c1).startUnits core r |>.acquireWhole s.cur) f.1
  | none =>
    match s.myCore.launch with
    | some l => if s.endTest core l then .retire (s.setS o.d 0) else .stall s
    | none => .stall s

/-- CQGET (R273). A debug stop falls between its DONE and its pop (R386). -/
def execCqget (h : Hdr) (o : Ops) (s : State) : Out :=
  issueX .cqget h o (controlOnly fun s =>
    match s.me.record with
    | some va => s.doneRecord va (fun t => let u := t.haltTask t.cur; if u.me.stopped then .stall u else cqgetPop o u)
    | none => cqgetPop o s) s

/-- The next chunk of the range that a context holds, or its end (R51, R274). -/
def State.chunk (s : State) (d : Nat) (g : RangeTask) : State :=
  let l := s.launchNo s.cur
  if g.lo < g.hi then
    let e := min (g.lo + g.grain) g.hi
    let s1 := if g.va = 0 then s else s.wrL l (g.va + 0x10) 4 e
    s1.setMe (({ s1.me with range := some { g with lo := e } }).setGroup d [word g.lo, word e, g.code, g.frame])
  else
    let s1 := if g.va = 0 then s else s.finishRec l 1 g.va true
    s1.setMe (({ s1.me with range := none }).setGroup d [word g.hi, word g.hi, g.code, g.frame])

/-- A range task as a context takes it (R51). -/
def State.rangeOf (s : State) (l va : Nat) : RangeTask :=
  { va := va, code := word (s.rdL l va 8), frame := word (s.rdL l (va + 8) 8), lo := s.rdL l (va + 0x10) 4, hi := s.rdL l (va + 0x14) 4,
    grain := s.rdL l (va + 0x18) 4, creq := s.recCreq l 1 va }

/-- Where a candidate for a split stands (R52): in a queue behind so many records, or with a context, whose core may have left the launch. -/
inductive Place where
  | queued (near : Nat)
  | held (cid : Nat) (left : Bool)
  deriving DecidableEq, Repr

/-- A candidate for a split (R52): a queued range task, or a held range. -/
structure Victim where
  place : Place
  task : RangeTask
  deriving DecidableEq, Repr

/-- The order among candidates with equally many iterations left (R52). -/
def Place.rank : Place → Nat
  | .queued near => near
  | .held cid _ => 2 ^ 32 + cid

/-- How many records stand before one in its own queue, that of its level and launch (R176). -/
def Cluster.near (x : Cluster) (r : QRec) : Nat := ((x.queue.takeWhile (· ≠ r)).filter fun q => q.launch = r.launch && q.prio = r.prio).length

/-- The candidates of a cluster for a launch (R52, R179). -/
def State.victims (s : State) (l cl : Nat) : List Victim :=
  let x := s.cluster cl
  let queued := (x.queue.filter fun r => r.launch = l && r.kind = 1).map fun r => ({ place := .queued (x.near r), task := s.rangeOf l r.va } : Victim)
  let held := (List.range 8).flatMap fun i =>
    let core := 8 * cl + i
    if !s.joined l core then []
    else (List.range 11).filterMap fun j => (s.ctx (16 * core + j)).range.map fun g => ({ place := .held (16 * core + j) false, task := g } : Victim)
  let orphans := ((s.launchOf l).orphans.filter fun g => g.1 / 128 = cl).map fun g => ({ place := .held g.1 true, task := g.2 } : Victim)
  (queued ++ held ++ orphans).filter fun v => v.task.lo < v.task.hi && 2 * v.task.grain ≤ v.task.hi - v.task.lo

/-- The iterations that a candidate has left. -/
def Victim.size (v : Victim) : Nat := v.task.hi - v.task.lo

/-- The candidate with the most iterations left; on ties in the order of R52, and then the first of the list, which goes by cluster number
(R179). -/
def mostLeft : List Victim → Option Victim
  | [] => none
  | v :: r => match mostLeft r with
    | some w => if v.size < w.size || (v.size = w.size && w.place.rank < v.place.rank) then some w else some v
    | none => some v

/-- Splits a victim for a context (R52, R179): the asker holds the upper part, with the victim's CREQ. -/
def State.split (s : State) (cid : Nat) (v : Victim) : State :=
  let l := s.launchNo cid
  let g := v.task
  let mid := g.lo + (g.hi - g.lo + 1) / 2
  let s1 := if g.va = 0 then s else s.wrL l (g.va + 0x14) 4 mid
  let s2 := match v.place with
    | .queued _ => s1
    | .held x false => s1.setCtx x { s1.ctx x with range := some { g with hi := mid } }
    | .held x true =>
      let y := s1.launchOf l
      s1.setLaunch l { y with orphans := y.orphans.map fun o => if o = (x, g) then (x, { g with hi := mid }) else o }
  s2.setCtx cid { s2.ctx cid with range := some { g with va := 0, lo := mid } }

/-- A context takes the first chunk of a range. -/
def State.firstChunk (s : State) (d : Nat) (g : RangeTask) : State := State.chunk (s.setMe { s.me with search := 0 }) d g

/-- RQGET (R51, R52, R179, R274). -/
def rqgetBody (o : Ops) (s : State) : Act :=
  let core := coreNo s.cur
  let l := s.launchNo s.cur
  match s.me.range with
  | some g => .retire (s.chunk o.d g)
  | none =>
    if s.me.search = 2 then .retire (s.setMe (({ s.me with search := 0 }).setGroup o.d [0, 0, 0, 0]))
    else match s.pop core 1 with
      | some (s1, r) =>
        let s2 := (s1.taken core r).setRec r.launch 1 r.va 1
        .retire (s2.firstChunk o.d (s2.rangeOf r.launch r.va))
      | none =>
        if l = 0 then .retire (s.setMe (s.me.setGroup o.d [0, 0, 0, 0]))
        else match mostLeft (s.victims l (core / 8)) with
          | some v =>
            let s1 := s.split s.cur v
            match s1.me.range with
            | some g => .retire (s1.firstChunk o.d g)
            | none => .retire s1
          | none => .stall (s.setMe { s.me with search := 1 })

/-- RQGET (R274). -/
def execRqget (h : Hdr) (o : Ops) (s : State) : Out := issueX .rqget h o (rqgetBody o) s

/-- DIE_RANGE_SEARCH: the die scheduler's search for a context answers (R179): the candidate of the die's other clusters that R52's order
puts first, or none. -/
def execDieRangeSearch (cid : Nat) (s : State) : Out :=
  let c := s.ctx cid
  if !isCompute cid || c.search ≠ 1 || c.range.isSome then .next s
  else
    let cl := clusterNo cid
    let others := (List.range 16).filter (fun i => cl / 16 * 16 + i ≠ cl) |>.map (cl / 16 * 16 + ·)
    match mostLeft (others.flatMap (s.victims (s.launchNo cid))) with
    | some v => let s1 := s.split cid v; .next (s1.setCtx cid { s1.ctx cid with search := 0 })
    | none => .next (s.setCtx cid { c with search := 2 })

/-! ## Adding records (R175 to R177, R275) -/

/-- The code of CQADD, RQADD or CQNEXT on a record whose control word is given (R177, R275): nothing where it may be queued. -/
def State.addCode (s : State) (l kind ctrl cl : Nat) : Option Nat :=
  if ctrlBad ctrl then some 1
  else if bits ctrl 2 2 ≠ kind then some 2
  else if !(s.launchOf l).cores.any (fun c => c / 8 = cl) then some 3 else none

/-- CQADD and RQADD on a record and a cluster; `park` keeps the record for the barrier (R176), and `helper` says that a helper may not issue it,
which is the last check (R397). The control word is the one at the offset of the instruction's own kind, also where the record has the other
layout (DESIGN CHOICE, log 79). -/
def addBody (kind : Nat) (o : Ops) (va cl : Nat) (park helper : Bool) (s : State) : Act :=
  if helper && s.unread va then .trap s 0x16 0
  else s.atRecord o.d va fun s =>
    let l := s.launchNo s.cur
    let ctrl := s.rdL l (va + ctrlAt kind) 4
    match s.addCode l kind ctrl cl with
    | some n => if helper then .trap s 0x16 0 else .retire (s.setS o.d (word n))
    | none =>
      let r := queued l va kind (bits ctrl 0 2)
      let x := s.cluster cl
      if !x.room l r.prio then .trap s 0x17 (word cl)
      else if helper then .trap s 0x16 0
      else if park && !(s.launchOf l).cancelled then
        let s1 := s.setRec l kind va 0
        .retire ((s1.setCluster cl { x with parked := x.parked ++ [{ r with parker := coreNo s.cur, parkDom := s.myCore.bdom }] }).setS o.d 0)
      else .retire ((s.arrive cl r).setS o.d 0)

/-- CQADD (R275). -/
def execCqadd (h : Hdr) (o : Ops) (s : State) : Out :=
  issueX .cqadd h o (fun s => addBody 0 o (s.arg o.a).toNat (s.arg o.b).toNat false false s) s
/-- RQADD (R275). -/
def execRqadd (h : Hdr) (o : Ops) (s : State) : Out :=
  issueX .rqadd h o (fun s => addBody 1 o (s.arg o.a).toNat (s.arg o.b).toNat false false s) s
/-- CQNEXT (R176, R275). -/
def execCqnext (h : Hdr) (o : Ops) (s : State) : Out :=
  issueX .cqnext h o (fun s =>
    addBody 0 o (s.arg o.a).toNat (coreNo s.cur / 8) (s.myLaunch s.cur).phased (isHelper s.cur) s) s

/-- The cluster into which a context's JDEC enqueues (R175). -/
def State.jdecCluster (s : State) (cid : Nat) : Nat :=
  if isCompute cid then clusterNo cid else match (s.ctx cid).starter with | some x => x.1 / 8 | none => 0

/-- What a context's JDEC does at the record's home and at the queue that it reaches, with its code; and the cluster of a queue that has no
room (R50, R175, R176, R181). -/
def State.jdecBy (s : State) (cid va : Nat) : State × Nat × Option Nat :=
  let l := s.launchNo cid
  let x := s.jdec l va
  match x.2.2 with
  | some r => let y := if l = 0 then (x.1, none) else x.1.deliverTo nodeFuel (s.jdecCluster cid) r; (y.1, x.2.1, y.2)
  | none => (x.1, x.2.1, none)

/-- JDEC (R50, R86, R175, R275): QUEUE_FULL comes before any effect, its own and that of the graph nodes it reaches (R176, R413). One whose release
has performed meanwhile waits for a queue that has filled up (DESIGN CHOICE, log 59). -/
def execJdec (h : Hdr) (o : Ops) (s : State) : Out :=
  issueX .jdec h o (fun s =>
    let va := (s.arg o.a).toNat
    s.atRecord o.d va fun s =>
      match (if s.me.released then none else (s.jdecBy s.cur va).2.2) with
      | some cl => .trap s 0x17 (word cl)
      | none => s.releasing (s.myLaunch s.cur).unitScope fun t =>
        match t.jdecBy t.cur va with
        | (t1, code, none) => .retire (t1.setS o.d (word code))
        | (_, _, some _) => .stall (t.setMe { t.me with released := true })) s

/-! ## Supersteps (R60, R276) -/

/-- SYNC of a core in a phased launch, after its release: it arrives, and waits for the barrier (R60, R220). -/
def State.arriveAt (s : State) (l core : Nat) : Act :=
  let d := (s.core core).bdom
  let s1 := (s.setMe (s.me.setStat 30 2 2)).captureSends core (·.of l d) |>.keepSteps l core
  let x := s1.dom l d
  .stall ((s1.setDom l d { x with arrived := x.arrived ++ [(core, s.cyc)] }).checkExchange l d)

/-- SYNC (R44, R60, R276, R395): in task mode a release point alone. -/
def execSync (h : Hdr) (o : Ops) (s : State) : Out :=
  issueX .sync h o (controlOnly fun s =>
    let core := coreNo s.cur
    let l := s.launchNo s.cur
    if s.me.phase = 2 || ((s.launchOf l).phased && s.helpersLive core) then .stall s
    else s.dropping (s.dom l s.myCore.bdom).scope fun t =>
      if (t.launchOf l).phased then t.arriveAt l core else .retire t) s

/-- BDOM (R276): a helper's HELPER_BUSY comes last (R397). -/
def execBdom (h : Hdr) (o : Ops) (s : State) : Out :=
  issueX .bdom h o (fun s =>
    let d := (s.arg o.a).toNat
    if 16 ≤ d || !(s.dom (s.launchNo s.cur) d).members.contains (coreNo s.cur) then .trap s 0x07 0
    else if isHelper s.cur then .trap s 0x16 0
    else .retire (s.setMyCore { s.myCore with bdom := d })) s

/-- RDSSN (R276). -/
def execRdssn (h : Hdr) (o : Ops) (s : State) : Out :=
  issueX .rdssn h o (fun s =>
    let x := s.dom (s.launchNo s.cur) (bits (s.arg o.a).toNat 0 4)
    .retire (s.setS o.d (if x.members.contains (coreNo s.cur) then word x.ssn else BitVec.allOnes 64))) s

/-! ## Launching and cancelling (R184, R185, R277) -/

/-- The next launch number, never 0. -/
def State.newLaunch (s : State) : Nat := 1 + s.launches.foldl (fun m x => max m x.1) 0

/-- LAUNCH: the package launch unit accepts the record (R277). -/
def execLaunch (h : Hdr) (o : Ops) (s : State) : Out :=
  issueX .launch h o (fun s =>
    let l := s.newLaunch
    .retire ((s.setLaunch l { Launch.init with va := (s.arg o.a).toNat, stage := 0 }).setS o.d (word l))) s

/-- CANCEL on a record (R184, R277). -/
def execCancel (h : Hdr) (o : Ops) (s : State) : Out :=
  issueX .cancel h o (fun s =>
    let va := (s.arg o.a).toNat
    let l := s.launchNo s.cur
    let owner := match s.findRec l va with | some x => x.launch | none => l
    if l ≠ 0 && owner ≠ l then .trap s 0x07 (word va)
    else s.atRecord o.d va fun s =>
      let x := s.cancelRec l va
      .retire ((x.1.checkLaunch owner).setS o.d (word x.2))) s

/-- CANCEL.launch (R185): code 2 where no launch of that record is under way. -/
def execCancelLaunch (h : Hdr) (o : Ops) (s : State) : Out :=
  issueX .cancelLaunch h o (fun s =>
    let va := (s.arg o.a).toNat
    match s.launches.find? fun x => x.2.va = va && x.2.stage < 2 with
    | none => .retire (s.setS o.d 2)
    | some (l, _) => let x := s.cancelLaunch l; .retire (x.1.setS o.d (word x.2))) s

/-- CHKC (R277). -/
def execChkc (h : Hdr) (o : Ops) (s : State) : Out := issueX .chkc h o (fun s => .retire (s.setP o.d (s.canreq s.cur))) s

end Sys2Proof.Machine
end

