-- ==== Sys2Proof/Machine/LaunchUnit.lean ====
section
/-! DEFINITION. The package launch unit: the checks of a launch record, the placement of its units, and its dispatch (R53 to R59, R61,
R64, R148, R174, R182, R468). -/

namespace Sys2Proof.Machine

/-! ## The record's fields (R53 to R55) -/

/-- A level entry: COUNT, DOMAIN, SCOPE. -/
structure Level where
  count : Nat
  dom : Nat
  scope : Nat
  deriving DecidableEq, Repr

def State.levelWord (s : State) (l va i : Nat) : Nat := s.rdL l (va + 0x40 + 8 * i) 8

def levelOfWord (w : Nat) : Level := { count := bits w 0 32, dom := bits w 32 4, scope := bits w 36 4 }

/-- The widest scope number that a domain admits (R55). -/
def scopeFor (dom : Nat) : Nat :=
  match dom with
  | 0 => 1 | 1 => 1 | 2 => 2 | 3 => 2 | 4 => 3 | 5 => 4 | _ => 5

/-- The constraints of R55, from the outermost level on; `above` is the domain of the level above, plus 1. -/
def levelsOk : Nat → List Level → Bool
  | _, [] => true
  | above, x :: r =>
    above ≤ x.dom && x.dom ≤ 6 && x.scope ≤ scopeFor x.dom && (x.dom ≠ 0 || x.count = 1) && levelsOk (x.dom + 1) r

/-! ## Placement (R468) -/

/-- The cores of a part of each domain. -/
def partSize (dom : Nat) : Nat :=
  match dom with
  | 1 => 768 | 2 => 128 | 3 => 32 | 4 => 8 | _ => 1

/-- The parts of a domain inside a part, in increasing part number: those whose cores all lie in it. -/
def partsIn (dom : Nat) (cores : List Nat) : List (List Nat) :=
  if dom = 0 || dom = 6 then [cores]
  else
    let n := partSize dom
    ((List.range (3072 / n)).map fun k => (List.range n).map (k * n + ·)).filter fun p => p.all cores.contains

/-- Places the units level by level: the part of each unit in order of its index, or nothing where a level has no part. -/
def place : List Level → List (List Nat) → Option (List (List Nat))
  | [], ps => some ps
  | x :: r, ps =>
    let next := ps.map fun p => partsIn x.dom p
    if next.any (· = []) then none
    else place r (next.flatMap fun sub => (List.range x.count).map fun i => sub.getD (i % sub.length) [])

/-- Increasing core numbers without repeats. -/
def sortCores (cs : List Nat) : List Nat := (List.range 3072).filter cs.contains

/-! ## Slot and ring tables (R61, R148) -/

/-- A slot: cycle, length, from, to. -/
abbrev Slot := Nat × Nat × Nat × Nat

def slotOf (w : Nat) : Slot := (bits w 0 24, bits w 24 16, bits w 40 12, bits w 52 12)

/-- Two slots overlap in cycles. -/
def slotsMeet (a b : Slot) : Bool := a.1 < b.1 + (b.2.1 + 63) / 64 && b.1 < a.1 + (a.2.1 + 63) / 64

/-- No two slots of one source, or of one destination, overlap, and a source has at most 256 (R61). -/
def slotsOk : List Slot → Bool
  | [] => true
  | a :: r =>
    4 ≤ a.2.1 && a.2.1 % 4 = 0 && !(r.any fun b => (a.2.2.1 = b.2.2.1 || a.2.2.2 = b.2.2.2) && slotsMeet a b)
      && (r.filter fun b => b.2.2.1 = a.2.2.1).length < 256 && slotsOk r

/-- The entries of the slot table. -/
def State.slotTable (s : State) (l va : Nat) : List Slot :=
  if va = 0 then [] else (List.range (s.rdL l va 8)).map fun i => slotOf (s.rdL l (va + 8 + 8 * i) 8)

/-- An entry of the initial ring table: core, kind, index, value, and whether it breaks a rule of R148: its core or a field is out of range,
a reserved field is set, or its span runs past the engine's last slot. -/
def State.ringTable (s : State) (l va : Nat) : List (Nat × Nat × Nat × Nat × Bool) :=
  if va = 0 then []
  else (List.range (s.rdL l va 8)).map fun i =>
    let e := va + 8 + 16 * i
    let kind := s.rdL l (e + 4) 1
    let v := s.rdL l (e + 8) 8
    let core := s.rdL l e 4
    let span := v ≠ bits v 0 5 + 256 * bits v 8 4 || bits v 8 4 = 0 || 8 < bits v 8 4 || 32 < bits v 0 5 + bits v 8 4
    let bad := (3072 ≤ core && core ≠ 0xFFFFFFFF) || 1 < kind || 3 < s.rdL l (e + 5) 1 || s.rdL l (e + 6) 2 ≠ 0
      || (if kind = 1 then span else bits v 40 24 ≠ 0 || bits v 1 5 ≠ 0)
    (core, kind, s.rdL l (e + 5) 1, v, bad)

/-- The accumulator spans of a core under a table. -/
def spansOf (rings : List (Nat × Nat × Nat × Nat)) (core : Nat) : List (Nat × Nat) :=
  let t := tableFor rings core 1
  (List.range 4).map fun i => match t.find? fun r => r.1 = i with | some r => (bits r.2 0 5, bits r.2 8 4) | none => (4 * (core % 8) + i, 1)

/-- Spans that do not meet, each of 1 to 8 slots within the engine's 32. -/
def spansOk : List (Nat × Nat) → Bool
  | [] => true
  | a :: r => 1 ≤ a.2 && a.2 ≤ 8 && a.1 + a.2 ≤ 32 && !(r.any fun b => a.1 < b.1 + b.2 && b.1 < a.1 + a.2) && spansOk r

/-! ## Domains (R59) -/

/-- The members of a domain record: a bitmap of 384 bytes. -/
def State.domainRecord (s : State) (l va : Nat) : List Nat :=
  let w := s.rdL l va 384
  (List.range 3072).filter fun c => bitOf w c

/-- The narrowest scope that holds every member (R86). -/
def scopeOf (cores : List Nat) : Nat :=
  match cores with
  | [] => 1
  | c :: r => if r.all (· = c) then 4 else if r.all (· / 8 = c / 8) then 3 else if r.all (· / 128 = c / 128) then 2 else 1

/-! ## The checks (R56, R182) -/

/-- A core belongs to a launch that has not ended, or is kept for a unit that is placed on it (R64, R468). -/
def State.busyCore (s : State) (c : Nat) : Bool :=
  (s.core c).launch.isSome || (s.cluster (c / 8)).queue.any fun r => s.promised r && r.core = some c

/-- Where the units of a record lie. -/
structure Placed where
  levels : List Level
  units : List (List Nat)
  cores : List Nat
  deriving DecidableEq, Repr

/-- The record's own fields: the refusal codes 1 to 5, or its levels. -/
def State.recordFields (s : State) (l va : Nat) : Sum Nat (List Level) :=
  let ctrl := s.rdL l (va + 0x10) 4
  let nlev := bits ctrl 4 4
  let hlim := bits ctrl 8 4
  let words := (List.range 8).map (s.levelWord l va)
  let levels := (words.take nlev).map levelOfWord
  if bits ctrl 12 20 ≠ 0 || s.rdL l (va + 0x14) 4 ≠ 0 || s.rdL l (va + 0x80) 8 ≠ 0 || words.any (fun w => bits w 40 24 ≠ 0) then .inl 1
  else if nlev = 0 || 8 < nlev then .inl 2
  else if 10 < hlim then .inl 3
  else if !levelsOk 0 levels then .inl 4
  else if levels.any fun x => x.dom = 6 && hlim + 1 < x.count then .inl 5 else .inr levels

/-- A launch may use a core: a launch of a function that holds a PIN grant is pinned to that grant's clusters, and no other launch is pinned (R383;
DEDUCED, log 34). -/
def State.pinAllows (s : State) (l c : Nat) : Bool :=
  (s.profilers.find? fun p => p.kind = 2 && p.func = (s.launchOf l).func).all fun p => p.clusters.contains (c / 8)

/-- The placement of launch l on a die set (R468): code 8 where it is not possible. A zero-unit launch has none (R58). -/
def State.placement (s : State) (l : Nat) (levels : List Level) (dies : List Nat) : Option Placed :=
  let set := (List.range 24).filter dies.contains
  let all := (set.flatMap fun d => (List.range 128).map (128 * d + ·)).filter (s.pinAllows l)
  if set = [] || set.any (fun d => (s.die d).lost) then none
  else match (if levels.any (·.count = 0) then some [] else place levels [all]) with
    | none => none
    | some us => some { levels := levels, units := us, cores := sortCores us.flatten }

/-- The record of each unit in order, and the cluster whose queue it enters (R57, R174, R468). A context-level unit whose parent is coarser
than a core goes to the first cluster of its parent's part (DESIGN CHOICE, log 49). -/
def unitRecs (l prio : Nat) (p : Placed) : List (Nat × QRec) :=
  match p.levels.reverse with
  | [] => []
  | x :: _ =>
    p.units.zipIdx.map fun u =>
      let first := u.1.headD 0
      let onCore := u.1.length = 1 && 5 ≤ x.dom
      (if 4 ≤ x.dom then first / 8 else first / 128 * 16 + u.2 % 16,
       { va := 0, launch := l, kind := 0, prio := prio, core := if onCore then some first else none, parker := 0, parkDom := 0, unit := some u.2,
         ctx := if x.dom = 6 then u.2 % x.count else 0 })

/-- Every unit can be resident at once (R59, R64, R468): in each cluster no two units are placed on one core, every one that is placed has its core to
itself, and the others find a core each, beside the units that wait there for launches which are resident all at once. -/
def State.coResident (s : State) (p : Placed) : Bool :=
  let units := (unitRecs 0 0 p).filter fun u => u.2.ctx = 0
  let can (c : Nat) (u : QRec) : Bool := if u.launch = 0 then p.cores.contains c else s.canSeat c u
  ((units.map (·.1)).eraseDups).all fun k =>
    let mine := (units.filter fun u => u.1 = k).map (·.2)
    let placed := mine.filterMap (·.core)
    decide (placed.eraseDups.length = placed.length) && placed.all (s.idleCores k).contains
      && seated can (mine.filter (fun u => u.core = none) ++ s.looseUnits k) ((s.idleCores k).filter fun c => !placed.contains c)

/-- The refusal codes 6 to 11 of a placed record. The spans of cores that the launch may not use count in no overlap (R148; DESIGN CHOICE,
log 41). -/
def State.refusal (s : State) (l va : Nat) (p : Placed) : Option Nat :=
  let ctrl := s.rdL l (va + 0x10) 4
  let doms := (List.range 16).filter fun d => d ≠ 0 && s.rdL l (va + 0x80 + 8 * d) 8 ≠ 0
  let rings := s.ringTable l (s.rdL l (va + 0x30) 8)
  let rs := rings.map fun r => (r.1, r.2.1, r.2.2.1, r.2.2.2.1)
  let clusters := (p.cores.map (· / 8)).eraseDups
  let active := (s.launches.filter fun x => x.2.stage = 1)
  if doms.any fun d => !(s.domainRecord l (s.rdL l (va + 0x80 + 8 * d) 8)).all p.cores.contains then some 6
  else if !slotsOk (s.slotTable l (s.rdL l (va + 0x28) 8)) then some 7
  else if (!bitOf ctrl 0 || bitOf ctrl 3) && !s.coResident p then some 8
  else if rings.any (fun r => r.2.2.2.2) || clusters.any (fun k => !spansOk ((p.cores.filter fun c => c / 8 = k).flatMap (spansOf rs))) then some 9
  else if 16 < s.domains.length + (if p.cores = [] then 0 else 1 + doms.length) then some 10
  else if clusters.any fun k => 16 ≤ (active.filter fun x => x.2.cores.any fun c => c / 8 = k).length then some 11
  else none

/-! ## Dispatch -/

/-- Activates the domains of a launch (R59): domain 0 is the cores that it may use. A domain record that names no core gives no active domain, though
its entry counts in the launch's own check of the 16 (DESIGN CHOICE, log 74). -/
def State.openDomains (s : State) (l va : Nat) (cores cones : List Nat) : State :=
  (List.range 16).foldl (fun t d =>
    let ms := if d = 0 then cores else let a := s.rdL l (va + 0x80 + 8 * d) 8; if a = 0 then [] else s.domainRecord l a
    if ms = [] then t else t.setDom l d { Domain.init with members := ms, scope := scopeOf ms, coneBase := cones.getD d 0 }) s

/-- An idle core runs Smirvadin's dispatch loop (R49, R177). One that was stopped keeps its scalar registers, predicates, XPC, XCAUSE, XVAL and STAT up
to launch entry (R430). Up to its first acquire point a control context sees no store of another: its view starts
empty, for the spec names no acquire at launch entry (R84; DESIGN CHOICE, log 60). -/
def State.startLoop (root : Nat) (loop : Word) (s : State) (core : Nat) : State :=
  let c := s.ctx (16 * core)
  let x := s.core core
  if x.launch.isSome || (c.life = .live && !c.stopped) then s
  else (s.setCore core { x with root := root, itlb := [], dtlb := [], blocks := [] }).setCtx (16 * core)
    (if c.stopped then { Ctx.start loop [] [] with stat := c.stat, s := c.s, p := c.p, xpc := c.xpc, xcause := c.xcause, xval := c.xval, ops := c.ops }
     else { Ctx.start loop [] [] with stat := entryStat false })

/-- A refused record: its completion record says so, and its dependants are not signalled (R56, R182). The profiler grants of a function that has no
launch left end (R463). -/
def State.refuseLaunch (s : State) (l code : Nat) : State :=
  let s1 := s.writeCompletion l 4 code
  (s1.setLaunch l { s1.launchOf l with stage := 2 }).endGrants (s1.launchOf l).func

/-- The launch unit's walks for the tables that a record names set A (R79): the ring table, the slot table, the entry block and the domain
records. -/
def State.markTables (s : State) (l va : Nat) : State :=
  let rd (o : Nat) : Nat := s.rdL l (va + o) 8
  let mark (t : State) (p n : Nat) : State := if p = 0 then t else t.markHomes (s.rootOf l) p n
  ((List.range 15).map fun d => rd (0x88 + 8 * d)).foldl (fun t p => mark t p 384)
    (mark (mark (mark s (rd 0x30) (8 + 16 * s.rdL l (rd 0x30) 8)) (rd 0x28) (8 + 8 * s.rdL l (rd 0x28) 8)) (rd 0x18) 1920)

/-- What the launch unit reads from an accepted record into a running launch (R53 to R58): CONTROL, FRAME, DEPS, the entry block, the rings and the
slots. A launch with no unit has used no cycle when it completes (R58). -/
def State.dispatched (s : State) (l : Nat) (levels : List Level) (p : Placed) : Launch :=
  let rd (o n : Nat) : Nat := s.rdL l ((s.launchOf l).va + o) n
  let ctrl := rd 0x10 4
  { s.launchOf l with
    stage := 1, phased := !bitOf ctrl 0, coRes := !bitOf ctrl 0 || bitOf ctrl 3, scope := (levels.headD (levelOfWord 0)).scope, unitScope := (levels.getLastD (levelOfWord 0)).scope,
    hlim := bits ctrl 8 4, prio := bits ctrl 1 2, code := word (rd 0 8), frame := word (rd 8 8), deps := rd 0x38 8,
    block := toBytes 1920 (s.rdL l (rd 0x18 8) 1920),
    rings := (s.ringTable l (rd 0x30 8)).map fun r => (r.1, r.2.1, r.2.2.1, r.2.2.2.1),
    slots := (s.slotTable l (rd 0x28 8)).map fun t => (t.2.2.1, { cycle := t.1, len := t.2.1, dest := t.2.2.2 }),
    cores := p.cores, start := if p.units = [] then s.cyc else 0 }

/-- LAUNCH_DISPATCH: the package launch unit takes launch l, whose address space, function, protection domain, die set, handler base,
fault ring, causes with a handler of its own (as bits), save block and cone rings Smirvadin gives; idle cores run the dispatch loop at `loop` (R174, R468).
A launch of a function that has migrated away is not started (R457). -/
def execLaunchDispatch (l root func pd : Nat) (dies : List Nat) (loop xbase ring : Nat) (miss : Bool) (handlers : Nat) (saveb : Bool) (cones : List Nat) (s : State) : Out :=
  let x := s.launchOf l
  if x.stage ≠ 0 || s.migGone func then .next s
  else
    let s0 := s.setLaunch l { x with root := root, func := func, pd := pd, xbase := word xbase, ring := ring, miss := miss, handlers := handlers, saveb := saveb }
    let va := x.va
    let rd (o n : Nat) : Nat := s0.rdL l (va + o) n
    let s1 := (s0.setLaunch l { s0.launchOf l with fin := rd 0x20 8 }).markHomes (some root) va 0x100
    match s1.recordFields l va with
    | .inl c => .next (s1.refuseLaunch l c)
    | .inr levels =>
      let s1 := s1.markTables l va
      match s1.placement l levels dies with
      | none => .next (s1.refuseLaunch l 8)
      | some p =>
        match s1.refusal l va p with
        | some c => .next (s1.refuseLaunch l c)
        | none =>
          let y := s1.dispatched l levels p
          let s2 := s1.setLaunch l y
          if p.units = [] then .next (s2.checkLaunch l)
          else
            let s3 := (s2.writeCompletion l 1 0).openDomains l va p.cores cones
            let s4 := (unitRecs l y.prio p).foldl (fun t r => t.deliver r.1 r.2) s3
            .next ((p.cores.foldl (State.startLoop root (word loop)) s4).checkLaunch l)

end Sys2Proof.Machine
end

