-- ==== Sys2Proof/Machine/Service.lean ====
section
/-! DEFINITION. What the fabric, the homes, the walkers and Smirvadin do for a context: walks, page service, small contexts, answers, the
arrival of posted operations, markers and acknowledgements, and the causes that follow (R80, R82, R90, R101, R216, R393 to R404,
R414 to R418, R430). Which of them comes next, and how a service ends, are the operands of the events (DESIGN CHOICE, log 7). -/

namespace Sys2Proof.Machine

/-- Runs something in a context's place. -/
def atCtx (cid : Nat) (f : State → Out) (s : State) : Out :=
  match f { s with cur := cid } with
  | .next t => .next { t with cur := s.cur }
  | o => o

/-- A waiting instruction of a context goes on with an act; the wait is over. -/
def resume (cid : Nat) (f : State → Act) (s : State) : Out :=
  atCtx cid (fun s => let s1 := s.setMe { s.me with wait := .none }; finish .ld s1.me.wlen s1.me.pc (f s1)) s

/-! ## Translation and fetch -/

/-- The fabric refuses a shipment to a memory core of a lost die; a far-memory core whose port is down takes it, and gives up on the service
(R414). -/
def State.lostDieHome (s : State) (m : Nat) : Bool := m < 384 && s.lostHome m

/-- ILEN of a cause of a context's fetch, or of the table read of its JTAB (R391). -/
def Ctx.fetchIlen (c : Ctx) (va : Nat) : Nat := if c.pc.toNat = va then 0 else c.wlen / 4

/-- A fetch or a JTAB read whose page cannot be served (R399, R414). -/
def State.fetchFails (s : State) (cid va : Nat) : State :=
  let c := s.ctx cid
  (s.setCtx cid { c with wait := .none }).takeTrap cid .exact 0x06 (c.fetchIlen va) c.pc (word va)

/-- A data access whose page cannot be served goes on, and finds it so (R414). -/
def State.accessFails (s : State) (cid va : Nat) : State :=
  let c := s.ctx cid
  s.setCtx cid { c with wait := if c.away = none then .none else .returning, unserved := some va }

/-- A walk ends for a waiting context (R79, R80, R82, R399): a leaf, where the walk sets A in what it read; or an absent entry, or one that the walker
rejects, where it sets A nowhere (DESIGN CHOICE, log 69). A context that is to be
shipped loses its lock bit (R94). -/
def State.walked (s : State) (cid va : Nat) (fetch : Bool) : State :=
  let c := s.ctx cid
  match walk s.mem (s.rootFor cid) va with
  | .leaf e => (s.setCtx cid { c with wait := .none }).fillTlb cid fetch va e
  | .bad => if fetch then s.fetchFails cid va else s.accessFails cid va
  | .absent m =>
    if s.lostDieHome m then (if fetch then s.fetchFails cid va else s.accessFails cid va)
    else if fetch then s.setCtx cid { c with wait := .fetchService m (word va) }
    else (s.setCtx cid { c with wait := .shipping m (word va) }).dropLock cid

/-- A prefetch's walk ends: the TLBs take the leaf, or the core that HOME names is asked to service the absence (R246). -/
def State.prefWalked (s : State) (cid va : Nat) : State :=
  match walk s.mem (s.rootFor cid) va with
  | .leaf e => s.fillTlb cid false va e
  | .absent m => if s.lostDieHome m then s else { s with prefServices := s.prefServices ++ [(cid, m, va)] }
  | .bad => s

/-- WALK_COMPLETE: the walk of a waiting context ends, or of a prefetch where the context waits for none (R80, R246). -/
def execWalkComplete (cid : Nat) (s : State) : Out :=
  match (s.ctx cid).wait with
  | .walk va fetch =>
    match s.secondTlb cid va with
    | some e => .next ((s.setCtx cid { s.ctx cid with wait := .none }).fillFirst cid fetch e)
    | none => .next (s.walked cid va fetch)
  | _ =>
    match s.prefs.find? fun p => p.1 = cid with
    | none => .next s
    | some p => .next ({ s with prefs := s.prefs.erase p }.prefWalked cid p.2)

/-- BLOCK_FETCH_COMPLETE: the block of code that a context waits for arrives whole (R208, R222); one that a lost die held raises
PAGE_UNSERVICEABLE (R425), and an uncorrectable error SOFT_ERROR (R427). -/
def execBlockFetchComplete (cid : Nat) (s : State) : Out :=
  let c := s.ctx cid
  match c.wait with
  | .block va =>
    let k := s.tlbKey cid
    let x := s.core k
    let root := s.rootFor cid
    let base := va / 32 * 32
    match (if isSupervisor cid then (if paExists base then some base else none) else (tlbFind x.itlb root va).map fun e => e.phys base) with
    | none => if isSupervisor cid then .fault .noSuchMemory else .next (s.setCtx cid { c with wait := .walk va true })
    | some pa =>
      if !paExists pa then .fault .noSuchMemory
      else if s.lostLoc pa || s.portDown pa then .next (s.fetchFails cid va)
      else if s.poisoned pa 32 then .next ((s.setCtx cid { c with wait := .none }).takeTrap cid .exact 0x19 (c.fetchIlen va) c.pc (word va))
      else .next (((s.setCore k { x with blocks := tins x.blocks (blockKey root va) (readBytes s.mem pa 32) }).setCtx cid { c with wait := .none }).touchItlb cid va)
  | _ => .next s

/-! ## Page service (R82, R399, R414, R415, R465) -/

/-- SMALL_CONTEXT_ARRIVAL: a shipped small context reaches the core that HOME names; its home keeps the copy of its departure and the pointer of the
instruction that shipped (R415). A far-memory core whose port is down sends it home without executing (R414). -/
def execSmallContextArrival (cid : Nat) (s : State) : Out :=
  let c := s.ctx cid
  match c.wait with
  | .shipping m va =>
    if s.lostHome m then .next (s.accessFails cid va.toNat)
    else
      let away : Away := match c.away with
        | some a => { a with core := m }
        | none => { core := m, copy := { pc := c.pc, s := c.s, p := c.p }, va := va, len := c.wlen, ops := c.ops }
      .next (s.setCtx cid { c with away := some away, wait := .service m va })
  | _ => .next s

/-- Zeroes a range of memory: it is memory that nothing has written, its poison goes, and so does what is on record of its bytes for contexts that
have yet to see a publication. -/
def State.wipe (s : State) (a n : Nat) : State :=
  { s with mem := s.mem.filter (fun x => !(a ≤ x.1 && x.1 < a + n)), poison := s.poison.filter (fun u => !(a ≤ u && u < a + n)),
           lim := s.lim.filter fun x => !(a ≤ x.loc && x.loc < a + n) }

/-- What a servicing core or Smirvadin writes to install a leaf: ranges of zeroed memory, then values of some bytes at addresses. -/
def State.install (s : State) (wipes : List (Nat × Nat)) (writes : List (Nat × Nat × Nat)) : State :=
  writes.foldl (fun t w => t.poke w.1 (toBytes w.2.1 w.2.2)) (wipes.foldl (fun t w => t.wipe w.1 w.2) s)

/-- The frame of a leaf lies in memory that the device has, and below the capacity of its expander (R76, R366). -/
def State.frameOk (s : State) (e : TlbEntry) : Bool :=
  let last := e.pa + 2 ^ e.size - 1
  paExists e.pa && paExists last && (bits e.pa 47 1 = 0 || bits last 0 41 < tget 0 s.cxlCap (bits e.pa 41 3))

/-- An entry of 8 bytes that is absent before it is written (R79). -/
def freshEntry (m : Tab Byte) (w : Nat × Nat × Nat) : Bool := w.1 % 8 = 0 && w.2.1 = 8 && readNat m w.1 8 % 4 = 0

/-- The size of a leaf, as a power of two, from its bytes. -/
def leafBits (leaf : Nat) : Nat := if leaf = 2 ^ 15 then 15 else if leaf = 2 ^ 27 then 27 else 39

/-- No byte of a range of memory holds anything but zero. -/
def State.zeroRange (s : State) (a n : Nat) : Bool := !(s.mem.any fun b => a ≤ b.1 && b.1 < a + n)

/-- A leaf's rights are those of a mapping, and so is its size. -/
def TlbEntry.hasRights (e : TlbEntry) (leaf rights : Nat) : Bool :=
  e.size = leafBits leaf && e.r = bitOf rights 0 && e.w = bitOf rights 1 && e.x = bitOf rights 2

/-- Rounded up to whole pages. -/
def pageUp (n : Nat) : Nat := (n + 2 ^ 15 - 1) / 2 ^ 15 * 2 ^ 15

/-- A new leaf lies in a range that its address space reserves, and is as that has it (R363, R465): of a host's mapping, the size, the rights and
zeroed memory; of a loaded object, its pages with its data; of a private segment, zeroed pages. -/
def State.leafFits (s : State) (t : State) (e : TlbEntry) : Bool :=
  let size := tget 0 s.privs e.root
  match s.hostMapping e.root e.va with
  | some m => e.hasRights m.leaf m.rights && t.zeroRange e.pa (2 ^ e.size)
  | none =>
    s.reserves.any (fun r => r.root = e.root && r.va / 2 ^ 15 * 2 ^ 15 ≤ e.va && e.va + 2 ^ e.size ≤ pageUp (r.va + r.size))
      || (privateVa size e.va && bits e.va 0 32 + 2 ^ e.size ≤ pageUp size && t.zeroRange e.pa (2 ^ e.size))

/-- The table pages of every address space. -/
def State.tables (s : State) : List Nat := s.roots.flatMap (tablesUnder s.mem 3)

/-- What Smirvadin or a servicing core writes takes nothing from anyone (R363, R366, R465): it wipes memory that no leaf maps and no table lies in; it
writes absent entries of the address space's own tables, new table pages among them, which lie in such memory and were zero, and the data of new
leaves; the leaves that it makes lie in that address space, are as `fits` has them, in memory that exists, that no other leaf has and no table lies in; and every
leaf there was stays. -/
def State.mayInstall (s : State) (root : Nat) (wipes : List (Nat × Nat)) (writes : List (Nat × Nat × Nat)) (fits : State → TlbEntry → Bool) : Bool :=
  let w := s.install wipes []
  let t := s.install wipes writes
  let old := s.allLeaves
  let new := t.allLeaves.filter fun e => !old.contains e
  let mine := tablesUnder t.mem 3 root
  let was := tablesUnder s.mem 3 root
  s.roots.contains root
    && wipes.all (fun x => x.1 + x.2 ≤ 2 ^ 48 && s.unused x.1 x.2)
    && mine.all (fun p => was.contains p || (paExists p && s.unused p (2 ^ 15) && w.zeroRange p (2 ^ 15) && (mine.filter (· = p)).length = 1))
    && writes.all (fun x => (freshEntry w.mem x && mine.contains (x.1 / 2 ^ 15 * 2 ^ 15)) || new.any fun e => e.pa ≤ x.1 && x.1 + x.2.1 ≤ e.pa + 2 ^ e.size)
    && new.all (fun e => e.root = root && t.frameOk e && fits t e && !(old.any e.shares) && (new.filter e.shares).length = 1
      && !(t.tables.any fun p => p < e.pa + 2 ^ e.size && e.pa < p + 2 ^ 15))
    && old.all t.allLeaves.contains

/-- Installs a leaf for a VA of an address space, in entries that were absent; nothing where the page is there already (R82), or where the
writes do not map it as they may. -/
def State.installFor (s : State) (root va : Nat) (wipes : List (Nat × Nat)) (writes : List (Nat × Nat × Nat)) : State :=
  match walk s.mem root va with
  | .absent _ => if s.mayInstall root wipes writes s.leafFits then s.install wipes writes else s
  | _ => s

/-- The page of a VA is there. -/
def State.present (s : State) (root va : Nat) : Bool := match walk s.mem root va with | .leaf _ => true | _ => false

/-- What waits for the service of an absent page at a VA of a context's address space (R82, R246, R399, R419): 0 the context's access, 1 its
fetch, 2 a prefetch, 3 an engine that acts for it; with the VA that is accessed. -/
def State.serviceFor (s : State) (cid va : Nat) : Nat × Nat :=
  let page (x : Nat) : Bool := x / 32768 = va / 32768
  let other : Nat × Nat := match s.prefServices.find? fun p => p.1 = cid && page p.2.2 with | some p => (2, p.2.2) | none => (3, va)
  match (s.ctx cid).wait with
  | .service _ x => if page x.toNat then (0, x.toNat) else other
  | .fetchService _ x => if page x.toNat then (1, x.toNat) else other
  | _ => other

/-- PAGE_SERVICE_COMPLETE: the service of an absent entry ends. A leaf is installed, once (R82), and the access or fetch that waits is made
again. It succeeds for a VA of a reserved range alone, and fails there only where it may (R414, R465); a service that fails sends the context home
without executing (R82), or fails the fetch (R399). For an engine, `root` is its address space. -/
def execPageServiceComplete (cid va root : Nat) (ok : Bool) (wipes : List (Nat × Nat)) (writes : List (Nat × Nat × Nat)) (s : State) : Out :=
  let x := s.serviceFor cid va
  let space := if x.1 = 3 then root else s.rootFor cid
  let ok := s.present space x.2 || (ok && s.reserved space x.2 && !s.homeGone space x.2)
  let s1 := if ok then s.installFor space x.2 wipes writes else s
  let s2 : State := if x.1 = 2 then { s1 with prefServices := s1.prefServices.eraseP fun p => p.1 = cid && p.2.2 = x.2 } else s1
  if ok then
    match walk s2.mem space x.2 with
    | .leaf e => .next (match x.1 with
      | 3 => s2
      | 2 => s2.fillTlb cid false x.2 e
      | k => (s2.setCtx cid { s2.ctx cid with wait := .none }).fillTlb cid (k = 1) x.2 e)
    | _ => .next s
  else if !s.mayRefuse (some space) x.2 then .next s
  else .next (match x.1 with | 0 => s2.accessFails cid x.2 | 1 => s2.fetchFails cid x.2 | _ => s2)

/-- SMALL_CONTEXT_RETURN: a context that was shipped home arrives, and issues there. -/
def execSmallContextReturn (cid : Nat) (s : State) : Out :=
  let c := s.ctx cid
  match c.wait with
  | .returning => .next (s.setCtx cid { c with wait := .none, away := none, recalling := false })
  | _ => .next s

/-- The home restores the copy of an away context's departure and raises PAGE_UNSERVICEABLE (R415): what it stored since and has not performed
is never performed, and no journal entry reports it. -/
def State.restoreAway (s : State) (cid : Nat) : State :=
  let c := s.ctx cid
  match c.away with
  | none => s
  | some a =>
    let mine (x : Post) : Bool := x.cid = cid && a.ops < x.num
    let c1 := { c with pc := a.copy.pc, s := a.copy.s, p := a.copy.p, away := none, wait := .none, recalling := false,
                       own := c.own.filter fun o => o.pub || o.num ≤ a.ops }
    let s1 := (s.posts.filter mine).foldl (fun t x => match x.jrn with | some j => t.setJrnState (coreNo cid) j 0 | none => t) s
    { s1.setCtx cid c1 with posts := s1.posts.filter fun x => !mine x }.trimHeld cid
      |>.takeTrap cid .exact 0x06 (a.len / 4) a.copy.pc (word (ptrOfVa a.va.toNat))

/-! ## Answers -/

/-- An access that waits for its home fails there, where the home has lost its locations (R454). -/
def State.failWaiting (s : State) (gone : Nat → Bool) (cid : Nat) : State :=
  let stop (p : Nat) : State := match resume cid (fun s => .trap s 0x06 (word p)) s with | .next t => t | _ => s
  match (s.ctx cid).wait with
  | .answer _ p _ l => if gone l then stop p else s
  | .atomic r => if gone r.loc then stop r.ptr else s
  | .bind _ _ p l => if gone l then stop p else s
  | .gload _ _ p ls => if ls.any gone then stop p else s
  | _ => s

/-- GLOBAL_ACCESS_ANSWER: the home answers a load, or performs an atomic, TBIND or GLD, and the instruction goes on (R14, R46, R92,
R425, R427). An LLK whose bit another context holds keeps waiting (R94). -/
def execGlobalAccessAnswer (cid : Nat) (s : State) : Out :=
  let c := s.ctx cid
  let lost (l p : Nat) (f : State → Act) : Out :=
    resume cid (fun s => if s.lostLoc l || s.portDown l then .trap s 0x06 (word p) else f s) s
  let read (l p n : Nat) (f : State → Act) : Out := lost l p fun s => if s.poisoned l n then .trap s 0x19 (word p) else f s
  match c.wait with
  | .answer ws p n l =>
    read l p n fun s => (s.setMe (s.me.writes ws)).watched s.me.pc p n true false
  | .atomic r =>
    if !s.atomicMay cid then .next s
    else lost r.loc r.ptr fun s =>
      match atomicAct r s with
      | .stall t => .stall (t.setMe { t.me with wait := .atomic r })
      | a => a
  | .bind n r p l => read l p 64 fun s => (s.setTsr n (some r)).watched s.me.pc p 64 true false
  | .gload n r p ls =>
    resume cid (fun s =>
      if ls.any fun l => s.lostLoc l || s.portDown l then .trap s 0x06 (word p)
      else if ls.any fun l => s.poisoned l 32 then .trap s 0x19 (word p)
      else (s.setRegion n r).watched s.me.pc p 544 true false) s
  | _ => .next s

/-! ## Posted operations (R90, R402, R416 to R418) -/

/-- A die's log region holds 13,421,772 lines (R416). -/
def logLines : Nat := 13421772

/-- The key of the deferred store buffer at a location's home, and the lines that it holds: 2 MiB at a memory core, 256 KiB at a cluster
(R90, R416). -/
def bufferOf (l : Nat) : Nat × Nat := if l < 2 ^ 48 then (ownerOf l, 32768) else (0x1000 + (l - 2 * 2 ^ 48) / 2 ^ 19, 4096)

/-- A context's line enters the deferred store buffer at its home: a full buffer spills its oldest entry to the die's log, and with the log
full too there is no place (R90, R416). A line that the context already holds there takes no other (DESIGN CHOICE, log 46). -/
def State.holdLine (cid : Nat) (s : Option State) (line : Nat) : Option State :=
  s.bind fun s =>
    let k := bufferOf (64 * line)
    let b := tget [] s.buffers k.1
    let d := logDie (64 * line)
    let log := (s.die d).log
    let put (s : State) (b : List (Nat × Nat)) : State := { s with buffers := tput [] s.buffers k.1 (b ++ [(cid, line)]) }
    if b.contains (cid, line) || log.contains (cid, line) then some s
    else if b.length < k.2 then some (put s b)
    else if log.length < logLines then some (put (s.setDie d { s.die d with log := log ++ b.take 1 }) (b.drop 1))
    else none

/-- The lines of some bytes. -/
def linesOf (l n : Nat) : List Nat := (List.range ((l % 64 + n + 63) / 64)).map (l / 64 + ·)

/-- The lines of an operation enter the buffer or the log at their home, where all have a place (R416). -/
def State.holdAll (s : State) (cid l n : Nat) : Option State := (linesOf l n).foldl (State.holdLine cid) (some s)

def State.setPost (s : State) (n : Nat) (x : Post) : State := { s with posts := s.posts.set n x }

/-- A home refuses what is left of a post. -/
def Post.stop (x : Post) (cause die : Nat) : Post := { x with parts := x.parts.take x.took, refuse := some (cause, die) }

/-- An earlier exact-cell operation of the post's context has not arrived, or an earlier release of it has not performed (R92). -/
def State.postBehind (s : State) (n : Nat) (x : Post) : Bool :=
  x.req.isSome && (((s.posts.take n).any fun y => y.cid = x.cid && y.req.isSome && !y.arrived && y.refuse = none)
    || (s.ctx x.cid).pubs.any fun p => p.num < x.num)

/-- POSTED_ARRIVAL: the next part of post n reaches its home, whose buffer or log takes it, or which refuses it (R402, R416, R418). An
exact-cell operation is performed at once (R92, R100), and holds no place then; it is refused where there is none (R418). -/
def execPostedArrival (n : Nat) (s : State) : Out :=
  match s.posts[n]? with
  | none => .next s
  | some x =>
    match x.parts[x.took]? with
    | none => .next s
    | some (l, size) =>
      if s.postBehind n x then .next s
      else if s.lostLoc l then .next (s.setPost n (x.stop 0x15 0))
      else if s.portDown l then .next (s.setPost n (x.stop 0x06 0))
      else
        let y := { x with took := x.took + 1, arrived := x.took + 1 = x.parts.length && x.refuse = none }
        match x.req with
        | some r =>
          if r.kind = .fadd && s.poisoned r.loc 64 then .next (s.setPost n (x.stop 0x19 0))
          else if (s.holdAll x.cid l size).isNone then .next (s.setPost n (x.stop 0x18 (logDie l)))
          else
            let v := if r.kind = .ecclr then 0 else cellAdd (readNat s.mem r.loc 64) r.y.toNat
            .next ((((s.poke r.loc (toBytes 64 v)).markDirty r.pte).noteDirty x.cid r.loc).setPost n y)
        | none =>
          match s.holdAll x.cid l size with
          | none => .next (s.setPost n (x.stop 0x18 (logDie l)))
          | some s1 => .next (s1.setPost n y)

/-- JOURNAL_CLOSE: the acceptance of post n returns its journal entry to FREE. -/
def execJournalClose (n : Nat) (s : State) : Out :=
  match s.posts[n]? with
  | none => .next s
  | some x =>
    if !x.arrived then .next s
    else
      let s1 : State := { s with posts := s.posts.eraseIdx n }
      match x.jrn with
      | none => .next s1
      | some j =>
        let c := s1.ctx x.cid
        .next ((s1.setJrnState (coreNo x.cid) j 0).setCtx x.cid
          { c with own := c.own.map fun o => if o.jrn = some j then { o with jrn := none } else o })

/-- The bytes of a refused store that no home accepted are never performed (R403); the others wait for their release as those of a closed
entry do (R402, R413). -/
def dropRefused (own : List OwnByte) (j : Nat) (took : List (Nat × Nat)) : List OwnByte :=
  own.map fun o =>
    if o.jrn ≠ some j then o
    else if took.any fun p => p.1 ≤ o.loc && o.loc < p.1 + p.2 then { o with jrn := none }
    else { o with pub := true, jrn := none }

/-- A home refuses a store that it had accepted, so that its journal entry has closed (R427, R454): the store is never performed, and a FREE entry
of the journal reports it; with none FREE the cause is pending without one (DESIGN CHOICE, log 63). A program that MCRUN started ends. -/
def State.refuseAccepted (s : State) (cid cause : Nat) (o : OwnByte) : State :=
  let c := s.ctx cid
  let s1 := (s.setCtx cid { c with own := c.own.map fun y => if y.num = o.num then { y with pub := true } else y }).trimHeld cid
  if isMemCore cid then s1.endProgram cid (some cause) 0
  else if !isCompute cid then s1
  else match s1.freeEntry (coreNo cid) 32 0 with
    | none => s1.pendTo cid 0x11 (word cause)
    | some j =>
      let bs := toBytes 8 o.pc.toNat ++ toBytes 8 o.ptr ++ toBytes 4 0 ++ toBytes 1 0 ++ toBytes 1 (ctxNo cid) ++ toBytes 2 256 ++ toBytes 8 (s.ssn (coreNo cid))
      (s1.poke (locLocal (coreNo cid) (jrnOff j)) bs).refusePost (coreNo cid) j cause 0 o.ptr 0

/-- The accepted stores of a context that wait at some locations, one byte of each, the oldest first. -/
def Ctx.accepted (c : Ctx) (at_ : Nat → Bool) : List OwnByte :=
  (c.own.filter fun o => !o.pub && o.jrn = none && at_ o.loc).foldl (fun r o => if r.any fun y => y.num = o.num then r else o :: r) []

/-- Homes refuse the accepted stores that they hold at some locations. -/
def State.refuseHolding (s : State) (cause : Nat) (at_ : Nat → Bool) : State :=
  s.ctxs.foldl (fun t c => (c.2.accepted at_).foldl (fun u o => u.refuseAccepted c.1 cause o) t) s

/-- POSTED_REFUSAL: the refusal of post n reaches its core, after the parts before it have been accepted (R402, R418). A program that MCRUN
started ends (R398). -/
def execPostedRefusal (n : Nat) (s : State) : Out :=
  match s.posts[n]? with
  | none => .next s
  | some x =>
    match (if x.took < x.parts.length then none else x.refuse) with
    | none => .next s
    | some (cause, die) =>
      let s1 : State := { s with posts := s.posts.eraseIdx n }
      match x.jrn with
      | none => .next (if isMemCore x.cid then s1.endProgram x.cid (some cause) die else s1)
      | some j =>
        let c := s1.ctx x.cid
        let s2 := (s1.setCtx x.cid { c with own := dropRefused c.own j (x.parts.take x.took) }).trimHeld x.cid
        .next (s2.refusePost (coreNo x.cid) j cause x.done (x.ptr + x.done) die)

/-! ## Markers and acknowledgements (R101, R369) -/

/-- A destination by kind (0 a memory or far-memory core, 1 a cluster, 2 a peer package) and number. -/
def destNo (kind n : Nat) : Dest := match kind with | 0 => .memCore n | 1 => .cluster n | _ => .peer n

/-- The release of a context that has sent its markers: the mark at the head of queue q of its core, or with q of 4 and more the oldest
publication of the context, or the release for which it waits. Its scope, its destinations and the stores that it publishes. -/
def State.underWay (s : State) (cid q : Nat) : Option (Nat × Dests × List OwnByte) :=
  let c := s.ctx cid
  if q < 4 then
    match ((s.unit cid).queue q).entries with
    | e :: _ => match e.op with
      | .mark _ scope (some ds) => if e.ctx = cid then some (scope, ds, []) else none
      | _ => none
    | [] => none
  else match c.pubs with
    | p :: _ => p.dests.map fun ds => (p.scope, ds, c.own.filter fun o => !o.pub && o.rel = p.num)
    | [] => match c.wait with
      | .release scope ds => some (scope, ds, c.own.filter fun o => !o.pub)
      | _ => none

/-- The destinations of a release under way, replaced. -/
def State.setUnderWay (s : State) (cid q : Nat) (ds : Dests) : State :=
  let c := s.ctx cid
  if q < 4 then
    let k := coreKey cid
    match ((s.core k).queue q).entries with
    | e :: _ => match e.op with
      | .mark m scope _ => s.setCore k ((s.core k).setEntry q { e with op := .mark m scope (some ds) })
      | _ => s
    | [] => s
  else match c.pubs with
    | p :: r => s.setCtx cid { c with pubs := { p with dests := some ds } :: r }
    | [] => match c.wait with
      | .release scope _ => s.setCtx cid { c with wait := .release scope ds }
      | _ => s

/-- FLUSH_MARKER_ARRIVAL: destination n of a kind has the markers of every path of a context's release q, and performs every store that
they followed (R101). Of kind 2, a marker of peer n arrives with number q under the numbers of port `cid` (R369). -/
def execFlushMarkerArrival (cid kind n q : Nat) (s : State) : Out :=
  if 2 ≤ kind then .next (if cid < 16 && !s.peersLost.contains n then s.setUet n cid ((s.uetOf n cid).mark q) else s)
  else match s.underWay cid q with
    | none => .next s
    | some (scope, dests, bytes) =>
      let d := destNo kind n
      if !dests.contains (d, false) then .next s
      else
        let s1 := s.setUnderWay cid q (dests.map fun x => if x.1 = d then (d, true) else x)
        let c := s1.ctx cid
        let mine (o : OwnByte) : Bool := destOf o.loc = d
        .next (if q < 4 then s1 else
          (s1.setCtx cid { c with own := c.own.map fun o => if bytes.contains o && mine o then { o with pub := true } else o }).publish cid scope (bytes.filter mine))

/-- RELEASE_ACK: a destination that has performed its stores acknowledges; the last answer performs the release (R101). Of kind 2, peer n
acknowledges the marker of collective step `cid` that went under the numbers of port q, if the port that carries it is up (R369, R455). -/
def execReleaseAck (cid kind n q : Nat) (s : State) : Out :=
  if 2 ≤ kind then
    match s.steps[cid]? with
    | none => .next s
    | some x => .next (if x.peer = n then { s with steps := s.steps.set cid { x with marks := x.marks.filter fun m => m.1 ≠ q || !s.vexUp.contains m.2.2 } } else s)
  else match s.underWay cid q with
    | none => .next s
    | some (_, dests, _) =>
      let d := destNo kind n
      if !dests.contains (d, true) then .next s
      else
        let s1 := s.setUnderWay cid q (dests.filter fun x => x.1 ≠ d)
        .next (if q < 4 then s1 else if (s1.ctx cid).pubs ≠ [] then s1.pubCheck cid else s1.releaseCheck cid)

/-! ## Smirvadin's answers, causes and pre-emption -/

/-- SYSC_ANSWER: Smirvadin's answer to a SYSC is written (R216). -/
def execSyscAnswer (cid v : Nat) (s : State) : Out :=
  match (s.ctx cid).wait with
  | .sysc d _ _ => resume cid (fun s => .retire { s.setS d (word v) with sysc := s.sysc.filter fun q => q.cid ≠ cid }) s
  | _ => .next s

/-- The part's own number of the kind of an owner field (R430). -/
def hereOf (sp cid : Nat) : Nat :=
  match sp with
  | 2 => 16 * coreNo cid + ctxNo cid
  | 3 => coreNo cid
  | 4 => clusterNo cid
  | 5 => dieNo cid
  | _ => 2 ^ 32 - 1

/-- The owner field of a pointer of a space code. -/
def ownerField (sp p : Nat) : Nat :=
  match sp with
  | 2 => 16 * bits p 36 12 + bits p 32 4
  | 3 => bits p 36 12
  | 4 => bits p 38 9
  | 5 => bits p 40 5
  | _ => 2 ^ 32 - 1

/-- Writes a fault report to the launch's ring (R430). -/
def State.faultReport (s : State) (cid : Nat) (xpc xval xcause : Word) : State :=
  let x := s.myLaunch cid
  if (s.core (coreNo cid)).launch = none then s
  else
    let n := readNat s.mem x.ring 8
    let cause := bits xcause.toNat 0 6
    let sp := if cause = 0x08 || cause = 0x09 then spaceCode xval.toNat else 0
    let named := cause = 0x08
    let bs := toBytes 8 (s.ctx cid).trapCyc ++ toBytes 8 xpc.toNat ++ toBytes 8 xval.toNat ++ toBytes 4 xcause.toNat ++ toBytes 4 (s.ssn (coreNo cid))
      ++ toBytes 2 (coreNo cid) ++ toBytes 1 (ctxNo cid) ++ toBytes 1 sp
      ++ toBytes 4 (if named then ownerField sp xval.toNat else 2 ^ 32 - 1) ++ toBytes 4 (if named then hereOf sp cid else 2 ^ 32 - 1) ++ toBytes 20 0
    (s.poke (x.ring + 64 + 64 * (n % 256)) bs).poke x.ring (toBytes 8 (n + 1))

/-- Smirvadin stops every context of a core without a release; the core leaves its launch, which ends FAILED (R396, R430). The unit's own record or
range counts as finished; the ranges of its helpers stay with the launch (R182). STAT stays as trap entry left it. No context of the core is in a
handler any more, so that its interface lands what it has spilled (R406). -/
def State.stopCore (s : State) (core reason : Nat) : State :=
  let l := ((s.core core).launch).getD 0
  let s1 := (List.range 11).foldl (fun t i =>
    let t1 := t.dropLock (16 * core + i)
    let c := t1.ctx (16 * core + i)
    t1.setCtx (16 * core + i) { c with stopped := true, record := none, range := if i = 0 then none else c.range, wait := .none, away := none, inPre := false }) s
  let s2 := (if l = 0 then s1 else s1.failLaunch l reason).leaveLaunch core
  ((List.range 11).foldl (fun t i => t.setCtx (16 * core + i) { t.ctx (16 * core + i) with stat := (s.ctx (16 * core + i)).stat }) s2).landSpilled core

/-- Smirvadin's resident handler, for a cause for which the launch installs none of its own (R430): the report, then the core leaves; a WATCH is only
reported, and the context goes on. -/
def State.residentHandler (s : State) (cid : Nat) : State :=
  let c := s.ctx cid
  let cause := bits c.xcause.toNat 0 6
  if c.mode ≠ 1 || !isCompute cid || bitOf (s.myLaunch cid).handlers cause || c.inPre || c.missPosl.isSome || c.stopped then s
  else
    let s1 := s.faultReport cid c.xpc c.xval c.xcause
    if cause = 0x05 then
      let step := if bits c.xcause.toNat 6 2 = 1 then 4 * bits c.xcause.toNat 8 3 else 0
      let s2 := (s1.setCtx cid { s1.ctx cid with xpc := c.xpc + word step }).eret cid
      (s2.setCtx cid { s2.ctx cid with pc := c.xpc + word step }).eretLost cid c.owedAcq
    else s1.stopCore (coreNo cid) cause

/-- Smirvadin takes the record of a handler fault (R396): the default report, and the core leaves. -/
def State.takeHandlerFault (s : State) (cid : Nat) : State :=
  match s.hfaults.find? fun f => f.cid = cid with
  | none => s
  | some f =>
    let s1 : State := { s with hfaults := s.hfaults.erase f }
    if !isCompute cid then s1
    else (s1.faultReport cid f.pc (word f.cause) 0x1C).stopCore (coreNo cid) 0x1C

/-- ASYNC_CAUSE_TAKE: a context takes a pending asynchronous cause at its boundary (0), Smirvadin's resident handler does its steps for
the cause that a context has taken (1), or Smirvadin takes its handler fault (2). -/
def execAsyncCauseTake (cid what : Nat) (s : State) : Out :=
  match what with
  | 0 => .next (if s.atBoundary cid && s.takesAsync cid then s.takeAsync cid else s)
  | 1 => .next (s.residentHandler cid)
  | _ => .next (s.takeHandlerFault cid)

end Sys2Proof.Machine
end

