-- ==== Sys2Proof/Machine/Job.lean ====
section
/-! DEFINITION. Pre-emption and the job-wide switch (R83, R157, R404 to R411). The job is a launch. -/

namespace Sys2Proof.Machine

/-- A pre-emption recalls a context that is away or on its way: at once where it stands at an instruction boundary, else at its next (R83). -/
def Ctx.recalled (c : Ctx) : Ctx :=
  let leaving : Bool := match c.wait with | .shipping _ _ => true | _ => false
  if c.away = none && !leaving then c else { c with recalling := true }.homeward

/-- PREEMPT_REQUEST: PREEMPT is pending on the control context and every LIVE helper of a core, away contexts are recalled at their
boundary, and held setter entries fire (R83, R157, R393, R404). With `job` 1, the launch is held at the launch unit (R407). Smirvadin asks for it, which
runs once boot has released it (R375). -/
def execPreemptRequest (core job : Nat) (s : State) : Out :=
  let whom (i : Nat) : Bool := i = 0 || (s.ctx (16 * core + i)).life = .live
  let s1 := ((List.range 11).filter whom).foldl (fun t i => t.pendTo (16 * core + i) 0x1A (word (job % 2))) s
  let s2 := (List.range 11).foldl (fun t i => t.setCtx (16 * core + i) (t.ctx (16 * core + i)).recalled) s1
  let s3 := s2.setDeadlines core fun _ => 0
  if s.birhiry.boot ≠ 2 then .next s
  else match (s3.core core).launch with
  | some l => .next (if job % 2 = 1 then s3.setLaunch l { s3.launchOf l with held := true } else s3)
  | none => .next s3

/-- The cores that hold a launch. -/
def State.jobCores (s : State) (l : Nat) : List Nat := (s.launchOf l).cores.filter fun c => s.joined l c

/-- A context stands at a WAITI in its handler for PREEMPT, or is not LIVE (R407, R408). -/
def State.inWaiti (s : State) (cid : Nat) : Bool :=
  let c := s.ctx cid
  c.life ≠ .live || (c.inPre && c.ready && (match s.fetchAt cid with
    | .word w => ((decodeWord w).instr.bind (·.op)) = some .waiti
    | .out _ => false))

/-- A core of the job is in WAITI, and nothing that it sent, or that is bound for it, is on its way (R408): transfers, held sends of a domain
in its exchange phase, posts, retirements, releases with their flush markers. Other held sends stay. -/
def State.quiet (s : State) (core : Nat) : Bool :=
  let k := s.core core
  (List.range 11).all (fun i => let c := s.ctx (16 * core + i); s.inWaiti (16 * core + i) && c.away = none && c.wait = .none && c.pubs = [])
    && k.outst = [] && [0, 1, 2, 3].all (fun q => (k.queue q).entries = []) && !(k.held.any s.exchanging)
    && !(s.posts.any fun x => x.cid / 16 = core) && !(s.retiring.any fun r => r.cid / 16 = core)
    && !((s.cluster (core / 8)).setter.any fun e => e.core = core)

/-- A domain of a launch is in its exchange phase: its barrier has yet to release, under R395 where a handler runs (R408). -/
def State.exchangeRuns (s : State) (l : Nat) : Bool := s.domains.any fun d => d.1 / 16 = l && d.2.exchange

/-- DRAIN_COMPLETE: nothing of the job is in flight, and no exchange of it is unreleased (R408; DEDUCED, log 66). -/
def execDrainComplete (l : Nat) (s : State) : Out :=
  let x := s.launchOf l
  if x.stage = 1 && x.held && x.switch = 0 && !s.exchangeRuns l && (s.jobCores l).all s.quiet then .next (s.setLaunch l { x with switch := 1 }) else .next s

/-- The bytes of a core's local memory, at their offsets. -/
def State.localBytes (s : State) (core : Nat) : Tab Byte :=
  (s.mem.filter fun x => locLocal core 0 ≤ x.1 && x.1 < locLocal core 0 + 2 ^ 17).map fun x => (x.1 - locLocal core 0, x.2)

/-- The key of a port translation entry (R410). -/
def pttKey (l core : Nat) : Nat := 4096 * l + core
def State.setPtt (s : State) (l core : Nat) (v : Option Bool) : State := { s with ptt := tput none s.ptt (pttKey l core) v }

/-- Captures a core's image, which holds no translation and no fetched block, sets its port translation ABSENT, and frees the core (R407 steps 4 and 5,
R409). Its debug block stays (R385). -/
def State.capture (l : Nat) (s : State) (core : Nat) : State :=
  let y := s.cluster (core / 8)
  let mine := s.coreSlots core
  let img : Image := { launch := l, num := core, core := { s.core core with itlb := [], dtlb := [], blocks := [] }, ctxs := (List.range 11).map fun i => s.ctx (16 * core + i),
                       local_ := s.localBytes core, slots := y.slots.filter fun x => mine.contains x.1,
                       flags := y.flags.filter fun x => mine.contains x.1, bad := y.bad.filter fun x => mine.contains x.1 }
  let k := s.core core
  let s1 := { s with images := s.images ++ [img], mending := s.mending.filter fun x => x.1 / 2 ^ 32 ≠ core }.setCore core { Core.init with waddr := k.waddr, wctl := k.wctl, llo := k.llo, lhi := k.lhi }
  (List.range 11).foldl (fun t i => t.setCtx (16 * core + i) (Ctx.init statReset)) (s1.setPtt l core (some false))

/-- JOB_IMAGE_CAPTURE: the die copy engines capture the image of each core of a drained job. -/
def execJobImageCapture (l : Nat) (s : State) : Out :=
  let x := s.launchOf l
  if x.switch ≠ 1 then .next s
  else .next (((s.jobCores l).foldl (State.capture l) s).setLaunch l { x with switch := 2 })

/-- A function's copy has resumed here, at the destination of its migration (R373). -/
def State.migrated (s : State) (l : Nat) : Bool := (s.mig (s.launchOf l).func).stage = 5

/-- Writes an image back (R407, R411), its own accumulator slots with it and no other launch's. After a migration the position translation
buffer starts empty (R373). -/
def State.writeBack (s : State) (i : Image) : State :=
  let k := s.core i.num
  let c : Core := { i.core with itlb := [], dtlb := [], blocks := [], waddr := k.waddr, wctl := k.wctl, llo := k.llo, lhi := k.lhi }
  let s1 := (s.wipe (locLocal i.num 0) (2 ^ 17)).setCore i.num (if s.migrated i.launch then { c with ptb := [] } else c)
  let s2 := i.local_.foldl (fun t b => t.poke (locLocal i.num b.1) [b.2]) s1
  let s3 := i.ctxs.zipIdx.foldl (fun t c => t.setCtx (16 * i.num + c.2) c.1) s2
  let y := s3.cluster (i.num / 8)
  let mine := s3.coreSlots i.num
  let s4 := s3.setCluster (i.num / 8) { y with
    slots := mine.foldl (fun t n => tput 0 t n (tget 0 i.slots n)) y.slots,
    flags := mine.foldl (fun t n => tput 0 t n (tget 0 i.flags n)) y.flags,
    bad := (y.bad.filter fun x => !mine.contains x.1) ++ i.bad }
  s4.setPtt i.launch i.num (some true)

/-! ## Arrivals at local memory (R371, R410, R411) -/

/-- Adds an arrival to a step's staged data. -/
def CStep.take (x : CStep) (off : Nat) (bs : List Byte) (port num : Nat) : CStep :=
  { x with data := writeBytes x.data off bs, arrived := x.arrived ++ [{ off := off, len := bs.length, port := port, num := num }] }

/-- The RECV step of a launch that expects a range of a core's local memory from a peer (R370). -/
def State.recvAt (s : State) (l peer core off n : Nat) : Option Nat :=
  s.steps.findIdx? fun x => x.op = 1 && x.stage = 1 && !x.landed && x.launch = l && x.peer = peer && spaceCode x.addr = 3 && bits x.addr 36 12 = core
    && ptrOffset x.addr ≤ off && off + n ≤ ptrOffset x.addr + x.len

/-- Data of a peer arrives for a core's local memory: it joins its RECV step's staged data. -/
def State.arriveLocal (s : State) (l peer core off : Nat) (bs : List Byte) (port num : Nat) : State :=
  match s.recvAt l peer core off bs.length with
  | none => s
  | some n =>
    match s.steps[n]? with
    | none => s
    | some x => { s with steps := s.steps.set n (x.take (off - ptrOffset x.addr) bs port num) }

/-- The data of a local RECV wait in its core's spill buffer (R406). -/
def State.spilledStep (s : State) (x : CStep) : Bool := (s.core (bits x.addr 36 12)).spill.contains (.step x.launch x.va)

/-- The bytes that the engine's staging area holds (R371). -/
def State.staged (s : State) : Nat :=
  ((s.steps.filter fun x => x.op = 1 && x.stage = 1 && !x.landed && spaceCode x.addr = 3 && !s.spilledStep x).map fun x => (x.arrived.map (·.len)).sum).sum

/-- Arrivals at a compute core's local memory are delivered: its entry in the port translation table is PRESENT (R371, R410). -/
def State.isPresent (s : State) (l core : Nat) : Bool := tget none s.ptt (pttKey l core) = some true

/-! ## Local landings of collective steps (R371, R385, R406) -/

/-- The core of a local-window step is in the exchange phase of its selected domain, or its launch has none (R371). -/
def State.stepMayMove (s : State) (x : CStep) : Bool :=
  spaceCode x.addr ≠ 3 || !(s.launchOf x.launch).phased || (s.dom x.launch (s.core (bits x.addr 36 12)).bdom).exchange

/-- The report of a collective landing (R385): it has no instruction and no source core, so that its PC and DATA are free values
(DESIGN CHOICE, log 50). In a phased launch the exchange phase keeps it for its end. -/
def State.reportStep (s : State) (x : CStep) (core : Nat) : State :=
  let a := s.draw
  let b := a.2.draw
  if (s.launchOf x.launch).phased then b.2.keepReport x.launch (s.core core).bdom core false (word a.1, word b.1)
  else b.2.landOrSpill false core (.report (word a.1) (word b.1))

/-- The complete data of local RECV step n land in the memory of its core, which runs the launch and is PRESENT, where it may receive them now (R371);
they have landed once they are out of its spill buffer (R369, R370, R406). A replay lands them whatever handler a context is in, after what was
spilled before them (`past`, R411; DEDUCED, log 50). -/
def State.landStep (s : State) (past : Bool) (n : Nat) : State :=
  match s.steps[n]? with
  | none => s
  | some x =>
    let core := bits x.addr 36 12
    let m : Spilled := { tag := 0, off := ptrOffset x.addr, len := x.len, lo := 0, wid := 8 * x.len, val := ofBytes (readBytes x.data 0 x.len), count := 0 }
    if x.op ≠ 1 || x.stage ≠ 1 || x.landed || s.spilledStep x || !x.full || !s.stepMayMove x || !s.isPresent x.launch core || !s.joined x.launch core
        || !(past || s.mayLand false core x.len) then s
    else
      let s1 := if past then s.drainSpill core else s
      let s2 := (s1.landOrSpill past core (.msg m)).landOrSpill past core (.step x.launch x.va)
      if (s.core core).landingMeets m.off m.len then s2.reportStep x core else s2

/-- The local RECV steps of a launch land what they have complete as a job is switched in (R411). -/
def State.landSteps (s : State) (l : Nat) : State :=
  (List.range s.steps.length).foldl (fun t n => if (t.steps[n]?).any fun x => x.launch = l && spaceCode x.addr = 3 then t.landStep true n else t) s

/-- The arrivals of a launch's bounce ring that a started RECV now expects are replayed, in SEQ order; the others stay in the ring (R411; DEDUCED,
log 50). -/
def State.replay (s : State) (l : Nat) : State :=
  (s.bounce.filter fun y => y.launch = l).foldl (fun t y =>
    if t.isPresent l y.core && (t.recvAt l y.peer y.core y.off y.bytes.length).isSome && t.staged + y.bytes.length ≤ 2 ^ 26 then
      { t.arriveLocal l y.peer y.core y.off y.bytes y.port y.num with bounce := t.bounce.erase y }
    else t) s

/-- A job's images find their cores idle, and the units that wait there for launches which are resident all at once find cores beside them (R59,
R64). -/
def State.seatsImages (s : State) (images : List Image) : Bool :=
  let cores := images.map (·.num)
  images.all (fun i => !s.busyCore i.num)
    && ((cores.map (· / 8)).eraseDups).all fun k => seated s.canSeat (s.looseUnits k) ((s.idleCores k).filter fun c => !cores.contains c)

/-- The migration of a function to this package is over once its last launch has been switched in (R373). -/
def State.endMigration (s : State) (f : Nat) : State :=
  if (s.mig f).stage = 5 && !(s.launches.any fun x => x.2.func = f && x.2.stage < 2 && x.2.switch = 2) then s.setMig f Migration.init else s

/-- JOB_SWITCH_IN: every image is written back, the bounce ring is replayed in order and what it completes lands, and the held records are released
(R407, R411). A function whose final copy is acknowledged, or whose COMMIT a destination awaits, does not run (R457). -/
def execJobSwitchIn (l : Nat) (s : State) : Out :=
  let x := s.launchOf l
  let mine := s.images.filter fun i => i.launch = l
  let gone := s.migGone x.func
  if x.switch ≠ 2 || gone || !s.seatsImages mine then .next s
  else
    let s1 := mine.foldl State.writeBack { s with images := s.images.filter fun i => i.launch ≠ l }
    let s2 := (s1.replay l).landSteps l
    .next ((s2.setLaunch l { x with switch := 0, held := false }).endMigration x.func)

end Sys2Proof.Machine
end

