-- ==== Sys2Proof/Machine/Fabric.lean ====
section
/-! DEFINITION. The collective engine, the Vexpen and CXL ports, the die-to-die links, and lost dies and peers (R101, R186, R366 to R372,
R383, R410, R415, R423 to R425, R451, R454 to R456, R463). -/

namespace Sys2Proof.Machine

/-! ## Collective steps (R370, R371, R186) -/

/-- The step at a VA of a launch. -/
def State.stepAt (s : State) (l va : Nat) : Option CStep := s.steps.find? fun x => x.launch = l && x.va = va

/-- A step fails, and so do the steps that depend on it; their launches end FAILED (R370, R456). What has arrived for a failed RECV is given up. -/
def State.failSteps (reason : Nat) : Nat → List (Nat × Nat) → State → State
  | 0, _, s => s
  | k + 1, bad, s =>
    let hit (x : CStep) : Bool := x.stage < 2 && (bad.contains (x.launch, x.va) || bad.contains (x.launch, x.after))
    let now := (s.steps.filter hit).map fun x => (x.launch, x.va)
    if now = [] then s
    else
      let s1 : State := { s with steps := s.steps.map fun x => if hit x then { x with stage := 3 } else x }
      let s2 := (s.steps.filter fun x => hit x && x.op = 1).foldl State.performed s1
      State.failSteps reason k (bad ++ now) (now.foldl (fun t x => t.failLaunch x.1 reason) s2)

/-- Bits of a mask that name ports which are up. -/
def State.portsUp (s : State) (mask : Nat) : List Nat := (List.range 16).filter fun p => bitOf mask p && s.vexUp.contains p

/-- A step's core runs its launch, or will: it has not left it. What the engine kept of a SEND's bytes at a SYNC is the launch's (R371). -/
def State.stepCore (s : State) (x : CStep) : Bool :=
  let y := s.launchOf x.launch
  let core := bits x.addr 36 12
  y.cores.contains core && (!y.left.contains core || (x.op = 0 && x.kept.isSome))

/-- Why a step's record is refused as it starts: OP, LEN no multiple of 64 (both 0x01), an ADDR that R371 does not allow (R370, R371; the causes
but OP's are a DESIGN CHOICE, log 50). -/
def State.stepFault (s : State) (x : CStep) : Option Nat :=
  let sp := spaceCode x.addr
  if 1 < x.op || x.len % 64 ≠ 0 then some 0x01
  else if sp = 1 || sp = 2 then none
  else if sp = 3 && s.stepCore x && ptrOffset x.addr + x.len ≤ 2 ^ 17 then none
  else some 0x07

/-- Sends the data of a step to its peer in packets of at most 4 KiB, each over a port of its mask that a free value picks, with the next
number that goes to that peer on that port (R368, R369). -/
def State.sendPackets (x : CStep) (ports : List Nat) : Nat → Nat → List Byte → State → State × List (Nat × Nat)
  | 0, _, _, s => (s, [])
  | k + 1, off, bs, s =>
    if bs = [] then (s, [])
    else
      let d := s.draw
      let port := ports.getD (d.1 % ports.length) 0
      let u := d.2.uetOf x.peer port
      let p : Packet := { port := port, of := port, peer := x.peer, num := u.sent + 1, launch := x.launch, va := x.va, off := off, bytes := bs.take 4096 }
      let s1 := d.2.setUet x.peer port { u with sent := u.sent + 1 }
      let y := State.sendPackets x ports k (off + 4096) (bs.drop 4096) { s1 with vexOut := s1.vexOut ++ [p] }
      (y.1, (port, u.sent + 1) :: y.2)

/-- The highest number that went out on each port: what its flush marker carries, on that port (R369). -/
def topMarks (ms : List (Nat × Nat)) : List (Nat × Nat × Nat) :=
  (ms.filter fun m => !(ms.any fun y => y.1 = m.1 && m.2 < y.2)).map fun m => (m.1, m.2, m.1)

/-- Two copies of a packet. -/
def Packet.same (p q : Packet) : Bool := p.of = q.of && p.peer = q.peer && p.num = q.num

/-- The packets of a SEND that are not acknowledged, each once, and that no port which is up carries. -/
def State.stranded (s : State) (x : CStep) : List Packet :=
  let mine := s.vexOut.filter fun p => p.peer = x.peer && p.launch = x.launch && p.va = x.va && x.marks.any fun m => m.1 = p.of && p.num ≤ m.2.1
  (mine.filter fun p => !(mine.any fun q => q.same p && s.vexUp.contains q.port)).foldl (fun r p => if r.any (·.same p) then r else r ++ [p]) []

/-- The unacknowledged packets of a SEND that a failed port carried go out again, each on the surviving port of its mask that its entropy picks, a free value
(R368, R455), under the failed port's numbers; and so do its flush markers. With no port left they wait for one to return. -/
def State.resendStep (s : State) (n : Nat) (x : CStep) : State :=
  let ports := s.portsUp x.ports
  if x.op ≠ 0 || x.stage ≠ 1 || ports = [] then s
  else
    let pick (t : State) : State × Nat := let d := t.draw; (d.2, ports.getD (d.1 % ports.length) 0)
    let s1 := (s.stranded x).foldl (fun t p => let d := pick t; { d.1 with vexOut := d.1.vexOut ++ [{ p with port := d.2 }] }) s
    let y := x.marks.foldl (fun (t : State × List (Nat × Nat × Nat)) m =>
      if s.vexUp.contains m.2.2 then (t.1, t.2 ++ [m]) else let d := pick t.1; (d.1, t.2 ++ [(m.1, m.2.1, d.2)])) (s1, [])
    { y.1 with steps := y.1.steps.set n { x with marks := y.2 } }

/-- The SENDs under way, after a port has left or returned. -/
def State.resend (s : State) : State :=
  (List.range s.steps.length).foldl (fun t n => match t.steps[n]? with | some x => t.resendStep n x | none => t) s

/-- The bytes of a SEND are what its core's local memory held at a SYNC: those of a local source in a phased launch (R371). -/
def CStep.atSync (x : CStep) (phased : Bool) : Bool := phased && x.op = 0 && spaceCode x.addr = 3

/-- The bytes that a SEND reads as it starts, or what stops it; those of a local source in a phased launch are what it held at the core's
SYNC (R371). -/
def State.stepBytes (s : State) (x : CStep) : Sum Home (List Byte) :=
  if x.atSync (s.launchOf x.launch).phased then .inr (readBytes (x.kept.getD []) 0 x.len)
  else match s.homesIn (s.rootOf x.launch) x.addr false x.len with
    | .inr ls => .inr (ls.map fun l => s.byteAt l.1)
    | .inl h => .inl h

/-- COLLECTIVE_STEP_START: step n starts when the step that it follows has completed (R370), and fails where that one has failed (R456). A SEND reads
its bytes and sends them, with a flush marker on each port (R368, R369, R371), once the core whose local memory it names runs the launch; one from local memory in a phased launch that was placed after its
core's SYNC waits for the next (DEDUCED, log 50). A RECV takes up what waits in the bounce ring for it. -/
def execCollectiveStepStart (n : Nat) (s : State) : Out :=
  match s.steps[n]? with
  | none => .next s
  | some x =>
    let ready := x.after = 0 || (s.stepAt x.launch x.after).any fun y => y.stage = 2
    let broken := x.after ≠ 0 && (s.stepAt x.launch x.after).any fun y => y.stage = 3
    let fail (c : Nat) : Out := .next (s.failSteps c 257 [(x.launch, x.va)])
    if x.stage ≠ 0 then .next s
    else if broken then fail 0x15
    else if !ready || (s.launchOf x.launch).held then .next s
    else if spaceCode x.addr = 3 && x.op = 0 && x.kept = none && (s.stepFault x).isNone && !s.joined x.launch (bits x.addr 36 12) then .next s
    else match s.stepFault x with
      | some c => fail c
      | none =>
        if s.peersLost.contains x.peer then fail 0x15
        else if x.op = 1 then .next (({ s with steps := s.steps.set n { x with stage := 1 } } : State).replay x.launch)
        else if s.portsUp x.ports = [] || !s.stepMayMove x || (x.atSync (s.launchOf x.launch).phased && x.kept = none) then .next s
        else match s.stepBytes x with
          | .inl (.absent _) => .next s
          | .inl (.refuse c) => fail c
          | .inl _ => fail 0x06
          | .inr bs =>
            let y := State.sendPackets x (s.portsUp x.ports) (x.len / 4096 + 1) 0 bs
              (if x.atSync (s.launchOf x.launch).phased then s else s.markHomes (s.rootOf x.launch) x.addr x.len)
            .next { y.1 with steps := y.1.steps.set n { x with stage := 1, data := writeBytes [] 0 bs, marks := topMarks y.2 } }

/-- A step completes and signals its table (R183, R186, R370). -/
def State.finishStep (s : State) (n : Nat) (x : CStep) : State :=
  { s with steps := s.steps.set n { x with stage := 2 } }.signal x.launch x.table

/-- COLLECTIVE_SEND_COMPLETE: the system-scope release of a SEND's data has performed: the peer has acknowledged every marker (R369, R370). -/
def execCollectiveSendComplete (n : Nat) (s : State) : Out :=
  match s.steps[n]? with
  | some x => .next (if x.op = 0 && x.stage = 1 && x.marks = [] then s.finishStep n x else s)
  | none => .next s

/-- COLLECTIVE_RECV_COMPLETE: the data of a RECV for a local destination land once all have arrived; it completes when its data have landed and its
markers have been gathered (R186, R370, R371, R385, R406). One for a core that has left the launch meanwhile fails (DESIGN CHOICE, log 50). -/
def execCollectiveRecvComplete (n : Nat) (s : State) : Out :=
  match s.steps[n]? with
  | none => .next s
  | some x =>
    let here := spaceCode x.addr = 3
    if x.op ≠ 1 || x.stage ≠ 1 then .next s
    else if here && !x.landed && !s.stepCore x then .next (s.failSteps 0x07 257 [(x.launch, x.va)])
    else
      let s1 := if here then s.landStep false n else s
      match s1.steps[n]? with
      | some y => .next (if (if here then y.landed else y.full) && s1.gathered y then s1.finishStep n y else s1)
      | none => .next s1

/-! ## Arrivals (R368, R369, R385, R410, R456) -/

/-- The remote-write watches of the memory cores that own some locations (R385): one record for each watch that a peer's write matches. -/
def State.remoteWatch (s : State) (ls : List Nat) (peer : Nat) : State :=
  ((ls.map ownerOf).eraseDups).foldl (fun t m =>
    let cid := 0x10000 + 16 * m
    let hit (w : Nat) : Bool := ls.any fun l => ownerOf l = m && watchMatch (t.core cid) w l 1 false true ≠ 0
    [0, 1, 2, 3].foldl (fun u w => if hit w then u.traceRec cid 4 0 (word peer) else u) t) s

/-- Bytes of a peer's packet land in global memory of a launch, where every one has a place; else what stops them. -/
def State.peerWrite (s : State) (l peer p : Nat) (bs : List Byte) : Sum Home State :=
  match s.homesIn (s.rootOf l) p true bs.length with
  | .inl h => .inl h
  | .inr ls =>
    let f := (s.launchOf l).func
    let s1 := (ls.zip bs).foldl (fun t x => ((t.poke x.1.1 [x.2]).markDirty x.1.2).markFrame f x.1.1) (s.markHomes (s.rootOf l) p bs.length)
    .inr ((s1.heal (ls.map (·.1))).remoteWatch (ls.map (·.1)) peer)

/-- A packet has been received before: it has been performed, is staged for its RECV, or waits in a bounce ring (R368). -/
def State.received (s : State) (peer of num : Nat) : Bool :=
  (s.uetOf peer of).seen num
    || s.steps.any (fun x => x.peer = peer && x.stage = 1 && x.arrived.any fun p => p.port = of && p.num = num)
    || s.bounce.any fun y => y.peer = peer && y.port = of && y.num = num

/-- The header of an arrival in the bounce ring (R410). A packet carries no count word, for a collective step names none (R257, R370; DEDUCED,
log 50). -/
def Bounced.header (y : Bounced) : List Byte :=
  toBytes 4 y.launch ++ toBytes 2 y.core ++ toBytes 2 y.bytes.length ++ toBytes 8 y.off ++ toBytes 8 0 ++ toBytes 8 y.seq ++ toBytes 32 0

/-- The bytes that an arrival takes in the bounce ring. -/
def Bounced.size (y : Bounced) : Nat := y.header.length + (y.bytes.length + 63) / 64 * 64

/-- An arrival finds a place in its job's bounce ring (R410). -/
def State.bounceRoom (s : State) (y : Bounced) : Bool :=
  ((s.bounce.filter fun z => z.launch = y.launch).map Bounced.size).sum + y.size ≤ 4160 + Config.bounceRoom

/-- VEXPEN_ARRIVAL: a packet of a peer arrives on a port for a launch, at a local-window pointer or a VA, with a number under those of port
`of` (R369, R455). One that has come before has no effect. An arrival with no entry in the port translation table is discarded and
counted; one for an ABSENT core joins the bounce ring (R410). One that no started RECV expects, or that finds the staging area or the ring full or its
page absent, is not acknowledged, and comes again (R371; DESIGN CHOICE, log 50). -/
def execVexpenArrival (port of peer l p num : Nat) (bytes : List Nat) (s : State) : Out :=
  let bs := bytes.map (BitVec.ofNat 8)
  let u := s.uetOf peer of
  let known := s.ptt.any fun e => e.1 / 4096 = l
  let took (t : State) : Out := .next (t.setUet peer of (u.take num))
  let discard : Out := took { s with discards := tput 0 s.discards port (tget 0 s.discards port + 1) }
  if !s.vexUp.contains port || 16 ≤ of || s.peersLost.contains peer || 4096 < bs.length || s.received peer of num then .next s
  else if !known then discard
  else if spaceCode p = 3 then
    let core := bits p 36 12
    match tget none s.ptt (pttKey l core) with
    | none => discard
    | some true =>
      if (s.recvAt l peer core (ptrOffset p) bs.length).isNone || 2 ^ 26 < s.staged + bs.length then .next s
      else .next (s.arriveLocal l peer core (ptrOffset p) bs of num)
    | some false =>
      let seq := (s.bounce.filter fun y => y.launch = l).foldl (fun m y => max m (y.seq + 1)) 0
      let y : Bounced := { peer := peer, launch := l, core := core, off := ptrOffset p, bytes := bs, seq := seq, port := of, num := num }
      .next (if s.bounceRoom y then { s with bounce := s.bounce ++ [y] } else s)
  else
    match s.steps.findIdx? fun x => x.op = 1 && x.stage = 1 && x.launch = l && x.peer = peer && x.addr ≤ p && p + bs.length ≤ x.addr + x.len with
    | none => .next s
    | some n =>
      match s.peerWrite l peer p bs with
      | .inl (.absent _) => .next s
      | .inl h =>
        let cause := match h with | .refuse c => c | _ => 0x06
        match s.steps[n]? with
        | some x => took (s.failSteps cause 257 [(x.launch, x.va)])
        | none => .next s
      | .inr s1 =>
        took { s1 with steps := s1.steps.modify n fun x =>
          { x with arrived := x.arrived ++ [{ off := p - x.addr, len := bs.length, port := of, num := num }] } }

/-! ## Lost peers (R455, R456) -/

/-- The completion marks of a queue, with destinations that have gone left out. -/
def EQueue.dropDests (x : EQueue) (keep : Dests → Dests) : EQueue :=
  { x with entries := x.entries.map fun e => match e.op with | .mark m sc ds => { e with op := .mark m sc (ds.map keep) } | _ => e }

/-- Destinations leave every core's set and every release under way, and the releases that waited for them alone perform. -/
def State.dropDests (s : State) (gone : Dest → Bool) : State :=
  let keep (ds : Dests) : Dests := ds.filter fun d => !gone d.1
  let s1 : State := { s with cores := s.cores.map fun c =>
    (c.1, { c.2 with dests := c.2.dests.filter (fun d => !gone d), q := c.2.q.map fun x => (x.1, x.2.dropDests keep) }) }
  s1.ctxs.foldl (fun t c =>
    let k := t.ctx c.1
    let k1 := { k with pubs := k.pubs.map (fun p => { p with dests := p.dests.map keep }),
                       wait := match k.wait with | .release sc ds => .release sc (keep ds) | w => w }
    if k1 = k then t else ((t.setCtx c.1 k1).pubCheck c.1).releaseCheck c.1) s1

/-- Aborts a function's migration, if one is under way: the function may switch back in here, and event 5 is sent (R457). One that is over leaves
nothing to abort. -/
def State.abortMigration (s : State) (f : Nat) : State :=
  let m := (s.mig f).stage
  if m = 0 then s else if 5 ≤ m then s.setMig f Migration.init else (s.setMig f Migration.init).hostEvent 5 f

/-- The migrations to a package that fails before COMMIT are aborted (R457). -/
def State.abortTo (s : State) (peer : Nat) : State :=
  (s.migs.filter fun m => m.2.peer = peer && (m.2.stage = 1 || m.2.stage = 2)).foldl (fun t m => t.abortMigration m.1) s

/-- A peer package is declared lost (R456, R457). -/
def State.losePeer (s : State) (peer : Nat) : State :=
  let mine := (s.steps.filter fun x => x.peer = peer && x.stage < 2).map fun x => (x.launch, x.va)
  let s1 := { s with peersLost := peer :: s.peersLost }.failSteps 0x15 257 mine
  ((s1.dropDests fun d => d = .peer peer).hostEvent 4 peer).abortTo peer

/-- The packages that the collective engine and the migration agent have dealt with. -/
def State.peers (s : State) : List Nat :=
  let moving := (s.migs.filter fun m => m.2.stage ≠ 0).map fun m => m.2.peer
  ((s.steps.map fun (x : CStep) => x.peer) ++ (s.uet.map fun (u : Nat × Uet) => u.1 / 16) ++ moving).eraseDups

/-- PEER_ACK_TIMEOUT (R456). -/
def execPeerAckTimeout (peer : Nat) (s : State) : Out := .next (if s.peersLost.contains peer then s else s.losePeer peer)

/-- VEXPEN_PORT_DOWN: the port leaves every send mask, and what it carried goes out again; with no port left, every peer is lost (R455, R456). -/
def execVexpenPortDown (port : Nat) (s : State) : Out :=
  if !s.vexUp.contains port then .next s
  else
    let s1 := (({ s with vexUp := s.vexUp.filter fun p => p ≠ port } : State).resend).hostEvent 3 port
    .next (if s1.vexUp ≠ [] then s1 else (s1.peers.filter fun p => !s1.peersLost.contains p).foldl State.losePeer s1)

/-- VEXPEN_PORT_UP: what waited for a port goes out (R455). -/
def execVexpenPortUp (port : Nat) (s : State) : Out :=
  .next (if port < 16 && !s.vexUp.contains port then ({ s with vexUp := port :: s.vexUp } : State).resend else s)

/-- UET_RETRANSMIT: a packet is sent again; it arrives once (R368, R456). -/
def execUetRetransmit (s : State) : Out := .next s
/-- LINK_LEVEL_RETRY: a flit is delayed and keeps its order (R372). -/
def execLinkLevelRetry (s : State) : Out := .next s

/-! ## CXL ports (R366, R367, R454) -/

/-- CXL_PORT_UP: the port's expander has `cap` bytes, of at most 2 TiB (R76, R366). -/
def execCxlPortUp (port cap : Nat) (s : State) : Out :=
  .next (if port < 8 && !s.cxlUp.contains port then { s with cxlUp := port :: s.cxlUp, cxlCap := tput 0 s.cxlCap port (min cap (2 ^ 41)) } else s)

/-- Deferred stores at locations whose home has gone are never performed (R425, R454), and leave its buffers and its log. -/
def State.dropStores (s : State) (gone : Nat → Bool) : State :=
  let s1 : State := { s with ctxs := s.ctxs.map fun c =>
    (c.1, { c.2 with own := c.2.own.map fun o => if !o.pub && gone o.loc then { o with pub := true } else o }) }
  s1.ctxs.foldl (fun t c => t.trimHeld c.1) s1

/-- Smirvadin turns a leaf into an absent entry whose HOME no core has, so that walkers reject it (R79, R454). -/
def State.dropLeaf (s : State) (e : TlbEntry) : State := s.poke e.pte (toBytes 8 (0x3FF * 256))

/-- Smirvadin invalidates the translations of a range of an address space in every TLB (R81). -/
def State.invalidate (s : State) (root a b : Nat) : State :=
  let keep (t : List TlbEntry) : List TlbEntry := t.filter fun e => e.root ≠ root || b ≤ e.va || e.va + 2 ^ e.size ≤ a
  { s with cores := s.cores.map (fun c => (c.1, { c.2 with itlb := keep c.2.itlb, dtlb := keep c.2.dtlb })),
           clusters := s.clusters.map fun c => (c.1, { c.2 with tlb := keep c.2.tlb }) }

/-- A leaf goes, from its table and from every TLB. -/
def State.unmapLeaf (s : State) (e : TlbEntry) : State := (s.dropLeaf e).invalidate e.root e.va (e.va + 2 ^ e.size)

/-- Posts that go to some locations and have not been refused are refused there (R418). -/
def State.refusePosts (s : State) (cause : Nat) (at_ : Nat → Bool) : State :=
  { s with posts := s.posts.map fun x => if x.refuse = none && x.parts.any (fun p => at_ p.1) then { x.stop cause 0 with arrived := false } else x }

/-- The first point of a transfer that waits in the landing buffer of some memory cores, and its address. -/
def State.parkedAt (s : State) (at_ : Nat → Bool) (x : Transfer) : Option (Nat × Nat) :=
  (x.todo.findIdx? fun p => x.parked.any fun y => y.1 = p && at_ y.2.1).map fun j =>
    (j, match s.cellNow x.root x.dst (x.todo.getD j []) with | some b => x.dst.ptr b | none => x.dst.base)

/-- Memory cores refuse the points of counted sends that wait in their landing buffers (R418, R420). -/
def State.refuseParked (s : State) (cause : Nat) (at_ : Nat → Bool) : State :=
  s.cores.foldl (fun t c =>
    let t1 := [0, 1, 2, 3].foldl (fun t q => (c.2.queue q).entries.foldl (fun u e => match e.op with
      | .xfer x => match s.parkedAt at_ x with | some p => u.refuseAt c.1 q e x p.1 cause p.2 | none => u
      | _ => u) t) t
    c.2.held.foldl (fun u h => match h.xfer with
      | some x => match s.parkedAt at_ x with | some p => u.settleHeld c.1 h (x.drop p.1 cause p.2) | none => u
      | none => u) t1) s

/-- The services for which contexts wait at some memory cores, or on the way there, fail (R414, R454). -/
def State.failServices (s : State) (at_ : Nat → Bool) : State :=
  let s1 : State := { s with prefServices := s.prefServices.filter fun p => !at_ p.2.1 }
  s1.ctxs.foldl (fun t c => match c.2.wait with
    | .shipping m va => if at_ m then t.accessFails c.1 va.toNat else t
    | .service m va => if at_ m then t.accessFails c.1 va.toNat else t
    | .fetchService m va => if at_ m then t.fetchFails c.1 va.toNat else t
    | _ => t) s1

/-- A CXL port goes down: every leaf that maps it becomes absent, the posted operations that its far-memory cores hold are refused, those in a
buffer, the log or a landing buffer among them, the accesses that wait there, for an answer or for service, fail, and its data are lost (R454). -/
def State.loseCxl (s : State) (port : Nat) : State :=
  let here (l : Nat) : Bool := l < 2 ^ 48 && bits l 47 1 = 1 && bits l 41 3 = port
  let s1 := ({ s with cxlUp := s.cxlUp.filter fun p => p ≠ port } : State).refusePosts 0x06 here
  let far (m : Nat) : Bool := 384 ≤ m && (m - 384) / 2 = port
  let s2 := (((s1.refuseHolding 0x06 here).dropStores here).refuseParked 0x06 far).failServices far
  let s3 := (s2.ctxs.map (·.1)).foldl (fun t c => t.failWaiting here c) s2
  let s4 := (s3.allLeaves.filter fun e => here e.pa).foldl State.unmapLeaf s3
  ({ s4 with mem := s4.mem.filter (fun b => !here b.1), poison := s4.poison.filter (fun u => !here u),
             lim := s4.lim.filter fun x => !here x.loc } : State).hostEvent 2 port

/-- CXL_PORT_DOWN. -/
def execCxlPortDown (port : Nat) (s : State) : Out := .next (if s.cxlUp.contains port then s.loseCxl port else s)
/-- CXL_RESPONSE_TIMEOUT: a request without a response in 90,000 cycles takes the port down (R454). -/
def execCxlResponseTimeout (port : Nat) (s : State) : Out := .next (if s.cxlUp.contains port then s.loseCxl port else s)

/-- A line or word becomes poisoned (R429). -/
def State.addPoison (s : State) (l : Nat) : State :=
  let u := l - l % poisonUnit l
  let s1 : State := { s with mending := s.mending.filter fun x => !(u ≤ x.2 / 8 && x.2 / 8 < u + poisonUnit u) }
  if s.poison.contains u then s1 else { s1 with poison := u :: s.poison }

/-- CXL_MEM_RESPONSE: data, or poison for the line (R367, R427, R454). -/
def execCxlMemResponse (l : Nat) (poison : Bool) (s : State) : Out := .next (if poison then s.addPoison l else s)

/-! ## Lost dies (R415, R423 to R425) -/

/-- The links of a compute die: east and west always, north and south to its neighbours (R11, R12). 0 N, 1 E, 2 S, 3 W. -/
def dieLinks (d : Nat) : List Nat := [1, 3] ++ (if 6 ≤ d then [0] else []) ++ (if d < 18 then [2] else [])

/-- The die at the other end of a link, where it is a compute die. -/
def linkPeer (d dir : Nat) : Option (Nat × Nat) :=
  match dir with
  | 0 => if 6 ≤ d then some (d - 6, 2) else none
  | 1 => if d % 6 < 5 then some (d + 1, 3) else none
  | 2 => if d < 18 then some (d + 6, 0) else none
  | _ => if 0 < d % 6 then some (d - 1, 1) else none

/-- A domain as a die with members is lost (R423, R424): counted sends of its cores that have announced themselves miss their points. -/
def State.loseMembers (s : State) (d l k : Nat) : State :=
  let x := s.dom l k
  let gone := x.members.filter fun c => c / 128 = d
  if gone = [] then s
  else
    let sends := gone.flatMap fun c => (s.core c).held.filterMap fun h =>
      if h.of l k then h.xfer.bind fun y => let m := s.missingOf c y true; if y.announced && m.points ≠ [] then some m else none else none
    (s.setDom l k { x with lostDie := some d, missing := x.missing ++ sends }).checkExchange l k

/-- The count words receive the points that landed of the counted sends of a core on a lost die (R424). -/
def State.countLost (s : State) (core : Nat) : State :=
  (s.core core).held.foldl (fun t h => match h.xfer with
    | some x => if x.count = 0 then t else t.landedAll h.ctx none { x with adv := none }
    | none => t) s

/-- The cores of a lost die leave their launches, whose records there never complete; the launches end FAILED (R423). -/
def State.loseCores (s : State) (d : Nat) : State :=
  let cores := (List.range 128).map (128 * d + ·)
  let s1 := cores.foldl (fun t c =>
    if t.core c = Core.init then t
    else
      let t1 := (List.range 11).foldl (fun u i =>
        let k := u.ctx (16 * c + i)
        if k = ctxReset (16 * c + i) then u
        else u.setCtx (16 * c + i) { k with stopped := true, record := none, range := none, wait := .none, away := none }) (t.countLost c)
      t1.setCore c { t1.core c with launch := none, held := [], outst := [], q := [] }) s
  let s2 := (List.range 16).foldl (fun t i => t.setCluster (16 * d + i) { t.cluster (16 * d + i) with queue := [], parked := [] }) s1
  let hit := s2.launches.filter fun x => x.2.stage = 1 && x.2.cores.any fun c => c / 128 = d
  hit.foldl (fun t x =>
    let y := t.launchOf x.1
    ((t.setLaunch x.1 { y with left := (y.cores.filter fun c => c / 128 = d) ++ y.left }).failLaunch x.1 0x15).checkLaunch x.1) s2

/-- A die is declared lost (R423 to R425, R415). -/
def State.loseDie (s : State) (d : Nat) : State :=
  let x := s.die d
  if x.lost then s
  else
    let s1 := s.setDie d { x with lost := true }
    let s2 := s1.domains.foldl (fun t y => t.loseMembers d (y.1 / 16) (y.1 % 16)) s1
    let s3 := s2.ctxs.foldl (fun t c =>
      let k := t.ctx c.1
      if k.away.any fun a => a.core < 384 && a.core / 16 = d then t.restoreAway c.1
      else if isMemCore c.1 && coreNo c.1 < 384 && dieNo c.1 = d && k.life = .live then t.endProgram c.1 (some 0x15) 0 else t) s2
    let gone (y : Dest) : Bool := match y with | .memCore m => m < 384 && m / 16 = d | .cluster c => c / 16 = d | .peer _ => false
    let s4 := (((s3.loseCores d).dropStores fun l => l < 3 * 2 ^ 48 && s3.lostLoc l).refuseParked 0x06 fun m => m < 384 && m / 16 = d).dropDests gone
    s4.endProfilers fun p => p.clusters.any fun c => c / 16 = d

/-- UCIE_LINK_DOWN: with every link of a die down, the die is lost (R423). -/
def execUcieLinkDown (d dir : Nat) (s : State) : Out :=
  let down (t : State) (d dir : Nat) : State :=
    let x := t.die d
    if x.linksDown.contains dir then t else t.setDie d { x with linksDown := dir :: x.linksDown }
  let check (t : State) (d : Nat) : State := if (dieLinks d).all (t.die d).linksDown.contains then t.loseDie d else t
  if 24 ≤ d || !(dieLinks d).contains dir then .next s
  else
    let s1 := down s d dir
    match linkPeer d dir with
    | some p => .next (check (check (down s1 p.1 p.2) d) p.1)
    | none => .next (check s1 d)

/-- DIE_HEARTBEAT_TIMEOUT (R423). -/
def execDieHeartbeatTimeout (d : Nat) (s : State) : Out := .next (if d < 24 then s.loseDie d else s)

end Sys2Proof.Machine
end

