-- ==== Sys2Proof/Machine/Host.lean ====
section
/-! DEFINITION. Host ports and their mailboxes, copies, function resets, and the migration of a virtual function (R81, R361 to R365, R373,
R451 to R453, R457, R463). What Smirvadin chooses, and what hosts and the other package send, are the operands of the events
(DESIGN CHOICE, log 7). Functions 0 and 1 are the physical functions. -/

namespace Sys2Proof.Machine

/-! ## Rings (R362, R363) -/

/-- The function's requests taken and not yet answered. -/
def State.outstanding (s : State) (f : Nat) : Nat := (s.reqs.filter fun r => r.func = f).length

/-- A request entry as its 512 bits. -/
def requestOf (f w : Nat) : HostReq :=
  { func := f, tag := bits w 32 32, opc := bits w 0 32, args := (List.range 7).map fun (i : Nat) => bits w (64 + 64 * i) 64,
    active := false, moved := 0, launch := none }

/-- Smirvadin takes requests in ring order while a response would find a free slot. Before it runs, only recovery mode takes any, and only
OPC 7 on function 0 (R377, R458). -/
def State.takeRequests (f : Nat) : Nat → State → State
  | 0, s => s
  | k + 1, s =>
    let x := s.func f
    let may := s.birhiry.boot = 2 || (s.birhiry.boot = 3 && f = 0)
    if !may || x.reqTail ≤ x.reqHead || 256 ≤ x.rspTail - x.rspHead + s.outstanding f + x.waiting.length then s
    else
      let r := requestOf f (tget 0 x.req (x.reqHead % 256))
      let s1 := s.setFunc f { x with reqHead := x.reqHead + 1 }
      let known := if s.birhiry.boot = 2 then 1 ≤ r.opc && r.opc ≤ 6 else r.opc = 7
      let s2 : State := if known then { s1 with reqs := s1.reqs ++ [r] } else s1.respond f r.tag 2 0
      State.takeRequests f k s2

/-- REQTAIL_WRITE: a host has written entries into slots of a function's request ring and writes REQTAIL, an index modulo 256; the doorbell of
a supervisor core rings (R362). -/
def execReqtailWrite (f u tail : Nat) (entries : List (Nat × Nat)) (s : State) : Out :=
  let x := s.func f
  if !isFunc f || !s.hostUp.contains x.port then .next s
  else
    let req := entries.foldl (fun t e => tput 0 t (e.1 % 256) (e.2 % 2 ^ 512)) x.req
    let s1 := s.setFunc f { x with req := req, reqTail := x.reqHead + (tail + 256 - x.reqHead % 256) % 256 }
    let bell := 0x20000 + 16 * (u % 32)
    let s2 : State := if s1.bells.contains bell then s1 else { s1 with bells := bell :: s1.bells }
    .next (s2.takeRequests f 256)

/-- What a host reads at an offset of a function's BAR0, as a dword: the rings, the four indices, and zero beyond them (R362). -/
def Func.bar0 (x : Func) (off : Nat) : Nat :=
  if off < 0x4000 then bits (tget 0 x.req (off / 64)) (8 * (off % 64)) 64
  else if off < 0x6000 then bits (tget 0 x.rsp ((off - 0x4000) / 32)) (8 * (off % 32)) 64
  else match off with
    | 0x6000 => x.reqTail % 256
    | 0x6008 => x.reqHead % 256
    | 0x6010 => x.rspTail % 256
    | 0x6018 => x.rspHead % 256
    | _ => 0

/-- RSPHEAD_WRITE: the host frees response slots up to an index modulo 256; what waits for a slot takes one. -/
def execRspheadWrite (f h : Nat) (s : State) : Out :=
  let x := s.func f
  if !isFunc f || !s.hostUp.contains x.port then .next s
  else
    let step := (h + 256 - x.rspHead % 256) % 256
    let head := min (x.rspHead + step) x.rspTail
    let y := { x with rspHead := head }
    .next ((s.setFunc f (y.flush y.waiting.length)).takeRequests f 256)

/-- Answers request n, which then is outstanding no more. -/
def State.answer (s : State) (n : Nat) (r : HostReq) (status value : Nat) : State :=
  let s1 : State := { s with reqs := s.reqs.eraseIdx n }
  (s1.respond r.func r.tag status value).takeRequests r.func 256

/-- Runs the service of request n, if it has a code. -/
def atRequest (n opc : Nat) (body : HostReq → State → State) (s : State) : Out :=
  match s.reqs[n]? with
  | some r => .next (if r.opc = opc && s.birhiry.boot = 2 then body r s else s)
  | none => .next s

def HostReq.arg (r : HostReq) (i : Nat) : Nat := r.args.getD i 0

/-! ## MAP and UNMAP (R81, R363) -/

/-- A MAP that is well formed. -/
def mapOk (size leaf rights : Nat) : Bool :=
  (leaf = 2 ^ 15 || leaf = 2 ^ 27 || leaf = 2 ^ 39) && size ≠ 0 && size % leaf = 0 && rights ≠ 0 && rights < 8

/-- A leaf lies in a range of VAs. -/
def TlbEntry.inRange (e : TlbEntry) (a b : Nat) : Bool := a ≤ e.va && e.va < b

/-- The leaf of a new mapping lies in its range, is as its request has it, and its memory is zeroed (R79, R363). -/
def newLeaf (va size leaf rights : Nat) (t : State) (e : TlbEntry) : Bool :=
  e.inRange va (va + size) && e.hasRights leaf rights && t.zeroRange e.pa (2 ^ e.size)

/-- A new mapping takes a free range of the global half of its address space (R81, R363). Pages without a leaf yet are installed at their first touch
(R465). -/
def State.mapFits (s : State) (root va size leaf : Nat) : Bool :=
  va % leaf = 0 && va + size ≤ 2 ^ 50 && !((leavesOf s.mem root).any fun e => e.va < va + size && va < e.va + 2 ^ e.size)
    && !(s.reserves.any fun r => r.root = root && r.va < va + size && va < r.va + r.size)

/-- MAP: Smirvadin finds a VA range and frames, wipes the frames and writes the entries, or refuses. What it wipes and writes is no one else's. -/
def execMap (n : Nat) (ok : Bool) (va : Nat) (wipes : List (Nat × Nat)) (writes : List (Nat × Nat × Nat)) (s : State) : Out :=
  atRequest n 1 (fun r s =>
    let size := r.arg 0
    let leaf := r.arg 1
    let x := s.func r.func
    if !mapOk size leaf (r.arg 2) || (r.args.drop 3).any (· ≠ 0) then s.answer n r 2 0
    else if !ok then s.answer n r 1 0
    else if !s.mapFits x.root va size leaf || !s.mayInstall x.root wipes writes (newLeaf va size leaf (r.arg 2))
        || x.maps.any (fun m => m.va < va + size && va < m.va + m.size) then s
    else
      let m : Mapping := { va := va, size := size, leaf := leaf, rights := r.arg 2 }
      ((s.install wipes writes).setFunc r.func { x with maps := x.maps ++ [m] }).answer n r 0 va) s

/-- The part of a range that a mapping covers, as its bounds; empty bounds where they do not meet. -/
def Mapping.cut (m : Mapping) (a b : Nat) : Nat × Nat := (max a m.va, min b (m.va + m.size))

/-- The range is exactly whole leaves of the mappings. -/
def wholeLeaves (ms : List Mapping) (a b : Nat) : Bool :=
  let cuts := ms.map fun m => (m, m.cut a b)
  a < b && cuts.all (fun c => c.2.2 ≤ c.2.1 || ((c.2.1 - c.1.va) % c.1.leaf = 0 && (c.2.2 - c.1.va) % c.1.leaf = 0))
    && (cuts.map fun c => c.2.2 - c.2.1).sum = b - a

/-- What stays of a mapping outside a range. -/
def Mapping.without (a b : Nat) (m : Mapping) : List Mapping :=
  let c := m.cut a b
  if c.2 ≤ c.1 then [m]
  else [{ m with size := c.1 - m.va }, { m with va := c.2, size := m.va + m.size - c.2 }].filter fun x => x.size ≠ 0

/-- The leaves of an address space in a range go. -/
def State.unmapRange (s : State) (root a b : Nat) : State :=
  ((leavesOf s.mem root).filter (·.inRange a b)).foldl State.unmapLeaf s

/-- UNMAP: whole leaves of the same function; OK is sent after the invalidation. -/
def execUnmap (n : Nat) (s : State) : Out :=
  atRequest n 2 (fun r s =>
    let a := r.arg 0
    let b := a + r.arg 1
    let x := s.func r.func
    if !wholeLeaves x.maps a b then s.answer n r 1 0
    else ((s.unmapRange x.root a b).setFunc r.func { x with maps := x.maps.flatMap (Mapping.without a b) }).answer n r 0 0) s

/-! ## Copies (R363, R364, R452) -/

/-- The device's end of a copy: its VA and its length. -/
def HostReq.deviceVa (r : HostReq) : Nat := if r.opc = 3 then r.arg 1 else r.arg 0
def HostReq.hostAddr (r : HostReq) : Nat := if r.opc = 3 then r.arg 0 else r.arg 1

/-- Where a device byte of a copy lies: none where it is not mapped to the function or its leaf lacks the right; nowhere yet where its page
waits for its first touch (R465). -/
def State.copyByte (s : State) (r : HostReq) (i : Nat) : Option (Option (Nat × Nat)) :=
  let va := r.deviceVa + i
  let x := s.func r.func
  match x.maps.find? fun m => m.va ≤ va && va < m.va + m.size with
  | none => none
  | some m =>
    if !bitOf m.rights (if r.opc = 3 then 1 else 0) then none
    else match s.homeIn (some x.root) va (r.opc = 3) with
      | .at_ l pte => some (some (l, pte))
      | .absent _ => some none
      | _ => none

/-- The bytes that a copy moves next, at most as many as are given, up to its first byte that it may not reach. -/
def State.copyRun (s : State) (r : HostReq) (i : Nat) : Nat → List (Nat × Nat)
  | 0 => []
  | k + 1 =>
    match (if i < r.arg 2 then s.copyByte r i else none) with
    | some (some l) => l :: s.copyRun r (i + 1) k
    | _ => []

/-- A copy ends when it has moved every byte, or stops at a byte that it may not reach (R363). -/
def State.copyCheck (s : State) (n : Nat) (r : HostReq) : State :=
  if r.arg 2 ≤ r.moved then s.answer n r 0 r.moved
  else if s.copyByte r r.moved = none then s.answer n r 1 r.moved
  else { s with reqs := s.reqs.set n r }

/-- How many of k bytes a copy moves at once: aligned words of device memory whole, but for the copy's end (R89, R364). -/
def HostReq.whole (r : HostReq) (k : Nat) : Nat := if r.arg 2 ≤ r.moved + k then k else k - (r.deviceVa + r.moved + k) % 4

/-- COPY_IN: the copy engine starts. -/
def execCopyIn (n : Nat) (s : State) : Out :=
  atRequest n 3 (fun r s => if r.active then s else s.copyCheck n { r with active := true }) s
/-- COPY_OUT: the copy engine starts. -/
def execCopyOut (n : Nat) (s : State) : Out :=
  atRequest n 4 (fun r s => if r.active then s else s.copyCheck n { r with active := true }) s

/-- Host bytes land in device memory, performed at system scope. -/
def State.copyLand (s : State) (f : Nat) (ls : List (Nat × Nat)) (bs : List Byte) : State :=
  State.heal ((ls.zip bs).foldl (fun t x => ((t.poke x.1.1 [x.2]).markDirty x.1.2).markFrame f x.1.1) s) (ls.map (·.1))

/-- The host port of a function reports an error of a host access (R452). -/
def State.reportAer (s : State) (f kind : Nat) : State := { s with aer := s.aer ++ [((s.func f).port, kind)] }

/-- The walks of a copy's bytes set A in the entries that they read (R79). -/
def State.markCopy (s : State) (r : HostReq) (k : Nat) : State := s.markHomes (some (s.func r.func).root) (r.deviceVa + r.moved) k

/-- HOST_COMPLETION_ARRIVAL: a host access of copy n succeeds (kind 0) for as many bytes as are given, in whole words (R364), which are what the host
read for a COPY_IN; or it fails (1 poisoned, 2 Unsupported Request, 3 Completer Abort), which the port reports, and stops the copy (R452). Poison in device
memory stops a COPY_OUT as well (R427). -/
def execHostCompletionArrival (n kind : Nat) (bytes : List Nat) (s : State) : Out :=
  match s.reqs[n]? with
  | none => .next s
  | some r =>
    if !r.active then .next s
    else if kind ≠ 0 then .next ((s.reportAer r.func kind).answer n r 1 r.moved)
    else
      let ls := s.copyRun r r.moved (r.whole bytes.length)
      let r1 := { r with moved := r.moved + ls.length }
      let s := if ls = [] then s else s.markCopy r ls.length
      if r.opc = 3 then .next ((s.copyLand r.func ls (bytes.map (BitVec.ofNat 8))).copyCheck n r1)
      else
        let clean := ls.takeWhile fun l => !s.poisoned l.1 1
        let out := clean.map fun l => readByte s.mem l.1
        let s1 : State := { s with hostOut := s.hostOut ++ [(r.func, r.hostAddr + r.moved, out)] }
        if clean.length < ls.length then .next (s1.answer n r 1 (r.moved + clean.length)) else .next (s1.copyCheck n r1)

/-- HOST_COMPLETION_TIMEOUT: no completion comes, and the copy stops (R452). -/
def execHostCompletionTimeout (n : Nat) (s : State) : Out :=
  match s.reqs[n]? with
  | some r => .next (if r.active then (s.reportAer r.func 4).answer n r 1 r.moved else s)
  | none => .next s

/-! ## Launches (R363) -/

/-- A range lies in mappings of a function that have a right. -/
def Func.covers (x : Func) (right a n : Nat) : Bool := (List.range n).all fun i => x.maps.any fun m => bitOf m.rights right && m.va ≤ a + i && a + i < m.va + m.size

/-- MAILBOX_LAUNCH: a supervisor core checks the request against the function's mappings and rights, and what else its policy asks (`ok`);
the record goes to the package launch unit, and once its completion record is final, the answer is its STATUS (R174, R363). A function that has
migrated away runs nothing here, and is refused (R457). -/
def execMailboxLaunch (n : Nat) (ok : Bool) (s : State) : Out :=
  atRequest n 5 (fun r s =>
    match r.launch with
    | none =>
      let l := s.newLaunch
      let x := s.func r.func
      if !ok || s.migGone r.func || !x.covers 0 (r.arg 0) 256 then s.answer n r 1 0
      else { s.setLaunch l { Launch.init with va := r.arg 0, stage := 0, func := r.func, root := x.root } with
        reqs := s.reqs.set n { r with launch := some l } }
    | some l => if (s.launchOf l).stage = 2 then s.answer n r 0 (s.rdL l (s.launchOf l).fin 4) else s) s

/-- MAILBOX_CANCEL: the code of R184, for a launch of the same function. -/
def execMailboxCancel (n : Nat) (s : State) : Out :=
  atRequest n 6 (fun r s =>
    match s.launches.find? fun x => x.2.va = r.arg 0 && x.2.stage < 2 && x.2.func = r.func with
    | none => s.answer n r 0 2
    | some (l, _) => let y := s.cancelLaunch l; y.1.answer n r 0 y.2) s

/-! ## Function resets and links (R365, R453, R463) -/

/-- A launch that a job-wide switch has taken out ends: its images go and its cores have left. -/
def State.dropJob (s : State) (l : Nat) : State :=
  let x := s.launchOf l
  if x.switch ≠ 2 then s
  else
    let s1 : State := { s with images := s.images.filter (fun i => i.launch ≠ l), bounce := s.bounce.filter fun b => b.launch ≠ l }
    s1.setLaunch l { x with switch := 0, held := false, left := x.cores }

/-- Its launch ends CANCELLED (R453). -/
def State.withdraw (s : State) (l : Nat) : State := s.setLaunch l { s.launchOf l with withdrawn := true }

/-- The address spaces of a function and of its launches. -/
def State.spacesOf (s : State) (f : Nat) : List Nat := ((s.func f).root :: (s.launches.filter fun x => x.2.func = f && x.2.stage < 2).map (·.2.root)).eraseDups

/-- Some leaves of a function go, and their frames are wiped: what is on its way to them, waits for their answer or for a release, is never performed (R365,
R457). -/
def State.freeLeaves (s : State) (f : Nat) (mine : List TlbEntry) : State :=
  let here (l : Nat) : Bool := mine.any fun e => e.pa ≤ l && l < e.pa + 2 ^ e.size
  let s1 := (s.refusePosts 0x06 here).dropStores here
  let s2 := (s1.ctxs.map (·.1)).foldl (fun t c => t.failWaiting here c) s1
  (mine.foldl (fun t e => (t.unmapLeaf e).wipe e.pa (2 ^ e.size)) s2).setFunc f { s2.func f with maps := [] }

/-- Unmaps everything that a function has mapped (R365). -/
def State.freeMaps (s : State) (f : Nat) : State :=
  let x := s.func f
  s.freeLeaves f ((leavesOf s.mem x.root).filter fun e => x.maps.any fun m => e.inRange m.va (m.va + m.size))

/-- Frees every frame of a function (R457). -/
def State.freeFrames (s : State) (f : Nat) : State := s.freeLeaves f ((s.spacesOf f).flatMap (leavesOf s.mem))

/-- A reset of a function (R365, R453): the launches are cancelled and end CANCELLED, the requests get no response, the mappings go and their frames
are wiped. -/
def State.resetFunction (s : State) (f : Nat) : State :=
  let s1 := s.abortMigration f
  let s2 : State := { s1 with reqs := s1.reqs.filter fun r => r.func ≠ f }
  let s3 := (s2.launchesOf f).foldl (fun t l => (((t.withdraw l).cancelLaunch l).1.dropJob l).checkLaunch l) s2
  let x := s3.func f
  ((s3.freeMaps f).setFunc f { Func.init x.port with root := x.root }).endProfilers fun p => p.func = f

/-- FUNCTION_LEVEL_RESET. -/
def execFunctionLevelReset (f : Nat) (s : State) : Out := .next (if isFunc f then s.resetFunction f else s)

/-- HOST_LINK_DOWN: every function of the port is reset, and event 1 is sent to the others (R453). -/
def execHostLinkDown (port : Nat) (s : State) : Out :=
  if !s.hostUp.contains port then .next s
  else
    let s1 : State := { s with hostUp := s.hostUp.filter (fun p => p ≠ port), hostLost := port :: s.hostLost }
    let fs := (List.range 66).filter fun f => (s1.func f).port = port
    .next ((fs.foldl State.resetFunction s1).hostEvent 1 port)

/-- HOST_LINK_UP: the functions of the port become reachable. -/
def execHostLinkUp (port : Nat) (s : State) : Out :=
  .next (if port < 2 && !s.hostUp.contains port then { s with hostUp := port :: s.hostUp, hostLost := s.hostLost.filter fun p => p ≠ port } else s)

/-! ## Migration (R373, R457) -/

/-- A frame's place in its memory core's bitmap: consecutive 32 KiB frames of a memory core, every other of a far-memory port. -/
def frameBit (fr : Nat) : Nat := if bits fr 32 1 = 0 then bits fr 0 17 else bits fr 1 25

/-- DIRTY_BITMAP_READ: the agent reads and clears word w of a function's bitmap at memory core m in one step; while it migrates the function, it owes
the frames that it found. -/
def execDirtyBitmapRead (f m w : Nat) (s : State) : Out :=
  let hit (x : Nat × Nat) : Bool := x.1 = f && ownerOf (x.2 * 32768) = m && frameBit x.2 / 64 = w
  let v := ((s.dirty.filter hit).map fun x => 2 ^ (frameBit x.2 % 64)).sum
  let y := s.mig f
  let read := if y.stage = 1 then (s.dirty.filter hit).map (·.2) else []
  .next ({ s with dirty := s.dirty.filter fun x => !hit x }.setMig f { y with dirtyWord := v, owed := y.owed ++ read })

/-- Smirvadin's agent begins a migration: at the source towards a package, or with the copy held at the destination (R373). -/
def State.beginMigration (s : State) (f stage peer : Nat) : State :=
  if (s.mig f).stage = 0 then s.setMig f { Migration.init with stage := stage, peer := peer } else s

/-- A dirty round at the source ends, which has found some dirty frames: under the agent's threshold, and after 30 rounds, the final round comes
(R373, R457). -/
def State.dirtyRound (s : State) (f found threshold : Nat) : State :=
  let m := s.mig f
  if m.stage ≠ 1 then s else s.setMig f { m with rounds := m.rounds + 1, last := m.last || found < threshold || 30 ≤ m.rounds + 1 }

/-- The agent sends a frame of a migrating function (R373). -/
def State.sendFrame (s : State) (f frame : Nat) : State :=
  let m := s.mig f
  if m.stage ≠ 1 then s
  else s.setMig f { m with frames := m.frames ++ [(frame, readBytes s.mem (32768 * frame) 32768)], owed := m.owed.filter fun x => x ≠ frame }

/-- The agent sends the next of the function's saved images, in the final round (R373). -/
def State.sendImage (s : State) (f : Nat) : State :=
  let m := s.mig f
  if m.stage ≠ 1 || !m.last || (s.images.filter fun i => (s.launchOf i.launch).func = f).length ≤ m.sent then s else s.setMig f { m with sent := m.sent + 1 }

/-- The mapped frames of a function: those of every leaf of its address spaces, private and loaded pages among them (R373). -/
def State.framesOf (s : State) (f : Nat) : List Nat :=
  ((s.spacesOf f).flatMap (leavesOf s.mem)).flatMap fun e => (List.range (2 ^ (e.size - 15))).map (e.pa / 32768 + ·)

/-- A frame that the source has sent arrives at the destination (R373). -/
def State.takeFrame (s : State) (f frame v : Nat) : State :=
  if (s.mig f).stage = 4 && (s.framesOf f).contains frame then s.poke (32768 * frame) (toBytes 32768 v) else s

/-- A launch that the source has sent arrives at the destination, switched out, with its domains; number n stands for what the source sends (R373). -/
def State.takeLaunch (s : State) (f n : Nat) : State :=
  match (if (s.mig f).stage = 4 then importedLaunch n else none) with
  | none => s
  | some x =>
    let l := s.newLaunch
    let s1 := s.setLaunch l { x.1 with stage := 1, switch := 2, held := true, func := f, root := (s.func f).root }
    (List.range 16).foldl (fun t d => t.setDom l d (tget Domain.init x.2 d)) s1

/-- A core's image that the source has sent arrives at the destination, for a core of a launch that is switched out there (R373). -/
def State.takeImage (s : State) (f l core n : Nat) : State :=
  let x := s.launchOf l
  match (if (s.mig f).stage = 4 && x.func = f && x.switch = 2 then importedImage n else none) with
  | none => s
  | some i => { s with images := s.images ++ [{ i with launch := l, num := core }] }

/-- The frames of the pages that a page pool of a function lists as free: their contents are no data, and the destination has wiped frames for
them (R161, R373). -/
def State.poolFrames (s : State) (root p : Nat) : List Nat :=
  (List.range (s.rdIn (some root) p 4)).filterMap fun i =>
    match s.homeIn (some root) (s.rdIn (some root) (p + 8 + 8 * i) 8) false with
    | .at_ l _ => some (l / 32768)
    | _ => none

/-- The function stands at an exchange boundary, switched out: no core of its launches waits for a barrier, and in a phased launch no core has executed
anything since one released it (R373). -/
def State.atExchangeBoundary (s : State) (f : Nat) : Bool :=
  (s.launchesOf f).all fun l =>
    (s.launchOf l).switch = 2 && !(s.domains.any fun d => d.1 / 16 = l && (d.2.exchange || d.2.arrived ≠ []))
      && (!(s.launchOf l).phased || (s.images.filter fun i => i.launch = l).all fun i => (i.ctxs.head?).all (·.atBarrier))

/-- The source has sent everything: each mapped frame at least once, none of them dirty or found dirty since, but for those in the pools that are
named, which are pools of its sequences, and every image (R373). -/
def State.allSent (s : State) (f : Nat) (pools : List Nat) : Bool :=
  let m := s.mig f
  let spaces := s.spacesOf f
  let known := pools.flatMap fun p => (spaces.filter fun r => s.pools.contains (r, p)).map fun r => (r, p)
  let spare := known.flatMap fun x => s.poolFrames x.1 x.2
  let done (n : Nat) : Bool := spare.contains n || (m.frames.any (fun x => x.1 = n) && !s.dirty.contains (f, n) && !m.owed.contains n)
  m.last && (s.framesOf f).all done && m.sent = (s.images.filter fun i => (s.launchOf i.launch).func = f).length

/-- FINAL_COPY_ACK: the destination acknowledges the final copy; or it refuses, or fails before COMMIT, and the function switches back in at the
source (R457). The final copy has taken everything of the function, stopped at an exchange boundary, but for the free pages of its page pools, which
`pools` names (R373). -/
def execFinalCopyAck (f : Nat) (ok : Bool) (pools : List Nat) (s : State) : Out :=
  let m := s.mig f
  if m.stage ≠ 1 && m.stage ≠ 2 then .next s
  else if !ok then .next (s.abortMigration f)
  else if m.stage = 1 && s.atExchangeBoundary f && s.allSent f pools then .next (s.setMig f { m with stage := 2 })
  else .next s

/-- MIGRATION_COMMIT: the source sends COMMIT after the final acknowledgement; the destination that receives it resumes the function. -/
def execMigrationCommit (f : Nat) (s : State) : Out :=
  let m := s.mig f
  .next (match m.stage with
    | 2 => s.setMig f { m with stage := 3 }
    | 4 => (s.setMig f { m with stage := 5 }).endMigration f
    | _ => s)

/-- Drops a function's launches without a completion record: they run on the other package. Its profiler grants end with them (R463). -/
def State.giveAway (s : State) (f : Nat) : State :=
  ((s.launchesOf f).foldl (fun t l => (t.dropJob l).setLaunch l { (t.dropJob l).launchOf l with stage := 2 }) s).endGrants f

/-- MIGRATION_RESUMED: the destination runs the function, and the source frees its frames and images; it runs nothing of the function until its next
reset. -/
def execMigrationResumed (f : Nat) (s : State) : Out :=
  if (s.mig f).stage ≠ 3 then .next s else .next (((s.freeFrames f).giveAway f).setMig f { Migration.init with stage := 6 })

/-- A launch that waits for the launch unit ends FAILED, as one that runs does (R457). -/
def State.failWaitingLaunch (s : State) (l reason : Nat) : State :=
  let x := s.launchOf l
  if x.stage ≠ 0 then ((s.failLaunch l reason).dropJob l).checkLaunch l
  else
    let s1 := s.setLaunch l { x with fin := s.rdL l (x.va + 0x20) 8, failed := some reason }
    (s1.writeCompletion l 5 reason).setLaunch l { s1.launchOf l with stage := 2 }

/-- RESUMED_TIMEOUT: the source never resumes the function; its launches end FAILED, and event 5 is sent. -/
def execResumedTimeout (f : Nat) (s : State) : Out :=
  if (s.mig f).stage ≠ 3 then .next s
  else
    let s1 := ((s.launchesOf f).foldl (fun t l => t.failWaitingLaunch l 0x15) s).endGrants f
    .next ((s1.abortMigration f).setMig f { Migration.init with stage := 6 })

/-- COMMIT_TIMEOUT: the destination discards the copy, its frames and mappings with it. -/
def execCommitTimeout (f : Nat) (s : State) : Out :=
  if (s.mig f).stage ≠ 4 then .next s else .next (((s.freeFrames f).giveAway f).setMig f Migration.init)

/-! ## Profiler grants (R383, R463) -/

/-- PROFILER_GRANT: the hypervisor role grants (`on`) a kind to a function, at most one of each, or ends the grant of a function whose
launches have all completed. -/
def execProfilerGrant (f kind : Nat) (clusters : List Nat) (on : Bool) (s : State) : Out :=
  if (kind ≠ 1 && kind ≠ 2) || !isFunc f then .next s
  else if on then
    if s.profilers.any fun p => p.kind = kind then .next s
    else
      let p : Profiler := { kind := kind, func := f, clusters := if kind = 2 then clusters else [] }
      .next ({ s with profilers := s.profilers ++ [p] }.notify (· = f) (0x100 + kind))
  else .next (if s.launchesOf f = [] then s.endProfilers fun p => p.func = f && p.kind = kind else s)

end Sys2Proof.Machine
end

