-- ==== Sys2Proof/Machine/Boot.lean ====
section
/-! DEFINITION. The Birhiry core: boot, recovery, lifecycle, measurements, debug unlock, and the freeze read-out (R375 to R382, R389, R458
to R464). What the flash, a host or a requester sends is an operand of the event (DESIGN CHOICE, log 7). -/

namespace Sys2Proof.Machine

/-- Changes the Birhiry core. -/
def State.setBirhiry (s : State) (b : Birhiry) : State := { s with birhiry := b }

/-- An answer on a request's path (0 a Vexpen port, 1 the mailbox): its kind and value. Kinds: 0 InvalidRequest, 1 Busy, 2 the
measurements, 3 a nonce, 4 a refusal's reason, 5 success, 6 a signature. -/
def State.reply (s : State) (path kind value : Nat) : State :=
  s.setBirhiry { s.birhiry with answers := s.birhiry.answers ++ [(path, kind, value)] }

/-- MEASm := SHA-512(MEASm ‖ x), for x of n bytes (R379). -/
def State.extend (s : State) (m n x : Nat) : State :=
  let v := (tget 0 s.meas m).toNat
  { s with meas := tput 0 s.meas m (BitVec.ofNat 512 (sha512 (64 + n) (v + 2 ^ 512 * (x % 2 ^ (8 * n))))) }

/-! ## Boot (R375 to R377, R458, R459) -/

/-- Recovery mode: the code is an unsolicited response on function 0, in slot 0 of its ring, for nothing is sent before boot (R451, R458). -/
def State.recover (s : State) (code : Nat) : State :=
  (s.setBirhiry { s.birhiry with boot := 3, code := code }).respond 0 0xFFFFFFFF 1 code

/-- The debug port stands open under a token (R382). -/
def State.portOpen (s : State) : Bool := s.birhiry.life = 2 && s.birhiry.level ≠ 0

/-- PACKAGE_RESET: every memory is wiped and every part at its reset values; the fuses stay, and a change of the lifecycle takes effect.
A RETIRED package boots nothing. That the debug port was open is told once Smirvadin runs (R451; DEDUCED, log 34). -/
def execPackageReset (s : State) : Out :=
  let b := s.birhiry
  let s0 : State := { State.reset with cur := s.cur, agenda := s.agenda, free := s.free }
  let s1 := s0.setBirhiry { Birhiry.init with life := b.nextLife, nextLife := b.nextLife, rollback := b.rollback, dbgPath := b.dbgPath,
                                                 wasOpen := s.portOpen || b.wasOpen }
  .next (if b.nextLife = 3 then s1.recover 8 else s1)

/-- FLASH_RESPONSE_TIMEOUT: code 1. -/
def execFlashResponseTimeout (s : State) : Out := .next (if s.birhiry.boot < 2 then s.recover 1 else s)

/-- The fields of a header, and of a token: n bytes at an offset. -/
def fieldAt (x o n : Nat) : Nat := bits x (8 * o) (8 * n)

/-- A big-endian field of n bytes. -/
def fieldBig (x o n : Nat) : Nat := ofBytesBig (toBytes n (fieldAt x o n))

/-- A signature of r and s verifies under one of the vendor's keys. -/
def signed (key digest r s : Nat) : Bool := verifies (some (Config.vendorKey key)) digest r s

/-- The header's own checks: codes 2 and 3 (R458). -/
def headerCode (h : Nat) : Option Nat :=
  if fieldAt h 0 8 ≠ 0x343258444C594544 || 63 < fieldAt h 8 4 || 1 < fieldAt h 12 4 || fieldAt h 0xDC 292 ≠ 0 then some 2
  else if fieldAt h 0x10 8 = 0 || fieldAt h 0x10 8 % 4096 ≠ 0 || 224 * 2 ^ 20 < fieldAt h 0x10 8 then some 3
  else none

/-- Steps 4 to 6 on a body: codes 4 to 6. A BLANK package takes the vendor provisioning image only (R378); another fails there as a signature
does (DESIGN CHOICE, log 35). -/
def bodyCode (life c h body : Nat) : Option Nat :=
  if sha512 (fieldAt h 0x10 8) body ≠ fieldAt h 0x18 64 then some 4
  else if life = 0 && fieldAt h 0x18 64 ≠ Config.provisioningDigest % 2 ^ 512 then some 5
  else if !signed 0 (sha512 88 (fieldAt h 0 88)) (fieldBig h 0x58 66) (fieldBig h 0x9A 66) then some 5
  else if fieldAt h 8 4 < c then some 6
  else none

/-- Step 6 on an image that passes: rollback bits are blown in order up to SVN where COMMIT is set, `blown` of which read back blown; the
first that does not gives code 7 (R376, R458, R459). -/
def commitTo (c h blown : Nat) : Nat × Option Nat :=
  let svn := fieldAt h 8 4
  if fieldAt h 12 4 = 1 && c < svn then (if c + blown < svn then (c + blown, some 7) else (svn, none)) else (c, none)

/-- A supervisor core as it is released. -/
def supervisorStart : Ctx := { Ctx.init statSupervisor with pc := word Config.supervisorEntry, life := .live }

/-- Steps 7 and 8: MEAS0 and MEAS1 are extended, Smirvadin is loaded, and the 32 supervisor cores are released; event 7 tells of a debug port that
the reset closed. -/
def State.bootImage (s : State) (h body : Nat) : State :=
  let b := s.birhiry
  let s1 := s.extend 0 Config.bootRecordLength (Config.bootRecord b.life b.rollback)
  let s2 := s1.extend 1 64 (fieldAt h 0x18 64)
  let s3 := s2.poke Config.supervisorBase (toBytes (fieldAt h 0x10 8) body)
  let s4 := s3.setBirhiry { b with boot := 2, header := h }
  let s5 := if b.wasOpen then (s4.hostEvent 7 1).setBirhiry { s4.birhiry with wasOpen := false } else s4
  (List.range 32).foldl (fun t u => t.setCtx (0x20000 + 16 * u) supervisorStart) s5

/-- FLASH_READ_COMPLETE: a read of the header, then of the body, ends with data or a bus error. `blown` says how many rollback bits read
back blown. -/
def execFlashReadComplete (ok : Bool) (data blown : Nat) (s : State) : Out :=
  let b := s.birhiry
  if 2 ≤ b.boot then .next s
  else if !ok then .next (s.recover 1)
  else if b.boot = 0 then
    let h := data % 2 ^ 4096
    match headerCode h with
    | some c => .next (s.recover c)
    | none => .next (s.setBirhiry { b with boot := 1, header := h })
  else
    match bodyCode b.life b.rollback b.header data with
    | some c => .next (s.recover c)
    | none =>
      let x := commitTo b.rollback b.header blown
      let s1 := s.setBirhiry { b with rollback := x.1 }
      match x.2 with
      | some c => .next (s1.recover c)
      | none => .next (s1.bootImage b.header data)

/-- The code that stops an image of `len` bytes in recovery mode, if any. -/
def recoverCode (life c len h body : Nat) : Option Nat :=
  if life = 3 then some 8
  else match headerCode h with
    | some x => some x
    | none => if len ≠ 512 + fieldAt h 0x10 8 then some 9 else bodyCode life c h body

/-- RECOVER: request n of recovery mode gives an image, whose bytes the host holds: the header, then the body. A passing image boots
once, after the answer. -/
def execRecover (n image blown : Nat) (s : State) : Out :=
  let b := s.birhiry
  match s.reqs[n]? with
  | none => .next s
  | some r =>
    if b.boot ≠ 3 || r.opc ≠ 7 then .next s
    else
      let h := image % 2 ^ (8 * min 512 (r.arg 1))
      let body := image / 2 ^ 4096 % 2 ^ (8 * (r.arg 1 - 512))
      match recoverCode b.life b.rollback (r.arg 1) h body with
      | some c => .next (s.answer n r 1 c)
      | none =>
        let x := commitTo b.rollback h blown
        let s1 := s.setBirhiry { b with rollback := x.1 }
        match x.2 with
        | some c => .next (s1.answer n r 1 c)
        | none => .next ((s1.answer n r 0 0).bootImage h body)

/-- LIFECYCLE_FUSE_TRANSITION: BLANK to VENDOR or VENDOR to SECURE, at the next reset (R378). -/
def execLifecycleFuseTransition (life : Nat) (s : State) : Out :=
  let b := s.birhiry
  .next (if b.nextLife = b.life && life = b.life + 1 && life ≤ 2 then s.setBirhiry { b with nextLife := life } else s)

/-! ## Measurements and attestation (R379, R380, R460) -/

/-- MEAS_EXTEND: Smirvadin, which runs after boot, passes a tenant's measurement through. -/
def execMeasExtend (m n x : Nat) (s : State) : Out := .next (if s.birhiry.boot = 2 && 3 ≤ m && m ≤ 6 then s.extend m n x else s)

/-- A request on a path: dropped where DBGPATH selects the other, Busy while a signature is computed (R460). -/
def atPath (path : Nat) (body : State → State) (s : State) : Out :=
  if path ≠ s.birhiry.dbgPath || (path = 1 && s.birhiry.boot ≠ 2) then .next s
  else if s.birhiry.busy then .next (s.reply path 1 0)
  else .next (body s)

/-- The measurement blocks 0 to 7. -/
def State.measBlocks (s : State) : Nat := packBits ((List.range 8).map fun (m : Nat) => (512, (tget 0 s.meas m).toNat))

/-- GET_MEASUREMENTS: a request, well formed or not; the answer waits for its signature. -/
def execGetMeasurements (path : Nat) (ok : Bool) (s : State) : Out :=
  atPath path (fun s => if ok then s.setBirhiry { s.birhiry with busy := true, blocks := s.measBlocks } else s.reply path 0 0) s

/-- SIGNATURE_COMPLETE: the answer has the measurement blocks, and their signature by the attestation key, which MEAS0 and the device's secret
give (R380). What signer and requester draw for it are free values (DESIGN CHOICE, log 8). -/
def execSignatureComplete (s : State) : Out :=
  let b := s.birhiry
  if !b.busy then .next s
  else
    let d := s.draw
    let e := d.2.draw
    let key := Config.attestationKey Config.devid (bits b.blocks 0 512)
    let digest := sha512 Config.transcriptLength (Config.transcript d.1 b.blocks)
    let x := signWith key (1 + e.1 % (orderP521 - 1)) digest
    .next (((e.2.setBirhiry { b with busy := false }).reply b.dbgPath 2 b.blocks).reply b.dbgPath 6 (packBits [(528, x.1), (528, x.2)]))

/-! ## Debug unlock (R378, R381, R382, R460 to R462) -/

/-- The debug level: open at every level before SECURE, in SECURE as a token opened it, and never in RETIRED. -/
def State.debugLevel (s : State) : Nat :=
  let b := s.birhiry
  match b.life with
  | 0 | 1 => 2
  | 2 => if b.frozen || s.cyc < b.expiry then b.level else 0
  | _ => 0

/-- A refusal's reason on its path (R461): an SPDM answer, or on the mailbox a response of function 0 with STATUS 1; that path's request carries no tag
(DESIGN CHOICE, log 35). -/
def State.refuseDebug (s : State) (path reason : Nat) : State :=
  let s1 := s.reply path 4 reason
  if path = 1 then s1.respond 0 0 1 reason else s1

/-- DEBUG_NONCE_REQUEST: a fresh nonce replaces any other; after 8 consecutive refusals the answer is reason 8. -/
def execDebugNonceRequest (path nonce : Nat) (s : State) : Out :=
  atPath path (fun s =>
    let b := s.birhiry
    if 8 ≤ b.refusals then s.refuseDebug path 8
    else (s.setBirhiry { b with nonce := some (nonce % 2 ^ 256, s.cyc) }).reply path 3 (nonce % 2 ^ 256)) s

/-- A second of the 1.8 GHz clock (R374). -/
def second : Nat := 1800000000

/-- The first reason for which a token is refused (R461). SIG_R and SIG_S are big-endian, as those of the image header (R376), for R381 gives their order
nowhere (DESIGN CHOICE, log 35). -/
def State.tokenReason (s : State) (t : Nat) : Option Nat :=
  let b := s.birhiry
  let level := fieldAt t 0x21 1
  let expiry := fieldAt t 0x24 4
  match b.nonce with
  | none => some 1
  | some (n, at_) =>
    if fieldAt t 0x28 32 ≠ n then some 1
    else if fieldAt t 0 32 ≠ Config.devid % 2 ^ 256 then some 2
    else if (b.life ≠ 1 && b.life ≠ 2) || (b.life = 2 && s.debugLevel ≠ 0) || fieldAt t 0x20 1 ≠ b.life || (b.life = 1 && level ≠ 0xFF) then some 3
    else if (level ≠ 1 && level ≠ 2 && level ≠ 0xFF) || fieldAt t 0x22 2 ≠ 0 then some 4
    else if expiry = 0 || 86400 < expiry then some 5
    else if at_ + expiry * second < s.cyc then some 6
    else if !signed 1 (sha512 72 (fieldAt t 0 72)) (fieldBig t 0x48 66) (fieldBig t 0x8A 66) then some 7
    else if 8 ≤ b.refusals then some 8
    else none

/-- The debug port closes as its token expires, and event 7 is sent (R462). -/
def State.closePort (s : State) : State := (s.setBirhiry { s.birhiry with level := 0 }).hostEvent 7 0

/-- The port of an expired token that has yet to close closes before another token opens it (R462). -/
def State.closeExpired (s : State) : State := if s.portOpen && s.birhiry.expiry ≤ s.cyc then s.closePort else s

/-- DEBUG_TOKEN: a refused token consumes the nonce and changes nothing else; an accepted one wipes the tenant keys, extends MEAS7, and
opens the port or blows the RETIRED fuse; event 6 tells of it. -/
def execDebugToken (path token : Nat) (s : State) : Out :=
  atPath path (fun s =>
    let b := s.birhiry
    match s.tokenReason token with
    | some r => (s.setBirhiry { b with nonce := none, refusals := b.refusals + 1 }).refuseDebug path r
    | none =>
      let level := fieldAt token 0x21 1
      let issued := match b.nonce with | some n => n.2 | none => 0
      let s0 := s.closeExpired
      let s1 := (s0.setBirhiry { s0.birhiry with nonce := none, refusals := 0, keys := [] }).extend 7 64 (sha512 204 (token % 2 ^ 1632))
      if level = 0xFF then ((s1.setBirhiry { s1.birhiry with nextLife := 3 }).reply path 5 0).hostEvent 6 level
      else
        let s2 := s1.setBirhiry { s1.birhiry with level := level, expiry := issued + fieldAt token 0x24 4 * second }
        (s2.reply path 5 0).hostEvent 6 level) s

/-- TOKEN_EXPIRY: the port closes, and event 7 is sent, on a frozen package too; the freeze holds (R462). -/
def execTokenExpiry (s : State) : Out :=
  let b := s.birhiry
  .next (if s.portOpen && (b.frozen || b.expiry ≤ s.cyc) then s.closePort else s)

/-! ## Freeze and the 1149.1 port (R389, R462, R464) -/

/-- FREEZE: every clock stops while the debug port is open; otherwise the input is ignored and counted. -/
def execFreeze (s : State) : Out :=
  let b := s.birhiry
  .next (s.setBirhiry (if 1 ≤ s.debugLevel then { b with frozen := true } else { b with ignored := b.ignored + 1 }))

/-- BYPASS: what is shifted in is shifted out through one bit (DESIGN CHOICE, log 9). -/
def execBypass (bit : Nat) (s : State) : Out := .next (s.setBirhiry { s.birhiry with scanOut := bit % 2 })

/-- IDCODE: revision, 0x2418, manufacturer, and 1. -/
def execIdcode (s : State) : Out :=
  .next (s.setBirhiry { s.birhiry with scanOut := packBits [(1, 1), (11, Config.manufacturer), (16, 0x2418), (4, Config.revision)] })

/-- The parts of a die (R11, R12): its compute cores, its memory cores or far-memory cores with their contexts, and its supervisor cores, where
24 and 25 are the I/O dies. -/
def dieCompute (d : Nat) : List Nat := if d < 24 then (List.range 128).map (128 * d + ·) else []
def dieMemory (d : Nat) : List Nat :=
  (if d < 24 then (List.range 16).map (16 * d + ·) else (List.range 8).map (384 + 8 * (d - 24) + ·)).flatMap fun m =>
    (List.range 16).map fun j => 0x10000 + 16 * m + j
def dieSupervisors (d : Nat) : List Nat := if d < 24 then [] else (List.range 16).map fun i => 0x20000 + 16 * (16 * (d - 24) + i)

/-- The numbers of a die's cores and files, of its contexts and of its clusters. -/
def dieCores (d : Nat) : List Nat := dieCompute d ++ dieMemory d ++ dieSupervisors d
def dieCtxs (d : Nat) : List Nat :=
  ((dieCompute d).flatMap fun c => (List.range 11).map fun x => 16 * c + x) ++ dieMemory d ++ dieSupervisors d
def dieClusters (d : Nat) : List Nat := if d < 24 then (List.range 16).map (16 * d + ·) else []

/-- The state behind a die's chain. -/
def State.dieState (s : State) (d : Nat) : DieState :=
  { die := s.die d, cores := s.cores.filter fun c => (dieCores d).contains c.1, ctxs := s.ctxs.filter fun c => (dieCtxs d).contains c.1,
    clusters := s.clusters.filter fun c => (dieClusters d).contains c.1 }

/-- A die has the state that its chain holds. -/
def State.setDieState (s : State) (d : Nat) (x : DieState) : State :=
  let s1 := (dieCores d).foldl (fun t k => t.setCore k (tget Core.init x.cores k)) (s.setDie d x.die)
  let s2 := (dieCtxs d).foldl (fun t k => t.setCtx k (tget (ctxReset k) x.ctxs k)) s1
  (dieClusters d).foldl (fun t k => t.setCluster k (tget Cluster.init x.clusters k)) s2

/-- SCANRD: a die's state chain, as an opaque function of its state has it; one that SCANWR wrote and that stands still, on a frozen package, as it was written
(DESIGN CHOICE, log 9); all ones while the port is closed (R389, R462). -/
def execScanrd (die : Nat) (s : State) : Out :=
  let n := Config.scanLength die
  let b := s.birhiry
  let now := if b.frozen then tfind b.scan die else none
  let v := now.getD (chainOf die (s.dieState die) % 2 ^ n)
  .next (s.setBirhiry { b with scanOut := if s.debugLevel = 0 then 2 ^ n - 1 else v })

/-- SCANWR: writes the state chain of a die of the package at level 2, and nothing otherwise: the die has the state that an opaque function gives for the bits (R389,
R462; DESIGN CHOICE, log 9). -/
def execScanwr (die data : Nat) (s : State) : Out :=
  let v := data % 2 ^ Config.scanLength die
  if s.debugLevel ≠ 2 || 26 ≤ die then .next s
  else
    let b := s.birhiry
    let s1 := if b.frozen then s.setBirhiry { b with scan := tins b.scan die v } else s
    .next (match scannedDie die v with | some x => s1.setDieState die x | none => s1)

end Sys2Proof.Machine
end

