-- ==== Sys2Proof/Machine/Control.lean ====
section
/-! DEFINITION. Control flow (R232 to R239, 12). -/

namespace Sys2Proof.Machine

/-- A transfer to a target: MISALIGN where bits [1:0] are not zero (R232). The cause of a bad target is its fetch's. -/
def transfer (s : State) (t : Word) : Act :=
  if t.toNat % 4 = 0 then .jump s t else .trap s 0x0A t

/-- BR, BRC and CALL need no home resources (R242 and R82 name none of them). -/
def issueB (i : Op) (h : Hdr) (body : State → Act) (s : State) : Out := issue i h 8 0 false [] noDyn body s

/-- The target of a displacement in 4-byte units from the instruction (R194). -/
def dispTarget (pc : Word) (disp : Int) : Word := pc + wordI (4 * disp)

/-- BR (R233). -/
def execBr (h : Hdr) (disp : Int) (s : State) : Out :=
  issueB .br h (fun s => transfer s (dispTarget s.me.pc disp)) s

/-- BRC (R233): compares all 64 bits. -/
def execBrc (h : Hdr) (cnd a b : Nat) (disp : Int) (s : State) : Out :=
  issueB .brc h (fun s =>
    if branchCond cnd (s.me.sreg a) (s.me.sreg b) then transfer s (dispTarget s.me.pc disp) else .retire s) s

/-- CALL (R233): s63 receives the address after it. -/
def execCall (h : Hdr) (disp : Int) (s : State) : Out :=
  issueB .call h (fun s =>
    let t := dispTarget s.me.pc disp
    if t.toNat % 4 = 0 then .jump (s.setS 63 (s.me.pc + 8)) t else .trap s 0x0A t) s

/-- RET (R234). -/
def execRet (h : Hdr) (o : Ops) (s : State) : Out :=
  issueS .ret h o (fun s => transfer s (s.me.sreg 63)) s

/-- JMPR (R234): the target is read before the link is written. -/
def execJmpr (h : Hdr) (o : Ops) (s : State) : Out :=
  issueS .jmpr h o (fun s =>
    let t := s.arg o.a
    if t.toNat % 4 = 0 then .jump (s.setS o.d (s.me.pc + 8)) t else .trap s 0x0A t) s

/-- JTAB (R234, R399): past the table when the index is not below the count, else by a signed word read through the fetch
path. -/
def execJtab (h : Hdr) (o : Ops) (s : State) : Out :=
  issueS .jtab h o (fun s =>
    let a := s.arg o.a
    let b := s.arg o.b
    if (s.arg o.c).toNat ≤ b.toNat then .retire s
    else if a.toNat % 4 ≠ 0 then .trap s 0x0A a
    else
      let e := a + 4 * b
      match s.fetch s.cur e.toNat with
      | .cause n => .trap s n e
      | .wait w => .stall (s.setMe { s.me with wait := w })
      | .bytes bs => transfer s (s.me.pc + 4 * immWord (ofBytes ((bs.drop (e.toNat % 32)).take 4)))) s

/-- Levels from `lvl` up are deactivated (R235, R237). -/
def loopsOff (ls : List Loop) (lvl : Nat) : List Loop :=
  ls.zipIdx.map fun x => if lvl ≤ x.2 then { x.1 with active := false } else x.1

/-- LOOP (R235): an empty loop transfers to its end or falls into its body once; else the level is activated. -/
def execLoop (l : LoopOps) (s : State) : Out :=
  issue .loop { p := 0, neg := false, wide := false } 8 0 l.cnt.isCw [l.cnt] noDyn (fun s =>
    let c := s.me
    let n := s.arg l.cnt
    let e := dispTarget c.pc l.disp
    let c1 := { c with loops := loopsOff c.loops l.lvl }
    if n = 0 then transfer (s.setMe c1) e
    else if l.disp ≤ 2 then .retire (s.setMe c1)
    else
      let x : Loop := { start := c.pc + 8, fin := e, count := n, active := true, rot := l.rot, rs := l.rs, pass := 0 }
      .retire (s.setMe { c1 with loops := c1.loops.set l.lvl x })) s

/-- LOOPX (R236, R237): leaves an active loop for its END; else it goes on at a + 8. No end check follows it. -/
def execLoopx (h : Hdr) (o : Ops) (s : State) : Out :=
  issueS .loopx h o (fun s =>
    let c := s.me
    match c.loops[o.d]? with
    | some l => if l.active then .jump (s.setMe { c with loops := loopsOff c.loops o.d }) l.fin else .skip s
    | none => .skip s) s

end Sys2Proof.Machine
end

