-- ==== Sys2Proof/Machine/Conv.lean ====
section
/-! DEFINITION. Conversion (R300 to R304, 14). -/

namespace Sys2Proof.Machine

/-- A result in its lane: an I4 element is sign-extended through its byte (R300). -/
def laneOut (t : TCode) (x : Nat) : Nat := if t = .i4 then wrap 8 (sext 4 x) else x

/-- One converted element (R301): the exact value, quotient or product, rounded once. -/
def convElem (i : Op) (src dst : TCode) (rm : Rnd) (sat : Bool) (scale x : Nat) : Nat :=
  let v := widen src x
  let s := widen .f32 scale
  laneOut dst (match i with
    | .vqnt => (roundTo dst (v.div s) rm sat true).1
    | .vdqnt => (roundTo dst (v.mul s) rm sat true).1
    | _ => convertFmt src dst x rm sat)

/-- VCVT, VQNT and VDQNT over their groups (R300, R301). -/
def convBody (i : Op) (o : Ops) (s : State) : Act :=
  let src := convSource i s.me
  let g := convGroups src o.t
  let scale := (s.arg o.b).toNat % 2 ^ 32
  let es := (s.vgroup src.laneW o.a.num g.1).map (convElem i src o.t (s.me.pfxRnd o.rm) o.sat scale)
  .retire (s.writeVec o.k o.t.laneW o.d g.2 es)

/-- VCVT (R301). -/
def execVcvt (h : Hdr) (o : Ops) (s : State) : Out := issueV .vcvt h o (convBody .vcvt o) s
/-- VQNT (R301). -/
def execVqnt (h : Hdr) (o : Ops) (s : State) : Out := issueV .vqnt h o (convBody .vqnt o) s
/-- VDQNT (R301). -/
def execVdqnt (h : Hdr) (o : Ops) (s : State) : Out := issueV .vdqnt h o (convBody .vdqnt o) s

/-- The greater of two magnitudes, as FP32 bits. -/
def maxMag (t : TCode) (best : Nat) (x : Nat) : Nat :=
  match widen t x with
  | .fin _ m e => fMinMax .f32 true best (roundF32 (.fin false m e) .rne false)
  | _ => best

/-- VAMAX (R302): the largest |x| over active finite elements, exact in FP32; +0 with none. -/
def execVamax (h : Hdr) (o : Ops) (s : State) : Out :=
  issueV .vamax h o (fun s =>
    let w := o.t.laneW
    let g := 2 ^ o.mx
    let es := ((s.actives o.k (g * (1024 / w))).zip (s.vgroup w o.a.num g)).filterMap fun x => if x.1 then some x.2 else none
    .retire (s.setS o.d (word (es.foldl (maxMag o.t) 0)))) s

/-- The registers of unpacked bytes and of packed fields (R303). -/
def packGroups (t : TCode) : Nat × Nat := if t = .e3m2 then (4, 3) else (2, 1)

/-- VPACK (R303). -/
def execVpack (h : Hdr) (o : Ops) (s : State) : Out :=
  issueV .vpack h o (fun s =>
    let g := packGroups o.t
    let x := ofLanes (TCode.width o.t) (s.vgroup 8 o.a.num g.1)
    .retire (s.setVgroup 32 o.d g.2 (lanesOf 32 (32 * g.2) x))) s

/-- VUNPK (R303). -/
def execVunpk (h : Hdr) (o : Ops) (s : State) : Out :=
  issueV .vunpk h o (fun s =>
    let g := packGroups o.t
    let x := ofLanes 32 (s.vgroup 32 o.a.num g.2)
    .retire (s.setVgroup 8 o.d g.1 ((lanesOf (TCode.width o.t) (128 * g.1) x).map (laneOut o.t)))) s

end Sys2Proof.Machine
end

