-- ==== Sys2Proof/Machine/Float.lean ====
section
/-! DEFINITION. Scalar FP32 instructions (R228 to R231, 12). -/

namespace Sys2Proof.Machine

/-- One FP32 result, rounded once (R228, R229). -/
def fpOp (i : Op) (rm : Rnd) (a b c : Nat) : Nat :=
  let x := widen .f32 a
  let y := widen .f32 b
  let z := widen .f32 c
  match i with
  | .fadd => roundF32 (x.add y) rm false
  | .fsub => roundF32 (x.add y.negate) rm false
  | .fmul => roundF32 (x.mul y) rm false
  | .ffma => roundF32 ((x.mul y).add z) rm false
  | .fdiv => roundF32 (x.div y) rm false
  | .fsqrt => roundF32 x.sqrt rm false
  | .fmin => fMinMax .f32 false a b
  | .fmax => fMinMax .f32 true a b
  | _ => 0

/-- The scalar FP32 instructions that write sD (R228): zero in bits [63:32]. -/
def execFp (i : Op) (h : Hdr) (o : Ops) (s : State) : Out :=
  issueS i h o (fun s => .retire (s.setS o.d (word (fpOp i o.rm (s.argF o.a) (s.argF o.b) (s.argF o.c))))) s

/-- FADD (R229). -/
def execFadd (h : Hdr) (o : Ops) (s : State) : Out := execFp .fadd h o s
/-- FSUB (R229). -/
def execFsub (h : Hdr) (o : Ops) (s : State) : Out := execFp .fsub h o s
/-- FMUL (R229). -/
def execFmul (h : Hdr) (o : Ops) (s : State) : Out := execFp .fmul h o s
/-- FFMA (R229). -/
def execFfma (h : Hdr) (o : Ops) (s : State) : Out := execFp .ffma h o s
/-- FDIV (R229). -/
def execFdiv (h : Hdr) (o : Ops) (s : State) : Out := execFp .fdiv h o s
/-- FSQRT (R229). -/
def execFsqrt (h : Hdr) (o : Ops) (s : State) : Out := execFp .fsqrt h o s
/-- FMIN (R230). -/
def execFmin (h : Hdr) (o : Ops) (s : State) : Out := execFp .fmin h o s
/-- FMAX (R230). -/
def execFmax (h : Hdr) (o : Ops) (s : State) : Out := execFp .fmax h o s

/-- FCMP (R230): a condition into pD; it never rounds. -/
def execFcmp (h : Hdr) (o : Ops) (s : State) : Out :=
  issueS .fcmp h o (fun s => .retire (s.setP o.d (fCond .f32 o.fn (s.argF o.a) (s.argF o.b)))) s

/-- The source format that MX names in FCVT (R231). -/
def fcvtSource (mx : Nat) : TCode :=
  match mx with
  | 0 => .f32 | 1 => .i64 | 2 => .i32 | 3 => .u32 | 4 => .bf16 | 5 => .f16 | 6 => .e4m3 | _ => .e5m2

/-- FCVT's result (R231): a float in the low bits, a signed integer sign-extended. -/
def fcvtValue (src dst : TCode) (x : Nat) (rm : Rnd) (sat : Bool) : Word := extendT dst (convertFmt src dst x rm (sat && !(src = .f32 && dst = .f32)))

/-- FCVT (R231). -/
def execFcvt (h : Hdr) (o : Ops) (s : State) : Out :=
  issueS .fcvt h o (fun s => .retire (s.setS o.d (fcvtValue (fcvtSource o.mx) o.t (s.arg o.a).toNat o.rm o.sat))) s

end Sys2Proof.Machine
end

