-- ==== Sys2Proof/Machine/Lane.lean ====
section
/-! DEFINITION. Lane movement and reduction, masks, and VMVP (R286 to R294, R138, 14). -/

namespace Sys2Proof.Machine

/-- A list in `n` pieces of `g`. -/
def chunks {α : Type} (g : Nat) : Nat → List α → List (List α)
  | 0, _ => []
  | n + 1, xs => xs.take g :: chunks g n (xs.drop g)

/-- The group size that MX names (R286). -/
def groupSize (o : Ops) : Nat := 2 ^ (o.mx + 1)

/-- The lanes of vA, in groups, none where the execution mask leaves a lane out. -/
def State.groups (s : State) (o : Ops) (g : Nat) : List (List (Option Nat)) :=
  let w := o.t.laneW
  let n := 1024 / w
  chunks g (n / g) (((s.actives o.k n).zip (s.lanes w o.a)).map fun x => if x.1 then some (TCode.held o.t x.2) else none)

/-! ## VRED and VSCAN -/

/-- An operand is absent where a lane is left out (R138). -/
def combine (f : Nat → Nat → Nat) : Option Nat → Option Nat → Option Nat
  | some a, some b => some (f a b)
  | some a, none => some a
  | none, b => b

/-- One level of the tree of R138. -/
def treeLevel (f : Nat → Nat → Nat) : List (Option Nat) → List (Option Nat)
  | a :: b :: r => combine f a b :: treeLevel f r
  | r => r

/-- `k` levels of the tree. -/
def treeReduce (f : Nat → Nat → Nat) : Nat → List (Option Nat) → Option Nat
  | 0, r => r.head?.getD none
  | k + 1, r => treeReduce f k (treeLevel f r)

/-- The steps of VSCAN within one group: step s takes lane j - 2^s (R287). -/
def scanSteps (f : Nat → Nat → Nat) : Nat → Nat → List (Option Nat) → List (Option Nat)
  | 0, _, xs => xs
  | k + 1, d, xs => scanSteps f k (2 * d) (List.zipWith (combine f) (List.replicate d none ++ xs) xs)

/-- FN[2:0] on FP32 lanes. -/
def redFloat (fn : Nat) (rm : Rnd) (a b : Nat) : Nat :=
  match fn % 8 with
  | 0 => roundF32 ((widen .f32 a).add (widen .f32 b)) rm false
  | 1 => fMinMax .f32 false a b
  | _ => fMinMax .f32 true a b

/-- FN[2:0] on integer lanes kept as exact sums modulo 2^48, wide enough for every sum of 128 lanes. -/
def redInt (fn : Nat) (a b : Nat) : Nat :=
  match fn % 8 with
  | 0 => (a + b) % 2 ^ 48
  | 1 => if sext 48 b < sext 48 a then b else a
  | 2 => if sext 48 a < sext 48 b then b else a
  | 3 => a &&& b
  | 4 => a ||| b
  | _ => a ^^^ b

/-- The identities of R287. -/
def redIdentity (t : TCode) (fn : Nat) : Nat :=
  if t = .f32 then (match fn % 8 with | 0 => 0 | 1 => 0x7F800000 | _ => 0xFF800000)
  else match fn % 8 with
    | 1 => wrap (TCode.width t) (TCode.hi t)
    | 2 => wrap (TCode.width t) (TCode.lo t)
    | 3 => 2 ^ TCode.width t - 1
    | _ => 0

/-- A reduction's operator on the lanes of a type. -/
def redOp (t : TCode) (fn : Nat) (rm : Rnd) : Nat → Nat → Nat := if t = .f32 then redFloat fn rm else redInt fn

/-- A lane as the reduction holds it: an integer lane extended to 48 bits as its type says, for an exact result. -/
def redIn (t : TCode) (fn x : Nat) : Nat := if t = .f32 || 3 ≤ fn % 8 then x else wrap 48 (laneInt t x)

/-- A result back in its lane: wrapped, or clamped once with SAT (R287). -/
def redOut (t : TCode) (fn : Nat) (sat : Bool) (x : Nat) : Nat :=
  if t = .f32 || 3 ≤ fn % 8 then x else laneWrap t sat (sext 48 x)

/-- One group's results: VRED gives one value to the group, VSCAN one to each lane, moved up one lane with .excl. -/
def redGroup (scan : Bool) (o : Ops) (xs : List (Option Nat)) : List Nat :=
  let k := o.mx + 1
  let f := redOp o.t o.fn o.rm
  let ys := xs.map fun x => x.map (redIn o.t o.fn)
  let out (x : Option Nat) : Nat := match x with | some v => redOut o.t o.fn o.sat v | none => redIdentity o.t o.fn
  if scan then
    let r := scanSteps f k 1 ys
    (if 8 ≤ o.fn then (none :: r).take xs.length else r).map out
  else List.replicate xs.length (out (treeReduce f k ys))

/-- VRED (R287). -/
def execVred (h : Hdr) (o : Ops) (s : State) : Out :=
  issueV .vred h o (fun s => .retire (s.writeVec o.k o.t.laneW o.d 1 ((s.groups o (groupSize o)).flatMap (redGroup false o)))) s

/-- VSCAN (R287). -/
def execVscan (h : Hdr) (o : Ops) (s : State) : Out :=
  issueV .vscan h o (fun s => .retire (s.writeVec o.k o.t.laneW o.d 1 ((s.groups o (groupSize o)).flatMap (redGroup true o)))) s

/-! ## Movement -/

/-- The lanes of type `t` that some indices name; an index of no lane reads zero. -/
def pick (t : TCode) (src : List Nat) (js : List Nat) : List Nat := js.map fun j => TCode.held t (src.getD j 0)

/-- VSHUF (R288). -/
def execVshuf (h : Hdr) (o : Ops) (s : State) : Out :=
  issueV .vshuf h o (fun s =>
    let w := o.t.laneW
    let n := 1024 / w
    let src := s.lanes w o.a ++ s.lanes w o.b
    .retire (s.writeVec o.k w o.d 1 (pick o.t src ((s.lanes w o.c).map fun c => c % (2 * n))))) s

/-- The source lane of VSHUFI (R288); `n` where lane i receives zero. -/
def shufIndex (imm n i : Nat) : Nat :=
  let p := bits imm 0 8
  let g := 2 ^ bits imm 8 4
  match bits imm 28 4 with
  | 0 => (i + p) % n
  | 1 => i ^^^ p
  | 2 => if p ≤ i then i - p else n
  | 3 => if i + p < n then i + p else n
  | 4 => g * (i / g) + p
  | _ => n - 1 - i

/-- VSHUFI (R288). -/
def execVshufi (h : Hdr) (o : Ops) (s : State) : Out :=
  issueV .vshufi h o (fun s =>
    let w := o.t.laneW
    let n := 1024 / w
    let imm := match o.b with | .imm x => x | _ => 0
    .retire (s.writeVec o.k w o.d 1 (pick o.t (s.lanes w o.a) ((List.range n).map (shufIndex imm n))))) s

/-- VBCAST (R289). -/
def execVbcast (h : Hdr) (o : Ops) (s : State) : Out :=
  issueV .vbcast h o (fun s =>
    let w := o.t.laneW
    .retire (s.writeVec o.k w o.d 1 (List.replicate (1024 / w) (TCode.held o.t ((s.arg o.a).toNat % 2 ^ w))))) s

/-- The lane that a scalar names modulo the lane count (R289). -/
def State.laneAt (s : State) (t : TCode) (v : Arg) (j : Word) : Nat := TCode.held t ((s.lanes t.laneW v).getD (j.toNat % (1024 / t.laneW)) 0)

/-- VBCAST.lane (R289). -/
def execVbcastLane (h : Hdr) (o : Ops) (s : State) : Out :=
  issueV .vbcastLane h o (fun s =>
    let w := o.t.laneW
    .retire (s.writeVec o.k w o.d 1 (List.replicate (1024 / w) (s.laneAt o.t o.a (s.arg o.b))))) s

/-- VMOVS (R289). -/
def execVmovs (h : Hdr) (o : Ops) (s : State) : Out :=
  issueV .vmovs h o (fun s => .retire (s.setS o.d (extendT o.t (s.laneAt o.t o.a (s.arg o.b))))) s

/-- VMOVS.v (R289): one lane, the others unchanged. -/
def execVmovsV (h : Hdr) (o : Ops) (s : State) : Out :=
  issueV .vmovsV h o (fun s =>
    let w := o.t.laneW
    let j := (s.arg o.b).toNat % (1024 / w)
    let ls := (lanesOf w (1024 / w) (s.vreg o.d)).set j (TCode.held o.t ((s.arg o.a).toNat % 2 ^ w))
    .retire (s.setVreg o.d (ofLanes w ls))) s

/-- VIOTA (R289). -/
def execViota (h : Hdr) (o : Ops) (s : State) : Out :=
  issueV .viota h o (fun s =>
    let w := o.t.laneW
    let a := (s.arg o.a).toNat
    let b := (s.arg o.b).toNat
    .retire (s.writeVec o.k w o.d 1 ((List.range (1024 / w)).map fun i => (a + i * b) % 2 ^ w))) s

/-! ## Votes and matches -/

/-- A mask from each group's truth values; bits of inactive lanes are 0. -/
def groupMask (gs : List (List (Option Nat))) (f : List (Option Nat) → Nat → Nat → Bool) : Nat :=
  maskOf (gs.flatMap fun g => g.zipIdx.map fun x => match x.1 with | some v => f g x.2 v | none => false)

/-- The active lanes of a group. -/
def present (g : List (Option Nat)) : List Nat := g.filterMap id

/-- VVOTE (R290). -/
def voteBit (fn : Nat) (g : List (Option Nat)) (v : Nat) : Bool :=
  match fn with
  | 0 => v ≠ 0
  | 1 => (present g).any (· ≠ 0)
  | 2 => (present g).all (· ≠ 0)
  | _ => (present g).all (· = v)

/-- VVOTE (R290). -/
def execVvote (h : Hdr) (o : Ops) (s : State) : Out :=
  issueV .vvote h o (fun s =>
    .retire (s.setKreg o.d (groupMask (s.groups o (groupSize o)) fun g _ v => voteBit o.fn g v))) s

/-- VMATCH's mask forms (R291). -/
def matchBit (fn : Nat) (g : List (Option Nat)) (i v : Nat) : Bool :=
  let below := (present (g.take i)).any (· = v)
  match fn with
  | 0 => below
  | 1 => !below
  | _ => (present g).all (· = v)

/-- VMATCH.dup, .first and .all (R291). -/
def execVmatch (h : Hdr) (o : Ops) (s : State) : Out :=
  issueV .vmatch h o (fun s => .retire (s.setKreg o.d (groupMask (s.groups o (groupSize o)) (matchBit o.fn)))) s

/-- The group index of the lowest active lane with a value. -/
def leaderOf (g : List (Option Nat)) (v : Nat) : Nat := g.findIdx (· = some v)

/-- VMATCH.leader (R291). -/
def execVmatchLeader (h : Hdr) (o : Ops) (s : State) : Out :=
  issueV .vmatchLeader h o (fun s =>
    let f (g : List (Option Nat)) : List Nat := g.map fun x => match x with | some v => leaderOf g v | none => 0
    .retire (s.writeVec o.k o.t.laneW o.d 1 ((s.groups o (groupSize o)).flatMap f))) s

/-- The active lanes whose bit in kA is 1 (R292). -/
def State.popBits (s : State) (o : Ops) : List Bool :=
  let n := 1024 / o.t.laneW
  ((s.actives o.k n).zip (lanesOf 1 n (s.kreg o.a.num))).map fun x => x.1 && x.2 = 1

/-- VPOPC (R292). -/
def execVpopc (h : Hdr) (o : Ops) (s : State) : Out :=
  issueV .vpopc h o (fun s => .retire (s.setS o.d (word ((s.popBits o).count true)))) s

/-- VPOPC.pre (R292). -/
def execVpopcPre (h : Hdr) (o : Ops) (s : State) : Out :=
  issueV .vpopcPre h o (fun s =>
    let b := s.popBits o
    .retire (s.writeVec o.k o.t.laneW o.d 1 ((List.range b.length).map fun i => (b.take i).count true))) s

/-! ## KOP (R293) -/

/-- KOP.and, .or, .xor, .andn. -/
def execKopLogic (h : Hdr) (o : Ops) (s : State) : Out :=
  issueV .kopLogic h o (fun s =>
    let a := s.kreg o.a.num
    let b := s.kreg o.b.num
    .retire (s.setKreg o.d (match o.fn with
      | 0 => a &&& b | 1 => a ||| b | 2 => a ^^^ b | _ => a &&& (2 ^ 128 - 1 - b)))) s

/-- KOP.not. -/
def execKopNot (h : Hdr) (o : Ops) (s : State) : Out :=
  issueV .kopNot h o (fun s => .retire (s.setKreg o.d (2 ^ 128 - 1 - s.kreg o.a.num))) s

/-- KOP.mov. -/
def execKopMov (h : Hdr) (o : Ops) (s : State) : Out :=
  issueV .kopMov h o (fun s => .retire (s.setKreg o.d (s.kreg o.a.num))) s

/-- KOP.set. -/
def execKopSet (h : Hdr) (o : Ops) (s : State) : Out :=
  issueV .kopSet h o (fun s => .retire (s.setKreg o.d ((s.arg o.a).toNat + 2 ^ 64 * (s.arg o.b).toNat))) s

/-- KOP.len. -/
def execKopLen (h : Hdr) (o : Ops) (s : State) : Out :=
  issueV .kopLen h o (fun s => .retire (s.setKreg o.d (2 ^ min (s.arg o.a).toNat 128 - 1))) s

/-- KOP.first. -/
def execKopFirst (h : Hdr) (o : Ops) (s : State) : Out :=
  issueV .kopFirst h o (fun s =>
    let a := s.kreg o.a.num
    .retire (s.setKreg o.d (match (List.range 128).find? (bitOf a) with | some i => 2 ^ i | none => 0))) s

/-- KOP.lo. -/
def execKopLo (h : Hdr) (o : Ops) (s : State) : Out :=
  issueV .kopLo h o (fun s => .retire (s.setS o.d (word (s.kreg o.a.num)))) s

/-- KOP.hi. -/
def execKopHi (h : Hdr) (o : Ops) (s : State) : Out :=
  issueV .kopHi h o (fun s => .retire (s.setS o.d (word (s.kreg o.a.num / 2 ^ 64)))) s

/-! ## VMVP (R294) -/

/-- The weight format and the rounding of VMVP: the prefix's, or the A format (R294). -/
def State.vmvpFmt (s : State) (o : Ops) : TCode := if s.me.pfxLive then s.me.pfxT2 else o.t

/-- VMVP (R294): everything is checked before any effect (R400). -/
def vmvpBody (o : Ops) (s : State) : Act :=
  let ta := o.t
  let tw := s.vmvpFmt o
  let scaled := s.me.pfxLive && s.me.pfxScm = 1
  let pa := (s.arg o.a).toNat
  let pb := (s.arg o.b).toNat
  let c := s.me.sreg o.c.num
  let ra := rowBytes ta
  let rw := rowBytes tw
  match firstSome (s.vecSpan pa ra 4 .load) (s.vecSpan pb (128 * rw) 4 .load) with
  | some x => .trap s x.1 (word x.2)
  | none =>
    let core := coreNo s.cur
    let oa := ptrOffset pa
    let ob := ptrOffset pb
    match firstSome (s.poisonAt oa ra) (s.poisonAt ob (128 * rw)) with
    | some x => .trap s x.1 (word x.2)
    | none =>
      let a := packedElems ta 128 (s.readLocal core oa ra)
      let w := (List.range 128).map fun k => packedElems tw 128 (s.readLocal core (ob + k * rw) rw)
      let r := rowStep ta tw (s.me.pfxRnd o.rm) o.sat (o.mx = 1) (scaleVal scaled (c.toNat % 2 ^ 32)) (s.vgroup 32 o.d 4) a w
      let s1 := (s.setVgroup 32 o.d 4 r.1).watchNotes s.me.pc [(pa, ra), (pb, 128 * rw)] true false
      .retire (s1.setS o.c.num (setField c 32 4 (bits c.toNat 32 4 ||| r.2.toNat)))

/-- VMVP (R294); watchpoints record its reads, and it raises no WATCH (R385, R412; DEDUCED, log 62). -/
def execVmvp (h : Hdr) (o : Ops) (s : State) : Out := issueV .vmvp h o (vmvpBody o) s

end Sys2Proof.Machine
end

