-- ==== Sys2Proof/Machine/Observe.lean ====
section
/-! DEFINITION. Observation, soft errors, refresh, and Smirvadin's writes to registers that have no row of their own (R6, R70, R74, R75, R219,
R240, R370, R374, R379, R384 to R387, R410, R415, R427 to R429). -/

namespace Sys2Proof.Machine

/-- TRACE_SAMPLE: a sample of a context that issues, where its die's trace is on. A sample's DATA is a free value (R384; DESIGN CHOICE, log 52). -/
def execTraceSample (cid : Nat) (s : State) : Out :=
  if (s.die (dieNo cid)).trace.period = 0 || !(s.ctx cid).ready then .next s
  else
    let d := s.draw
    .next (d.2.traceRec cid 0 (d.2.ctx cid).pc (word d.1))

/-- DROOP_BUDGET_RESET: 16 cycles without demand have passed on a core (R240). -/
def execDroopBudgetReset (core : Nat) (s : State) : Out :=
  let x := s.core core
  .next (if x.demand + 16 < s.cyc then s.setCore core { x with bud := 2 } else s)

/-- WEIGHT_STORE_REFRESH: the refresh window under way on a die closes (R75). -/
def execWeightStoreRefresh (die : Nat) (s : State) : Out :=
  let pos := (s.cyc - (s.die die).wsBase) % 64
  .next (if pos < 32 then { s with cyc := s.cyc + (32 - pos) } else s)

/-- Corrected errors are counted per structure of a die (R427). -/
def State.corrected (s : State) (die what n : Nat) : State :=
  let x := s.die die
  s.setDie die { x with corrected := tput 0 x.corrected what (tget 0 x.corrected what + n) }

/-- The number that the counts give DRAM, above the structure codes of R428. -/
def dramCount : Nat := 16

/-- PATROL_SCRUB: memory core m scrubs its lines, corrects some errors, and finds lines that it cannot correct (R427, R429). -/
def execPatrolScrub (m fixed : Nat) (lines : List Nat) (s : State) : Out :=
  let mine := lines.filter fun l => paExists l && ownerOf l = m
  .next (mine.foldl State.addPoison (s.corrected (if m < 384 then m / 16 else 24 + (m - 384) / 8) dramCount fixed))

/-! ## Soft errors (R415, R427 to R429) -/

/-- XVAL of an error outside addressed memory (R428). -/
def softVal (what entry : Nat) : Word := word (0xFF * 2 ^ 56 + 256 * (entry % 256) + what % 256)

/-- A field of a class, holding v, names unit b of a scalar, predicate or mask register file: 2 scalar registers, and predicates from 64 up; 3 mask
registers (R197, R428). -/
def clsNames (c : Cls) (v what b : Nat) : Bool :=
  match c with
  | .s => what = 2 && b = v
  | .sg n => what = 2 && v ≤ b && b < v + n
  | .p => what = 2 && b = 64 + v
  | .k => what = 3 && b = v
  | _ => false

/-- The physical vector registers that an instruction writes lane by lane, in which inactive lanes are merged (R238, R279, R297, R300). -/
def State.mergeDest (s : State) (i : Op) (o : Ops) : List Nat :=
  let n := match i with
    | .vcvt | .vqnt | .vdqnt => (convGroups (convSource i s.me) o.t).2
    | .vtld => (match s.tsr s.cur o.c.num with | some r => r.tile.getD 1 0 | none => 0)
    | i => (match i.row.d with | .v => 1 | .vg n _ => n | _ => 0)
  (List.range n).map fun k => rotate s.me.loops (o.d + k)

/-- sD is a source: ACAS's comparand, XSTS's length, the stride of VSTS (R249, R259, R296). -/
def readsD : Op → Bool
  | .acas | .xsts | .vsts => true
  | _ => false

/-- A format A, I or W instruction of the current context reads unit b of a register file: A, B and C where neither the constant window nor IMM32
replaces them (VLDRG's kC is a destination), sD where it is a source, s63 of RET, the vector sources, VMVP's accumulators among them, the mask of
K, and the destination that a masked instruction merges (R196, R234, R279, R294, R298). -/
def State.opReads (s : State) (i : Op) (o : Ops) (what b : Nat) : Bool :=
  let r := i.row
  let src (c : Cls) (a : Arg) : Bool := match a with | .reg n => clsNames c n what b | _ => false
  let masked := (r.k = .mask || r.k = .maskM) && bitOf o.k 3
  src r.a o.a || src r.b o.b || (i ≠ .vldrg && src r.c o.c) || (readsD i && what = 2 && b = o.d) || (i = .ret && what = 2 && b = 63)
    || (what = 1 && (vectorSources i o s.me).contains b)
    || (masked && ((what = 3 && b = o.k % 8) || (what = 1 && r.k = .mask && !bitOf o.k 4 && (s.mergeDest i o).contains b)))

/-- An instruction of the current context reads unit b of a register file. -/
def State.instrReads (s : State) (i : Instr) (what b : Nat) : Bool :=
  (what = 2 && i.hdr.p ≠ 0 && b = 64 + i.hdr.p)
    || match i with
      | .brc _ _ a c _ => what = 2 && (b = a || b = c)
      | .loop l => match l.cnt with | .reg n => what = 2 && b = n | _ => false
      | i => match i.op, i.parts with
        | some op, some (_, o, _) => s.opReads op o what b
        | _, _ => false

/-- An uncorrectable error in a register is found as the context's next instruction reads it: exact SOFT_ERROR there (R427; DEDUCED, log 36). -/
def State.registerError (s : State) (cid what entry : Nat) : State :=
  let c := s.ctx cid
  if !c.ready then s
  else match s.fetchAt cid with
    | .word w => if !(decodeWord w).instr.any (State.instrReads { s with cur := cid } · what entry) then s else s.takeTrap cid .exact 0x19 ((decodeWord w).len / 4) c.pc (softVal what entry)
    | .out _ => s

/-- TLBs and fetched blocks of a core are discarded. -/
def State.discard (s : State) (k : Nat) : State := s.setCore k { s.core k with itlb := [], dtlb := [], blocks := [] }

/-- An uncorrectable error in the buffer that holds a post (R418, R427): a store is refused whole, an exact-cell operation while it has not been
performed. -/
def State.postError (s : State) (n : Nat) : State :=
  match s.posts[n]? with
  | none => s
  | some x =>
    if x.refuse.isSome || (x.req.isSome && x.took ≠ 0) then s
    else s.setPost n { x with parts := [], took := 0, arrived := false, refuse := some (0x19, 0) }

/-- An uncorrectable error in 64 bits of a deferred store buffer or of a log that hold an accepted store of a context (R427). -/
def State.bufferError (s : State) (cid l : Nat) : State :=
  ((s.ctx cid).accepted fun x => x / 8 = l / 8).foldl (fun t o => t.refuseAccepted cid 0x19 o) s

/-- An uncorrectable error in the landing buffer that holds point j of a counted send of a core: the point and those after it are dropped (R418 to
R420, R427). -/
def State.landingError (s : State) (core id j : Nat) : State :=
  let waits (x : Transfer) : Bool := x.todo[j]?.any fun p => x.parked.any fun y => y.1 = p
  match (s.core core).heldSend id with
  | some h => match h.xfer with
    | some x => if waits x then s.settleHeld core h (x.drop j 0x19 x.dst.base) else s
    | none => s
  | none =>
    match [0, 1, 2, 3].findSome? fun q => ((s.core core).entry q id).map fun e => (q, e) with
    | some (q, e) => match e.op with
      | .xfer x => if waits x then s.refuseAt core q e x j 0x19 x.dst.base else s
      | _ => s
    | none => s

/-- The shipped context of an away context is struck, or one that is on its way for the first time (R415). -/
def State.awayError (s : State) (cid : Nat) : State :=
  let c := s.ctx cid
  match c.away, c.wait with
  | some _, _ => s.restoreAway cid
  | none, .shipping _ va =>
    (s.setCtx cid { c with wait := .none }).takeTrap cid .exact 0x06 (c.wlen / 4) c.pc (word (ptrOfVa va.toNat))
  | _, _ => s

/-- SOFT_ERROR: what it strikes.
0 one that is corrected, of structure b on die a; 1 addressed memory at location a; 2 register b of structure c, as context a reads it;
3 both copies of entry b of structure c of core a; 4 element b of accumulator slot a of a cluster c; 5 post a; 6 scheduler or barrier logic of
die a; 7 the shipped small context a; 8 TLBs and blocks of core a; 9 an accepted store of context a at location b, in a deferred store buffer or
the log; 10 point c of the counted send b of core a, in a landing buffer; 11 an internal error of host port a, which it reports (R452). Before boot has released
the supervisor cores, the dies stay in reset (R375), and only a host port has anything to strike. -/
def execSoftError (kind a b c : Nat) (s : State) : Out :=
  if s.birhiry.boot ≠ 2 && kind ≠ 11 then .next s
  else match kind with
  | 0 => .next (s.corrected a b 1)
  | 1 => .next (s.addPoison a)
  | 2 => .next (s.registerError a c b)
  | 3 => .next (s.pendTo (16 * a) 0x19 (softVal c b))
  | 4 => let x := s.cluster c
         .next (if x.bad.contains (a, b) then s else s.setCluster c { x with bad := (a, b) :: x.bad })
  | 5 => .next (s.postError a)
  | 6 => .next (if a < 24 then s.loseDie a else s)
  | 7 => .next (s.awayError a)
  | 8 => .next (s.discard a)
  | 9 => .next (s.bufferError a b)
  | 10 => .next (s.landingError a b c)
  | 11 => .next (if a < 2 then { s with aer := s.aer ++ [(a, 5)] } else s)
  | _ => .next s

/-! ## REGISTER_WRITE -/

/-- The collective step that a 64-byte record gives (R370). -/
def stepOf (l va w : Nat) : CStep :=
  { launch := l, va := va, op := bits w 0 32, peer := bits w 32 32, ports := bits w 64 16, addr := bits w 128 64, len := bits w 192 64,
    after := bits w 256 64, table := bits w 320 64, data := [], arrived := [], kept := none, marks := [], landed := false, stage := 0 }

/-- Smirvadin places a step with the engine, which keeps at most 256 pending; a place of a step that is over is used again. -/
def State.placeStep (s : State) (x : CStep) : State :=
  if 256 ≤ (s.steps.filter fun y => y.stage < 2).length then s
  else { s with steps := (s.steps.filter fun y => !(y.stage ≥ 2 && y.launch = x.launch && y.va = x.va)) ++ [x] }

/-- No launch runs on a die (R74): none that has been dispatched may use its cores. -/
def State.dieIdle (s : State) (d : Nat) : Bool :=
  !(s.cores.any fun c => c.1 < 0x10000 && c.1 / 128 = d && c.2.launch.isSome)
    && !(s.launches.any fun l => l.2.stage = 1 && l.2.cores.any fun c => c / 128 = d)

/-- A die's copy engines write n bytes of an address space into its weight store, while no launch runs there (R74, R358). -/
def State.wsload (s : State) (d off root va n : Nat) : State :=
  if !s.dieIdle d || 0xC000000 < off + n then s
  else match s.homesIn (some root) va false n with
    | .inl _ => s
    | .inr ls => (s.markHomes (some root) va n).poke (locWeight d off) (ls.map fun l => readByte s.mem l.1)

/-- Some bytes of memory lie in pages of one address space. -/
def State.tenantHolds (s : State) (root a n : Nat) : Bool :=
  (List.range ((a % 32768 + n + 32767) / 32768)).all fun i =>
    (leavesOf s.mem root).any fun e => e.pa ≤ a + 32768 * i && a + 32768 * i < e.pa + 2 ^ e.size

/-- A watch unit of a memory core may watch the lines of one tenant; at debug level 2 it may watch across tenants (R381; DESIGN CHOICE,
log 52). -/
def State.mayWatch (s : State) (core a ctl root : Nat) : Bool :=
  core < 0x10000 || s.debugLevel = 2 || s.tenantHolds root a (2 ^ (ctl % 32))

/-- Boot divides the virtual functions: n to port 0, the others to port 1, once (R361). -/
def State.divide (s : State) (n : Nat) : State :=
  if s.vfSplit.isSome || 64 < n then s
  else
    (List.range 64).foldl (fun t i => t.setFunc (2 + i) { t.func (2 + i) with port := if i < n then 0 else 1 }) { s with vfSplit := some n }

/-- Smirvadin adds pages to a pool in one step at the pool's home, so that no take sees a page without its count (R161, R446). -/
def State.addPages (s : State) (root p : Nat) (pages : List Nat) : State :=
  let free := s.rdIn (some root) p 4
  let n := free + pages.length
  match s.homesIn (some root) p true (8 + 8 * n) with
  | .inl _ => s
  | .inr _ =>
    if s.rdIn (some root) (p + 4) 4 < n then s
    else ((pages.zipIdx.foldl (fun t x => t.wrIn (some root) (p + 8 + 8 * (free + x.2)) 8 x.1) s).wrIn (some root) p 4 n).notePool root p

/-- A function may get an address space: its tables lie in memory that the device has, and its leaves in frames that no other leaf and no table has; no
other function has it (R363, R366). -/
def State.mayAttach (s : State) (f root : Nat) : Bool :=
  let tabs := tablesUnder s.mem 3 root
  let mine := leavesOf s.mem root
  let rest := s.roots.filter (· ≠ root)
  let others := rest.flatMap (leavesOf s.mem)
  let tables := rest.flatMap (tablesUnder s.mem 3)
  root % 2 ^ 15 = 0 && !(s.funcs.any fun x => x.1 ≠ f && x.2.root = root)
    && tabs.all (fun p => paExists p && !tables.contains p && !(others.any fun e => e.pa < p + 2 ^ 15 && p < e.pa + 2 ^ e.size))
    && mine.all fun e => s.frameOk e && !(others.any e.shares) && (mine.filter e.shares).length = 1
      && !((tabs ++ tables).any fun p => p < e.pa + 2 ^ e.size && e.pa < p + 2 ^ 15)

/-- A write of Smirvadin to a register: which register, and the values.
0 a watchpoint's WADDR and WCTL (core, number, values, and for a memory core's remote-write watch the tenant's address space); 1 LLO and LHI
of a core; 2 a port translation entry (launch, core, 0 ABSENT, 1 PRESENT, 2 none); 3 a die's trace ring (base, records, sample exponent);
4 a die's refresh reference; 5 the power cap, by Smirvadin or by a profiler's function that holds a CAPFIX grant; 6 PKGID; 7 bytes of a die's
weight store (die, offset, address space, VA, count); 8 a collective step (launch, VA, record); 9 MEAS2's one extension; 10 a tenant key;
11 a stopped context goes on; 12 a core is to stop at its next boundary; 13 a migration begins (0 at the source, 1 with the copy at the
destination, and the other package); 14 a function's address space; 15 the TLBs are invalidated for a range of an address space; 16 the virtual
functions of port 0; 17 a core is under jdb or not; 18 pages that a pool gets (address space, VA, pages); of a function that migrates, 19 a dirty
round that ends (frames found, threshold), 20 a frame sent, 21 an image sent, 22 a frame that arrives with its bytes, 23 a launch that arrives and
24 an image (launch, core), each under the number that stands for what the source sends; 25 a range of objects that Smirvadin has loaded (address
space, VA, bytes), and 26 the bytes of each private segment of an address space (R465). -/
def State.register (s : State) (kind : Nat) (v : List Nat) : State :=
  let a (i : Nat) : Nat := v.getD i 0
  match kind with
  | 0 => let x := s.core (a 0)
         if s.mayWatch (a 0) (a 2) (a 3) (a 4) then
           s.setCore (a 0) { x with waddr := tput 0 x.waddr (a 1 % 4) (word (a 2)), wctl := tput 0 x.wctl (a 1 % 4) (word (a 3 % 512)) }
         else s
  | 1 => s.setCore (a 0) { s.core (a 0) with llo := word (a 1), lhi := word (a 2) }
  | 2 => s.setPtt (a 0) (a 1) (match a 2 with | 0 => some false | 1 => some true | _ => none)
  | 3 => s.setDie (a 0) { s.die (a 0) with trace := { base := a 1, size := a 2, next := 0, period := if 10 ≤ a 3 && a 3 ≤ 24 then a 3 else 0 } }
  | 4 => s.setDie (a 0) { s.die (a 0) with wsBase := a 1 }
  | 5 => if 1600 ≤ a 0 && a 0 ≤ 2400 && (v.length ≤ 1 || s.profilers.any fun p => p.kind = 1 && p.func = a 1) then { s with cap := a 0 } else s
  | 6 => { s with pkgid := a 0 }
  | 7 => s.wsload (a 0) (a 1) (a 2) (a 3) (a 4)
  | 8 => s.placeStep (stepOf (a 0) (a 1) (a 2))
  | 9 => if tget 0 s.meas 2 = 0 then s.extend 2 (a 0) (a 1) else s
  | 10 => if a 0 < 64 then s.setBirhiry { s.birhiry with keys := tput 0 s.birhiry.keys (a 0) (a 1) } else s
  | 11 => s.setCtx (a 0) { s.ctx (a 0) with stopped := false }
  | 12 => s.setCore (a 0) { s.core (a 0) with haltReq := true }
  | 13 => s.beginMigration (a 0) (if a 1 = 0 then 1 else 4) (a 2)
  | 14 => if isFunc (a 0) && s.mayAttach (a 0) (a 1) then s.setFunc (a 0) { s.func (a 0) with root := a 1 } else s
  | 15 => s.invalidate (a 0) (a 1) (a 2)
  | 16 => s.divide (a 0)
  | 17 => s.setCore (a 0) { s.core (a 0) with jdb := a 1 = 1 }
  | 18 => s.addPages (a 0) (a 1) (v.drop 2)
  | 19 => s.dirtyRound (a 0) (a 1) (a 2)
  | 20 => s.sendFrame (a 0) (a 1)
  | 21 => s.sendImage (a 0)
  | 22 => s.takeFrame (a 0) (a 1) (a 2)
  | 23 => s.takeLaunch (a 0) (a 1)
  | 24 => s.takeImage (a 0) (a 1) (a 2) (a 3)
  | 25 => { s with reserves := s.reserves ++ [{ root := a 0, va := a 1, size := a 2 }] }
  | 26 => { s with privs := tput 0 s.privs (a 0) (min (a 1) (2 ^ 32)) }
  | _ => s

/-- REGISTER_WRITE: Smirvadin writes a register. It runs once boot has released the supervisor cores; until then the dies stay in reset
(R375). -/
def execRegisterWrite (kind : Nat) (v : List Nat) (s : State) : Out := .next (if s.birhiry.boot = 2 then s.register kind v else s)

end Sys2Proof.Machine
end

