-- ==== Sys2Proof/Machine/VecRegion.lean ====
section
/-! DEFINITION. VLDRG and VSTRG (R118, R298, R433, R434). -/

namespace Sys2Proof.Machine

/-- The first valid lane whose cell no grant covers fails with ACCESS, if no lane before it fails (R118, R400). -/
def State.grantLanes (s : State) (r : Tsr) (st : Bool) (valid : List Bool) (pts : List (List Int)) (offs : List Int) (l : Lanes) : Lanes :=
  match (valid.zip pts).findIdx? fun x => x.1 && !s.granted s.cur r x.2 st with
  | none => l
  | some i => if i < l.upto then { upto := i, cause := some (0x07, laneVal s.cur 0x07 i (offs.getD i 0)) } else l

/-- The bits of local memory that a lane's cell holds, where the lane stores. -/
def laneBits (core : Nat) (x : (Bool × Option Cell) × (Int × Nat)) : List Nat :=
  match x.1 with
  | (true, some c) => bitPlaces ((List.range c.len).map fun i => locLocal core x.2.1.toNat + i) c.off c.wid
  | _ => []

/-- What VLDRG and VSTRG do once the record passes and its ragged group is known, with the words that were read for it. -/
def regionLanes (o : Ops) (st : Bool) (g : Region) (r : Tsr) (rag : Nat × Nat) (read : List Nat) (s : State) : Act :=
  let w := r.fmt.laneW
  let n := 1024 / w
  let cells := laneCells g r rag (s.point o.b.num g.rank) n
  let valid := ((s.actives o.k n).zip cells).map fun x => x.1 && x.2.isSome
  let offs := cells.map fun c => localBase r.base + (match c with | some c => c.rel | none => 0)
  let len := match cells.findSome? id with | some c => c.len | none => 1
  match (if valid.any id then badPtr s.cur r.base else none) with
  | some c => .trap s c (word r.base)
  | none =>
    let pts := (List.range n).map (lanePoint (s.point o.b.num g.rank))
    let l := s.grantLanes r st valid pts offs (s.scanLanes r.base len st 1 valid offs)
    let loads := read.map (·, 4)
    let acc := laneAccesses s.cur len (valid.take l.upto) offs
    let core := coreNo s.cur
    if st then
      let lanes := lanesOf w n (s.vreg o.c.num)
      let step (t : State) (x : (Bool × Option Cell) × (Int × Nat)) : State :=
        match x.1 with
        | (true, some c) => t.poke (locLocal core x.2.1.toNat) (c.put (t.readLocal core x.2.1.toNat c.len) (TCode.held r.fmt x.2.2))
        | _ => t
      let ws := ((valid.zip cells).zip (offs.zip lanes)).take l.upto
      ((ws.foldl step s).healBits (ws.flatMap (laneBits core))).endLanes s.me.pc l loads acc false
    else
      let vals := (((valid.zip offs).zipIdx).map fun x => if x.1.1 && x.2 < l.upto then TCode.held r.fmt (s.localNat core x.1.2 (w / 8)) else 0)
      let old := lanesOf w n (s.vreg o.d)
      let s1 := s.setVreg o.d (ofLanes w (vals.take l.upto ++ old.drop l.upto))
      let s2 := if l.cause = none then s1.setKreg o.c.num (maskOf valid) else s1
      s2.endLanes s.me.pc l loads acc true

/-- VLDRG and VSTRG: the record's checks, the ragged group, the lanes (R298, R433, R434). -/
def regionBody (o : Ops) (st : Bool) (s : State) : Act :=
  let g := s.region s.cur o.a.num
  match s.tsr s.cur g.tsr with
  | none => .trap s 0x0B (word (0x100 + g.tsr))
  | some r =>
    if r.fmt = .i64 || (!st && TCode.width r.fmt < 8) then .trap s 0x0B 18
    else if st && r.ro then .trap s 0x07 0
    else
      match ragNeeded g r (s.point o.b.num g.rank) (1024 / r.fmt.laneW) with
      | none => regionLanes o st g r (0, 0) [] s
      | some k =>
        match s.ragRead s.cur r k with
        | .ok a c =>
          let read := s.ragPlaces s.cur r k
          regionLanes o st g r (a, c) read (s.touchMany s.cur read)
        | .cause n v => .trap s n v
        | .wait va => .stall (s.setMe { s.me with wait := .walk va false })
        | .stop f => .stop f

/-- VLDRG (R298). -/
def execVldrg (h : Hdr) (o : Ops) (s : State) : Out := issueV .vldrg h o (regionBody o false) s
/-- VSTRG (R298). -/
def execVstrg (h : Hdr) (o : Ops) (s : State) : Out := issueV .vstrg h o (regionBody o true) s

end Sys2Proof.Machine
end

