-- ==== Sys2Proof/Machine/Dispatch.lean ====
section
/-! DEFINITION. The dispatch: one arm per constructor of `Instr`, each a direct call of its meaning. -/

namespace Sys2Proof.Machine

def exec (i : Instr) (s : State) : Host.Outcome State Fault Refusal :=
  match i with
  | .nop => Sys2Proof.Machine.execNop s
  | .brk h o => Sys2Proof.Machine.execBrk h o s
  | .trap h o => Sys2Proof.Machine.execTrap h o s
  | .eret h o => Sys2Proof.Machine.execEret h o s
  | .sysc h o => Sys2Proof.Machine.execSysc h o s
  | .fmt t2 rv rnd scm => Sys2Proof.Machine.execFmt t2 rv rnd scm s
  | .waiti h o => Sys2Proof.Machine.execWaiti h o s
  | .mfsr h o => Sys2Proof.Machine.execMfsr h o s
  | .mtsr h o => Sys2Proof.Machine.execMtsr h o s
  | .fencei h o => Sys2Proof.Machine.execFencei h o s
  | .idle h o => Sys2Proof.Machine.execIdle h o s
  | .add h o => Sys2Proof.Machine.execAdd h o s
  | .sub h o => Sys2Proof.Machine.execSub h o s
  | .mul h o => Sys2Proof.Machine.execMul h o s
  | .mulh h o => Sys2Proof.Machine.execMulh h o s
  | .mulhu h o => Sys2Proof.Machine.execMulhu h o s
  | .div h o => Sys2Proof.Machine.execDiv h o s
  | .divu h o => Sys2Proof.Machine.execDivu h o s
  | .rem h o => Sys2Proof.Machine.execRem h o s
  | .remu h o => Sys2Proof.Machine.execRemu h o s
  | .and h o => Sys2Proof.Machine.execAnd h o s
  | .or h o => Sys2Proof.Machine.execOr h o s
  | .xor h o => Sys2Proof.Machine.execXor h o s
  | .andn h o => Sys2Proof.Machine.execAndn h o s
  | .shl h o => Sys2Proof.Machine.execShl h o s
  | .shr h o => Sys2Proof.Machine.execShr h o s
  | .sar h o => Sys2Proof.Machine.execSar h o s
  | .rol h o => Sys2Proof.Machine.execRol h o s
  | .min h o => Sys2Proof.Machine.execMin h o s
  | .max h o => Sys2Proof.Machine.execMax h o s
  | .minu h o => Sys2Proof.Machine.execMinu h o s
  | .maxu h o => Sys2Proof.Machine.execMaxu h o s
  | .cmp h o => Sys2Proof.Machine.execCmp h o s
  | .cmpu h o => Sys2Proof.Machine.execCmpu h o s
  | .sel h o => Sys2Proof.Machine.execSel h o s
  | .mov h o => Sys2Proof.Machine.execMov h o s
  | .movi h d _ imm => Sys2Proof.Machine.execMovi h d imm s
  | .clz h o => Sys2Proof.Machine.execClz h o s
  | .popc h o => Sys2Proof.Machine.execPopc h o s
  | .bfx h o => Sys2Proof.Machine.execBfx h o s
  | .bfi h o => Sys2Proof.Machine.execBfi h o s
  | .adds h o => Sys2Proof.Machine.execAdds h o s
  | .mad h o => Sys2Proof.Machine.execMad h o s
  | .abs h o => Sys2Proof.Machine.execAbs h o s
  | .neg h o => Sys2Proof.Machine.execNeg h o s
  | .fadd h o => Sys2Proof.Machine.execFadd h o s
  | .fsub h o => Sys2Proof.Machine.execFsub h o s
  | .fmul h o => Sys2Proof.Machine.execFmul h o s
  | .ffma h o => Sys2Proof.Machine.execFfma h o s
  | .fdiv h o => Sys2Proof.Machine.execFdiv h o s
  | .fsqrt h o => Sys2Proof.Machine.execFsqrt h o s
  | .fmin h o => Sys2Proof.Machine.execFmin h o s
  | .fmax h o => Sys2Proof.Machine.execFmax h o s
  | .fcmp h o => Sys2Proof.Machine.execFcmp h o s
  | .fcvt h o => Sys2Proof.Machine.execFcvt h o s
  | .br h disp => Sys2Proof.Machine.execBr h disp s
  | .brc h cnd a b disp => Sys2Proof.Machine.execBrc h cnd a b disp s
  | .call h disp => Sys2Proof.Machine.execCall h disp s
  | .ret h o => Sys2Proof.Machine.execRet h o s
  | .jmpr h o => Sys2Proof.Machine.execJmpr h o s
  | .loop l => Sys2Proof.Machine.execLoop l s
  | .loopx h o => Sys2Proof.Machine.execLoopx h o s
  | .jtab h o => Sys2Proof.Machine.execJtab h o s
  | .ld h o => Sys2Proof.Machine.execLd h o s
  | .st h o => Sys2Proof.Machine.execSt h o s
  | .ld2 h o => Sys2Proof.Machine.execLd2 h o s
  | .st2 h o => Sys2Proof.Machine.execSt2 h o s
  | .pref h o => Sys2Proof.Machine.execPref h o s
  | .spq h o => Sys2Proof.Machine.execSpq h o s
  | .spcv h o => Sys2Proof.Machine.execSpcv h o s
  | .spmk h o => Sys2Proof.Machine.execSpmk h o s
  | .lea h o => Sys2Proof.Machine.execLea h o s
  | .chkb h o => Sys2Proof.Machine.execChkb h o s
  | .llk h o => Sys2Proof.Machine.execLlk h o s
  | .sul h o => Sys2Proof.Machine.execSul h o s
  | .aadd h o => Sys2Proof.Machine.execAadd h o s
  | .amin h o => Sys2Proof.Machine.execAmin h o s
  | .amax h o => Sys2Proof.Machine.execAmax h o s
  | .aand h o => Sys2Proof.Machine.execAand h o s
  | .aor h o => Sys2Proof.Machine.execAor h o s
  | .axor h o => Sys2Proof.Machine.execAxor h o s
  | .aswp h o => Sys2Proof.Machine.execAswp h o s
  | .acas h o => Sys2Proof.Machine.execAcas h o s
  | .faadd h o => Sys2Proof.Machine.execFaadd h o s
  | .ecrd h o => Sys2Proof.Machine.execEcrd h o s
  | .ecclr h o => Sys2Proof.Machine.execEcclr h o s
  | .vadd h o => Sys2Proof.Machine.execVadd h o s
  | .vsub h o => Sys2Proof.Machine.execVsub h o s
  | .vmul h o => Sys2Proof.Machine.execVmul h o s
  | .vfma h o => Sys2Proof.Machine.execVfma h o s
  | .vmin h o => Sys2Proof.Machine.execVmin h o s
  | .vmax h o => Sys2Proof.Machine.execVmax h o s
  | .vabs h o => Sys2Proof.Machine.execVabs h o s
  | .vneg h o => Sys2Proof.Machine.execVneg h o s
  | .vand h o => Sys2Proof.Machine.execVand h o s
  | .vor h o => Sys2Proof.Machine.execVor h o s
  | .vxor h o => Sys2Proof.Machine.execVxor h o s
  | .vshl h o => Sys2Proof.Machine.execVshl h o s
  | .vshr h o => Sys2Proof.Machine.execVshr h o s
  | .vsar h o => Sys2Proof.Machine.execVsar h o s
  | .vcmp h o => Sys2Proof.Machine.execVcmp h o s
  | .vsel h o => Sys2Proof.Machine.execVsel h o s
  | .vrcp h o => Sys2Proof.Machine.execVrcp h o s
  | .vrsq h o => Sys2Proof.Machine.execVrsq h o s
  | .vexp2 h o => Sys2Proof.Machine.execVexp2 h o s
  | .vlog2 h o => Sys2Proof.Machine.execVlog2 h o s
  | .vred h o => Sys2Proof.Machine.execVred h o s
  | .vscan h o => Sys2Proof.Machine.execVscan h o s
  | .vshuf h o => Sys2Proof.Machine.execVshuf h o s
  | .vshufi h o => Sys2Proof.Machine.execVshufi h o s
  | .vbcast h o => Sys2Proof.Machine.execVbcast h o s
  | .vbcastLane h o => Sys2Proof.Machine.execVbcastLane h o s
  | .vvote h o => Sys2Proof.Machine.execVvote h o s
  | .vmatch h o => Sys2Proof.Machine.execVmatch h o s
  | .vmatchLeader h o => Sys2Proof.Machine.execVmatchLeader h o s
  | .vpopc h o => Sys2Proof.Machine.execVpopc h o s
  | .vpopcPre h o => Sys2Proof.Machine.execVpopcPre h o s
  | .vmovs h o => Sys2Proof.Machine.execVmovs h o s
  | .vmovsV h o => Sys2Proof.Machine.execVmovsV h o s
  | .viota h o => Sys2Proof.Machine.execViota h o s
  | .kopLogic h o => Sys2Proof.Machine.execKopLogic h o s
  | .kopNot h o => Sys2Proof.Machine.execKopNot h o s
  | .kopMov h o => Sys2Proof.Machine.execKopMov h o s
  | .kopSet h o => Sys2Proof.Machine.execKopSet h o s
  | .kopLen h o => Sys2Proof.Machine.execKopLen h o s
  | .kopFirst h o => Sys2Proof.Machine.execKopFirst h o s
  | .kopLo h o => Sys2Proof.Machine.execKopLo h o s
  | .kopHi h o => Sys2Proof.Machine.execKopHi h o s
  | .vmvp h o => Sys2Proof.Machine.execVmvp h o s
  | .vld h o => Sys2Proof.Machine.execVld h o s
  | .vst h o => Sys2Proof.Machine.execVst h o s
  | .vlds h o => Sys2Proof.Machine.execVlds h o s
  | .vsts h o => Sys2Proof.Machine.execVsts h o s
  | .vgath h o => Sys2Proof.Machine.execVgath h o s
  | .vscat h o => Sys2Proof.Machine.execVscat h o s
  | .vtld h o => Sys2Proof.Machine.execVtld h o s
  | .vldrg h o => Sys2Proof.Machine.execVldrg h o s
  | .vstrg h o => Sys2Proof.Machine.execVstrg h o s
  | .vldb h o => Sys2Proof.Machine.execVldb h o s
  | .vcvt h o => Sys2Proof.Machine.execVcvt h o s
  | .vamax h o => Sys2Proof.Machine.execVamax h o s
  | .vqnt h o => Sys2Proof.Machine.execVqnt h o s
  | .vdqnt h o => Sys2Proof.Machine.execVdqnt h o s
  | .vpack h o => Sys2Proof.Machine.execVpack h o s
  | .vunpk h o => Sys2Proof.Machine.execVunpk h o s
  | .gmk h o => Sys2Proof.Machine.execGmk h o s
  | .gmkApp h o => Sys2Proof.Machine.execGmkApp h o s
  | .gmki h o x => Sys2Proof.Machine.execGmki h o x s
  | .gld h o => Sys2Proof.Machine.execGld h o s
  | .gst h o => Sys2Proof.Machine.execGst h o s
  | .gmov h o => Sys2Proof.Machine.execGmov h o s
  | .guni h o x => Sys2Proof.Machine.execGuni h o x s
  | .gint h o x => Sys2Proof.Machine.execGint h o x s
  | .gsub h o x => Sys2Proof.Machine.execGsub h o x s
  | .gdil h o x => Sys2Proof.Machine.execGdil h o x s
  | .gero h o x => Sys2Proof.Machine.execGero h o x s
  | .gtrn h o x => Sys2Proof.Machine.execGtrn h o x s
  | .gprj h o x => Sys2Proof.Machine.execGprj h o x s
  | .gspl h o x => Sys2Proof.Machine.execGspl h o x s
  | .gcan h o x => Sys2Proof.Machine.execGcan h o x s
  | .ghul h o => Sys2Proof.Machine.execGhul h o s
  | .glat h o => Sys2Proof.Machine.execGlat h o s
  | .glatUnit h o => Sys2Proof.Machine.execGlatUnit h o s
  | .glatRd h o => Sys2Proof.Machine.execGlatRd h o s
  | .grag h o => Sys2Proof.Machine.execGrag h o s
  | .gvol h o => Sys2Proof.Machine.execGvol h o s
  | .gnbx h o => Sys2Proof.Machine.execGnbx h o s
  | .gbox h o => Sys2Proof.Machine.execGbox h o s
  | .gtstPt h o => Sys2Proof.Machine.execGtstPt h o s
  | .gtstOvl h o => Sys2Proof.Machine.execGtstOvl h o s
  | .gtstSub h o => Sys2Proof.Machine.execGtstSub h o s
  | .gtstEq h o => Sys2Proof.Machine.execGtstEq h o s
  | .gclr h o => Sys2Proof.Machine.execGclr h o s
  | .gwalk h o => Sys2Proof.Machine.execGwalk h o s
  | .gown h o => Sys2Proof.Machine.execGown h o s
  | .xget h o x => Sys2Proof.Machine.execXget h o x s
  | .xsend h o x => Sys2Proof.Machine.execXsend h o x s
  | .xcopy h o x => Sys2Proof.Machine.execXcopy h o x s
  | .xmma h o x => Sys2Proof.Machine.execXmma h o x s
  | .xsts h o x => Sys2Proof.Machine.execXsts h o x s
  | .xcnt h o x => Sys2Proof.Machine.execXcnt h o x s
  | .waitg h o => Sys2Proof.Machine.execWaitg h o s
  | .waitq h o => Sys2Proof.Machine.execWaitq h o s
  | .qfence h o => Sys2Proof.Machine.execQfence h o s
  | .qmark h o => Sys2Proof.Machine.execQmark h o s
  | .tbind h o => Sys2Proof.Machine.execTbind h o s
  | .tunb h o => Sys2Proof.Machine.execTunb h o s
  | .grnt h o x => Sys2Proof.Machine.execGrnt h o x s
  | .grev h o x => Sys2Proof.Machine.execGrev h o x s
  | .acq h o x => Sys2Proof.Machine.execAcq h o x s
  | .pub h o x => Sys2Proof.Machine.execPub h o x s
  | .mcrun h o => Sys2Proof.Machine.execMcrun h o s
  | .mring h o => Sys2Proof.Machine.execMring h o s
  | .mringRd h o => Sys2Proof.Machine.execMringRd h o s
  | .mradv h o => Sys2Proof.Machine.execMradv h o s
  | .mldw h o x => Sys2Proof.Machine.execMldw h o x s
  | .mma h o x => Sys2Proof.Machine.execMma h o x s
  | .mdrn h o => Sys2Proof.Machine.execMdrn h o s
  | .mzro h o => Sys2Proof.Machine.execMzro h o s
  | .mswp h o => Sys2Proof.Machine.execMswp h o s
  | .mflg h o => Sys2Proof.Machine.execMflg h o s
  | .mholdFire h o => Sys2Proof.Machine.execMholdFire h o s
  | .mholdSet h o => Sys2Proof.Machine.execMholdSet h o s
  | .kvapp h o => Sys2Proof.Machine.execKvapp h o s
  | .kvseal h o => Sys2Proof.Machine.execKvseal h o s
  | .spset h o => Sys2Proof.Machine.execSpset h o s
  | .spret h o => Sys2Proof.Machine.execSpret h o s
  | .posl h o => Sys2Proof.Machine.execPosl h o s
  | .posf h o => Sys2Proof.Machine.execPosf h o s
  | .posiTag h o => Sys2Proof.Machine.execPosiTag h o s
  | .posiSeq h o => Sys2Proof.Machine.execPosiSeq h o s
  | .posiAll h o => Sys2Proof.Machine.execPosiAll h o s
  | .hsift h o => Sys2Proof.Machine.execHsift h o s
  | .hpop h o => Sys2Proof.Machine.execHpop h o s
  | .spawn h o => Sys2Proof.Machine.execSpawn h o s
  | .done h o => Sys2Proof.Machine.execDone h o s
  | .joinh h o => Sys2Proof.Machine.execJoinh h o s
  | .cqadd h o => Sys2Proof.Machine.execCqadd h o s
  | .cqget h o => Sys2Proof.Machine.execCqget h o s
  | .cqnext h o => Sys2Proof.Machine.execCqnext h o s
  | .jdec h o => Sys2Proof.Machine.execJdec h o s
  | .rqadd h o => Sys2Proof.Machine.execRqadd h o s
  | .rqget h o => Sys2Proof.Machine.execRqget h o s
  | .sync h o => Sys2Proof.Machine.execSync h o s
  | .bdom h o => Sys2Proof.Machine.execBdom h o s
  | .rdssn h o => Sys2Proof.Machine.execRdssn h o s
  | .launch h o => Sys2Proof.Machine.execLaunch h o s
  | .cancel h o => Sys2Proof.Machine.execCancel h o s
  | .cancelLaunch h o => Sys2Proof.Machine.execCancelLaunch h o s
  | .chkc h o => Sys2Proof.Machine.execChkc h o s
  | .launchDispatch l root func pd dies loop xbase ring miss handlers saveb cones => Sys2Proof.Machine.execLaunchDispatch l root func pd dies loop xbase ring miss handlers saveb cones s
  | .dieRangeSearch cid => Sys2Proof.Machine.execDieRangeSearch cid s
  | .barrierRelease l d => Sys2Proof.Machine.execBarrierRelease l d s
  | .transferStart core q id n fail => Sys2Proof.Machine.execTransferStart core q id n fail s
  | .transferComplete core q id fail => Sys2Proof.Machine.execTransferComplete core q id fail s
  | .qmarkCompletion core q => Sys2Proof.Machine.execQmarkCompletion core q s
  | .qmEntryPerform core id => Sys2Proof.Machine.execQmEntryPerform core id s
  | .qmEntryComplete core id => Sys2Proof.Machine.execQmEntryComplete core id s
  | .mmaArrival core id => Sys2Proof.Machine.execMmaArrival core id s
  | .setterDeadline cl => Sys2Proof.Machine.execSetterDeadline cl s
  | .groupStreamStart cl => Sys2Proof.Machine.execGroupStreamStart cl s
  | .memberRowsWritten cl core id => Sys2Proof.Machine.execMemberRowsWritten cl core id s
  | .vectorPathComplete core => Sys2Proof.Machine.execVectorPathComplete core s
  | .mcrunProgramStart core id j fail => Sys2Proof.Machine.execMcrunProgramStart core id j fail s
  | .smallContextArrival cid => Sys2Proof.Machine.execSmallContextArrival cid s
  | .pageServiceComplete cid va root ok wipes writes => Sys2Proof.Machine.execPageServiceComplete cid va root ok wipes writes s
  | .smallContextReturn cid => Sys2Proof.Machine.execSmallContextReturn cid s
  | .globalAccessAnswer cid => Sys2Proof.Machine.execGlobalAccessAnswer cid s
  | .postedArrival n => Sys2Proof.Machine.execPostedArrival n s
  | .journalClose n => Sys2Proof.Machine.execJournalClose n s
  | .postedRefusal n => Sys2Proof.Machine.execPostedRefusal n s
  | .flushMarkerArrival cid kind n q => Sys2Proof.Machine.execFlushMarkerArrival cid kind n q s
  | .releaseAck cid kind n q => Sys2Proof.Machine.execReleaseAck cid kind n q s
  | .tokenOpPerform core id => Sys2Proof.Machine.execTokenOpPerform core id s
  | .spanRetirementPerform n => Sys2Proof.Machine.execSpanRetirementPerform n s
  | .syscAnswer cid v => Sys2Proof.Machine.execSyscAnswer cid v s
  | .asyncCauseTake cid what => Sys2Proof.Machine.execAsyncCauseTake cid what s
  | .preemptRequest core job => Sys2Proof.Machine.execPreemptRequest core job s
  | .drainComplete l => Sys2Proof.Machine.execDrainComplete l s
  | .jobImageCapture l => Sys2Proof.Machine.execJobImageCapture l s
  | .jobSwitchIn l => Sys2Proof.Machine.execJobSwitchIn l s
  | .vexpenArrival port of peer l p num bytes => Sys2Proof.Machine.execVexpenArrival port of peer l p num bytes s
  | .collectiveStepStart n => Sys2Proof.Machine.execCollectiveStepStart n s
  | .collectiveSendComplete n => Sys2Proof.Machine.execCollectiveSendComplete n s
  | .collectiveRecvComplete n => Sys2Proof.Machine.execCollectiveRecvComplete n s
  | .reqtailWrite f u tail entries => Sys2Proof.Machine.execReqtailWrite f u tail entries s
  | .rspheadWrite f h => Sys2Proof.Machine.execRspheadWrite f h s
  | .map n ok va wipes writes => Sys2Proof.Machine.execMap n ok va wipes writes s
  | .unmap n => Sys2Proof.Machine.execUnmap n s
  | .copyIn n => Sys2Proof.Machine.execCopyIn n s
  | .copyOut n => Sys2Proof.Machine.execCopyOut n s
  | .mailboxLaunch n ok => Sys2Proof.Machine.execMailboxLaunch n ok s
  | .mailboxCancel n => Sys2Proof.Machine.execMailboxCancel n s
  | .hostCompletionTimeout n => Sys2Proof.Machine.execHostCompletionTimeout n s
  | .functionLevelReset f => Sys2Proof.Machine.execFunctionLevelReset f s
  | .hostLinkDown port => Sys2Proof.Machine.execHostLinkDown port s
  | .cxlPortDown port => Sys2Proof.Machine.execCxlPortDown port s
  | .cxlResponseTimeout port => Sys2Proof.Machine.execCxlResponseTimeout port s
  | .vexpenPortDown port => Sys2Proof.Machine.execVexpenPortDown port s
  | .peerAckTimeout peer => Sys2Proof.Machine.execPeerAckTimeout peer s
  | .ucieLinkDown d dir => Sys2Proof.Machine.execUcieLinkDown d dir s
  | .dieHeartbeatTimeout d => Sys2Proof.Machine.execDieHeartbeatTimeout d s
  | .dirtyBitmapRead f m w => Sys2Proof.Machine.execDirtyBitmapRead f m w s
  | .migrationCommit f => Sys2Proof.Machine.execMigrationCommit f s
  | .migrationResumed f => Sys2Proof.Machine.execMigrationResumed f s
  | .resumedTimeout f => Sys2Proof.Machine.execResumedTimeout f s
  | .commitTimeout f => Sys2Proof.Machine.execCommitTimeout f s
  | .packageReset => Sys2Proof.Machine.execPackageReset s
  | .flashResponseTimeout => Sys2Proof.Machine.execFlashResponseTimeout s
  | .recover n image blown => Sys2Proof.Machine.execRecover n image blown s
  | .measExtend m n x => Sys2Proof.Machine.execMeasExtend m n x s
  | .getMeasurements path ok => Sys2Proof.Machine.execGetMeasurements path ok s
  | .debugNonceRequest path nonce => Sys2Proof.Machine.execDebugNonceRequest path nonce s
  | .debugToken path token => Sys2Proof.Machine.execDebugToken path token s
  | .tokenExpiry => Sys2Proof.Machine.execTokenExpiry s
  | .freeze => Sys2Proof.Machine.execFreeze s
  | .bypass bit => Sys2Proof.Machine.execBypass bit s
  | .idcode => Sys2Proof.Machine.execIdcode s
  | .scanrd die => Sys2Proof.Machine.execScanrd die s
  | .scanwr die data => Sys2Proof.Machine.execScanwr die data s
  | .profilerGrant f kind clusters on => Sys2Proof.Machine.execProfilerGrant f kind clusters on s
  | .weightStoreRefresh die => Sys2Proof.Machine.execWeightStoreRefresh die s
  | .traceSample cid => Sys2Proof.Machine.execTraceSample cid s
  | .droopBudgetReset core => Sys2Proof.Machine.execDroopBudgetReset core s
  | .patrolScrub m fixed lines => Sys2Proof.Machine.execPatrolScrub m fixed lines s
  | .registerWrite kind v => Sys2Proof.Machine.execRegisterWrite kind v s
  | .softError kind a b c => Sys2Proof.Machine.execSoftError kind a b c s
  | .hostLinkUp port => Sys2Proof.Machine.execHostLinkUp port s
  | .cxlPortUp port cap => Sys2Proof.Machine.execCxlPortUp port cap s
  | .vexpenPortUp port => Sys2Proof.Machine.execVexpenPortUp port s
  | .hostCompletionArrival n kind bytes => Sys2Proof.Machine.execHostCompletionArrival n kind bytes s
  | .cxlMemResponse l poison => Sys2Proof.Machine.execCxlMemResponse l poison s
  | .flashReadComplete ok data blown => Sys2Proof.Machine.execFlashReadComplete ok data blown s
  | .finalCopyAck f ok pool => Sys2Proof.Machine.execFinalCopyAck f ok pool s
  | .lifecycleFuseTransition state => Sys2Proof.Machine.execLifecycleFuseTransition state s
  | .uetRetransmit => Sys2Proof.Machine.execUetRetransmit s
  | .linkLevelRetry => Sys2Proof.Machine.execLinkLevelRetry s
  | .slotLanding core id => Sys2Proof.Machine.execSlotLanding core id s
  | .walkComplete cid => Sys2Proof.Machine.execWalkComplete cid s
  | .blockFetchComplete cid => Sys2Proof.Machine.execBlockFetchComplete cid s
  | .signatureComplete => Sys2Proof.Machine.execSignatureComplete s

end Sys2Proof.Machine
end

