-- ==== Sys2Proof/Machine/Issue.lean ====
section
/-! DEFINITION. How a context issues (R45, R188, R393, R466), and what a frozen package does (R389, R462, R464). -/

namespace Sys2Proof.Machine

/-- An outcome after which the context has not come past the instruction, though it could issue: it was not otherwise ready (R240). One
that loops back to its own address has taken a pass of its loop. -/
def State.idles (s : State) (o : Host.Outcome State Fault Refusal) : Bool :=
  match o with
  | .next t => (t.ctx s.cur).ready && (t.ctx s.cur).pc = s.me.pc && (t.ctx s.cur).loops = s.me.loops
  | _ => false

/-- The droop governor acts on a vector instruction that will read its sources, in the cycles in which the context is otherwise ready
(R240). -/
def State.governor (s : State) (i : Instr) : State :=
  match i.op, i.parts with
  | some op, some (h, o, _) =>
    if op.vectorClass && s.me.predicate h && stateReject op (dynReject op o s) s.cur s.me = none && !s.idles (exec i s) then s.droop op o else s
  | _, _ => s

/-- The time of a step, in which a die scheduler also takes a graph node that waits in a queue (R181). -/
def State.pass (s : State) : State := s.tick.runNodes

/-- The bits of an instruction that issue: fetched, decoded, and run, or the cause that stops it. -/
def issueWord (d : Decoded) (s : State) : Host.Outcome State Fault Refusal :=
  match d.reject, d.instr with
  | none, some i => exec i (s.governor i)
  | _, _ => s.rejectWord d

/-- The current context issues (R45): a pending asynchronous cause first (R393), then fetch (R466, R188), then decode. -/
def issueCur (s : State) : Host.Outcome State Fault Refusal :=
  if s.atBoundary s.cur && s.takesAsync s.cur then .next (s.takeAsync s.cur)
  else if !s.me.ready then .next s
  else
    match s.fetchAt s.cur with
    | .word w => issueWord (decodeWord w) s
    | .out o => o

/-- What still acts in a frozen package, whose clocks stand (R389, R462): the 1149.1 port, the token's expiry, and reset. -/
def underFreeze : Instr → Bool
  | .scanrd _ => true
  | .scanwr _ _ => true
  | .idcode => true
  | .bypass _ => true
  | .tokenExpiry => true
  | .packageReset => true
  | _ => false

/-- A step of a frozen package: its state is held. -/
def frozenStep (s : State) : Host.Outcome State Fault Refusal :=
  match s.agenda with
  | .event i :: r => if underFreeze i then exec i { s with agenda := r } else .next { s with agenda := r }
  | _ :: r => .next { s with agenda := r }
  | [] => .next s

end Sys2Proof.Machine
end

