-- ==== Sys2Proof/Machine/Step.lean ====
section
/-! DEFINITION. One step: time passes, and the turn at the head of the agenda takes place (a context issues, or an event of
the table); with no turn listed the current context issues. -/

namespace Sys2Proof.Machine

/-- One step of the package. -/
def step (s : State) : Host.Outcome State Fault Refusal :=
  if s.birhiry.frozen then frozenStep s
  else
    match s.agenda with
    | [] => issueCur s.pass
    | .issue c :: r => issueCur { s.pass with cur := c, agenda := r }
    | .event i :: r => if i.op = none then exec i { s.pass with agenda := r } else .next { s.pass with agenda := r }

/-- The bytes of an instruction of `nbits` bits, the bits above being zero, up to the longest instruction. -/
def tableBytes (nbits w : Nat) : List Byte := toBytes 32 (w % 2 ^ nbits)

/-- The machine about to fetch an instruction: the control context of compute core 0 is live at 0x1000, and the block that
holds that address has been fetched with the instruction at its start. It stands for the load and launch of a program
(DESIGN CHOICE, log 1). -/
def State.withFetchWord (s : State) (nbits w : Nat) : State :=
  let c := s.ctx 0
  let k := s.tlbKey 0
  let x := s.core k
  let s1 := s.setCtx 0 { c with pc := 0x1000, life := .live, wait := .none, stopped := false, away := none, pend := [] }
  { s1.setCore k { x with blocks := tins x.blocks (blockKey (s.rootFor 0) 0x1000) (tableBytes nbits w) } with
    cur := 0, agenda := [], birhiry := { s.birhiry with frozen := false } }

end Sys2Proof.Machine
end

