-- ==== Sys2Proof/Safety.lean ====
section
/-! DEFINITION. What the claims speak of: safe runs, a state whose memory is in canonical form, and when an instruction takes
its effect. -/

namespace Sys2Proof

/-- A run of n steps from a state stops with no fault and no refusal. -/
def SafeFor (n : Nat) (s : Machine.State) : Prop := ∃ t, core.run n s = .next t

/-- No run from a state ever stops with a fault or a refusal. -/
def Safe (s : Machine.State) : Prop := ∀ n, SafeFor n s

namespace Machine

/-- Memory is in canonical form. -/
def State.Canonical (s : State) : Prop := Memory.wf s.mem = true

/-- An instruction that issues takes its effect: the context is ready (R45), it is at home or the instruction needs no home
resources (R82), no MMA holds the vector unit that it needs (R158), every check of R204 passes, its predicate is true (R199), and no word of the
constant window that it reads holds an uncorrectable error (R427). -/
abbrev Goes (i : Op) (h : Hdr) (o : Ops) (home : Bool) (s : State) : Prop :=
  s.me.ready = true ∧ (s.me.away = none ∨ home = false) ∧ (vectorUnit i && isControl s.cur && s.myCore.vpath.isSome) = false
    ∧ stateReject i (dynReject i o s) s.cur s.me = none ∧ privileged i o.k s.cur s.me = false ∧ s.me.predicate h = true
    ∧ s.badConst [o.a, o.b, o.c] = none

/-- As `Goes`, for an instruction whose format has no operands of formats A, I and W. -/
abbrev GoesPlain (i : Op) (h : Hdr) (home : Bool) (s : State) : Prop :=
  s.me.ready = true ∧ (s.me.away = none ∨ home = false) ∧ stateReject i none s.cur s.me = none ∧ s.me.predicate h = true

/-- No watchpoint of the core matches loads or stores, so that no access ends in WATCH, a trace record or a stop (R385). -/
abbrev State.unwatched (s : State) : Prop := ∀ w, w < 4 → bits (tget 0 s.myCore.wctl w).toNat 5 2 = 0

end Machine

end Sys2Proof
end

