-- ==== Sys2Proof/Certificates/Slice0/Obligations.lean ====
section
/-! DEFINITION. The statements for the provers, each a proposition about the machine, from the numbered rules of the spec. -/

/-! ## Vocabulary -/

namespace Sys2Proof.Claims

open Sys2Proof Sys2Proof.Machine

/-- An instruction of format A or I that takes its effect, where a condition on its operands and the state holds, retires in
sequence with the effect given: the machine answers that very state. -/
def Completes (i : Op) (mk : Hdr → Ops → Instr) (home : State → Ops → Bool) (cond : Ops → State → Prop)
    (eff : Ops → State → State) : Prop :=
  ∀ h o s, Goes i h o (home s o) s → cond o s → exec (mk h o) s = .next ((eff o s).after i (lenOf i h o))

/-- As `Completes`, for format W. -/
def CompletesW (i : Op) (mk : Hdr → Ops → Ext → Instr) (cond : Ops → Ext → State → Prop)
    (eff : Ops → Ext → State → State) : Prop :=
  ∀ h o x s, Goes i h o true s → cond o x s → exec (mk h o x) s = .next ((eff o x s).after i (lenOf i h o))

/-- An instruction that takes its effect, where a condition holds, is on its way: it has begun, and its context waits at it in
the state given until an event of the machine brings the answer. -/
def Waits (i : Op) (mk : Hdr → Ops → Instr) (home : State → Ops → Bool) (cond : Ops → State → Prop) (eff : Ops → State → State) : Prop :=
  ∀ h o s, Goes i h o (home s o) s → cond o s →
    exec (mk h o) s = .next ((eff o s).setMe { (eff o s).me with wlen := if (eff o s).me.wait = .none then (eff o s).me.wlen else lenOf i h o })

/-- An instruction that passes its checks and whose predicate holds raises an exact cause. -/
def Traps (i : Op) (mk : Hdr → Ops → Instr) (home : State → Ops → Bool) (cond : Ops → State → Prop) (cause : Nat) (val : Ops → State → Word) :
    Prop :=
  ∀ h o s, Goes i h o (home s o) s → cond o s →
    exec (mk h o) s = .next (s.takeTrap s.cur .exact cause (lenOf i h o / 4) s.me.pc (val o s))

/-- Home resources are needed for a constant-window operand alone. -/
def byCw (_ : State) (o : Ops) : Bool := o.usesCw
/-- Home resources are needed. -/
def atHome (_ : State) (_ : Ops) : Bool := true
/-- Home resources are needed for a local address. -/
def byAddr (s : State) (o : Ops) : Bool := s.localAddr o
/-- No condition. -/
def always (_ : Ops) (_ : State) : Prop := True

/-- The turn that step gives a context: the state at which it issues, with the time passed and the agenda moved on. -/
def Turn (s t : State) : Prop :=
  s.birhiry.frozen = false ∧
    ((s.agenda = [] ∧ t = s.pass) ∨ ∃ c r, s.agenda = .issue c :: r ∧ t = { s.pass with cur := c, agenda := r })

/-- The bits that a context's fetch finds at its pc. -/
def fetched (bs : List Byte) (pc : Word) : Nat := ofBytes ((bs.drop (pc.toNat % 32)).take 16)

/-- A state and another agree in everything but one context. -/
def OnlyCtx (cid : Nat) (s t : State) : Prop := t = { s with ctxs := t.ctxs } ∧ ∀ d, d ≠ cid → t.ctx d = s.ctx d

/-- Nothing but a die's own state, as its scan chain holds it, and the port's record of the chain differ. -/
def ScansDie (d : Nat) (s t : State) : Prop :=
  t = { s with birhiry := t.birhiry, agenda := t.agenda, dies := t.dies, cores := t.cores, ctxs := t.ctxs, clusters := t.clusters } ∧
    (∀ e, e ≠ d → t.die e = s.die e) ∧ (∀ k, k ∉ dieCores d → t.core k = s.core k) ∧ (∀ k, k ∉ dieCtxs d → t.ctx k = s.ctx k) ∧
    ∀ k, k ∉ dieClusters d → t.cluster k = s.cluster k

/-- The W low bits of a word. -/
abbrev lowBits (w : Nat) (x : Word) : BitVec w := x.setWidth w

/-- An integer rule on W-bit operands, at each type that the instruction admits (R223): under I64 the result is the 64 bits, under I32 it
is sign-extended, under U32 zero-extended. -/
def IntRuleO (i : Op) (mk : Hdr → Ops → Instr) (f : Ops → (w : Nat) → BitVec w → BitVec w → BitVec w → BitVec w) : Prop :=
  ∀ h o s, Goes i h o o.usesCw s → i.row.t.contains o.t = true →
    let x := s.arg o.a
    let y := s.arg o.b
    let z := s.arg o.c
    let r32 := f o 32 (lowBits 32 x) (lowBits 32 y) (lowBits 32 z)
    (o.t = .i64 → exec (mk h o) s = .next ((s.setS o.d (f o 64 x y z)).after i (lenOf i h o))) ∧
    (o.t = .i32 → exec (mk h o) s = .next ((s.setS o.d (r32.signExtend 64)).after i (lenOf i h o))) ∧
    (o.t = .u32 → exec (mk h o) s = .next ((s.setS o.d (r32.zeroExtend 64)).after i (lenOf i h o)))

/-- An integer rule that depends on the operands and their width alone. -/
abbrev IntRule (i : Op) (mk : Hdr → Ops → Instr) (f : (w : Nat) → BitVec w → BitVec w → BitVec w → BitVec w) : Prop :=
  IntRuleO i mk fun _ => f

/-- A signed number clamped to w bits. -/
def clampS (w : Nat) (r : Int) : BitVec w := BitVec.ofInt w (max (-(2 ^ (w - 1))) (min (2 ^ (w - 1) - 1) r))

/-- The conditions of BRC (R194) on 64-bit values. -/
def brcRule (cnd : Nat) (a b : Word) : Bool :=
  match cnd with
  | 0 => a == b
  | 1 => a != b
  | 2 => a.slt b
  | 3 => b.sle a
  | 4 => a.sle b
  | 5 => b.slt a
  | 6 => a.ult b
  | 7 => b.ule a
  | 8 => a.ule b
  | 9 => b.ult a
  | 10 => a.getLsbD (b.toNat % 64)
  | _ => !a.getLsbD (b.toNat % 64)

/-- Where control goes to a target: there, with an effect, or to MISALIGN where bits [1:0] are not zero (R232). -/
def GoesTo (i : Op) (len : Nat) (s : State) (t : Word) (eff : State) (out : Out) : Prop :=
  (t.toNat % 4 = 0 → out = .next (eff.jumped i t)) ∧
    (t.toNat % 4 ≠ 0 → out = .next (s.takeTrap s.cur .exact 0x0A (len / 4) s.me.pc t))

/-- The high half of a double-width product. -/
def highHalf (w : Nat) (x y : BitVec (2 * w)) : BitVec w := (x * y).extractLsb' w w

/-- The condition that FN names, on W-bit operands (R227). -/
def cmpRule (signed : Bool) (fn w : Nat) (x y : BitVec w) : Bool :=
  match fn with
  | 0 => x == y
  | 1 => x != y
  | 2 => if signed then x.slt y else x.ult y
  | 3 => if signed then y.sle x else y.ule x
  | 4 => if signed then x.sle y else x.ule y
  | 5 => if signed then y.slt x else y.ult x
  | 6 => x.getLsbD (y.toNat % w)
  | _ => !x.getLsbD (y.toNat % w)

/-- What an instruction of the scalar families leaves alone where it takes its effect: all of the package but its context, every byte of
memory, and in the context everything but one register, one predicate, the pc and the loop levels that its retirement moves. -/
def ScalarFrameOf (sd pd : Nat) (s t : State) : Prop :=
  OnlyCtx s.cur s t ∧ (∀ l, readByte t.mem l = readByte s.mem l) ∧ (∀ n, n ≠ sd → t.me.sreg n = s.me.sreg n) ∧
    (∀ n, n ≠ pd → t.me.preg n = s.me.preg n) ∧ t.me.stat = s.me.stat ∧ t.me.xpc = s.me.xpc ∧ t.me.xcause = s.me.xcause ∧
    t.me.xval = s.me.xval ∧ t.me.fmtd = s.me.fmtd ∧ t.me.saved = s.me.saved ∧ t.me.view = s.me.view ∧ t.me.own = s.me.own ∧
    t.me.lock = s.me.lock

/-- The scalar integer and scalar FP32 instructions: majors 0x10 to 0x31 and 0x38 to 0x41. -/
def scalarOp (i : Op) : Bool := (0x10 ≤ i.row.op && i.row.op ≤ 0x31) || (0x38 ≤ i.row.op && i.row.op ≤ 0x41)

/-- The instructions that write a predicate. -/
def comparing (i : Op) : Bool := i = .cmp || i = .cmpu || i = .fcmp

/-- A load from an address that passes its checks and lies where the answer is at hand: local memory, cluster shared memory as the context's
view holds it, or the weight store outside its refresh window (R244, R84, R74); the location and the bytes. -/
def AtHand (s : State) (p n al : Nat) (l : Nat) (bs : List Byte) : Prop :=
  (∃ off, s.access s.cur p al .load = .loc off ∧ l = locLocal (coreNo s.cur) off ∧ bs = s.readLocal (coreNo s.cur) off n) ∨
  (s.access s.cur p al .load = .shared l ∧ bs = s.me.seeBytes l n) ∨
  (s.access s.cur p al .load = .weight l ∧ s.refreshingAny l n = false ∧ bs = readBytes s.mem l n)

/-- An atomic of one value on local memory: the new value from the old one, sC and sD, performed as it issues; the old value goes to sD
extended as T says (R249, R250). -/
def AtomicRule (i : Op) (mk : Hdr → Ops → Instr) (f : Ops → (w : Nat) → BitVec w → BitVec w → BitVec w → BitVec w) : Prop :=
  ∀ h o s off, Goes i h o (s.localAddr o) s → s.access s.cur (s.addr o).toNat (sizeT o.t) .atomic = .loc off →
    s.atomicMay s.cur = true → s.unwatched → s.poisoned (locLocal (coreNo s.cur) off) (sizeT o.t) = false →
    let l := locLocal (coreNo s.cur) off
    let old (w : Nat) : BitVec w := BitVec.ofNat w (readNat s.mem l (w / 8))
    let new (w : Nat) : BitVec w := f o w (old w) (lowBits w (s.arg o.c)) (lowBits w (s.me.sreg o.d))
    (o.t = .i64 → exec (mk h o) s = .next (((s.poke l (toBytes 8 (new 64).toNat)).setS o.d (old 64)).after i (lenOf i h o))) ∧
    (o.t = .i32 → exec (mk h o) s =
      .next (((s.poke l (toBytes 4 (new 32).toNat)).setS o.d ((old 32).signExtend 64)).after i (lenOf i h o))) ∧
    (o.t = .u32 → exec (mk h o) s =
      .next (((s.poke l (toBytes 4 (new 32).toNat)).setS o.d ((old 32).zeroExtend 64)).after i (lenOf i h o)))

/-- A state with its context's wait noted: the length of the instruction at which it waits. -/
def waiting (s : State) (len : Nat) : State := s.setMe { s.me with wlen := if s.me.wait = .none then s.me.wlen else len }

/-- A store to cluster shared or global memory at issue (R90, R402): it waits in its context's own stores under the journal entry that was opened and is
on its way to its home; with no entry FREE the instruction stays at issue. -/
def DefersStore (i : Op) (mk : Hdr → Ops → Instr) (al : Ops → Nat) (bytes : Ops → State → List Byte) : Prop :=
  ∀ h o s, Goes i h o (s.localAddr o) s →
    let p := (s.addr o).toNat
    (∀ l, s.access s.cur p (al o) .store = .shared l →
      (∀ j s1, s.openEntry 0 p = some (j, s1) → s1.unwatched →
        exec (mk h o) s = .next ((s1.post j p l 0 (bytes o s)).after i (lenOf i h o))) ∧
      (s.openEntry 0 p = none → exec (mk h o) s = .next (waiting s (lenOf i h o)))) ∧
    ∀ l e, s.access s.cur p (al o) .store = .global l e →
      (∀ j s1, (s.touchTlb s.cur e).openEntry 0 p = some (j, s1) → s1.unwatched →
        exec (mk h o) s = .next ((s1.post j p l e.pte (bytes o s)).after i (lenOf i h o))) ∧
      ((s.touchTlb s.cur e).openEntry 0 p = none → exec (mk h o) s = .next (waiting (s.touchTlb s.cur e) (lenOf i h o)))

/-- What an atomic carries to its home. -/
def requestOf (k : AtomicKind) (o : Ops) (s : State) (l pte : Nat) : AtomicReq :=
  { kind := k, t := o.t, ptr := (s.addr o).toNat, loc := l, y := if k = .fadd then word (s.argF o.c) else s.arg o.c, cmp := s.me.sreg o.d, d := o.d,
    rm := o.rm, pte := pte }

/-- An atomic with a result at issue (R92): it waits for its home, which joins the destinations of its core's traffic (R101). -/
def travels (k : AtomicKind) (i : Op) (h : Hdr) (o : Ops) (s t : State) (l pte : Nat) : Out :=
  .next (waiting ((t.setMe { t.me with wait := .atomic (requestOf k o s l pte) }).addDest t.cur (destOf l)) (lenOf i h o))

/-- An atomic with a result on cluster shared memory, which LLK and SUL reach too; LLK has given up the lock bit that its context held (R94). -/
def TravelsShared (i : Op) (mk : Hdr → Ops → Instr) (k : AtomicKind) (ak : AKind) (size : Ops → Nat) : Prop :=
  ∀ h o s l, Goes i h o (s.localAddr o) s → s.access s.cur (s.addr o).toNat (size o) ak = .shared l →
    exec (mk h o) s = travels k i h o s (if k = .llk then s.dropLock s.cur else s) l 0

/-- An atomic with a result on cluster shared or global memory. -/
def AtomicTravels (i : Op) (mk : Hdr → Ops → Instr) (k : AtomicKind) (size : Ops → Nat) : Prop :=
  TravelsShared i mk k .atomic size ∧
  ∀ h o s l e, Goes i h o (s.localAddr o) s → s.access s.cur (s.addr o).toNat (size o) .atomic = .global l e →
    exec (mk h o) s = travels k i h o s (s.touchTlb s.cur e) l e.pte

/-- An atomic without a result on cluster shared or global memory at issue (R92, R402): a posted operation under the journal entry that was opened, of
kind 1; with no entry FREE it stays. -/
def AtomicPosted (i : Op) (mk : Hdr → Ops → Instr) (k : AtomicKind) : Prop :=
  ∀ h o s, Goes i h o (s.localAddr o) s →
    let p := (s.addr o).toNat
    let out := exec (mk h o) s
    (∀ l, s.access s.cur p 64 .atomic = .shared l →
      (∀ j s1, s.openEntry 1 p = some (j, s1) → s1.unwatched → out = .next ((s1.postCell j (requestOf k o s l 0)).after i (lenOf i h o))) ∧
      (s.openEntry 1 p = none → out = .next (waiting s (lenOf i h o)))) ∧
    ∀ l e, s.access s.cur p 64 .atomic = .global l e →
      (∀ j s1, (s.touchTlb s.cur e).openEntry 1 p = some (j, s1) → s1.unwatched →
        out = .next ((s1.postCell j (requestOf k o s l e.pte)).after i (lenOf i h o))) ∧
      ((s.touchTlb s.cur e).openEntry 1 p = none → out = .next (waiting (s.touchTlb s.cur e) (lenOf i h o)))

/-- Bytes [l, l+n) hold the number v, and every other byte is as before. -/
def Stored (s t : State) (l n v : Nat) : Prop :=
  (∀ k, k < n → readByte t.mem (l + k) = BitVec.ofNat 8 (v / 256 ^ k)) ∧
    ∀ a, a < l ∨ l + n ≤ a → readByte t.mem a = readByte s.mem a

/-- The physical register that a vector field names in a state (R238). -/
def phys (s : State) (n : Nat) : Nat := rotate s.me.loops n

/-- Lane e of a core's physical vector register. -/
def laneNow (s : State) (w n e : Nat) : Nat := (lanesOf w (1024 / w) (tget 0 s.myCore.v n).toNat).getD e 0

/-- What an instruction that writes some vector registers alone leaves: every byte of memory, every other context, every other vector
register, and the scalars, predicates and exception registers of its own context. -/
def VecOnly (ds : List Nat) (s t : State) : Prop :=
  (∀ l, readByte t.mem l = readByte s.mem l) ∧ (∀ d, d ≠ s.cur → t.ctx d = s.ctx d) ∧ t.cur = s.cur ∧
    (∀ n, n ∉ ds.map (phys s) → tget 0 t.myCore.v n = tget 0 s.myCore.v n) ∧ t.myCore.k = s.myCore.k ∧
    (∀ c, c ≠ coreKey s.cur → t.core c = s.core c) ∧ (∀ n, t.me.sreg n = s.me.sreg n) ∧ t.me.p = s.me.p ∧ t.me.fmtd = s.me.fmtd ∧
    t.me.xpc = s.me.xpc ∧ t.me.xcause = s.me.xcause ∧ t.me.xval = s.me.xval ∧ t.me.mode = s.me.mode ∧ t.me.ie = s.me.ie

/-- An instruction that writes vD lane by lane: it completes, each active lane holds the value that the rule gives for it, and each inactive
lane is kept or zeroed as K[4] says (R279); nothing else changes. -/
def LaneRule (i : Op) (mk : Hdr → Ops → Instr) (ty : State → Ops → TCode) (f : State → Ops → Nat → Nat) : Prop :=
  ∀ h o s, Goes i h o true s →
    ∃ t, exec (mk h o) s = .next t ∧ VecOnly [o.d] s t ∧
      ∀ e, e < 1024 / (ty s o).laneW → laneNow t (ty s o).laneW (phys s o.d) e =
        if s.active o.k e then f s o e % 2 ^ (ty s o).laneW
        else if bitOf o.k 4 then 0 else laneNow s (ty s o).laneW (phys s o.d) e

/-- Lane e of a source of a vector instruction. -/
def src (s : State) (w : Nat) (a : Arg) (e : Nat) : Nat := (s.lanes w a).getD e 0

/-- A vector arithmetic instruction: the element result of R282 in every active lane. -/
def ArithRule (i : Op) (mk : Hdr → Ops → Instr) : Prop :=
  LaneRule i mk (fun s o => s.laneType o) (fun s o e =>
    let w := (s.laneType o).laneW
    laneOp i (s.laneType o) o.rm o.sat (src s w o.a e) (src s w o.b e) (src s w o.c e))

/-- An integer element rule at every integer lane type: the result of R282 is the rule's on w-bit lanes. -/
def IntLane (i : Op) (f : TCode → (w : Nat) → BitVec w → BitVec w → BitVec w → BitVec w) : Prop :=
  ∀ (t : TCode) (rm : Rnd) (x y z : Nat), t ∈ [TCode.i8, .u8, .i16, .u16, .i32, .u32] →
    x < 2 ^ t.laneW → y < 2 ^ t.laneW → z < 2 ^ t.laneW →
    laneOp i t rm false x y z = (f t t.laneW (BitVec.ofNat _ x) (BitVec.ofNat _ y) (BitVec.ofNat _ z)).toNat

/-- An instruction that writes a lane mask and nothing else. -/
def MaskRule (i : Op) (mk : Hdr → Ops → Instr) (f : State → Ops → Nat → Bool) : Prop :=
  ∀ h o s, Goes i h o true s → ∃ t, exec (mk h o) s = .next t ∧ (∀ l, readByte t.mem l = readByte s.mem l) ∧
    t.myCore.v = s.myCore.v ∧ (∀ n, n ≠ o.d → tget 0 t.myCore.k n = tget 0 s.myCore.k n) ∧
    (∀ n, t.me.sreg n = s.me.sreg n) ∧ t.me.p = s.me.p ∧ ∀ e, e < 128 → (tget 0 t.myCore.k o.d).getLsbD e = f s o e

/-- The lanes of an access that all complete (R295, R400): the base pointer is the core's, and no active lane meets a cause. -/
def LanesPass (s : State) (p n : Nat) (st : Bool) (al : Nat) (act : List Bool) (offs : List Int) : Prop :=
  (act.any id = true → badPtr s.cur p = none) ∧ s.scanLanes p n st al act offs = { upto := act.length, cause := none }

/-- The local offsets of lanes at a base pointer and a step. -/
def strided (p : Nat) (step : Int) (n : Nat) : List Int := (List.range n).map fun (e : Nat) => localBase p + e * step

/-- A load of lanes from local memory into vD. -/
def VecLoad (o : Ops) (offs : List Int) (s t : State) : Prop :=
  let w := o.t.laneW
  VecOnly [o.d] s t ∧ ∀ e, e < 1024 / w → laneNow t w (phys s o.d) e =
    if s.active o.k e then TCode.held o.t (s.localNat (coreNo s.cur) (offs.getD e 0) (w / 8)) % 2 ^ w
    else if bitOf o.k 4 then 0 else laneNow s w (phys s o.d) e

/-- A store of active lanes to local memory: their bytes, in lane order, and no other byte. -/
def VecStore (o : Ops) (offs : List Int) (s t : State) : Prop :=
  let w := o.t.laneW
  let base := locLocal (coreNo s.cur) 0
  let l (e : Nat) : Nat := base + (offs.getD e 0).toNat
  (∀ a, (∀ e, e < 1024 / w → s.active o.k e = true → a < l e ∨ l e + w / 8 ≤ a) → readByte t.mem a = readByte s.mem a) ∧
  (∀ e k, e < 1024 / w → s.active o.k e = true → k < w / 8 →
    (∀ e', e < e' → e' < 1024 / w → s.active o.k e' = true → l e + k < l e' ∨ l e' + w / 8 ≤ l e + k) →
    readByte t.mem (l e + k) = BitVec.ofNat 8 (TCode.held o.t (laneNow s w (phys s o.c.num) e) / 256 ^ k)) ∧
  t.myCore.v = s.myCore.v ∧ t.myCore.k = s.myCore.k ∧ (∀ n, t.me.sreg n = s.me.sreg n) ∧ t.me.p = s.me.p ∧ ∀ d, d ≠ s.cur → t.ctx d = s.ctx d

/-- No context of the core waits for a region that GLD loads, so that the region unit is free (R305). -/
def regionFree (_ : Ops) (s : State) : Prop := s.regionBusy s.cur = false

/-- A region instruction takes its effect: as any instruction, and the region unit is free. -/
abbrev GoesG (i : Op) (h : Hdr) (o : Ops) (s : State) : Prop := Goes i h o true s ∧ s.regionBusy s.cur = false

/-- A region instruction that writes gD completes: gD is the context's, its exact result with the lattice and the flags of `r` rounds to `y`,
and gD receives it, owned by the context (R110, R306). -/
def RegionResult (i : Op) (h : Hdr) (o : Ops) (s : State) (bl gr : Nat) (r : Region) (exact : List Box) (out : Out) : Prop :=
  s.ownsRegion o.d = true →
    (∀ y, roundRegion bl (s.gdir gr) r exact = .inr y →
      out = .next ((s.setRegion o.d { y with owner := ctxNo s.cur }).after i (lenOf i h o))) ∧
    (∀ n, roundRegion bl (s.gdir gr) r exact = .inl n → out = .next (s.takeTrap s.cur .exact 0x0C (lenOf i h o / 4) s.me.pc (word n)))

/-- An instruction that reads region registers alone and writes sD. -/
def RegionRead (i : Op) (mk : Hdr → Ops → Instr) (f : Ops → State → Region → Word) : Prop :=
  Completes i mk atHome regionFree (fun o s => s.setS o.d (f o s (s.region s.cur o.a.num)))

/-- A new region of a record: its rank, the unit lattice, no flag. -/
def newRegion (n rank : Nat) : Region := { Region.init with tsr := n, rank := rank, lat := List.replicate rank (0, 0) }

/-- A transfer that passes its checks (R252, R253, R433, R397): both records bound, of one format, with a kind of core and windows that admit
it, the destination not read-only, and no point and no count offset with a cause. -/
def TransferPasses (k : XKind) (o : Ops) (x : Ext) (s : State) (src dst : Tsr) : Prop :=
  let g := s.region s.cur o.a.num
  s.tsr s.cur x.t2 = some src ∧ s.tsr s.cur x.t1 = some dst ∧ src.fmt = dst.fmt ∧
    (isMemCore s.cur && (k = .get || k = .mma || k = .cnt)) = false ∧ dst.ro = false ∧
    s.baseCause k true dst.base = none ∧ s.baseCause k false src.base = none ∧
    s.pointsCause src dst (pointsOf g.lattice g.canonical) = none ∧
    countCause (if k = .cnt then bits x.imm 0 17 else 0) dst.base = none

/-- The groups of a ragged record whose lengths a clip of boxes reads (R434). -/
def clipGroups (a : Region) (bs : List Box) (t : Tsr) : List Nat := if t.ragged && 2 ≤ a.rank then t.groupsOf { a with boxes := bs } else []

/-- The transfer that a queue holds once it is placed (R108, R116, R252). -/
def transferOf (k : XKind) (o : Ops) (x : Ext) (s : State) (src dst : Tsr) : Transfer :=
  let g := s.region s.cur o.a.num
  { tag := coreKey s.cur * 2 ^ 32 + s.myCore.nextId, kind := k, src := src, dst := dst, dstIdx := x.t1, lat := g.lattice, boxes := g.canonical, todo := pointsOf g.lattice g.canonical,
    landed := 0, adv := if k = .mma then some (o.d, bits x.imm 0 8 / 16) else if o.mx % 2 = 1 then some (o.d, x.imm) else none,
    count := if k = .cnt then bits x.imm 0 17 else 0, mma := none, vals := none, announced := false, watch := false, mode := s.me.mode,
    pd := (s.myLaunch s.cur).pd, root := s.space s.cur, parked := [], failed := none, dropped := [] }

/-- A transfer instruction completes: the transfer is the newest entry of its queue under the journal entry that was opened, and stands in
the outstanding-transfer table (R95, R117, R402); nothing has landed. -/
def TransferRule (i : Op) (mk : Hdr → Ops → Ext → Instr) (k : XKind) : Prop :=
  ∀ h o x s src dst j s1, Goes i h o true s → TransferPasses k o x s src dst → s.isHeld k dst.base = false →
    s.myCore.outst.length < 32 → s.openEntry 2 dst.base = some (j, s1) →
    let s2 := s1.enqueue x.q (.xfer (transferOf k o x s src dst)) j
    let c := s2.1.myCore
    let g := s.region s.cur o.a.num
    exec (mk h o x) s = .next ((s2.1.setMyCore { c with
      outst := c.outst ++ [⟨dst.base, (hullBox g.lattice g.boxes).getD [], x.q, s2.2⟩] }).after i (lenOf i h o))

/-- A send of a phased launch that the exchange phase moves (R254): its core holds it under the journal entry that was opened, with its place in its
context's program order (R86). One of a core
that has arrived already has read its source. -/
def HeldRule (i : Op) (mk : Hdr → Ops → Ext → Instr) (k : XKind) : Prop :=
  ∀ h o x s src dst j s1, Goes i h o true s → TransferPasses k o x s src dst → s.isHeld k dst.base = true →
    s.openEntry 2 dst.base = some (j, s1) →
    let c := s1.myCore
    let t := transferOf k o x s src dst
    let vals := if (s1.ctx (16 * coreNo s1.cur)).phase = 2 then some (s1.captured t) else none
    let y : HeldSend := ⟨c.nextId, s1.cur, c.launch.getD 0, c.bdom, j,
      some { t with vals := vals, announced := (s1.dom (c.launch.getD 0) c.bdom).exchange }, none, s1.me.ops + 1⟩
    exec (mk h o x) s = .next (((s1.setMyCore { c with held := c.held ++ [y], nextId := c.nextId + 1 }).nextOp s1.cur).after i (lenOf i h o))

/-- A transfer that passes its checks waits at issue: the outstanding-transfer table is full, or no journal entry is FREE (R117, R402). -/
def TransferStays (i : Op) (mk : Hdr → Ops → Ext → Instr) (k : XKind) : Prop :=
  ∀ h o x s src dst, Goes i h o true s → TransferPasses k o x s src dst →
    (s.isHeld k dst.base = false ∧ 32 ≤ s.myCore.outst.length) ∨ s.openEntry 2 dst.base = none →
    exec (mk h o x) s = .next (waiting s (lenOf i h o))

/-- An instruction that places an entry in a queue of the core and goes on. -/
def Places (i : Op) (mk : Hdr → Ops → Instr) (cond : Ops → State → Prop) (q : Nat) (op : Ops → State → QOp) : Prop :=
  Completes i mk atHome cond (fun o s => (s.enqueue q (op o s) none).1)

/-- A posted token operation completes: an entry of qk under a journal entry of kind 4 (R344, R402). -/
def PostsToken (i : Op) (mk : Hdr → Ops → Instr) (cond : Ops → State → Prop) (op : Ops → State → QOp) : Prop :=
  ∀ h o s j s1, Goes i h o true s → seqCause (s.arg o.a).toNat = none → cond o s → s.openEntry 4 (s.arg o.a).toNat = some (j, s1) →
    exec (mk h o) s = .next ((s1.enqueue 3 (op o s) j).1.after i (lenOf i h o))

/-- A release point of the context that goes on at once: it has performed already, or nothing it must wait for is under way (R86, R93, R101). -/
def ReleasesNow (s : State) (scope : Nat) : Prop :=
  s.me.released = true ∨ s.mayRelease s.cur = true ∧ s.me.sprets = [] ∧ (s.retiring.any fun r => r.cid = s.cur) = false ∧
    (scope ≤ 1 → s.myCore.dests = [])

/-- What a release at a scope leaves: every store published, and at package or system scope no destination (R86, R101); nothing more where it has
performed already. -/
def released (s : State) (scope : Nat) : State :=
  if s.me.released then s.setMe { s.me with released := false } else
  let s1 := s.sendRetirements s.cur
  let s2 := s1.setMe { s1.me with wait := .release scope [] }
  let s3 := (s2.publishAll s2.cur scope).emptyDests s2.cur scope
  s3.setMe { s3.me with wait := .none, released := false }

/-- A release that drops its context's lock bit (R94). -/
def releasedDrop (s : State) (scope : Nat) : State := let t := released s scope; t.dropLock t.cur

/-- A release point that does not go on at once (R86, R93, R101, R102, R403): it waits to issue while something before it is under way, and a
release with destinations waits for their acknowledgements, its span retirements on their way. -/
def ReleaseWaits (i : Op) (mk : Hdr → Ops → Instr) (cond : Ops → State → Prop) (scope : State → Nat) : Prop :=
  ∀ h o s, Goes i h o true s → cond o s → s.me.released = false →
    (s.mayRelease s.cur = false → exec (mk h o) s = .next (waiting s (lenOf i h o))) ∧
    (s.mayRelease s.cur = true →
      let s1 := s.sendRetirements s.cur
      let ds := s1.releaseDests s1.cur (scope s)
      ds ≠ [] → exec (mk h o) s = .next (waiting (s1.setMe { s1.me with wait := .release (scope s) ds }) (lenOf i h o)))

/-- What an instruction leaves as it was, where it writes some scalar registers of its context and changes some other contexts: the contexts not
named, the predicates, STAT's MODE and IE, the exception registers, and its core's vector and mask registers. -/
def TaskFrame (sd cs : List Nat) (s t : State) : Prop :=
  t.cur = s.cur ∧ (∀ n, n ∉ sd → t.me.sreg n = s.me.sreg n) ∧ t.me.p = s.me.p ∧ t.me.mode = s.me.mode ∧ t.me.ie = s.me.ie ∧
    t.me.xpc = s.me.xpc ∧ t.me.xcause = s.me.xcause ∧ t.me.xval = s.me.xval ∧ (∀ d, d ≠ s.cur → d ∉ cs → t.ctx d = s.ctx d) ∧
    t.myCore.v = s.myCore.v ∧ t.myCore.k = s.myCore.k

/-- No byte of memory changes. -/
def MemSame (s t : State) : Prop := ∀ l, readByte t.mem l = readByte s.mem l

/-- A scalar register holds what was written to it, and s0 holds zero (R196). -/
def Holds (t : State) (n : Nat) (v : Word) : Prop := t.me.sreg n = if n = 0 then 0 else v

/-- No byte of memory changes outside COUNT and some entries of a heap. -/
def HeapFrame (s t : State) (off n : Nat) : Prop :=
  let b := locLocal (coreNo s.cur)
  ∀ a, a < b (off + 2) ∨ (b (off + 4) ≤ a ∧ a < b (off + 8)) ∨ b (off + 8) + 8 * n ≤ a → readByte t.mem a = readByte s.mem a

/-- What RQGET does with a range (R51, R274): the chunk [LO, min(LO + GRAIN, HI)), after which LO is its end; or, with LO at HI, the empty chunk, the range's
record COMPLETE and no range held. -/
def ChunkGives (d : Nat) (g : RangeTask) (s t : State) : Prop :=
  (g.lo < g.hi →
    let e := min (g.lo + g.grain) g.hi
    let s1 := if g.va = 0 then s else s.wrL (s.launchNo s.cur) (g.va + 0x10) 4 e
    t = s1.setMe (({ s1.me with range := some { g with lo := e } }).setGroup d [word g.lo, word e, g.code, g.frame])) ∧
  (g.hi ≤ g.lo →
    let s1 := if g.va = 0 then s else s.finishRec (s.launchNo s.cur) 1 g.va true
    t = s1.setMe (({ s1.me with range := none }).setGroup d [word g.hi, word g.hi, g.code, g.frame]))

/-- RQGET completes with a chunk of a range that its context holds or takes. -/
def GivesChunk (h : Hdr) (o : Ops) (g : RangeTask) (s1 : State) (out : Out) : Prop :=
  ∃ t, out = .next (t.after .rqget (lenOf .rqget h o)) ∧ ChunkGives o.d g s1 t

/-- A context whose search is over. -/
def found (s : State) : State := s.setMe { s.me with search := 0 }

/-- A core of a launch in task mode, or one of a phased launch whose helpers have ended (R44, R276). -/
def mayArrive (s : State) : Prop := (s.launchOf (s.launchNo s.cur)).phased = true → s.helpersLive (coreNo s.cur) = false

/-- A context that is no helper. -/
abbrev noHelper (s : State) : Prop := isHelper s.cur = false

/-- A record's home takes up the access of a task instruction: its translation has been used, and its walk marks its page (R79, R80). -/
def atHomeOf (s : State) (va : Nat) (e : TlbEntry) : State := (s.touchTlb s.cur e).markHomes (s.space s.cur) va 32

/-- A range task that a CANCEL has withdrawn (R184): its STATE is CANCELLED. -/
def withdrawn (s : State) (l va : Nat) : Prop := s.kindAt l va = 1 ∧ bits (s.rdL l (va + ctrlAt 1) 4) 4 2 = 3

/-- A context goes on with the instruction at which it waited, of the length that it noted: the instruction retires with an effect made. -/
def resumed (s : State) (cid : Nat) (eff : State → State) : State :=
  let s1 : State := { s with cur := cid }
  { (eff (s1.setMe { s1.me with wait := .none })).after .ld (s.ctx cid).wlen with cur := s.cur }

/-- A cell of an answer can be read: its home is there and its port is up. -/
def homeThere (s : State) (l : Nat) : Prop := s.lostLoc l = false ∧ s.portDown l = false

/-- No watchpoint of a context's core matches loads or stores (R385). -/
def unwatchedAt (s : State) (cid : Nat) : Prop := State.unwatched { s with cur := cid }

/-- Request n of a booted package is outstanding with a code. -/
def Requested (s : State) (n opc : Nat) (r : HostReq) : Prop := s.reqs[n]? = some r ∧ r.opc = opc ∧ s.birhiry.boot = 2

/-- A request on a path reaches the Birhiry core, which is not at work on a signature (R460); the mailbox serves no such request before boot (R377). -/
def Reaches (s : State) (path : Nat) : Prop := path = s.birhiry.dbgPath ∧ (path = 1 → s.birhiry.boot = 2) ∧ s.birhiry.busy = false

/-- No earlier transfer of a queue has still to land in the local memory that a transfer with a ring advance goes to (R98, R255). -/
def ringFree (s : State) (core q : Nat) (e : QEntry) (x : Transfer) : Prop :=
  x.adv.isSome = true → ∀ y ∈ (s.core core).ahead q e.id, ∀ z, y.op = .xfer z →
    ¬(spaceCode z.dst.base = 3 ∧ bits z.dst.base 36 12 = bits x.dst.base 36 12)

/-- The events of R153 that hold for a key of a cluster: 128 rows HELD, a deadline that has come, or an idle array with no other key HELD. -/
def keyDue (x : Cluster) (now : Nat) (k : WKey) : Prop :=
  128 ≤ ((x.setter.filter fun e => e.isHeld && e.key = k).map (·.rows)).sum ∨ (∃ e ∈ x.setter, e.isHeld = true ∧ e.key = k ∧ e.deadline ≤ now) ∨
    (x.running = none ∧ x.preload = none ∧ x.groups = [] ∧ ∀ e ∈ x.setter, e.isHeld = true → e.key = k)

/-- A pending asynchronous cause that a context may take: a journal-reported one only while no other context of its core holds one (R393). -/
def Takeable (s : State) (cid : Nat) (a : AsyncCause) : Prop :=
  a ∈ (s.ctx cid).pend ∧ (a.entry = none ∨ (s.core (coreKey cid)).jholder = none ∨ (s.core (coreKey cid)).jholder = some (ctxNo cid))

/-- The cause that R397 has a context take first: SOFT_ERROR, then increasing code; the journal-reported ones are one block at the place of their
lowest code, in the order in which they were refused. -/
def FirstOf (s : State) (cid : Nat) (a : AsyncCause) : Prop :=
  Takeable s cid a ∧
  ((∃ b, Takeable s cid b ∧ b.entry = none ∧ b.code = 0x19) → a.entry = none ∧ a.code = 0x19) ∧
  ((∀ b, Takeable s cid b → b.entry = none → b.code ≠ 0x19) →
    (a.entry = none → ∀ b, Takeable s cid b → a.code ≤ b.code) ∧
    (a.entry ≠ none → (∃ b, Takeable s cid b ∧ b.entry ≠ none ∧ ∀ c, Takeable s cid c → c.entry = none → b.code < c.code) ∧
      ∃ before after, (s.ctx cid).pend = before ++ a :: after ∧ ∀ b ∈ before, b.entry = none ∨ ¬Takeable s cid b))

/-- What taking an asynchronous cause leaves (R393, R394, R402): trap entry of kind 10 with ILEN 0 and XPC the next instruction's address, the cause
pending no more; a journal-reported one names its entry in XJRN, marks it REPORTED and holds the core; PREEMPT drops the lock bit (R94). No other
context changes, and no other byte of memory. -/
def AsyncEntry (s t : State) (cid : Nat) (a : AsyncCause) : Prop :=
  let c := s.ctx cid
  let d := t.ctx cid
  let k := coreKey cid
  d.xpc = c.pc ∧ d.xcause = word (a.code + 0x80) ∧ d.xval = a.val ∧ d.pend = c.pend.erase a ∧ d.pc = (s.core k).xbase + word (64 * a.code) ∧
  d.mode = 1 ∧ d.field 4 2 = 0 ∧ d.field 6 1 = 1 ∧ d.ie = false ∧ d.field 27 1 = (if c.field 26 1 = 1 then 1 else c.field 27 1) ∧
  d.saved = c.loops ∧ (∀ l ∈ d.loops, l.active = false) ∧ d.s = c.s ∧ d.p = c.p ∧ d.view = c.view ∧ d.own = c.own ∧
  (a.code = 0x1A → d.inPre = true ∧ d.lock = none) ∧
  (a.entry = none → (t.core k).xjrn = (s.core k).xjrn ∧ (t.core k).jholder = (s.core k).jholder ∧ t.mem = s.mem) ∧
  (∀ j, a.entry = some j → (t.core k).xjrn = word j ∧ (t.core k).jholder = some (ctxNo cid) ∧
    readByte t.mem (locLocal k (jrnOff j + 0x17)) = 3 ∧ ∀ l, l ≠ locLocal k (jrnOff j + 0x17) → readByte t.mem l = readByte s.mem l) ∧
  ∀ e, e ≠ cid → t.ctx e = s.ctx e

/-- What signalling entry i of a list does (R183, R175): nothing where it names no record, JOIN is at zero already or
a range task has been cancelled (R184); else JOIN goes down by one, and the
step to zero enqueues the record in the cluster that the entry names, while its launch is active, or ends the launch FAILED where that queue is full. -/
def EntrySignalled (l list i : Nat) (s t : State) : Prop :=
  let va := s.rdL l (list + 8 + 16 * i) 8
  let cl := s.rdL l (list + 16 + 16 * i) 2
  let join := s.rdL l (va + 0x10) 4
  let kind := s.kindAt l va
  let s0 := s.markHomes (s.rootOf l) va 32
  (va = 0 → t = s) ∧ (va ≠ 0 → join = 0 ∨ withdrawn s l va → t = s0) ∧
  (va ≠ 0 → 1 < join → ¬withdrawn s l va → t = s0.wrL l (va + 0x10) 4 (join - 1)) ∧
  (va ≠ 0 → join = 1 → kind ≠ 2 → ¬withdrawn s l va → (s.launchOf l).stage = 1 →
    let s1 := s0.wrL l (va + 0x10) 4 0
    let r := queued l va kind (bits (s.rdL l (va + ctrlAt kind) 4) 0 2)
    ((s1.cluster cl).room l r.prio = true → t = s1.arrive cl r) ∧ ((s1.cluster cl).room l r.prio = false → t = s1.failLaunch l 0x17))

/-- An event to the hosts (R451): every function whose port has not failed and that has a free slot receives it. -/
def EventSent (kind detail : Nat) (s t : State) : Prop :=
  ∀ f, f < 66 → s.hostLost.contains (s.func f).port = false → (s.func f).waiting = [] → (s.func f).rspTail < (s.func f).rspHead + 256 →
    tget 0 (t.func f).rsp ((s.func f).rspTail % 256) = responseWord 0xFFFFFFFF 0 (0x200 + kind + 0x10000 * (detail % 2 ^ 16)) ∧
      (t.func f).rspTail = (s.func f).rspTail + 1

/-- Recovery mode (R458): the code stands in the next slot of function 0's responses, which is slot 0 where nothing has been sent. -/
def Recovers (s : State) (code : Nat) (out : Out) : Prop :=
  ∃ t, out = .next t ∧ t.birhiry.boot = 3 ∧ t.birhiry.code = code ∧ t.mem = s.mem ∧
    ((s.func 0).waiting = [] → (s.func 0).rspTail < (s.func 0).rspHead + 256 →
      tget 0 (t.func 0).rsp ((s.func 0).rspTail % 256) = responseWord 0xFFFFFFFF 1 code ∧ (t.func 0).rspTail = (s.func 0).rspTail + 1)

/-- A passing image boots (R375): MEAS0 and MEAS1 are extended with the boot record and the body's digest, the body is loaded, and the 32 supervisor
cores run from their entry. -/
def Boots (s : State) (rollback h body : Nat) (out : Out) : Prop :=
  ∃ t, out = .next t ∧ t.birhiry.boot = 2 ∧ t.birhiry.header = h ∧ t.birhiry.rollback = rollback ∧
    tget 0 t.meas 0 = BitVec.ofNat 512 (sha512 (64 + Config.bootRecordLength)
      ((tget 0 s.meas 0).toNat + 2 ^ 512 * (Config.bootRecord s.birhiry.life rollback % 2 ^ (8 * Config.bootRecordLength)))) ∧
    tget 0 t.meas 1 = BitVec.ofNat 512 (sha512 128 ((tget 0 s.meas 1).toNat + 2 ^ 512 * (fieldAt h 0x18 64 % 2 ^ 512))) ∧
    (∀ k, k < fieldAt h 0x10 8 → readByte t.mem (Config.supervisorBase + k) = BitVec.ofNat 8 (body / 256 ^ k)) ∧
    ∀ u, u < 32 → (t.ctx (0x20000 + 16 * u)).life = .live ∧ (t.ctx (0x20000 + 16 * u)).mode = 2 ∧
      (t.ctx (0x20000 + 16 * u)).pc = word Config.supervisorEntry

/-- A refusal of the debug unlock on its path (R461): an SPDM answer, and on the mailbox a response of function 0 with STATUS 1 and the reason. -/
def refusalOn (s : State) (path reason : Nat) : State :=
  if path = 1 then (s.reply path 4 reason).respond 0 0 1 reason else s.reply path 4 reason

/-- The head entry of qm that may start. -/
def QmStarts (s : State) (core id : Nat) (e : QEntry) : Prop := (s.core core).entry 1 id = some e ∧ s.mayPerform core 1 e = true

end Sys2Proof.Claims

open Sys2Proof Sys2Proof.Machine Sys2Proof.Claims

/-! ## Decoding and encoding -/

/-- Decoding the word of a well-formed instruction gives that instruction back, with every operand at every value that the
encoding admits, and rejects nothing. -/
def Obligations.DecodeOfEncode : Prop :=
  ∀ j : Instr, j.wf = true → decodeWord (encode j) = { len := j.len, instr := some j, reject := none }

/-- A word that decodes is the word of the instruction it decodes to: no two words of one length stand for one instruction, and every
instruction that decoding gives is well-formed. -/
def Obligations.EncodeOfDecode : Prop :=
  ∀ (w len : Nat) (j : Instr), decode w = some (j, len) → j.wf = true ∧ j.len = len ∧ encode j = w % 2 ^ (8 * len)

/-- Words written out from the spec's encodings, of every format: ADD s3, s1, #-5; BRC.ne s1, s4, -3 words; LOOP lv1, s5, +4 words; LD.i32 s7, [s4+0x40]; MFSR s7, SSN; XGET.adv t9, t2, g3, o1, #2;
MMA.e4m3 a1, o2, #0x330; POSL s20, s4, s5; SPCV.loc s9, s2; XSTS s16, s16, s18, #0. -/
def Obligations.WordsDecode : Prop :=
  decode 0xFFFFFFFB0000300000010C41 = some (.add ⟨0, false, false⟩ ⟨3, .reg 1, .imm 0xFFFFFFFB, .reg 0, 0, .i64, 0, .rne, false, 0⟩, 12) ∧
  decode 0x000000400000200000041D41 = some (.ld ⟨0, false, false⟩ ⟨7, .reg 4, .imm 0x40, .reg 0, 0, .i32, 0, .rne, false, 0⟩, 12) ∧
  decode 0x0006000000001C1C = some (.mfsr ⟨0, false, false⟩ ⟨7, .reg 0, .reg 0, .reg 0, 0, .i8, 0x0C, .rne, false, 0⟩, 8) ∧
  decode 0x00000002000002092000000000030722 =
    some (.xget ⟨0, false, false⟩ ⟨1, .reg 3, .reg 0, .reg 0, 0, .i8, 0, .rne, false, 1⟩ ⟨2, 0, 0, 0, 0, 2, 9⟩, 16) ∧
  decode 0x0000033000000000000040000002077E =
    some (.mma ⟨0, false, false⟩ ⟨1, .reg 2, .reg 0, .reg 0, 0, .e4m3, 0, .rne, false, 0⟩ ⟨0x330, 0, 0, 0, 0, 0, 0⟩, 16) ∧
  decode 0x00000000014453A8 = some (.posl ⟨0, false, false⟩ ⟨20, .reg 4, .reg 5, .reg 0, 0, .i8, 0, .rne, false, 0⟩, 8) ∧
  decode 0x000000C000022558 = some (.spcv ⟨0, false, false⟩ ⟨9, .reg 2, .reg 0, .reg 0, 3, .i8, 0, .rne, false, 0⟩, 8) ∧
  decode 0x00000000002000000000000120104332 =
    some (.xsts ⟨0, false, false⟩ ⟨16, .reg 16, .reg 0, .reg 18, 0, .i8, 0, .rne, false, 0⟩ ⟨0, 0, 0, 2, 0, 0, 0⟩, 16) ∧
  decode 0xFFFFFFFF40401114 = some (.brc ⟨0, false, false⟩ 1 4 0 (-3), 8) ∧
  decode 0x0000000418005124 = some (.loop ⟨0, .reg 5, true, 1, 4⟩, 8)

/-! ## A step -/

/-- A step runs the decoded instruction: when the bytes at the program counter decode, in one block, to an instruction, the
step is that instruction's execution, after the time that passed and the governor's work (R188, R240).
A step runs an event that the agenda names, and an instruction is never run as an event.
Model's choices that it rests on: log entries 1, 4. -/
def Obligations.StepRunsDecoded : Prop :=
  (∀ (s t : State) (bs : List Byte) (j : Instr) (len : Nat), Turn s t →
    (t.atBoundary t.cur && t.takesAsync t.cur) = false → t.me.ready = true →
    t.fetch t.cur t.me.pc.toNat = .bytes bs → decode (fetched bs t.me.pc) = some (j, len) → crosses t.me.pc.toNat len = false →
    step s = exec j (t.governor j)) ∧
  (∀ (s : State) (i : Instr) (r : List Turn), s.birhiry.frozen = false → s.agenda = .event i :: r →
    step s = if i.op = none then exec i { s.pass with agenda := r } else .next { s.pass with agenda := r })

/-- A word that no row of the tables gives a meaning raises ILLEGAL_ENCODING with its reason code in XVAL, and nothing is
ever executed as a no-op (R204).
LEN = 11 is not an instruction (R187): whatever its other bits, the word is rejected for its length.
An instruction that crosses its 32-byte block raises FETCH_BOUNDARY, with XVAL naming where control came from (R188).
Model's choices that it rests on: log entries 3, 11. -/
def Obligations.FetchRejects : Prop :=
  (∀ (s t : State) (bs : List Byte) (r : Reject), Turn s t →
    (t.atBoundary t.cur && t.takesAsync t.cur) = false → t.me.ready = true →
    t.fetch t.cur t.me.pc.toNat = .bytes bs → (decodeWord (fetched bs t.me.pc)).instr = none →
    (decodeWord (fetched bs t.me.pc)).reject = some r → fetched bs t.me.pc % 4 ≠ 3 →
    crosses t.me.pc.toNat (decodeWord (fetched bs t.me.pc)).len = false →
    step s = .next ({ t with free := t.free + 1 }.takeTrap t.cur .exact 0x01 ((decodeWord (fetched bs t.me.pc)).len / 4) t.me.pc (word r.code))) ∧
  (∀ w : Nat, w % 4 = 3 → decodeWord w = { len := 0, instr := none, reject := some .length }) ∧
  (∀ (s t : State) (bs : List Byte), Turn s t →
    (t.atBoundary t.cur && t.takesAsync t.cur) = false → t.me.ready = true →
    t.fetch t.cur t.me.pc.toNat = .bytes bs → fetched bs t.me.pc % 4 ≠ 3 →
    crosses t.me.pc.toNat (lenBytes (fetched bs t.me.pc % 4)) = true →
    step s = .next (t.takeTrap t.cur .exact 0x02 (lenBytes (fetched bs t.me.pc % 4) / 4) t.me.pc t.me.cameFrom))

/-- A pending asynchronous cause is taken at an instruction boundary before the next instruction issues, only while MODE is USER and
IE is 1; otherwise it stays pending (R393). The cause is the first in the order of R397, and its entry is that of R394, with kind 10 and ILEN 0.
Model's choices that it rests on: log entry 1. -/
def Obligations.AsyncCauseTaken : Prop :=
  (∀ s t : State, Turn s t → t.atBoundary t.cur = true → t.me.mode = 0 → t.me.ie = true → (∃ a, Takeable t t.cur a) →
    step s = .next (t.takeAsync t.cur) ∧
      (isMemCore t.cur = false → ∃ a, FirstOf t t.cur a ∧ AsyncEntry t (t.takeAsync t.cur) t.cur a)) ∧
  ∀ (s : State) (cid : Nat), (s.ctx cid).mode ≠ 0 ∨ (s.ctx cid).ie = false → s.takesAsync cid = false

/-- A frozen package holds its state: every step answers, and only the answers of the 1149.1 port, the token's expiry and the model's
own counters move, until a reset (R389); the token's expiry sends event 7 to the hosts too (R462), and a SCANWR of a named die changes that die alone, what it
changes there being the model's choice (log 9).
Model's choices that it rests on: log entries 1, 3, 9. -/
def Obligations.FrozenHolds : Prop :=
  ∀ s : State, s.birhiry.frozen = true → (∀ r, s.agenda ≠ .event .packageReset :: r) →
    ∃ t, step s = .next t ∧ t.birhiry.frozen = true ∧
      ((∀ d v r, s.agenda ≠ .event (.scanwr d v) :: r) →
        t = { s with birhiry := t.birhiry, agenda := t.agenda, free := t.free, funcs := t.funcs } ∧
        ((∀ r, s.agenda ≠ .event .tokenExpiry :: r) → t.funcs = s.funcs)) ∧
      ∀ d v r, s.agenda = .event (.scanwr d v) :: r → ScansDie d s t

/-! ## Invariants and reset -/

/-- Every step keeps memory in canonical form, whatever the instruction or event.
Model's choices that it rests on: log entry 18. -/
def Obligations.CanonicalKept : Prop := ∀ s t : State, s.Canonical → step s = .next t → t.Canonical

/-- Memory right after reset is in canonical form.
Model's choices that it rests on: log entry 18. -/
def Obligations.CanonicalAtReset : Prop := State.reset.Canonical

/-- What reset leaves: no context live, every memory wiped and reading zero (R375), no queue entry, no TLB entry in a core or a cluster, STAT with GRND 01 and
USER mode on compute and memory cores.
Model's choices that it rests on: log entry 2. -/
def Obligations.ResetLeaves : Prop :=
  (∀ l, readByte State.reset.mem l = 0) ∧ State.reset.poison = [] ∧
  (∀ cid, cid < 0x20000 → (State.reset.ctx cid).mode = 0 ∧ (State.reset.ctx cid).grnd = 1 ∧ (State.reset.ctx cid).ie = false) ∧
  (∀ cid, (State.reset.ctx cid).life = .free) ∧ (∀ k q, ((State.reset.core k).queue q).entries = []) ∧ State.reset.birhiry.boot = 0 ∧
  (∀ k, (State.reset.core k).dtlb = [] ∧ (State.reset.core k).itlb = []) ∧ ∀ n, (State.reset.cluster n).tlb = []

/-! ## Taking an exception and returning -/

/-- Trap entry (R394): XPC, XCAUSE and XVAL, PMODE and PIE, IE cleared, USER becomes HANDLER, a pending prefix is parked, the loop levels
are set aside, and the pc is XBASE + 64 x cause; nothing else of the package changes.
A cause raised in HANDLER mode is a handler fault (R396): the context stops, keeps its first cause, and its core reports the second
cause and the second instruction's address. A cause raised in a program that MCRUN started ends the program (R398): its qc entry completes, and the
MCRUN's journal entry is REFUSED with the program's cause, which becomes pending as POSTED_REFUSED in the context that the entry names; its ADDR, the program's pc,
is the model's choice (log 81).
Model's choices that it rests on: log entry 81. -/
def Obligations.TrapEntry : Prop :=
  (∀ (s : State) (cid : Nat) (kind : Kind) (cause ilen : Nat) (xpc val : Word),
    isMemCore cid = false → (s.ctx cid).mode ≠ 1 → cause < 64 → ilen < 8 →
    let t := s.takeTrap cid kind cause ilen xpc val
    let c := s.ctx cid
    let d := t.ctx cid
    OnlyCtx cid s t ∧ d.xpc = xpc ∧ d.xcause = word (cause ||| kind.code <<< 6 ||| ilen <<< 8) ∧ d.xval = val ∧
      d.pc = (s.core (coreKey cid)).xbase + word (64 * cause) ∧
      d.field 4 2 = c.mode ∧ d.field 6 1 = c.field 3 1 ∧ d.ie = false ∧ d.mode = (if c.mode = 0 then 1 else c.mode) ∧
      d.field 27 1 = (if c.field 26 1 = 1 then 1 else c.field 27 1) ∧ d.saved = c.loops ∧ (∀ l ∈ d.loops, l.active = false) ∧
      d.s = c.s ∧ d.p = c.p ∧ d.view = c.view ∧ d.own = c.own) ∧
  ((∀ (s : State) (cid : Nat) (kind : Kind) (cause ilen : Nat) (xpc val : Word), isMemCore cid = false → (s.ctx cid).mode = 1 →
    let t := s.takeTrap cid kind cause ilen xpc val
    (t.ctx cid).stopped = true ∧ (t.ctx cid).ready = false ∧ (t.ctx cid).xpc = (s.ctx cid).xpc ∧ (t.ctx cid).xcause = (s.ctx cid).xcause ∧
      (t.ctx cid).xval = (s.ctx cid).xval ∧ t.hfaults = s.hfaults ++ [{ cid := cid, cause := cause, pc := xpc }] ∧ t.mem = s.mem ∧
      ∀ d, d ≠ cid → t.ctx d = s.ctx d) ∧
  ∀ (s : State) (cid : Nat) (kind : Kind) (cause ilen : Nat) (xpc val : Word) (core id j : Nat) (e : QEntry), isMemCore cid = true → cause < 64 →
    core < 3072 → (s.ctx cid).starter = some (core, id) → (s.core core).entry 0 id = some e → e.jrn = some j →
    let t := s.takeTrap cid kind cause ilen xpc val
    let b := locLocal core (jrnOff j)
    let x := (readByte s.mem (b + 0x15)).toNat
    let whom := if x ≠ 0 ∧ (s.ctx (16 * core + x)).life ≠ .live then 16 * core else 16 * core + x
    (t.ctx cid).life = .free ∧ (t.ctx cid).starter = none ∧ (t.core core).entry 0 id = none ∧ readByte t.mem (b + 0x17) = 2 ∧
      readByte t.mem (b + 0x14) = BitVec.ofNat 8 cause ∧ readNat t.mem (b + 8) 8 = (s.ctx cid).pc.toNat ∧
      (readByte s.mem (b + 0x16) = 3 → (t.ctx whom).pend = (s.ctx whom).pend ++ [{ code := 0x11, val := word cause, entry := some j }]) ∧
      ∀ l, l < b + 8 ∨ b + 0x18 ≤ l → readByte t.mem l = readByte s.mem l)

/-- BRK n and TRAP n raise BREAKPOINT before any effect, with XVAL n and 0x100 + n and with XPC their own address, and under a false
predicate they retire with no effect (R214); a core under jdb that meets a BRK is to stop at its next boundary too (R386).
ERET (R215): the pc is XPC, MODE and IE are PMODE and PIE, SUPERVISOR being left never (R390), the prefix is no longer held, and the loop state set aside comes back; where
nothing else ends with the handler, nothing else changes.
Model's choices that it rests on: log entry 52. -/
def Obligations.ExceptionInstructions : Prop :=
  (Traps .brk .brk atHome (fun _ s => s.myCore.jdb = false) 0x04 (fun o _ => word o.k) ∧
  (∀ h o s, Goes .brk h o true s → s.myCore.jdb = true → ∃ t : State, exec (.brk h o) s = .next (t.takeTrap s.cur .exact 0x04 (lenOf .brk h o / 4) s.me.pc (word o.k)) ∧
    t.myCore.haltReq = true ∧ t.me = s.me) ∧
  Traps .trap .trap atHome always 0x04 (fun o _ => word (0x100 + o.k)) ∧
  ∀ (h : Hdr) (o : Ops) (s : State), s.me.ready = true → s.me.away = none → s.me.predicate h = false →
    (stateReject .brk (dynReject .brk o s) s.cur s.me = none → exec (.brk h o) s = .next (s.after .brk (lenOf .brk h o))) ∧
    (stateReject .trap (dynReject .trap o s) s.cur s.me = none → exec (.trap h o) s = .next (s.after .trap (lenOf .trap h o)))) ∧
  (∀ (h : Hdr) (o : Ops) (s : State), Goes .eret h o true s → s.me.missPosl = none → s.me.owedAcq = none →
    s.myCore.jholder ≠ some (ctxNo s.cur) → (isCompute s.cur = true → s.myCore.spill = []) →
    ∃ t, exec (.eret h o) s = .next t ∧ OnlyCtx s.cur s t ∧ t.me.pc = s.me.xpc ∧ t.me.mode = (if s.me.mode = 2 then 2 else s.me.field 4 2) ∧
      t.me.field 3 1 = s.me.field 6 1 ∧ t.me.field 27 1 = 0 ∧ t.me.loops = s.me.saved ∧ t.me.s = s.me.s ∧ t.me.p = s.me.p ∧
      t.me.view = s.me.view ∧ t.me.own = s.me.own)

/-! ## The discipline of every instruction -/

/-- A context that is not ready does not issue (R45): no instruction changes anything there.
The first check of R204 that fails for reasons of state stops the instruction with ILLEGAL_ENCODING and its reason code, whatever its
predicate holds.
A privileged instruction in a mode that its entry forbids raises PRIVILEGE whatever its predicate holds (R199, R212).
An instruction whose predicate is false only retires (R199).
A constant-window word among the operands, or the count of LOOP, that holds an uncorrectable error raises SOFT_ERROR with its address (R427), once every
check of the word has passed and the predicate holds.
Model's choices that it rests on: log entries 11, 13, 36. -/
def Obligations.IssueDiscipline : Prop :=
  (∀ (j : Instr) (i : Op) (s : State), j.op = some i → s.me.ready = false → exec j s = .next s) ∧
  (∀ (j : Instr) (i : Op) (h : Hdr) (o : Ops) (x : Ext) (s : State) (r : Reject), j.op = some i → j.parts = some (h, o, x) →
    s.me.ready = true → s.me.away = none →
    stateReject i (dynReject i o s) s.cur s.me = some r →
    exec j s = .next (s.takeTrap s.cur .exact 0x01 (lenOf i h o / 4) s.me.pc (word r.code))) ∧
  (∀ (j : Instr) (i : Op) (h : Hdr) (o : Ops) (x : Ext) (s : State), j.op = some i → j.parts = some (h, o, x) →
    s.me.ready = true → s.me.away = none →
    stateReject i (dynReject i o s) s.cur s.me = none → privileged i o.k s.cur s.me = true →
    exec j s = .next (s.takeTrap s.cur .exact 0x03 (lenOf i h o / 4) s.me.pc (privVal i o.k))) ∧
  (∀ (j : Instr) (i : Op) (h : Hdr) (o : Ops) (x : Ext) (s : State), j.op = some i → j.parts = some (h, o, x) →
    s.me.ready = true → s.me.away = none →
    stateReject i (dynReject i o s) s.cur s.me = none → privileged i o.k s.cur s.me = false → s.me.predicate h = false →
    exec j s = .next (s.after i (lenOf i h o)) ∧ OnlyCtx s.cur s (s.after i (lenOf i h o)) ∧ (s.after i (lenOf i h o)).me.s = s.me.s ∧
      (s.after i (lenOf i h o)).me.p = s.me.p) ∧
  ((∀ (j : Instr) (i : Op) (h : Hdr) (o : Ops) (x : Ext) (s : State) (n : Nat), j.op = some i → j.parts = some (h, o, x) →
    s.me.ready = true → s.me.away = none → (vectorUnit i && isControl s.cur && s.myCore.vpath.isSome) = false →
    stateReject i (dynReject i o s) s.cur s.me = none → privileged i o.k s.cur s.me = false → s.me.predicate h = true →
    s.badConst [o.a, o.b, o.c] = some n →
    exec j s = .next (s.takeTrap s.cur .exact 0x19 (lenOf i h o / 4) s.me.pc (word (0xF1 * 2 ^ 56 + coreNo s.cur * 2 ^ 36 + 8 * n)))) ∧
  ∀ (l : LoopOps) (s : State) (n : Nat), GoesPlain .loop ⟨0, false, false⟩ true s → s.badConst [l.cnt] = some n →
    exec (.loop l) s = .next (s.takeTrap s.cur .exact 0x19 2 s.me.pc (word (0xF1 * 2 ^ 56 + coreNo s.cur * 2 ^ 36 + 8 * n))))

/-! ## Scalar instructions -/

/-- The scalar integer instructions that write sD from W-bit operands complete with the results of R224, wrapped to W bits and
extended as T says (R223), for every operand and each type they admit.
Division never raises a cause (R225): it completes, with the signed quotient toward zero, the unsigned quotient, the remainder with
the sign of x, or the unsigned remainder; a zero divisor gives all ones or x, and -2^(W-1) by -1 gives -2^(W-1) and 0. -/
def Obligations.IntegerResults : Prop :=
  (IntRule .add .add (fun _ x y _ => x + y) ∧ IntRule .sub .sub (fun _ x y _ => x - y) ∧
  IntRule .mul .mul (fun _ x y _ => x * y) ∧ IntRule .mad .mad (fun _ x y z => x * y + z) ∧
  IntRule .mulh .mulh (fun w x y _ => highHalf w (x.signExtend (2 * w)) (y.signExtend (2 * w))) ∧
  IntRule .mulhu .mulhu (fun w x y _ => highHalf w (x.zeroExtend (2 * w)) (y.zeroExtend (2 * w))) ∧
  IntRule .and .and (fun _ x y _ => x &&& y) ∧ IntRule .or .or (fun _ x y _ => x ||| y) ∧
  IntRule .xor .xor (fun _ x y _ => x ^^^ y) ∧ IntRule .andn .andn (fun _ x y _ => x &&& ~~~y) ∧
  IntRule .shl .shl (fun w x y _ => x <<< (y.toNat % w)) ∧ IntRule .shr .shr (fun w x y _ => x >>> (y.toNat % w)) ∧
  IntRule .sar .sar (fun w x y _ => x.sshiftRight (y.toNat % w)) ∧ IntRule .rol .rol (fun w x y _ => x.rotateLeft (y.toNat % w)) ∧
  IntRule .min .min (fun _ x y _ => if x.slt y then x else y) ∧ IntRule .max .max (fun _ x y _ => if x.slt y then y else x) ∧
  IntRule .minu .minu (fun _ x y _ => if x.ult y then x else y) ∧ IntRule .maxu .maxu (fun _ x y _ => if x.ult y then y else x) ∧
  IntRule .clz .clz (fun w x _ _ => BitVec.ofNat w ((List.range w).countP fun k => x >>> k = 0#w)) ∧
  IntRule .popc .popc (fun w x _ _ => BitVec.ofNat w ((List.range w).countP x.getLsbD))) ∧
  (IntRule .div .div (fun w x y _ => if y = 0#w then BitVec.allOnes w else if x = BitVec.intMin w ∧ y = -1#w then BitVec.intMin w else BitVec.sdiv x y) ∧
  IntRule .divu .divu (fun w x y _ => if y = 0#w then BitVec.allOnes w else BitVec.udiv x y) ∧
  IntRule .rem .rem (fun w x y _ => if y = 0#w then x else if x = BitVec.intMin w ∧ y = -1#w then 0#w else BitVec.srem x y) ∧
  IntRule .remu .remu (fun w x y _ => if y = 0#w then x else BitVec.umod x y))

/-- CMP and CMPU complete with pD the signed or unsigned condition that FN names, on the W-bit operands; a write to p0 is discarded,
and a code above 7 or a D above 7 is no instruction (R227).
SEL, MOV, MOVI, BFX, BFI, ADDS, ABS and NEG complete with the results of R224 and R226; BFX with another MX bit, and BFI with MX, is no
instruction (R226). -/
def Obligations.ComparesAndFields : Prop :=
  ((∀ h o s, Goes .cmp h o o.usesCw s → o.fn < 8 →
    (o.t = .i64 → exec (.cmp h o) s = .next ((s.setP o.d (cmpRule true o.fn 64 (s.arg o.a) (s.arg o.b))).after .cmp (lenOf .cmp h o))) ∧
    (o.t = .i32 ∨ o.t = .u32 → exec (.cmp h o) s =
      .next ((s.setP o.d (cmpRule true o.fn 32 (lowBits 32 (s.arg o.a)) (lowBits 32 (s.arg o.b)))).after .cmp (lenOf .cmp h o)))) ∧
  (∀ h o s, Goes .cmpu h o o.usesCw s → o.fn < 8 →
    (o.t = .i64 → exec (.cmpu h o) s = .next ((s.setP o.d (cmpRule false o.fn 64 (s.arg o.a) (s.arg o.b))).after .cmpu (lenOf .cmpu h o))) ∧
    (o.t = .i32 ∨ o.t = .u32 → exec (.cmpu h o) s =
      .next ((s.setP o.d (cmpRule false o.fn 32 (lowBits 32 (s.arg o.a)) (lowBits 32 (s.arg o.b)))).after .cmpu (lenOf .cmpu h o)))) ∧
  (∀ (c : Ctx) (b : Bool), c.setP 0 b = c) ∧
  ∀ (h : Hdr) (o : Ops), 8 ≤ o.fn ∨ 8 ≤ o.d → (Instr.cmp h o).wf = false ∧ (Instr.cmpu h o).wf = false) ∧
  (Completes .sel .sel byCw always (fun o s => s.setS o.d (if s.me.preg o.c.num then s.arg o.a else s.arg o.b)) ∧
  Completes .mov .mov byCw always (fun o s => s.setS o.d (s.arg o.b)) ∧
  (∀ (h : Hdr) (d : Nat) (t : TCode) (imm : Nat) (s : State), GoesPlain .movi h false s →
    exec (.movi h d t imm) s = .next ((s.setS d (BitVec.ofNat 64 imm)).after .movi 16)) ∧
  (∀ h o s, Goes .bfx h o o.usesCw s →
    let pos := (s.arg o.b).toNat % 64
    let w := min ((s.arg o.b).toNat / 256 % 128) (64 - pos)
    let up := (s.arg o.a >>> pos) <<< (64 - w)
    exec (.bfx h o) s =
      .next ((s.setS o.d (if o.mx = 1 then up.sshiftRight (64 - w) else up >>> (64 - w))).after .bfx (lenOf .bfx h o))) ∧
  (∀ h o s, Goes .bfi h o o.usesCw s →
    let pos := (s.arg o.b).toNat % 64
    let w := min ((s.arg o.b).toNat / 256 % 128) (64 - pos)
    let m := (BitVec.allOnes 64 >>> (64 - w)) <<< pos
    exec (.bfi h o) s = .next ((s.setS o.d ((s.arg o.c &&& ~~~m) ||| ((s.arg o.a <<< pos) &&& m))).after .bfi (lenOf .bfi h o))) ∧
  IntRuleO .adds .adds (fun o w x y _ => if o.t = .u32 then BitVec.ofNat w (min (2 ^ w - 1) (x.toNat + y.toNat)) else clampS w (x.toInt + y.toInt)) ∧
  IntRuleO .abs .abs (fun o w x _ _ =>
    if o.sat = true ∧ x = BitVec.intMin w then BitVec.intMax w else if x.slt 0#w then -x else x) ∧
  IntRuleO .neg .neg (fun o w x _ _ => if o.sat = true ∧ x = BitVec.intMin w then BitVec.intMax w else -x) ∧
  ∀ (h : Hdr) (o : Ops), (2 ≤ o.mx → (Instr.bfx h o).wf = false) ∧ (o.mx ≠ 0 → (Instr.bfi h o).wf = false))

/-- The scalar FP32 instructions complete with one rounding of the exact result to bits [31:0], zero above (R228 to R231).
Every NaN result of a scalar FP32 instruction is 0x7FC0_0000, and a NaN operand gives one (R127, R228, R230); FCMP finds a NaN
unordered, and unequal.
Model's choices that it rests on: log entry 20. -/
def Obligations.FloatResults : Prop :=
  (let f (s : State) (a : Arg) : Val := widen .f32 (s.argF a)
  let put (o : Ops) (s : State) (v : Val) : State := s.setS o.d (word (roundF32 v o.rm false))
  Completes .fadd .fadd byCw always (fun o s => put o s ((f s o.a).add (f s o.b))) ∧
  Completes .fsub .fsub byCw always (fun o s => put o s ((f s o.a).add (f s o.b).negate)) ∧
  Completes .fmul .fmul byCw always (fun o s => put o s ((f s o.a).mul (f s o.b))) ∧
  Completes .ffma .ffma byCw always (fun o s => put o s (((f s o.a).mul (f s o.b)).add (f s o.c))) ∧
  Completes .fdiv .fdiv byCw always (fun o s => put o s ((f s o.a).div (f s o.b))) ∧
  Completes .fsqrt .fsqrt byCw always (fun o s => put o s (f s o.a).sqrt) ∧
  Completes .fmin .fmin byCw always (fun o s => s.setS o.d (word (fMinMax .f32 false (s.argF o.a) (s.argF o.b)))) ∧
  Completes .fmax .fmax byCw always (fun o s => s.setS o.d (word (fMinMax .f32 true (s.argF o.a) (s.argF o.b)))) ∧
  Completes .fcmp .fcmp byCw always (fun o s => s.setP o.d (fCond .f32 o.fn (s.argF o.a) (s.argF o.b))) ∧
  Completes .fcvt .fcvt byCw always (fun o s => s.setS o.d (fcvtValue (fcvtSource o.mx) o.t (s.arg o.a).toNat o.rm o.sat))) ∧
  (∀ (rm : Rnd) (a b c : Nat), widen .f32 a = .nan ∨ widen .f32 b = .nan →
    (∀ i ∈ [Op.fadd, .fsub, .fmul, .ffma, .fdiv, .fmin, .fmax], fpOp i rm a b c = 0x7FC00000 ∧ fpOp i rm b a c = 0x7FC00000) ∧
    (widen .f32 a = .nan → fpOp .fsqrt rm a b c = 0x7FC00000) ∧
    (∀ fn, fn < 8 → fCond .f32 fn a b = (fn == 1 || fn == 6)))

/-- What the scalar families leave alone: every other register and predicate, the status register, the exception registers, the views,
and every byte of memory.
s0 reads as zero and p0 as true, and writes to them are discarded (R197): an instruction whose destination is s0 only retires. -/
def Obligations.ScalarFrame : Prop :=
  ((∀ (j : Instr) (i : Op) (h : Hdr) (o : Ops) (x : Ext) (s t : State), j.op = some i → scalarOp i = true → j.parts = some (h, o, x) →
    Goes i h o o.usesCw s → exec j s = .next t →
    ScalarFrameOf (if comparing i then 0 else o.d) (if comparing i then o.d else 0) s t) ∧
  ∀ (h : Hdr) (d : Nat) (t : TCode) (imm : Nat) (s u : State), GoesPlain .movi h false s → exec (.movi h d t imm) s = .next u →
    ScalarFrameOf d 0 s u) ∧
  ((∀ c : Ctx, c.sreg 0 = 0 ∧ c.preg 0 = true) ∧ (∀ (c : Ctx) (w : Word) (b : Bool), c.setS 0 w = c ∧ c.setP 0 b = c) ∧
  ∀ h o s, Goes .add h o o.usesCw s → o.d = 0 → exec (.add h o) s = .next (s.after .add (lenOf .add h o)))

/-! ## Control flow -/

/-- Branches, calls, returns and jumps transfer to their targets with their links (R233, R234), or raise MISALIGN at the instruction that
named the target (R232); a branch whose condition or predicate is false goes on in sequence.
JTAB (R234): an index not below the count goes on in sequence; else a signed word of the table, read through the fetch path, gives the
target.
Model's choices that it rests on: log entry 19. -/
def Obligations.BranchesTransfer : Prop :=
  ((let skips (i : Op) (j : Hdr → Instr) : Prop := ∀ (h : Hdr) (s : State), s.me.ready = true → stateReject i none s.cur s.me = none →
      s.me.predicate h = false → exec (j h) s = .next (s.after i 8)
   ∀ (c a b : Nat) (d : Int), skips .br (.br · d) ∧ skips .brc (.brc · c a b d) ∧ skips .call (.call · d)) ∧
  (∀ (h : Hdr) (d : Int) (s : State), GoesPlain .br h false s →
    GoesTo .br 8 s (s.me.pc + BitVec.ofInt 64 (4 * d)) s (exec (.br h d) s)) ∧
  (∀ (h : Hdr) (c a b : Nat) (d : Int) (s : State), GoesPlain .brc h false s → c < 12 →
    (brcRule c (s.me.sreg a) (s.me.sreg b) = true → GoesTo .brc 8 s (s.me.pc + BitVec.ofInt 64 (4 * d)) s (exec (.brc h c a b d) s)) ∧
    (brcRule c (s.me.sreg a) (s.me.sreg b) = false → exec (.brc h c a b d) s = .next (s.after .brc 8))) ∧
  (∀ (h : Hdr) (d : Int) (s : State), GoesPlain .call h false s →
    GoesTo .call 8 s (s.me.pc + BitVec.ofInt 64 (4 * d)) (s.setS 63 (s.me.pc + 8)) (exec (.call h d) s)) ∧
  (∀ h o s, Goes .ret h o o.usesCw s → GoesTo .ret (lenOf .ret h o) s (s.me.sreg 63) s (exec (.ret h o) s)) ∧
  (∀ h o s, Goes .jmpr h o o.usesCw s →
    GoesTo .jmpr (lenOf .jmpr h o) s (s.arg o.a) (s.setS o.d (s.me.pc + 8)) (exec (.jmpr h o) s))) ∧
  ((∀ h o s, Goes .jtab h o o.usesCw s → (s.arg o.c).toNat ≤ (s.arg o.b).toNat →
    exec (.jtab h o) s = .next (s.after .jtab (lenOf .jtab h o))) ∧
  (∀ h o s bs, Goes .jtab h o o.usesCw s → (s.arg o.b).toNat < (s.arg o.c).toNat → (s.arg o.a).toNat % 4 = 0 →
    let e := s.arg o.a + 4 * s.arg o.b
    s.fetch s.cur e.toNat = .bytes bs →
    GoesTo .jtab (lenOf .jtab h o) s (s.me.pc + 4 * (BitVec.ofNat 32 (ofBytes ((bs.drop (e.toNat % 32)).take 4))).signExtend 64) s
      (exec (.jtab h o) s)) ∧
  ∀ h o s, Goes .jtab h o o.usesCw s → (s.arg o.b).toNat < (s.arg o.c).toNat → (s.arg o.a).toNat % 4 ≠ 0 →
    exec (.jtab h o) s = .next (s.takeTrap s.cur .exact 0x0A (lenOf .jtab h o / 4) s.me.pc (s.arg o.a)))

/-- LOOP (R235) and LOOPX (R237): every level from LVL up is deactivated; a count of 0 transfers to the end, an END of 2 or less goes on
in sequence, and any other activates the level;
a LOOPX on an inactive level goes on at the next address with no end check (R236).
The end check of R236 at every retirement in sequence: the highest level whose END is the next address and whose count is above 1
starts its next pass, the levels above it that share the END end, and with no such level all that share it end and control goes on. -/
def Obligations.HardwareLoops : Prop :=
  (let off (ls : List Loop) (n : Nat) : List Loop := ls.mapIdx fun k l => if n ≤ k then { l with active := false } else l
  (∀ (l : LoopOps) (s : State), GoesPlain .loop ⟨0, false, false⟩ l.cnt.isCw s → s.badConst [l.cnt] = none →
    let c := s.me
    let n := s.arg l.cnt
    let e := c.pc + BitVec.ofInt 64 (4 * l.disp)
    (n = 0 → e.toNat % 4 = 0 → exec (.loop l) s = .next ((s.setMe { c with loops := off c.loops l.lvl }).jumped .loop e)) ∧
    (n ≠ 0 → l.disp ≤ 2 → exec (.loop l) s = .next ((s.setMe { c with loops := off c.loops l.lvl }).after .loop 8)) ∧
    (n ≠ 0 → 2 < l.disp → exec (.loop l) s = .next ((s.setMe { c with loops := (off c.loops l.lvl).set l.lvl ⟨c.pc + 8, e, n, true, l.rot, l.rs, 0⟩ }).after .loop 8))) ∧
  ∀ h o s l, Goes .loopx h o o.usesCw s → s.me.loops[o.d]? = some l →
    (l.active = true → exec (.loopx h o) s = .next ((s.setMe { s.me with loops := off s.me.loops o.d }).jumped .loopx l.fin)) ∧
    (l.active = false → exec (.loopx h o) s = .next (s.skipped .loopx (lenOf .loopx h o)))) ∧
  (∀ (s : State) (i : Op) (len : Nat),
    let c := s.me
    let next := c.pc + BitVec.ofNat 64 len
    let due (l : Loop) : Bool := l.active && l.fin == next
    let t := s.after i len
    (∀ (n : Nat) (l : Loop), c.loops[n]? = some l → due l = true → 1 < l.count.toNat →
      (∀ m x, n < m → c.loops[m]? = some x → due x = true → x.count.toNat ≤ 1) →
      t.me.pc = l.start ∧ t.me.loops = c.loops.mapIdx fun m x =>
        if m < n then x else if m = n then { x with count := x.count - 1, pass := x.pass + 1 }
        else if due x then { x with active := false } else x) ∧
    ((∀ l ∈ c.loops, due l = true → l.count.toNat ≤ 1) →
      t.me.pc = next ∧ t.me.loops = c.loops.map fun x => if due x then { x with active := false } else x))

/-! ## Memory -/

/-- The windows of R66 with their owner fields and offsets: what pointers are spaces, and of which window; and a pointer that SPMK makes
lies in its window, is owned by the part that executes it and gives its offset back to SPCV (R247, R248).
The order of R67 and the windows' own rules (R69, R245): SPACE_INVALID, SPACE_FOREIGN, MISALIGN, then CONST_WRITE for a write to the
constant window, ACCESS for USER in the handler's area, for a write to a weight store and for a lock bit of global memory; and a load or
store that meets a cause raises it with the pointer in XVAL. -/
def Obligations.AccessesChecked : Prop :=
  ((∀ p, p < 2 ^ 64 →
    (spaceCode p = 1 ↔ p < 2 ^ 50) ∧
    (spaceCode p = 2 ↔ ∃ core ctx off, core < 3072 ∧ ctx ≤ 10 ∧ off < 2 ^ 32 ∧ p = 0xF0 * 2 ^ 56 + core * 2 ^ 36 + ctx * 2 ^ 32 + off) ∧
    (spaceCode p = 3 ↔ ∃ core off, core < 3072 ∧ off < 2 ^ 17 ∧ p = 0xF1 * 2 ^ 56 + core * 2 ^ 36 + off) ∧
    (spaceCode p = 4 ↔ ∃ cl off, cl < 384 ∧ off < 2 ^ 19 ∧ p = 0xF2 * 2 ^ 56 + cl * 2 ^ 38 + off) ∧
    (spaceCode p = 5 ↔ ∃ die off, die < 24 ∧ off < 0xC000000 ∧ p = 0xF3 * 2 ^ 56 + die * 2 ^ 40 + off)) ∧
  ∀ (cid sp x owner : Nat), cid / 16 < 3072 → cid % 16 ≤ 10 → 1 ≤ sp → sp ≤ 5 → x < spmkLimit sp →
    spaceCode (spmkPtr sp cid x owner) = sp ∧ ownsPtr cid (spmkPtr sp cid x owner) = true ∧ ptrOffset (spmkPtr sp cid x owner) = x) ∧
  ((∀ (s : State) (cid p al : Nat) (k : AKind),
    (spaceCode p = 0 → s.access cid p al k = .cause 0x09 (word p)) ∧
    (spaceCode p ≠ 0 → ownsPtr cid p = false → s.access cid p al k = .cause 0x08 (word p)) ∧
    (spaceCode p ≠ 0 → ownsPtr cid p = true → p % al ≠ 0 → s.access cid p al k = .cause 0x0A (word p)) ∧
    (ownsPtr cid p = true → p % al = 0 →
      (spaceCode p = 3 → p % 2 ^ 17 < 0x800 → k ≠ .load → s.access cid p al k = .cause 0x1B (word p)) ∧
      (spaceCode p = 3 → p % 2 ^ 17 < 0x800 → k = .load → s.access cid p al k = .loc (p % 2 ^ 17)) ∧
      (spaceCode p = 3 → 0x800 ≤ p % 2 ^ 17 → p % 2 ^ 17 < 0x1000 → (s.ctx cid).mode = 0 → s.access cid p al k = .cause 0x07 (word p)) ∧
      (spaceCode p = 3 → 0x800 ≤ p % 2 ^ 17 → 0x1000 ≤ p % 2 ^ 17 ∨ (s.ctx cid).mode ≠ 0 → s.access cid p al k = .loc (p % 2 ^ 17)) ∧
      (spaceCode p = 4 → s.access cid p al k = .shared (locShared (p / 2 ^ 38 % 512) (p % 2 ^ 19))) ∧
      (spaceCode p = 5 → k ≠ .load → s.access cid p al k = .cause 0x07 (word p)) ∧
      (spaceCode p = 1 ∨ spaceCode p = 2 → k = .lock → s.access cid p al k = .cause 0x07 (word p)))) ∧
  (∀ h o s n v, Goes .ld h o (s.localAddr o) s → s.access s.cur (s.addr o).toNat (sizeT o.t) .load = .cause n v →
    exec (.ld h o) s = .next (s.takeTrap s.cur .exact n (lenOf .ld h o / 4) s.me.pc v)) ∧
  (∀ h o s n v, Goes .st h o (s.localAddr o) s → s.access s.cur (s.addr o).toNat (sizeT o.t) .store = .cause n v →
    exec (.st h o) s = .next (s.takeTrap s.cur .exact n (lenOf .st h o / 4) s.me.pc v)))

/-- LD and LD2 complete where the answer is at hand: the bytes, extended as T says, or both dwords (R244); a global load waits for its
memory core with the bytes of its view (R46).
The bytes of a register value extend as T says: I8, I16 and I32 with their sign, U8, U16 and U32 with zeros, I64 whole (R244).
Model's choices that it rests on: log entry 72. -/
def Obligations.LoadsComplete : Prop :=
  ((∀ h o s l bs, Goes .ld h o (s.localAddr o) s → AtHand s (s.addr o).toNat (sizeT o.t) (sizeT o.t) l bs →
    s.poisoned l (sizeT o.t) = false → s.unwatched →
    exec (.ld h o) s = .next ((s.setS o.d (extendT o.t (ofBytes bs))).after .ld (lenOf .ld h o))) ∧
  (∀ h o s l bs, Goes .ld2 h o (s.localAddr o) s → AtHand s (s.addr o).toNat 16 16 l bs → s.poisoned l 16 = false → s.unwatched →
    exec (.ld2 h o) s = .next ((s.setMe ((s.me.setS o.d (word (ofBytes (bs.take 8)))).setS (o.d + 1) (word (ofBytes (bs.drop 8))))).after
      .ld2 (lenOf .ld2 h o))) ∧
  (∀ h o s l e, Goes .ld h o (s.localAddr o) s → s.access s.cur (s.addr o).toNat (sizeT o.t) .load = .global l e →
    let t := s.touchTlb s.cur e
    let w : Wait := .answer [(o.d, extendT o.t (ofBytes (t.me.seeBytes l (sizeT o.t))))] (s.addr o).toNat (sizeT o.t) l
    exec (.ld h o) s = .next (waiting (t.setMe { t.me with wait := w }) (lenOf .ld h o)))) ∧
  (∀ v : Nat, extendT .i8 v = (BitVec.ofNat 8 v).signExtend 64 ∧ extendT .u8 v = (BitVec.ofNat 8 v).zeroExtend 64 ∧
    extendT .i16 v = (BitVec.ofNat 16 v).signExtend 64 ∧ extendT .u16 v = (BitVec.ofNat 16 v).zeroExtend 64 ∧
    extendT .i32 v = (BitVec.ofNat 32 v).signExtend 64 ∧ extendT .u32 v = (BitVec.ofNat 32 v).zeroExtend 64 ∧
    extendT .i64 v = BitVec.ofNat 64 v)

/-- PREF, LEA, SPQ, SPCV, SPMK and CHKB complete with no access to data (R246, R248).
Model's choices that it rests on: log entries 15, 16. -/
def Obligations.SpaceInstructions : Prop :=
  Completes .pref .pref byCw always (fun o s =>
    let p := (s.addr o).toNat
    if (spaceCode p = 1 || spaceCode p = 2) && ownsPtr s.cur p && !isSupervisor s.cur then
      { s with prefs := s.prefs ++ [(s.cur, ptrVa p)] } else s) ∧
  Completes .lea .lea byCw always (fun o s => s.setS o.d (s.addr o)) ∧
  Completes .spq .spq byCw always (fun o s =>
    let p := (s.arg o.a).toNat
    s.setS o.d (word (spaceCode p + 8 * (spaceCode p ≠ 0 && ownsPtr s.cur p).toNat))) ∧
  Completes .spcv .spcv byCw (fun o s => spaceCode (s.arg o.a).toNat = o.fn ∧ ownsPtr s.cur (s.arg o.a).toNat = true)
    (fun o s => s.setS o.d (word (ptrOffset (s.arg o.a).toNat))) ∧
  Traps .spcv .spcv byCw (fun o s => spaceCode (s.arg o.a).toNat ≠ o.fn) 0x09 (fun o s => s.arg o.a) ∧
  Completes .spmk .spmk byCw (fun o s => (s.arg o.a).toNat < spmkLimit o.fn) (fun o s =>
    { s.setS o.d (word (spmkPtr o.fn s.cur (s.arg o.a).toNat (Config.free s.free))) with free := s.free + 1 }) ∧
  Traps .spmk .spmk byCw (fun o s => spmkLimit o.fn ≤ (s.arg o.a).toNat) 0x09 (fun o s => s.arg o.a) ∧
  Completes .chkb .chkb byCw always (fun o s =>
    let x := s.chkb (s.addr o).toNat (sizeT o.t) (if o.mx = 0 then .load else .store)
    x.1.setP o.d x.2)

/-- ST and ST2 on local memory complete, and change the bytes they store and no other byte of memory (R88, R244); no register changes.
A store to cluster shared or global memory, ST or ST2, is deferred (R90): it waits in its context's own stores under a journal entry and is on its
way to its home; with no entry FREE it stays at issue (R402).
Model's choices that it rests on: log entries 18, 72. -/
def Obligations.StoresComplete : Prop :=
  ((∀ h o s off, Goes .st h o (s.localAddr o) s → s.access s.cur (s.addr o).toNat (sizeT o.t) .store = .loc off → s.unwatched →
    ∃ t, exec (.st h o) s = .next t ∧ Stored s t (locLocal (coreNo s.cur) off) (sizeT o.t) (s.arg o.c).toNat ∧
      (∀ n, t.me.sreg n = s.me.sreg n) ∧ t.me.p = s.me.p ∧ t.me.stat = s.me.stat ∧ t.me.view = s.me.view ∧ t.me.own = s.me.own ∧
      t.cores = s.cores ∧ ∀ d, d ≠ s.cur → t.ctx d = s.ctx d) ∧
  (∀ h o s off, Goes .st2 h o (s.localAddr o) s → s.access s.cur (s.addr o).toNat 16 .store = .loc off → s.unwatched →
    ∃ t, exec (.st2 h o) s = .next t ∧
      Stored s t (locLocal (coreNo s.cur) off) 16 ((s.me.sreg o.c.num).toNat + 2 ^ 64 * (s.me.sreg (o.c.num + 1)).toNat) ∧
      (∀ n, t.me.sreg n = s.me.sreg n) ∧ t.me.p = s.me.p ∧ t.me.stat = s.me.stat ∧ t.me.view = s.me.view ∧ t.me.own = s.me.own ∧
      t.cores = s.cores ∧ ∀ d, d ≠ s.cur → t.ctx d = s.ctx d)) ∧
  (DefersStore .st .st (fun o => sizeT o.t) (fun o s => toBytes (sizeT o.t) (s.arg o.c).toNat) ∧
  DefersStore .st2 .st2 (fun _ => 16) (fun o s => toBytes 8 (s.me.sreg o.c.num).toNat ++ toBytes 8 (s.me.sreg (o.c.num + 1)).toNat))

/-- The integer atomics on local memory complete as they issue: the new value of R250 in memory, the old one in sD; those on cluster shared or global
memory travel to their home (R92).
LLK and SUL on local memory (R94, R251): LLK gives up the lock bit that its context held, and completes with the word and the bit where
it is first in line, else waits in line; SUL stores only with the bit, answers 0 or 1, and holds no bit after. On cluster shared memory both travel to
their home; global memory has no lock bits, and either raises ACCESS there.
Exact cells on local memory (R140, R141): FAADD adds exactly to the cell, ECRD gives the rounded sum, ECCLR writes 64 zero bytes. On cluster shared or
global memory FAADD and ECCLR are posted, and ECRD travels to its home (R92, R402).
Model's choices that it rests on: log entries 31, 72. -/
def Obligations.AtomicsComplete : Prop :=
  (let sgn (o : Ops) (w : Nat) (x y : BitVec w) : Bool := if o.t = .u32 then x.ult y else x.slt y
  AtomicRule .aadd .aadd (fun _ _ v y _ => v + y) ∧ AtomicRule .aand .aand (fun _ _ v y _ => v &&& y) ∧
  AtomicRule .aor .aor (fun _ _ v y _ => v ||| y) ∧ AtomicRule .axor .axor (fun _ _ v y _ => v ^^^ y) ∧
  AtomicRule .aswp .aswp (fun _ _ _ y _ => y) ∧ AtomicRule .acas .acas (fun _ _ v y c => if v = c then y else v) ∧
  AtomicRule .amin .amin (fun o w v y _ => if sgn o w v y then v else y) ∧
  AtomicRule .amax .amax (fun o w v y _ => if sgn o w v y then y else v) ∧
  (let goes (i : Op) (mk : Hdr → Ops → Instr) (k : AtomicKind) : Prop := AtomicTravels i mk k (fun o => sizeT o.t)
   goes .aadd .aadd .add ∧ goes .aand .aand .and ∧ goes .aor .aor .or ∧ goes .axor .axor .xor ∧ goes .aswp .aswp .swp ∧ goes .acas .acas .cas ∧
   goes .amin .amin .min ∧ goes .amax .amax .max)) ∧
  (TravelsShared .llk .llk .llk .lock (fun o => sizeT o.t) ∧ TravelsShared .sul .sul .sul .lock (fun o => sizeT o.t) ∧
  (let bars (i : Op) (mk : Hdr → Ops → Instr) : Prop := ∀ h o s n v, Goes i h o (s.localAddr o) s →
      s.access s.cur (s.addr o).toNat (sizeT o.t) .lock = .cause n v → exec (mk h o) s = .next (s.takeTrap s.cur .exact n (lenOf i h o / 4) s.me.pc v)
   bars .llk .llk ∧ bars .sul .sul) ∧
  (∀ h o s off, Goes .llk h o (s.localAddr o) s → s.access s.cur (s.addr o).toNat (sizeT o.t) .lock = .loc off →
    s.atomicMay s.cur = true → s.unwatched → s.poisoned (locLocal (coreNo s.cur) off) (sizeT o.t) = false →
    let l := locLocal (coreNo s.cur) off
    let q := (s.dropLock s.cur).wantLock s.cur (lockBitAt l)
    (q.2 = true → ∃ t, exec (.llk h o) s = .next t ∧ t.me.lock = some (lockBitAt l) ∧ t.mem = s.mem ∧
      ∀ n, t.me.sreg n = if n = o.d ∧ n ≠ 0 then extendT o.t (readNat s.mem l (sizeT o.t)) else s.me.sreg n) ∧
    (q.2 = false → exec (.llk h o) s = .next (waiting q.1 (lenOf .llk h o)))) ∧
  ∀ h o s off, Goes .sul h o (s.localAddr o) s → s.access s.cur (s.addr o).toNat (sizeT o.t) .lock = .loc off →
    s.atomicMay s.cur = true → s.unwatched →
    let l := locLocal (coreNo s.cur) off
    ∃ t, exec (.sul h o) s = .next t ∧ t.me.lock = none ∧
      (s.me.lock = some (lockBitAt l) → Stored s t l (sizeT o.t) (s.arg o.c).toNat ∧ (o.d ≠ 0 → t.me.sreg o.d = 0)) ∧
      (s.me.lock ≠ some (lockBitAt l) → t.mem = s.mem ∧ (o.d ≠ 0 → t.me.sreg o.d = 1))) ∧
  (AtomicPosted .faadd .faadd .fadd ∧ AtomicPosted .ecclr .ecclr .ecclr ∧ AtomicTravels .ecrd .ecrd .ecrd (fun _ => 64) ∧
  (∀ h o s off, Goes .faadd h o (s.localAddr o) s → s.access s.cur (s.addr o).toNat 64 .atomic = .loc off → s.atomicMay s.cur = true →
    s.unwatched → s.poisoned (locLocal (coreNo s.cur) off) 64 = false →
    let l := locLocal (coreNo s.cur) off
    exec (.faadd h o) s = .next ((s.poke l (toBytes 64 (cellAdd (readNat s.mem l 64) (s.argF o.c)))).after .faadd (lenOf .faadd h o))) ∧
  (∀ h o s off, Goes .ecrd h o (s.localAddr o) s → s.access s.cur (s.addr o).toNat 64 .atomic = .loc off → s.atomicMay s.cur = true →
    s.unwatched → s.poisoned (locLocal (coreNo s.cur) off) 64 = false →
    let l := locLocal (coreNo s.cur) off
    exec (.ecrd h o) s = .next ((s.setS o.d (word (cellRead (readNat s.mem l 64) o.rm))).after .ecrd (lenOf .ecrd h o))) ∧
  (∀ h o s off, Goes .ecclr h o (s.localAddr o) s → s.access s.cur (s.addr o).toNat 64 .atomic = .loc off → s.atomicMay s.cur = true →
    s.unwatched →
    exec (.ecclr h o) s = .next ((s.poke (locLocal (coreNo s.cur) off) (toBytes 64 0)).after .ecclr (lenOf .ecclr h o))) ∧
  ∀ (cell m : Nat) (neg : Bool), cell < 2 ^ 512 → cell / 2 ^ 320 % 256 = 0 → ∀ x e, widen .f32 x = .fin neg m e →
    let v := sext 320 (cell % 2 ^ 320) + (if neg then -1 else 1) * ((m * 2 ^ (e + 149).toNat : Nat) : Int)
    v < 2 ^ 319 → -(2 ^ 319) ≤ v → sext 320 (cellAdd cell x % 2 ^ 320) = v)

/-! ## System instructions -/

/-- The system instructions complete: NOP with no effect (R213), MFSR with the register's value and MTSR with its writable fields (R221),
FENCEI with no fetched block and no instruction translation left, nor of its
address space on a memory core (R82, R222), FMT with the pending prefix (R201), WAITI and IDLE once something is
pending (R218); a SYSC's context waits for the answer, its request in the launch's service queue (R216).
Model's choices that it rests on: log entry 3. -/
def Obligations.SystemInstructions : Prop :=
  (∀ s : State, GoesPlain .nop ⟨0, false, false⟩ false s → exec .nop s = .next (s.after .nop 8)) ∧
  Completes .mfsr .mfsr atHome always (fun o s => { s.setS o.d (s.sysRead s.cur o.k) with free := s.free + 1 }) ∧
  Completes .mtsr .mtsr atHome always (fun o s => s.sysWrite s.cur o.k (s.arg o.a)) ∧
  Completes .fencei .fencei atHome always (fun _ s =>
    let t := s.discardAway (s.rootFor s.cur)
    t.setMyCore { t.myCore with blocks := [], itlb := [] }) ∧
  (∀ (s : State) root k, (s.discardAway root).core k = if isMemCore k then { s.core k with
    blocks := (s.core k).blocks.filter fun b => b.1 / 2 ^ 46 ≠ root, itlb := (s.core k).itlb.filter fun e => e.root ≠ root } else s.core k) ∧
  (∀ (t2 : TCode) (rv : Bool) (rnd : Rnd) (scm : Nat) (s : State), GoesPlain .fmt ⟨0, false, false⟩ true s →
    exec (.fmt t2 rv rnd scm) s =
      .next ((s.setMe (s.me.setStat 16 12 (t2.code + 16 * (scm % 4) + 64 * rnd.code + 512 * rv.toNat + 1024))).after .fmt 8)) ∧
  Completes .waiti .waiti atHome (fun _ s => s.me.pend ≠ [] ∨ isCompute s.cur = true ∧ s.preemptPending (coreNo s.cur) = true) (fun _ s => s) ∧
  Waits .waiti .waiti atHome (fun _ s => s.me.pend = [] ∧ (isCompute s.cur = true → s.preemptPending (coreNo s.cur) = false)) (fun _ s => s) ∧
  Completes .idle .idle atHome (fun _ s => s.bells.contains (coreKey s.cur) = true)
    (fun _ s => { s with bells := s.bells.filter fun x => x ≠ coreKey s.cur }) ∧
  Completes .idle .idle atHome (fun _ s => s.bells.contains (coreKey s.cur) = false ∧ s.me.pend ≠ []) (fun _ s => s) ∧
  Waits .sysc .sysc atHome always (fun o s =>
    { s.setMe { s.me with wait := .sysc o.d (s.arg o.a) (s.arg o.b) } with
        sysc := s.sysc ++ [⟨(s.file s.cur).launch.getD 0, s.cur, s.arg o.a, s.arg o.b⟩] })

/-- The system registers of a context of a compute core read what R219 says they hold: WSREF the die's completed frames of 2,048 cycles above the
position in the frame (R75), CANREQ the CREQ of the running record, or of its range. On a memory core CORE counts within the far-memory cores, and CLID is
all ones; DIEID is all ones on an I/O die's core, which has no weight store, so that its WSREF is a free value; a supervisor core's CORE is its number.
MTSR writes the writable fields (R219 to R221): the register reads back with its reserved bits zero and its limits kept, a read-only
register keeps its value, STAT in USER mode takes GRND alone, and a write of 00 to GRND, of 11 to PMODE, or of a PMODE above the current mode
leaves its field.
Model's choices that it rests on: log entries 3, 16, 32. -/
def Obligations.SystemRegisters : Prop :=
  ((∀ (s : State) (cid : Nat), isCompute cid = true →
    let c := s.ctx cid
    let x := s.core (cid / 16)
    s.sysRead cid 0x00 = c.stat ∧ s.sysRead cid 0x01 = c.xpc ∧ s.sysRead cid 0x02 = c.xcause ∧ s.sysRead cid 0x03 = c.xval ∧
    s.sysRead cid 0x04 = x.xjrn ∧ s.sysRead cid 0x05 = x.xbase ∧ s.sysRead cid 0x08 = BitVec.ofNat 64 (cid / 16) ∧
    s.sysRead cid 0x09 = BitVec.ofNat 64 (cid / 128) ∧ s.sysRead cid 0x0A = BitVec.ofNat 64 (cid / 2048) ∧
    s.sysRead cid 0x0B = BitVec.ofNat 64 s.pkgid ∧ s.sysRead cid 0x0D = BitVec.ofNat 64 s.cyc ∧ s.sysRead cid 0x0E = x.bubl ∧
    s.sysRead cid 0x10 = x.mvth ∧ s.sysRead cid 0x11 = x.hold ∧ s.sysRead cid 0x12 = c.fmtd ∧
    (∀ l, x.launch = some l → s.sysRead cid 0x0C = BitVec.ofNat 64 (s.dom l x.bdom).ssn) ∧
    ∀ m i, m < 8 → i < 8 → s.sysRead cid (0x40 + 8 * m + i) = ((tget 0 s.meas m) >>> (64 * i)).setWidth 64) ∧
  (∀ (s : State) (cid : Nat), isCompute cid = true →
    let n := s.cyc - (s.die (dieNo cid)).wsBase
    (s.sysRead cid 0x0F).toNat / 2048 = n / 2048 % 2 ^ 53 ∧ (s.sysRead cid 0x0F).toNat % 2048 = n % 2048 ∧
    (isHelper cid = false → (s.ctx cid).range = none → s.sysRead cid 0x13 = if (s.ctx cid).canreq then 1 else 0) ∧
    ∀ g, (s.ctx cid).range = some g → g.creq = true → s.sysRead cid 0x13 = 1) ∧
  ∀ (s : State) (cid : Nat), isCompute cid = false →
    let io := isSupervisor cid || 384 ≤ coreNo cid
    s.sysRead cid 0x08 = word (if isMemCore cid && 384 ≤ coreNo cid then coreNo cid - 384 else coreNo cid) ∧
    s.sysRead cid 0x09 = BitVec.allOnes 64 ∧ s.sysRead cid 0x0A = (if io then BitVec.allOnes 64 else word (dieNo cid)) ∧
    s.sysRead cid 0x0F = (if io then word (Config.free s.free) else word (s.cyc - (s.die (dieNo cid)).wsBase)) ∧
    s.sysRead cid 0x00 = (s.ctx cid).stat ∧ s.sysRead cid 0x0B = word s.pkgid ∧ s.sysRead cid 0x0D = word s.cyc) ∧
  (∀ (s : State) (cid : Nat) (w : Word), isCompute cid = true →
    let v := w.toNat
    let t (k : Nat) : State := s.sysWrite cid k w
    (t 0x01).sysRead cid 0x01 = w ∧ (t 0x02).sysRead cid 0x02 = BitVec.ofNat 64 (v % 2 ^ 11) ∧ (t 0x03).sysRead cid 0x03 = w ∧
    (t 0x04).sysRead cid 0x04 = BitVec.ofNat 64 (v % 32) ∧ (t 0x05).sysRead cid 0x05 = BitVec.ofNat 64 (v - v % 4096) ∧
    (t 0x10).sysRead cid 0x10 = BitVec.ofNat 64 (min (v - v % 16) 128) ∧ (t 0x11).sysRead cid 0x11 = BitVec.ofNat 64 (min v 1023) ∧
    (t 0x12).sysRead cid 0x12 = BitVec.ofNat 64 (v % 16) ∧
    (∀ k, (8 ≤ k ∧ k ≤ 0x0F) ∨ 0x13 ≤ k → t k = s) ∧
    (let c := s.ctx cid
     let d := (t 0x00).ctx cid
     let g := v / 256 % 4
     d.grnd = (if g = 0 then c.grnd else g) ∧ d.mode = c.mode ∧ d.phase = c.phase ∧
     (c.mode = 0 → d.field 4 2 = c.field 4 2 ∧ d.ie = c.ie ∧ d.field 6 1 = c.field 6 1 ∧ d.field 16 12 = c.field 16 12) ∧
     (c.mode ≠ 0 → d.field 3 1 = v / 8 % 2 ∧ d.field 6 1 = v / 64 % 2 ∧ d.field 16 12 = v / 2 ^ 16 % 2 ^ 12 ∧
       d.field 4 2 = (if v / 16 % 4 = 3 ∨ c.mode < v / 16 % 4 then c.field 4 2 else v / 16 % 4))))

/-! ## Vectors -/

/-- The vector arithmetic instructions complete with the element results of R282 in their active lanes, and change nothing else.
The element results of R282 and R283 on integer lanes: they wrap, and .sat clamps a sum.
VCMP and VSEL (R284): the mask has a bit for every active lane that meets the condition; VSEL chooses by kC, with no execution mask.
Model's choices that it rests on: log entry 14. -/
def Obligations.VectorResults : Prop :=
  (ArithRule .vadd .vadd ∧ ArithRule .vsub .vsub ∧ ArithRule .vmul .vmul ∧ ArithRule .vfma .vfma ∧ ArithRule .vmin .vmin ∧
  ArithRule .vmax .vmax ∧ ArithRule .vabs .vabs ∧ ArithRule .vneg .vneg ∧ ArithRule .vand .vand ∧ ArithRule .vor .vor ∧
  ArithRule .vxor .vxor ∧ ArithRule .vshl .vshl ∧ ArithRule .vshr .vshr ∧ ArithRule .vsar .vsar ∧ ArithRule .vrcp .vrcp ∧
  ArithRule .vrsq .vrsq ∧ ArithRule .vexp2 .vexp2 ∧ ArithRule .vlog2 .vlog2) ∧
  (let sg (t : TCode) (w : Nat) (x y : BitVec w) : Bool := if t = .i8 ∨ t = .i16 ∨ t = .i32 then x.slt y else x.ult y
  IntLane .vadd (fun _ _ x y _ => x + y) ∧ IntLane .vsub (fun _ _ x y _ => x - y) ∧ IntLane .vmul (fun _ _ x y _ => x * y) ∧
  IntLane .vfma (fun _ _ x y z => x * y + z) ∧ IntLane .vand (fun _ _ x y _ => x &&& y) ∧ IntLane .vor (fun _ _ x y _ => x ||| y) ∧
  IntLane .vxor (fun _ _ x y _ => x ^^^ y) ∧ IntLane .vshl (fun _ w x y _ => x <<< (y.toNat % w)) ∧
  IntLane .vshr (fun _ w x y _ => x >>> (y.toNat % w)) ∧ IntLane .vsar (fun _ w x y _ => x.sshiftRight (y.toNat % w)) ∧
  IntLane .vmin (fun t w x y _ => if sg t w x y then x else y) ∧ IntLane .vmax (fun t w x y _ => if sg t w x y then y else x) ∧
  ∀ (t : TCode) (rm : Rnd) (x y : Nat), x < 2 ^ t.laneW → y < 2 ^ t.laneW →
    (t ∈ [TCode.u8, .u16, .u32] → laneOp .vadd t rm true x y 0 = min (x + y) (2 ^ t.laneW - 1)) ∧
    (t ∈ [TCode.i8, .i16, .i32] → laneOp .vadd t rm true x y 0 =
      (clampS t.laneW ((BitVec.ofNat t.laneW x).toInt + (BitVec.ofNat t.laneW y).toInt)).toNat)) ∧
  (MaskRule .vcmp .vcmp (fun s o e =>
    let t := s.laneType o
    let w := t.laneW
    decide (e < 1024 / w) && s.active o.k e &&
      if TCode.isFloat t then fCond t o.fn (src s w o.a e) (src s w o.b e) else intCond w (TCode.signed t) o.fn (src s w o.a e) (src s w o.b e)) ∧
  ∀ h o s, Goes .vsel h o true s → ∃ t, exec (.vsel h o) s = .next t ∧ VecOnly [o.d] s t ∧
    let w := (s.laneType o).laneW
    ∀ e, e < 1024 / w → laneNow t w (phys s o.d) e = TCode.held (s.laneType o) (if bitOf (s.kreg o.c.num) e then src s w o.a e else src s w o.b e) % 2 ^ w)

/-- Lane movement completes with the lanes that R288 and R289 name: VSHUF picks from vA and vB by the low bits of vC, VSHUFI by its rule, VBCAST
and VBCAST.lane give one value to every active lane, VIOTA a ramp of integers; VMOVS and VMOVS.v move one lane to and from
a scalar, without a mask; TF19 elements move with their low 13 bits zero (R125).
Reductions, scans, votes, matches and counts complete with the values of R287 and R290 to R292 over the groups that MX names.
Model's choices that it rests on: log entry 42. -/
def Obligations.LaneMovement : Prop :=
  (let ty (_ : State) (o : Ops) : TCode := o.t
  LaneRule .vshuf .vshuf ty (fun s o e =>
    let w := o.t.laneW
    let j := src s w o.c e % (2 * (1024 / w))
    TCode.held o.t (if j < 1024 / w then src s w o.a j else src s w o.b (j - 1024 / w))) ∧
  LaneRule .vshufi .vshufi ty (fun s o e =>
    let w := o.t.laneW
    let j := shufIndex (match o.b with | .imm x => x | _ => 0) (1024 / w) e
    TCode.held o.t (if j < 1024 / w then src s w o.a j else 0)) ∧
  LaneRule .vbcast .vbcast ty (fun s o _ => TCode.held o.t ((s.arg o.a).toNat % 2 ^ o.t.laneW)) ∧
  LaneRule .vbcastLane .vbcastLane ty (fun s o _ => TCode.held o.t (src s o.t.laneW o.a ((s.arg o.b).toNat % (1024 / o.t.laneW)))) ∧
  LaneRule .viota .viota ty (fun s o e => (s.arg o.a).toNat + e * (s.arg o.b).toNat) ∧
  Completes .vmovs .vmovs atHome always (fun o s =>
    s.setS o.d (extendT o.t (TCode.held o.t (src s o.t.laneW o.a ((s.arg o.b).toNat % (1024 / o.t.laneW)))))) ∧
  (∀ h o s, Goes .vmovsV h o true s → ∃ t, exec (.vmovsV h o) s = .next t ∧ VecOnly [o.d] s t ∧
    let w := o.t.laneW
    ∀ e, e < 1024 / w → laneNow t w (phys s o.d) e =
      if e = (s.arg o.b).toNat % (1024 / w) then TCode.held o.t ((s.arg o.a).toNat % 2 ^ w) else laneNow s w (phys s o.d) e) ∧
  ∀ (h : Hdr) (o : Ops), (o.t.intLane = false → (Instr.viota h o).wf = false) ∧ (o.k ≠ 0 → (Instr.vmovsV h o).wf = false)) ∧
  (let ty (_ : State) (o : Ops) : TCode := o.t
  LaneRule .vred .vred ty (fun s o e => ((s.groups o (groupSize o)).flatMap (redGroup false o)).getD e 0) ∧
  LaneRule .vscan .vscan ty (fun s o e => ((s.groups o (groupSize o)).flatMap (redGroup true o)).getD e 0) ∧
  Completes .vvote .vvote atHome always (fun o s => s.setKreg o.d (groupMask (s.groups o (groupSize o)) fun g _ v => voteBit o.fn g v)) ∧
  Completes .vmatch .vmatch atHome always (fun o s => s.setKreg o.d (groupMask (s.groups o (groupSize o)) (matchBit o.fn))) ∧
  Completes .vmatchLeader .vmatchLeader atHome always (fun o s => s.writeVec o.k o.t.laneW o.d 1
    ((s.groups o (groupSize o)).flatMap fun g => g.map fun x => match x with | some v => leaderOf g v | none => 0)) ∧
  Completes .vpopc .vpopc atHome always (fun o s => s.setS o.d (word ((s.popBits o).count true))) ∧
  Completes .vpopcPre .vpopcPre atHome always (fun o s =>
    s.writeVec o.k o.t.laneW o.d 1 ((List.range (s.popBits o).length).map fun i => ((s.popBits o).take i).count true)))

/-- The mask operations complete with the masks of R293; a code above 10, a type or a K is no instruction. -/
def Obligations.MaskOperations : Prop :=
  MaskRule .kopLogic .kopLogic (fun s o e =>
    let a := bitOf (s.kreg o.a.num) e
    let b := bitOf (s.kreg o.b.num) e
    match o.fn with | 0 => a && b | 1 => a || b | 2 => a != b | _ => a && !b) ∧
  MaskRule .kopNot .kopNot (fun s o e => !bitOf (s.kreg o.a.num) e) ∧
  MaskRule .kopMov .kopMov (fun s o e => bitOf (s.kreg o.a.num) e) ∧
  MaskRule .kopSet .kopSet (fun s o e => if e < 64 then (s.arg o.a).getLsbD e else (s.arg o.b).getLsbD (e - 64)) ∧
  MaskRule .kopLen .kopLen (fun s o e => decide (e < (s.arg o.a).toNat)) ∧
  MaskRule .kopFirst .kopFirst (fun s o e => bitOf (s.kreg o.a.num) e && (List.range e).all fun i => !bitOf (s.kreg o.a.num) i) ∧
  Completes .kopLo .kopLo atHome always (fun o s => s.setS o.d (word (s.kreg o.a.num % 2 ^ 64))) ∧
  Completes .kopHi .kopHi atHome always (fun o s => s.setS o.d (word (s.kreg o.a.num / 2 ^ 64))) ∧
  ∀ (h : Hdr) (o : Ops), 11 ≤ o.fn ∨ o.t ≠ .i8 ∨ o.k ≠ 0 →
    ∀ i ∈ [Op.kopLogic, .kopNot, .kopMov, .kopSet, .kopLen, .kopFirst, .kopLo, .kopHi], wfParts i h o .zero = false

/-- Conversion and packing complete with the elements of R300 to R303.
VMVP (R294) completes where both operands lie in local memory: 128 dot products added to the group vD, and the flags in sC.
Model's choices that it rests on: log entries 20, 21, 38, 42, 53. -/
def Obligations.Conversions : Prop :=
  (let conv (i : Op) (mk : Hdr → Ops → Instr) : Prop := Completes i mk atHome always (fun o s =>
    let from' := convSource i s.me
    let g := convGroups from' o.t
    s.writeVec o.k o.t.laneW o.d g.2 ((s.vgroup from'.laneW o.a.num g.1).map
      (convElem i from' o.t (s.me.pfxRnd o.rm) o.sat ((s.arg o.b).toNat % 2 ^ 32))))
  conv .vcvt .vcvt ∧ conv .vqnt .vqnt ∧ conv .vdqnt .vdqnt ∧
  Completes .vamax .vamax atHome always (fun o s =>
    let w := o.t.laneW
    let es := ((s.actives o.k (2 ^ o.mx * (1024 / w))).zip (s.vgroup w o.a.num (2 ^ o.mx))).filterMap fun x => if x.1 then some x.2 else none
    s.setS o.d (word (es.foldl (maxMag o.t) 0))) ∧
  Completes .vpack .vpack atHome always (fun o s =>
    let g := packGroups o.t
    s.setVgroup 32 o.d g.2 (lanesOf 32 (32 * g.2) (ofLanes (TCode.width o.t) (s.vgroup 8 o.a.num g.1)))) ∧
  Completes .vunpk .vunpk atHome always (fun o s =>
    let g := packGroups o.t
    s.setVgroup 8 o.d g.1 ((lanesOf (TCode.width o.t) (128 * g.1) (ofLanes 32 (s.vgroup 32 o.a.num g.2))).map (laneOut o.t)))) ∧
  (∀ h o s, Goes .vmvp h o true s → s.unwatched →
    let ra := rowBytes o.t
    let tw := s.vmvpFmt o
    let rw := rowBytes tw
    let pa := (s.arg o.a).toNat
    let pb := (s.arg o.b).toNat
    let core := coreNo s.cur
    s.vecSpan pa ra 4 .load = none → s.vecSpan pb (128 * rw) 4 .load = none → s.poisonAt (ptrOffset pa) ra = none →
    s.poisonAt (ptrOffset pb) (128 * rw) = none →
    let c := s.me.sreg o.c.num
    let r := rowStep o.t tw (s.me.pfxRnd o.rm) o.sat (o.mx = 1) (scaleVal (s.me.pfxLive && s.me.pfxScm = 1) (c.toNat % 2 ^ 32))
      (s.vgroup 32 o.d 4) (packedElems o.t 128 (s.readLocal core (ptrOffset pa) ra))
      ((List.range 128).map fun k => packedElems tw 128 (s.readLocal core (ptrOffset pb + k * rw) rw))
    exec (.vmvp h o) s = .next (((s.setVgroup 32 o.d 4 r.1).setS o.c.num (setField c 32 4 (bits c.toNat 32 4 ||| r.2.toNat))).after
      .vmvp (lenOf .vmvp h o)))

/-- The vector loads complete where every active lane passes: each takes its own bytes of local memory, inactive lanes are merged or
zeroed, and nothing else changes (R296, R298).
The vector stores complete where every active lane passes: the active lanes' bytes, a later lane's over an earlier one's, and no
other byte of memory (R296, R298).
Model's choices that it rests on: log entries 22, 42. -/
def Obligations.VectorMemory : Prop :=
  ((∀ h o s, Goes .vld h o true s → s.unwatched → (s.addr o).toNat % 4 = 0 →
    let w := o.t.laneW
    let offs := strided (s.addr o).toNat ((w / 8 : Nat) : Int) (1024 / w)
    LanesPass s (s.addr o).toNat (w / 8) false 1 (s.actives o.k (1024 / w)) offs →
    ∃ t, exec (.vld h o) s = .next t ∧ VecLoad o offs s t) ∧
  (∀ h o s, Goes .vlds h o true s → s.unwatched → (s.addr o).toNat % (o.t.laneW / 8) = 0 → (s.arg o.c).toInt % (o.t.laneW / 8 : Nat) = 0 →
    let w := o.t.laneW
    let offs := strided (s.addr o).toNat (s.arg o.c).toInt (1024 / w)
    LanesPass s (s.addr o).toNat (w / 8) false 1 (s.actives o.k (1024 / w)) offs →
    ∃ t, exec (.vlds h o) s = .next t ∧ VecLoad o offs s t) ∧
  (∀ h o s, Goes .vgath h o true s → s.unwatched → Op.vgath.row.t.contains o.t = true →
    let w := o.t.laneW
    let offs := (s.vgroup 32 o.b.num (1024 / w / 32)).map fun (x : Nat) => localBase (s.arg o.a).toNat + x
    LanesPass s (s.arg o.a).toNat (w / 8) false (w / 8) (s.actives o.k (1024 / w)) offs →
    ∃ t, exec (.vgath h o) s = .next t ∧ VecLoad o offs s t) ∧
  (∀ h o s, Goes .vldb h o true s → s.unwatched → (s.actives o.k (1024 / o.t.laneW)).any id = true →
    let w := o.t.laneW
    let p := (s.addr o).toNat
    s.vecSpan p (w / 8) (w / 8) .load = none → s.poisonAt (ptrOffset p) (w / 8) = none →
    ∃ t, exec (.vldb h o) s = .next t ∧ VecLoad o (List.replicate (1024 / w) (localBase p)) s t)) ∧
  ((∀ h o s, Goes .vst h o true s → s.unwatched → (s.addr o).toNat % 4 = 0 →
    let w := o.t.laneW
    let offs := strided (s.addr o).toNat ((w / 8 : Nat) : Int) (1024 / w)
    LanesPass s (s.addr o).toNat (w / 8) true 1 (s.actives o.k (1024 / w)) offs →
    ∃ t, exec (.vst h o) s = .next t ∧ VecStore o offs s t) ∧
  (∀ h o s, Goes .vsts h o true s → s.unwatched → (s.addr o).toNat % (o.t.laneW / 8) = 0 →
    (s.me.sreg o.d).toInt % (o.t.laneW / 8 : Nat) = 0 →
    let w := o.t.laneW
    let offs := strided (s.addr o).toNat (s.me.sreg o.d).toInt (1024 / w)
    LanesPass s (s.addr o).toNat (w / 8) true 1 (s.actives o.k (1024 / w)) offs →
    ∃ t, exec (.vsts h o) s = .next t ∧ VecStore o offs s t) ∧
  (∀ h o s, Goes .vscat h o true s → s.unwatched → Op.vscat.row.t.contains o.t = true →
    let w := o.t.laneW
    let offs := (s.vgroup 32 o.b.num (1024 / w / 32)).map fun (x : Nat) => localBase (s.arg o.a).toNat + x
    LanesPass s (s.arg o.a).toNat (w / 8) true (w / 8) (s.actives o.k (1024 / w)) offs →
    ∃ t, exec (.vscat h o) s = .next t ∧ VecStore o offs s t))

/-- VTLD (R297), VLDRG and VSTRG (R298) complete where their record is bound and passes and no valid lane fails;
the group of a ragged record is read first (R434);
VSTRG stores each valid lane's value in its cell, a later lane's over an earlier one's, and no byte outside the cells.
Model's choices that it rests on: log entries 22, 42, 44. -/
def Obligations.TileAndRegionLanes : Prop :=
  (∀ h o s r w cols, Goes .vtld h o true s → s.unwatched → s.tsr s.cur o.c.num = some r → vtldShape r = .inl (w, cols) →
    o.d % cols = 0 → o.d + cols ≤ 64 → (s.addr o).toNat % 4 = 0 → r.stride.getD 0 0 % 4 = 0 →
    let act := s.actives o.k (1024 / w)
    let offs := strided (s.addr o).toNat (r.stride.getD 0 0) (1024 / w)
    LanesPass s (s.addr o).toNat (cols * w / 8) false 1 act offs →
    exec (.vtld h o) s = .next ((s.writeCols o.k w ((act.zip offs).map fun x =>
      if x.1 then s.localNat (coreNo s.cur) x.2 (cols * w / 8) else 0) o.d 0 cols).after .vtld (lenOf .vtld h o))) ∧
  ∀ h o s r (st : Bool) (rag : Nat × Nat), Goes (if st then .vstrg else .vldrg) h o true s → s.unwatched →
    let g := s.region s.cur o.a.num
    let w := r.fmt.laneW
    let n := 1024 / w
    let start := s.point o.b.num g.rank
    let cells := laneCells g r rag start n
    let valid := ((s.actives o.k n).zip cells).map fun x => x.1 && x.2.isSome
    let offs := cells.map fun c => localBase r.base + (match c with | some c => c.rel | none => 0)
    let len := match cells.findSome? id with | some c => c.len | none => 1
    s.tsr s.cur g.tsr = some r → r.fmt ≠ .i64 →
    (ragNeeded g r start n = none ∧ rag = (0, 0)) ∨ (∃ k, ragNeeded g r start n = some k ∧ s.ragRead s.cur r k = .ok rag.1 rag.2) →
    LanesPass s r.base len st 1 valid offs → (∀ e, valid.getD e false = true → s.granted s.cur r (lanePoint start e) st = true) →
    (st = false → 8 ≤ TCode.width r.fmt → ∃ t, exec (.vldrg h o) s = .next t ∧ tget 0 t.myCore.k o.c.num = BitVec.ofNat 128 (maskOf valid) ∧
      (∀ l, readByte t.mem l = readByte s.mem l) ∧ ∀ e, e < n → laneNow t w (phys s o.d) e =
        if valid.getD e false then TCode.held r.fmt (s.localNat (coreNo s.cur) (offs.getD e 0) (w / 8)) % 2 ^ w else 0) ∧
    (st = true → r.ro = false → ∃ t, exec (.vstrg h o) s = .next t ∧ t.myCore.v = s.myCore.v ∧
      (∀ e c, cells.getD e none = some c → valid.getD e false = true →
        let at_ (e : Nat) (c : Cell) : Nat := 8 * (offs.getD e 0).toNat + c.off
        (∀ e' c', e < e' → cells.getD e' none = some c' → valid.getD e' false = true → at_ e c + c.wid ≤ at_ e' c' ∨ at_ e' c' + c'.wid ≤ at_ e c) →
        c.get (readBytes t.mem (locLocal (coreNo s.cur) (offs.getD e 0).toNat) c.len) = TCode.held r.fmt (laneNow s w (phys s o.c.num) e) % 2 ^ c.wid) ∧
      ∀ a, (∀ e, e < n → valid.getD e false = true →
          a < locLocal (coreNo s.cur) 0 + (offs.getD e 0).toNat ∨ locLocal (coreNo s.cur) 0 + (offs.getD e 0).toNat + len ≤ a) →
        readByte t.mem a = readByte s.mem a)

/-! ## Regions -/

/-- The instructions that make and combine regions complete with the results of R309 to R321, rounded to BL boxes in the direction in force
(R306), or raise REGION_OVERFLOW with the exact box count under TRAP (R435); GLAT raises REGION_LATTICE for a pair of lattices that R115 does not
accept (R321, R436).
Model's choices that it rests on: log entries 23, 40, 61. -/
def Obligations.RegionResults : Prop :=
  (∀ h o s t, GoesG .gclr h o s → s.tsr s.cur o.a.num = some t → s.ownsRegion o.d = true →
    exec (.gclr h o) s = .next ((s.setRegion o.d { newRegion o.a.num t.rank with owner := ctxNo s.cur }).after .gclr (lenOf .gclr h o))) ∧
  (∀ h o s t, GoesG .gmk h o s → s.tsr s.cur o.a.num = some t →
    let r := newRegion o.a.num t.rank
    RegionResult .gmk h o s 0 0 r (canon r.lattice [s.boxAt o.b.num t.rank]) (exec (.gmk h o) s)) ∧
  (∀ h o x s t lat, GoesG .gmki h o s → s.tsr s.cur o.a.num = some t → gmkiLat x.imm t.rank = .inr lat →
    let r := { newRegion o.a.num t.rank with lat := lat }
    RegionResult .gmki h o s 0 0 r (canon r.lattice [s.boxAt o.b.num t.rank]) (exec (.gmki h o x) s)) ∧
  (∀ h o s, GoesG .gmkApp h o s → s.ownsRegion o.d = true →
    let g := s.region s.cur o.d
    let b := s.boxAt o.b.num g.rank
    (b.any Ival.isEmpty = true → exec (.gmkApp h o) s = .next (s.after .gmkApp (lenOf .gmkApp h o))) ∧
    (b.any Ival.isEmpty = false → g.boxes.length < 16 → exec (.gmkApp h o) s =
      .next ((s.setRegion o.d { g with boxes := g.boxes ++ [b], canon := false, owner := ctxNo s.cur }).after .gmkApp (lenOf .gmkApp h o))) ∧
    (b.any Ival.isEmpty = false → 16 ≤ g.boxes.length →
      RegionResult .gmkApp h o s 0 0 g (canon g.lattice (g.boxes ++ [b])) (exec (.gmkApp h o) s))) ∧
  (∀ h o s, GoesG .gmov h o s → s.ownsRegion o.d = true → exec (.gmov h o) s =
    .next ((s.setRegion o.d { s.region s.cur o.a.num with owner := ctxNo s.cur }).after .gmov (lenOf .gmov h o))) ∧
  (let bin (i : Op) (mk : Hdr → Ops → Ext → Instr) : Prop :=
    ∀ h o x s (lat : Machine.Lat) bs, GoesG i h o s →
      let a := s.region s.cur o.a.num
      let e := s.region s.cur x.g2
      regionBinary i a e = .inr (lat, bs) →
      RegionResult i h o s x.bl x.gr { a with lat := latExps lat, inx := a.inx || e.inx, rag := a.rag || e.rag } bs (exec (mk h o x) s)
   bin .guni .guni ∧ bin .gint .gint ∧ bin .gsub .gsub) ∧
  (∀ h o x s, GoesG .gero h o s →
    let a := s.region s.cur o.a.num
    RegionResult .gero h o s x.bl x.gr a (erodeBoxes a.lattice (amounts x.imm a.rank) a.boxes) (exec (.gero h o x) s)) ∧
  (∀ h o x s, GoesG .gcan h o s →
    let a := s.region s.cur o.a.num
    RegionResult .gcan h o s x.bl x.gr a a.canonical (exec (.gcan h o x) s)) ∧
  (∀ h o s, GoesG .ghul h o s →
    let a := s.region s.cur o.a.num
    RegionResult .ghul h o s 0 0 a (hullBox a.lattice a.boxes).toList (exec (.ghul h o) s)) ∧
  (∀ h o s, GoesG .glatUnit h o s →
    let a := s.region s.cur o.a.num
    let r := { a with lat := List.replicate a.rank (0, 0) }
    RegionResult .glatUnit h o s 0 0 r (canon r.lattice (expandSlabs a.lattice a.full)) (exec (.glatUnit h o) s)) ∧
  (∀ h o s (l : List (Nat × Nat)), GoesG .glat h o s →
    let a := s.region s.cur o.a.num
    glatLat (s.arg o.b).toNat a.rank = .inr l →
    let m : Machine.Lat := l.map fun y => (2 ^ y.1, y.2)
    let x := interLat a.lattice m
    (a.lattice = m ∨ a.lattice.isUnit = true ∨ m.isUnit = true →
      RegionResult .glat h o s 0 0 { a with lat := latExps x.1 } (if x.2 then canon x.1 a.boxes else []) (exec (.glat h o) s)) ∧
    (a.lattice ≠ m → a.lattice.isUnit = false → m.isUnit = false → s.ownsRegion o.d = true → exec (.glat h o) s =
      .next (s.takeTrap s.cur .exact 0x0D (lenOf .glat h o / 4) s.me.pc (word (0x100 + (a.lattice.zip m).findIdx fun y => y.1 ≠ y.2)))))

/-- The instructions that reshape regions complete with the results of R315 to R318 and R322: GDIL dilates, GDIL.clip clips what it dilates to the
record, GTRN moves boxes and phases, GPRJ
keeps the dimensions of a mask, GSPL splits into two regions, GRAG clips to the record; a clip to a
ragged record reads its groups through the context's view, and those reads count as uses of their translations (R80, R434).
A write to a region register of another context of the core raises ACCESS with XVAL 0 (R110, R438). A region instruction waits while the
region unit is busy with a GLD (R305).
Model's choices that it rests on: log entries 23, 44. -/
def Obligations.RegionReshaping : Prop :=
  ((∀ h o x s, GoesG .gdil h o s → o.mx ≠ 1 →
    let a := s.region s.cur o.a.num
    let r := cutRange a.lattice (a.full.map (dilateBox a.lattice (amounts x.imm a.rank)))
    RegionResult .gdil h o s x.bl x.gr { a with inx := a.inx || r.2 } r.1 (exec (.gdil h o x) s)) ∧
  (∀ h o x s, GoesG .gtrn h o s →
    let a := s.region s.cur o.a.num
    let t := s.point o.b.num a.rank
    let a' := { a with lat := (a.lat.zip t).map fun (y : (Nat × Nat) × Int) => (y.1.1, ((y.1.2 + y.2) % 2 ^ y.1.1).toNat) }
    let r := cutRange a'.lattice (a.boxes.map fun b => (b.zip t).map fun y => (y.1.1 + y.2, y.1.2 + y.2))
    RegionResult .gtrn h o s x.bl x.gr { a' with inx := a.inx || r.2 } r.1 (exec (.gtrn h o x) s)) ∧
  (∀ h o x s t, GoesG .gprj h o s → s.tsr s.cur x.t1 = some t →
    let a := s.region s.cur o.a.num
    let mask := bits x.imm 0 4
    let lat := keepDims mask a.lat
    ((List.range 4).filter (bitOf mask)).find? (a.rank ≤ ·) = none → lat.length = t.rank →
    let r := { a with tsr := x.t1, rank := lat.length, lat := lat }
    RegionResult .gprj h o s x.bl x.gr r (canon r.lattice (a.full.map (keepDims mask))) (exec (.gprj h o x) s)) ∧
  (∀ h o x s lo hi, GoesG .gspl h o s → s.ownsRegion o.d = true → s.ownsRegion x.g2 = true →
    let a := s.region s.cur o.a.num
    let d := bits x.imm 0 2
    let c := if o.mx = 1 then splitVol a.lattice a.canonical d else (s.arg o.b).toInt
    let parts := splitAt a.lattice a.canonical d c
    d < a.rank → roundRegion x.bl (s.gdir x.gr) a parts.1 = .inr lo → roundRegion x.bl (s.gdir x.gr) a parts.2 = .inr hi →
    exec (.gspl h o x) s = .next (((s.setRegion o.d { lo with owner := ctxNo s.cur }).setRegion x.g2 { hi with owner := ctxNo s.cur }).after
      .gspl (lenOf .gspl h o))) ∧
  (∀ h o x s t gs, GoesG .gdil h o s → s.unwatched → o.mx = 1 → s.ownsRegion o.d = true →
    let a := s.region s.cur o.a.num
    let r := cutRange a.lattice (a.full.map (dilateBox a.lattice (amounts x.imm a.rank)))
    let rag := clipGroups a r.1 t
    s.tsr s.cur a.tsr = some t → s.ragMany t rag = .inr gs →
    RegionResult .gdil h o (s.touchMany s.cur (rag.flatMap (s.ragPlaces s.cur t))) x.bl x.gr { a with inx := a.inx || r.2 }
      (boxesInter a.lattice r.1 (clipBoxes t a.rank gs)) (exec (.gdil h o x) s)) ∧
  (∀ h o s t gs, GoesG .grag h o s → s.unwatched → s.ownsRegion o.d = true →
    let a := s.region s.cur o.a.num
    let rag := clipGroups a a.boxes t
    s.tsr s.cur a.tsr = some t → s.ragMany t rag = .inr gs →
    RegionResult .grag h o (s.touchMany s.cur (rag.flatMap (s.ragPlaces s.cur t))) 0 0 { a with rag := a.rag || t.ragged }
      (boxesInter a.lattice a.boxes (clipBoxes t a.rank gs)) (exec (.grag h o) s))) ∧
  (let busy (i : Op) (mk : Hdr → Ops → Instr) : Prop := Waits i mk atHome (fun _ s => s.regionBusy s.cur = true) (fun _ s => s)
  let bar (i : Op) (mk : Hdr → Ops → Instr) : Prop := Traps i mk atHome (fun o s => regionFree o s ∧ s.ownsRegion o.d = false) 0x07 (fun _ _ => 0)
  (∀ (s : State) (n : Nat), isCompute s.cur = true → (s.ownsRegion n = true ↔ (s.region s.cur n).owner = s.cur % 16)) ∧
  busy .gmov .gmov ∧ busy .gvol .gvol ∧ busy .gst .gst ∧
  bar .gmov .gmov ∧ bar .gmkApp .gmkApp ∧ bar .gld .gld ∧ bar .ghul .ghul ∧ bar .glat .glat ∧ bar .glatUnit .glatUnit ∧
  (∀ h o x s, GoesG .guni h o s → s.ownsRegion o.d = false →
    exec (.guni h o x) s = .next (s.takeTrap s.cur .exact 0x07 (lenOf .guni h o / 4) s.me.pc 0)) ∧
  (∀ h o s, GoesG .gown h o s → s.ownsRegion o.a.num = true → (s.arg o.b).toNat ≤ 10 → exec (.gown h o) s =
    .next ((s.setRegion o.a.num { s.region s.cur o.a.num with owner := (s.arg o.b).toNat }).after .gown (lenOf .gown h o))) ∧
  ∀ h o s, GoesG .gown h o s → s.ownsRegion o.a.num = true → 10 < (s.arg o.b).toNat →
    exec (.gown h o) s = .next (s.takeTrap s.cur .exact 0x07 (lenOf .gown h o / 4) s.me.pc 0))

/-- The instructions that read regions complete with the values of R321 and R323 to R327; they write no region.
GST and GLD (R111, R312): GLD completes from memory at hand with the region that 544 bytes hold and waits for global memory, of which a lost line raises
PAGE_UNSERVICEABLE (R425, R454), GST to local
memory with the bytes of the region; and the bytes of a well-formed region load back as that region, CANON kept for a canonical form.
Model's choices that it rests on: log entries 17, 22, 25. -/
def Obligations.RegionQueries : Prop :=
  (RegionRead .gvol .gvol (fun _ _ a => word (min (volume a.lattice a.canonical) (2 ^ 64 - 1))) ∧
  RegionRead .gnbx .gnbx (fun _ _ a => word (packBits [(8, a.boxes.length), (1, a.canon.toNat), (1, a.inx.toNat), (1, a.isEmpty.toNat),
    (1, a.rag.toNat), (4, a.rank), (6, a.tsr)])) ∧
  RegionRead .glatRd .glatRd (fun _ _ a => word (packBits ((List.range 4).map (fun d => (4, (a.lat.getD d (0, 0)).1)) ++
    (List.range 4).map fun d => (8, (a.lat.getD d (0, 0)).2)))) ∧
  Completes .gbox .gbox atHome regionFree (fun o s => s.setMe (s.me.setGroup o.d ((List.range 4).map fun d =>
    match ((s.region s.cur o.a.num).boxes[(s.arg o.b).toNat % 16]?).bind (·[d]?) with
    | some i => word (wrap 32 i.1 + 2 ^ 32 * wrap 32 i.2) | none => 0))) ∧
  (∀ (h : Hdr) (o : Ops), 60 < o.d → (Instr.gbox h o).wf = false) ∧
  Completes .gwalk .gwalk atHome (fun o s => regionFree o s ∧ findRun (s.region s.cur o.a.num).lattice (s.region s.cur o.a.num).boxes (s.arg o.b).toNat = none)
    (fun o s => s.setMe (s.me.setGroup o.d [0, 0, 0])) ∧
  (∀ h o s (x : List Int) n, GoesG .gwalk h o s →
    findRun (s.region s.cur o.a.num).lattice (s.region s.cur o.a.num).boxes (s.arg o.b).toNat = some (x, n) →
    exec (.gwalk h o) s = .next ((s.setMe (s.me.setGroup o.d [word (wrap 32 (x.getD 0 0) + 2 ^ 32 * wrap 32 (x.getD 1 0)),
      word (wrap 32 (x.getD 2 0) + 2 ^ 32 * wrap 32 (x.getD 3 0)), word n])).after .gwalk (lenOf .gwalk h o))) ∧
  Completes .gtstPt .gtstPt atHome regionFree (fun o s =>
    let a := s.region s.cur o.a.num
    s.setP o.d (a.boxes.any fun b => boxHas a.lattice b (s.point o.b.num a.rank))) ∧
  (let test (i : Op) (mk : Hdr → Ops → Instr) (f : Region → Region → Bool) : Prop :=
    Completes i mk atHome (fun o s => regionFree o s ∧ (s.region s.cur o.a.num).rank = (s.region s.cur o.b.num).rank)
      (fun o s => s.setP o.d (f (s.region s.cur o.a.num) (s.region s.cur o.b.num))) ∧
    Traps i mk atHome (fun o s => regionFree o s ∧ (s.region s.cur o.a.num).rank ≠ (s.region s.cur o.b.num).rank) 0x0D (fun _ _ => 0x1FF)
   test .gtstOvl .gtstOvl (fun a b => (sharedPoints a b).2 ≠ []) ∧ test .gtstSub .gtstSub regionSub ∧
   test .gtstEq .gtstEq (fun a b => regionSub a b && regionSub b a))) ∧
  ((∀ h o s (as : List Access) r, GoesG .gld h o s → s.ownsRegion o.d = true → s.unwatched →
    let p := (s.addr o).toNat
    (∀ n v, s.access s.cur p 32 .load ≠ .cause n v) → pastEnd p = false → s.pieces s.cur p .load 17 0 = .inr as →
    (as.any fun a => s.lostLoc (a.at s.cur) || s.portDown (a.at s.cur)) = false → (as.any fun a => s.poisoned (a.at s.cur) 32) = false → regionOfBytes (as.flatMap (s.pieceBytes s.cur)) (ctxNo s.cur) = .inr r →
    (as.any fun a => 3 * 2 ^ 48 ≤ a.at s.cur && s.refreshing (a.at s.cur)) = false →
    (2 < spaceCode p → exec (.gld h o) s = .next ((s.setRegion o.d r).after .gld (lenOf .gld h o))) ∧
    (spaceCode p ≤ 2 →
      let t := s.touchMany s.cur ((List.range 17).map fun i => p + 32 * i)
      exec (.gld h o) s = .next (waiting (t.setMe { t.me with wait := .gload o.d r p (as.map (·.at s.cur)) }) (lenOf .gld h o)))) ∧
  (∀ h o s (as : List Access), GoesG .gld h o s → s.ownsRegion o.d = true →
    let p := (s.addr o).toNat
    (∀ n v, s.access s.cur p 32 .load ≠ .cause n v) → pastEnd p = false → s.pieces s.cur p .load 17 0 = .inr as →
    (as.any fun a => s.lostLoc (a.at s.cur) || s.portDown (a.at s.cur)) = true →
    exec (.gld h o) s = .next (s.takeTrap s.cur .exact 0x06 (lenOf .gld h o / 4) s.me.pc (word p))) ∧
  (∀ h o s (as : List Access), GoesG .gst h o s → s.unwatched →
    let p := (s.addr o).toNat
    (∀ n v, s.access s.cur p 32 .store ≠ .cause n v) → pastEnd p = false → s.pieces s.cur p .store 17 0 = .inr as → spaceCode p = 3 →
    exec (.gst h o) s = .next ((s.poke (locLocal (coreNo s.cur) (ptrOffset p)) (regionBytes (s.region s.cur o.c.num) (ctxNo s.cur))).after
      .gst (lenOf .gst h o))) ∧
  ∀ (g : Region) (owner owner' : Nat), g.tsr < 64 → 1 ≤ g.rank → g.rank ≤ 4 → g.lat.length = g.rank → owner < 256 →
    (∀ l ∈ g.lat, l.1 ≤ 8 ∧ l.2 < 2 ^ l.1) → g.boxes.length ≤ 16 →
    (∀ b ∈ g.boxes, b.length = g.rank ∧ ∀ i ∈ b, -(2 ^ 31) ≤ i.1 ∧ i.1 < 2 ^ 31 ∧ -(2 ^ 31) ≤ i.2 ∧ i.2 < 2 ^ 31) →
    regionOfBytes (regionBytes g owner) owner' =
      .inr { g with canon := g.canon && decide (g.canonical = g.boxes), owner := owner' })

/-! ## Engines -/

/-- XGET, XSEND, XCOPY and XCNT complete by placing a transfer whose checks have passed, in its queue or, for a send of a phased launch to
another core, among what the exchange phase moves (R252 to R255, R257); with the table or the journal full they wait at issue.
XMMA (R159, R256) completes by placing its transfer in qc and its MMA, not yet ready, in qm.
Model's choices that it rests on: log entries 24, 30. -/
def Obligations.TransfersPlaced : Prop :=
  (TransferRule .xget .xget .get ∧ TransferRule .xsend .xsend .send ∧ TransferRule .xcopy .xcopy .copy ∧ TransferRule .xcnt .xcnt .cnt ∧
  HeldRule .xsend .xsend .send ∧ HeldRule .xcnt .xcnt .cnt ∧
  TransferStays .xget .xget .get ∧ TransferStays .xsend .xsend .send ∧ TransferStays .xcopy .xcopy .copy ∧ TransferStays .xcnt .xcnt .cnt) ∧
  (∀ h o x s src dst j s1 key, Goes .xmma h o true s → TransferPasses .mma o x s src dst → s.myCore.outst.length < 32 →
    s.mmaKey o = some key → s.mmaAccess (coreNo s.cur) key o.d o.c.num (bits x.imm 0 8) 1 o.t = false →
    s.openEntry 2 dst.base = some (j, s1) →
    let s2 := s1.enqueue x.q (.xfer { transferOf .mma o x s src dst with mma := some (s1.myCore.nextId + 1) }) j
    let c := s2.1.myCore
    let g := s.region s.cur o.a.num
    let s3 := s2.1.setMyCore { c with outst := c.outst ++ [⟨dst.base, (hullBox g.lattice g.boxes).getD [], x.q, s2.2⟩] }
    exec (.xmma h o x) s = .next ((s3.enqueue 1 (.mma (mmaOp o s.me.task x.imm o.d o.c.num false key s.myCore.keyTsr [0] false)) none).1.after
      .xmma (lenOf .xmma h o)))

/-- A timed slot (R258), which raises SLOT_VIOLATION with the condition that failed, marks, fences and waits (R259 to R262) complete; WAITQ and WAITG wait for what is outstanding,
and a mark waits while a refused entry of its context's journal holds its release points (R403); WAITG's walks mark the pages of what it acquires (R79).
Model's choices that it rests on: log entries 25, 45, 70. -/
def Obligations.QueueInstructions : Prop :=
  (∀ h o x s, Goes .xsts h o true s → s.slotFault (bits x.imm 0 8) (s.arg o.c).toNat = none →
    (s.arg o.c).toNat = 0 ∨
      inProgram (s.arg o.a).toNat (s.arg o.c).toNat = true ∧ inProgram (s.me.sreg o.d).toNat (s.arg o.c).toNat = true →
    let c := s.myCore
    let n := bits x.imm 0 8
    let t : TimedSend := ⟨s.me.pc, n, ((c.rows[n]?).map (·.dest)).getD 0, (s.arg o.a).toNat, (s.me.sreg o.d).toNat, (s.arg o.c).toNat, none⟩
    let y : HeldSend := ⟨c.nextId, s.cur, c.launch.getD 0, c.bdom, none, none, some t, s.me.ops + 1⟩
    exec (.xsts h o x) s = .next (((s.setMyCore { c with
      held := if (s.arg o.c).toNat = 0 then c.held else c.held ++ [y], used := (c.bdom, n) :: c.used, nextId := c.nextId + 1 }).nextOp s.cur).after
      .xsts (lenOf .xsts h o))) ∧
  (∀ h o x s k, Goes .xsts h o true s → s.slotFault (bits x.imm 0 8) (s.arg o.c).toNat = some k →
    exec (.xsts h o x) s = .next (s.takeTrap s.cur .exact 0x10 (lenOf .xsts h o / 4) s.me.pc (word (bits x.imm 0 8 + 256 * k)))) ∧
  Waits .qmark .qmark atHome (fun _ s => isCompute s.cur = true ∧ s.journalHolds s.cur = true) (fun _ s => s) ∧
  Completes .qmark .qmark atHome (fun _ s => isCompute s.cur = true → s.journalHolds s.cur = false) (fun o s =>
    let q := o.fn / 8
    let m := ((s.myCore.queue q).marks + 1) % 2 ^ 32
    let s1 := (s.enqueue q (.mark m (o.fn % 8) none) none).1
    let c := s1.myCore
    (s1.setMyCore (c.setQueue q { c.queue q with marks := m })).setS o.d (word (q + 4 * m))) ∧
  (∀ h o s, Goes .waitq h o true s →
    let w := (s.arg o.a).toNat
    let x := s.myCore.queue (w % 4)
    let m := bits w 2 32
    let open' := ∃ e ∈ x.entries, ∃ scope ds, e.op = .mark m scope ds
    let out := exec (.waitq h o) s
    (bits w 34 30 ≠ 0 → out = .next (s.takeTrap s.cur .exact 0x07 (lenOf .waitq h o / 4) s.me.pc 0)) ∧
    (bits w 34 30 = 0 → 2 ^ 31 ≤ (x.marks + 2 ^ 32 - m) % 2 ^ 32 → out = .next ((s.setS o.d 1).after .waitq (lenOf .waitq h o))) ∧
    (bits w 34 30 = 0 → (x.marks + 2 ^ 32 - m) % 2 ^ 32 < 2 ^ 31 → open' → out = .next (waiting s (lenOf .waitq h o))) ∧
    (bits w 34 30 = 0 → (x.marks + 2 ^ 32 - m) % 2 ^ 32 < 2 ^ 31 → ¬open' →
      out = .next ((s.setS o.d 0).after .waitq (lenOf .waitq h o)))) ∧
  Completes .qfence .qfence atHome always (fun o s =>
    let qs := [0, 1, 2, 3].filter (bitOf o.k)
    let after : List (Nat × Nat) := qs.flatMap fun q =>
      ((s.myCore.queue q).entries.filter fun e => !e.op.isFence).map fun e => (q, e.id)
    if after = [] then s else qs.foldl (fun t q => (t.enqueue q (.fence after) none).1) s) ∧
  (∀ h o s, Goes .waitg h o true s →
    let g := s.region s.cur o.a.num
    (s.tsr s.cur g.tsr = none ∨ g.isEmpty = true → exec (.waitg h o) s = .next (s.after .waitg (lenOf .waitg h o))) ∧
    ∀ r, s.tsr s.cur g.tsr = some r → g.isEmpty = false →
      (s.landingInto r g = true → exec (.waitg h o) s = .next (waiting s (lenOf .waitg h o))) ∧
      (s.landingInto r g = false → exec (.waitg h o) s =
        .next (((s.markCells s.cur r g).acquireCells s.cur (s.cellLocs s.cur r g)).after .waitg (lenOf .waitg h o))))

/-- Binding and protection (R106, R263 to R265): TBIND binds a record that passes R106, a global one once
its home has answered, and a helper raises HELPER_BUSY after the checks of the address and of the record (R397); GRNT takes the lowest
free entry of the grant table or answers all ones, and raises the causes of R264; GREV cuts the region out of the grant, and an inexact region
raises REGION_INEXACT_USE in both.
Model's choices that it rests on: log entries 25, 31, 54. -/
def Obligations.BindingAndGrants : Prop :=
  (∀ h o s l bs, Goes .tbind h o true s → s.unwatched → AtHand s (s.arg o.a).toNat 64 64 l bs → s.poisoned l 64 = false →
    let r := Tsr.ofNat (ofBytes bs)
    (r.fault = none → noHelper s → exec (.tbind h o) s = .next ((s.setTsr o.d (some r)).after .tbind (lenOf .tbind h o))) ∧
    (r.fault = none → isHelper s.cur = true → exec (.tbind h o) s = .next (s.takeTrap s.cur .exact 0x16 (lenOf .tbind h o / 4) s.me.pc 0)) ∧
    (∀ n, r.fault = some n → exec (.tbind h o) s = .next (s.takeTrap s.cur .exact 0x0B (lenOf .tbind h o / 4) s.me.pc (word n)))) ∧
  (∀ h o s l e, Goes .tbind h o true s → s.access s.cur (s.arg o.a).toNat 64 .load = .global l e →
    let t := s.touchTlb s.cur e
    let r := Tsr.ofNat (ofBytes (s.me.seeBytes l 64))
    t.poisoned l 64 = false → r.fault = none →
    (noHelper s → exec (.tbind h o) s = .next (waiting (t.setMe { t.me with wait := .bind o.d r (s.arg o.a).toNat l }) (lenOf .tbind h o))) ∧
    (isHelper s.cur = true → exec (.tbind h o) s = .next (t.takeTrap s.cur .exact 0x16 (lenOf .tbind h o / 4) s.me.pc 0))) ∧
  (∀ h o s n v, Goes .tbind h o true s → s.access s.cur (s.arg o.a).toNat 64 .load = .cause n v →
    exec (.tbind h o) s = .next (s.takeTrap s.cur .exact n (lenOf .tbind h o / 4) s.me.pc v)) ∧
  Completes .tunb .tunb atHome (fun _ s => noHelper s) (fun o s => s.setTsr o.d none) ∧
  Traps .tunb .tunb atHome (fun _ s => isHelper s.cur = true) 0x16 (fun _ _ => 0) ∧
  (∀ h o x s, Goes .grnt h o true s →
    (s.tsr s.cur x.t1 = none →
      exec (.grnt h o x) s = .next (s.takeTrap s.cur .exact 0x0B (lenOf .grnt h o / 4) s.me.pc (word (0x100 + x.t1)))) ∧
    ∀ t, s.tsr s.cur x.t1 = some t →
      (t.pd ≠ (s.myLaunch s.cur).pd → exec (.grnt h o x) s = .next (s.takeTrap s.cur .exact 0x07 (lenOf .grnt h o / 4) s.me.pc 0)) ∧
      (t.pd = (s.myLaunch s.cur).pd → (s.region s.cur o.a.num).inx = true →
        exec (.grnt h o x) s = .next (s.takeTrap s.cur .exact 0x0E (lenOf .grnt h o / 4) s.me.pc (word o.a.num)))) ∧
  (∀ h o x s, Goes .grev h o true s → (s.region s.cur o.a.num).inx = true →
    exec (.grev h o x) s = .next (s.takeTrap s.cur .exact 0x0E (lenOf .grev h o / 4) s.me.pc (word o.a.num))) ∧
  (∀ h o x s t, Goes .grnt h o true s → s.tsr s.cur x.t1 = some t → t.pd = (s.myLaunch s.cur).pd →
    let g := s.region s.cur o.a.num
    let b := (s.arg o.b).toNat
    let dom := o.mx % 2 = 1
    g.inx = false →
    (freeGrant s.grants 1024 0 = none → exec (.grnt h o x) s = .next ((s.setS o.d (BitVec.allOnes 64)).after .grnt (lenOf .grnt h o))) ∧
    let y : Grant := ⟨((s.file s.cur).launch).getD 0, t.base, { g with boxes := g.canonical }, dom, if dom then b else bits b 0 16, 2 ≤ o.mx⟩
    ∀ n, freeGrant s.grants 1024 0 = some n →
      exec (.grnt h o x) s = .next (({ s with grants := tins s.grants n y }.setS o.d (word n)).after .grnt (lenOf .grnt h o))) ∧
  ∀ h o x s, Goes .grev h o true s → (s.region s.cur o.a.num).inx = false →
    let n := (s.arg o.b).toNat
    (tfind s.grants n = none → exec (.grev h o x) s = .next ((s.setS o.d 1).after .grev (lenOf .grev h o))) ∧
    ∀ y lat bs, tfind s.grants n = some y →
      (y.launch ≠ ((s.file s.cur).launch).getD 0 → exec (.grev h o x) s = .next ((s.setS o.d 1).after .grev (lenOf .grev h o))) ∧
      (y.launch = ((s.file s.cur).launch).getD 0 → regionBinary .gsub y.region (s.region s.cur o.a.num) = .inr (lat, bs) →
        let keep := ((roundBoxes lat 16 .inner bs).map (·.1)).getD []
        let y' : Grant := { y with region := { y.region with lat := latExps lat, boxes := keep, canon := true } }
        let gs := if keep = [] then tdel s.grants n else tins s.grants n y'
        exec (.grev h o x) s = .next (({ s with grants := gs }.setS o.d 0).after .grev (lenOf .grev h o)))

/-- ACQ and PUB over a region (R85, R86, R266), and MCRUN (R267), complete: ACQ refreshes the region's cells, PUB starts a publication of the
context's stores that have a byte in them, each whole in its aligned dword (R89), at its scope, the walks of both mark the pages of the cells (R79), neither does anything over a local or weight record, MCRUN places an entry in qc.
Model's choices that it rests on: log entries 5, 25, 45. -/
def Obligations.AcquirePublish : Prop :=
  (∀ h o x s r, Goes .acq h o true s →
    let g := s.region s.cur o.a.num
    (g.isEmpty = true → exec (.acq h o x) s = .next (s.after .acq (lenOf .acq h o))) ∧
    (g.isEmpty = false → s.tsr s.cur g.tsr = some r → spaceCode r.base ≠ 3 → spaceCode r.base ≠ 5 →
      let t := s.markCells s.cur r g
      exec (.acq h o x) s = .next ((t.acquireCells t.cur (s.cellLocs s.cur r g)).after .acq (lenOf .acq h o)))) ∧
  (∀ h o x s r, Goes .pub h o true s →
    let g := s.region s.cur o.a.num
    (g.isEmpty = true → exec (.pub h o x) s = .next (s.after .pub (lenOf .pub h o))) ∧
    (g.isEmpty = false → s.tsr s.cur g.tsr = some r → spaceCode r.base ≠ 3 → spaceCode r.base ≠ 5 →
      let t := s.markCells s.cur r g
      t.mayIssueRelease t.cur = true →
      let s1 := t.sendRetirements t.cur
      let cells := (s.cellLocs s.cur r g).map (·.1)
      let own := s1.me.own.map fun b =>
        if !b.pub && b.rel = 0 && s1.me.own.any (fun y => !y.pub && y.rel = 0 && cells.contains y.loc && b.together y) then { b with rel := s1.me.ops } else b
      let s2 := s1.setMe { s1.me with pubs := s1.me.pubs ++ [⟨s1.me.ops, o.fn, cells, none⟩], own := own }
      exec (.pub h o x) s = .next ((s2.pubCheck s1.cur).after .pub (lenOf .pub h o))) ∧
    (g.isEmpty = false → s.tsr s.cur g.tsr = some r → spaceCode r.base ≠ 3 → spaceCode r.base ≠ 5 →
      let t := s.markCells s.cur r g
      t.mayIssueRelease t.cur = false → exec (.pub h o x) s = .next (waiting t (lenOf .pub h o)))) ∧
  (∀ h o x s r, s.tsr s.cur (s.region s.cur o.a.num).tsr = some r → spaceCode r.base = 3 ∨ spaceCode r.base = 5 →
    (Goes .acq h o true s → exec (.acq h o x) s = .next (s.after .acq (lenOf .acq h o))) ∧
    (Goes .pub h o true s → exec (.pub h o x) s = .next (s.after .pub (lenOf .pub h o)))) ∧
  ∀ h o s j s1, Goes .mcrun h o true s → spaceCode (s.arg o.c).toNat = 1 → s.openEntry 3 (s.arg o.c).toNat = some (j, s1) →
    exec (.mcrun h o) s = .next ((s1.enqueue 0 (.mcrun (s.arg o.a) (s.arg o.b) (s.arg o.c).toNat) j).1.after .mcrun (lenOf .mcrun h o))

/-- The matrix class (R332 to R343) completes: rings and keys change as they issue, and MMA, drains, zeroing, swaps and hold settings are
placed in qm with what they capture.
Model's choices that it rests on: log entries 26, 38. -/
def Obligations.MatrixInstructions : Prop :=
  (∀ h o s r, Goes .mring h o true s → ringOfWord (s.arg o.a).toNat = some r → (s.myCore.ring o.d).occ = 0 →
    s.ringBusy (coreNo s.cur) o.d = false → exec (.mring h o) s = .next ((s.setMyCore (s.myCore.setRing o.d r)).after .mring (lenOf .mring h o))) ∧
  Completes .mringRd .mringRd atHome always (fun o s => s.setS o.d (word (s.myCore.ring o.a.num).toWord)) ∧
  (∀ h o s, Goes .mradv h o true s →
    let r := s.myCore.ring o.d
    let n := (s.arg o.a).toNat
    r.count ≠ 0 → n ≤ 255 →
    (n = 0 → exec (.mradv h o) s = .next (s.after .mradv (lenOf .mradv h o))) ∧
    (n ≠ 0 → r.occ + n ≤ r.count → exec (.mradv h o) s =
      .next ((s.setMyCore (s.myCore.setRing o.d { r with tail := (r.tail + n) % r.count, occ := r.occ + n })).after .mradv (lenOf .mradv h o))) ∧
    (n ≠ 0 → r.count < r.occ + n → exec (.mradv h o) s =
      .next (s.takeTrap s.cur .exact 0x0F (lenOf .mradv h o / 4) s.me.pc (word (o.d + 256 * r.occ))))) ∧
  (∀ h o x s t, Goes .mldw h o true s → s.tsr s.cur x.t1 = some t → t.fmt = o.t →
    let p := (s.arg o.a).toNat
    badPtr s.cur p = none → spaceCode p = 3 ∨ spaceCode p = 5 → p % 64 = 0 →
    (spaceCode p = 3 → localCellCause s.me.mode false p (min (tileBytes o.t) (2 ^ 17 - ptrOffset p)) = none) → s.tileGranted s.cur t p (tileBytes o.t) = true →
    let k : WKey := ⟨p, o.t, x.imm, o.mx, .rne, if t.shareable then none else some t.pd⟩
    exec (.mldw h o x) s = .next ((s.setMyCore { s.myCore with key := some k, keyTsr := some t }).after .mldw (lenOf .mldw h o))) ∧
  (∀ h o x s key, Goes .mma h o true s → s.mmaKey o = some key →
    let n := bits x.imm 21 8 + 1
    s.mmaAccess (coreNo s.cur) key o.a.num o.d (bits x.imm 0 8) n o.t = false →
    let steps := if o.mx % 2 = 1 then sparseSteps (s.region s.cur x.g2) n else List.range n
    exec (.mma h o x) s =
      .next ((s.enqueue 1 (.mma (mmaOp o s.me.task x.imm o.a.num o.d (2 ≤ o.mx) key s.myCore.keyTsr steps true)) none).1.after .mma (lenOf .mma h o))) ∧
  (∀ h o s, Goes .mdrn h o true s →
    let p := (s.arg o.a).toNat
    let c := (s.arg o.c).toNat
    let rb := rowBytes o.t
    let pitch := if c = 0 then rb else c
    s.bufferCause p 4 1 = none → c = 0 ∨ c % 4 = 0 ∧ rb ≤ c →
    inProgram (ptrOffset p) ((16 * (s.amap (coreNo s.cur) o.b.num).len - 1) * pitch + rb) = true →
    exec (.mdrn h o) s =
      .next ((s.enqueue 1 (.drain (ptrOffset p) o.b.num pitch o.t o.rm o.sat (2 ≤ o.mx) []) none).1.after .mdrn (lenOf .mdrn h o))) ∧
  Places .mzro .mzro always 1 (fun o _ => .zero o.d) ∧
  Places .mswp .mswp (fun o s => s.bufferCause (s.arg o.a).toNat 64 (8200 * (s.amap (coreNo s.cur) o.d).len) = none) 1
    (fun o s => .swap (ptrOffset (s.arg o.a).toNat) o.d) ∧
  Completes .mflg .mflg atHome always (fun o s =>
    let x := s.cluster (clusterNo s.cur)
    let ss := s.engSlots (coreNo s.cur) o.a.num
    (if o.mx = 1 then s.setCluster (clusterNo s.cur) { x with flags := ss.foldl (fun f n => tput 0 f n 0) x.flags } else s).setS o.d
      (word (packBits (ss.map fun n => (4, tget 0 x.flags n))))) ∧
  Places .mholdFire .mholdFire always 1 (fun _ _ => .holdFire) ∧
  Places .mholdSet .mholdSet always 1 (fun o s => .holdSet (min (s.arg o.a).toNat 1023))

/-! ## Tokens and heaps -/

/-- The posted token operations (R344 to R346) complete by placing an entry of qk; KVAPP with a destination waits for its position, and SPRET
keeps the retirement for the next release point, at most 8.
The position translation buffer (R168, R347, R348): POSL answers from the entry of its key, or 3 where there is none and no miss handler
runs; a miss in USER mode enters the miss handler at XBASE + 0x1000 as trap entry does, but for XCAUSE, XVAL and XJRN, with the sequence, tag and ordinal
in z1 to z3 and the POSL's address in z14 and XPC (R169), or waits while another context of the core is in it; POSF writes an entry, and POSI takes away the entries of a tag, of a sequence, or all.
Model's choices that it rests on: log entries 27, 78. -/
def Obligations.TokensAndPositions : Prop :=
  (PostsToken .kvapp .kvapp (fun o s => o.d = 0 ∧ sourceCause (s.arg o.b).toNat = none)
    (fun o s => .kvapp (s.arg o.a).toNat (s.arg o.b).toNat 0) ∧
  (∀ h o s, Goes .kvapp h o true s → o.d ≠ 0 → seqCause (s.arg o.a).toNat = none → sourceCause (s.arg o.b).toNat = none →
    let y := s.enqueue 3 (.kvapp (s.arg o.a).toNat (s.arg o.b).toNat o.d) none
    exec (.kvapp h o) s = .next (waiting (y.1.setMe { y.1.me with wait := .token y.2 o.d }) (lenOf .kvapp h o))) ∧
  PostsToken .kvseal .kvseal always (fun o s => .kvseal (s.arg o.a).toNat) ∧
  PostsToken .spset .spset (fun o s => (s.arg o.b).toNat < 16) (fun o s => .spset (s.arg o.a).toNat (s.arg o.b).toNat) ∧
  Completes .spret .spret atHome (fun o s => seqCause (s.arg o.a).toNat = none ∧ (s.arg o.b).toNat < 16 ∧ s.me.sprets.length < 8)
    (fun o s => s.setMe { s.me with sprets := s.me.sprets ++ [((s.arg o.a).toNat, (s.arg o.b).toNat)] }) ∧
  Traps .spret .spret atHome (fun o s => seqCause (s.arg o.a).toNat = none ∧ (s.arg o.b).toNat < 16 ∧ 8 ≤ s.me.sprets.length) 0x17
    (fun _ _ => 0xFFFF)) ∧
  ((∀ h o s, Goes .posl h o true s →
    let a := (s.arg o.a).toNat
    let b := (s.arg o.b).toNat
    let c := s.myCore
    let hit (e : PtbEntry) : Bool := ptbValid e && ptbKey e = (bits a 0 32, bits b 8 4, bits b 16 20)
    (∀ e, c.ptb.find? hit = some e →
      let s1 := s.setMyCore { c with ptb := e :: c.ptb.erase e }
      exec (.posl h o) s = .next ((s1.setMe (s1.me.setGroup o.d (poslHit e (bits b 0 5)))).after .posl (lenOf .posl h o))) ∧
    (c.ptb.find? hit = none → s.me.mode ≠ 0 ∨ (s.myLaunch s.cur).miss = false →
      exec (.posl h o) s = .next ((s.setMe (s.me.setGroup o.d [3, 0, 0, 0])).after .posl (lenOf .posl h o))) ∧
    (c.ptb.find? hit = none → s.me.mode = 0 → (s.myLaunch s.cur).miss = true →
      let busy := ∃ n, n < 11 ∧ (s.ctx (16 * coreNo s.cur + n)).missPosl ≠ none
      (busy → exec (.posl h o) s = .next (waiting s (lenOf .posl h o))) ∧
      (¬busy → ∃ t, exec (.posl h o) s = .next t ∧ OnlyCtx s.cur s t ∧ t.me.pc = c.xbase + 0x1000 ∧ t.me.xpc = s.me.pc ∧
        t.me.xcause = s.me.xcause ∧ t.me.xval = s.me.xval ∧ t.me.mode = 1 ∧ t.me.field 4 2 = 0 ∧ t.me.field 6 1 = s.me.field 3 1 ∧ t.me.ie = false ∧
        t.me.saved = s.me.loops ∧ (∀ l ∈ t.me.loops, l.active = false) ∧ t.me.sreg 1 = word (bits a 0 32) ∧ t.me.sreg 2 = word (bits b 8 4) ∧
        t.me.sreg 3 = word (bits b 16 20) ∧ t.me.sreg 14 = s.me.pc ∧ ∀ n, 16 ≤ n → t.me.sreg n = s.me.sreg n))) ∧
  (∀ h o s, Goes .posf h o true s →
    let w (n : Nat) : Nat := (s.me.sreg (o.a.num + n)).toNat
    let e : PtbEntry := w 0 + 2 ^ 64 * w 1 + 2 ^ 128 * w 2
    bits e 116 13 = 0 → exec (.posf h o) s = .next ((s.setMyCore { s.myCore with ptb := ptbWrite s.myCore.ptb e }).after .posf (lenOf .posf h o))) ∧
  (let posi (i : Op) (mk : Hdr → Ops → Instr) (hit : Ops → State → PtbEntry → Bool) : Prop :=
    Completes i mk atHome always (fun o s => s.setMyCore { s.myCore with ptb := s.myCore.ptb.filter fun e => !hit o s e })
   posi .posiTag .posiTag (fun o s e => bits e 160 32 = bits (s.arg o.a).toNat 0 32 && bits e 156 4 = bits (s.arg o.b).toNat 0 4) ∧
   posi .posiSeq .posiSeq (fun o s e => bits e 160 32 = bits (s.arg o.a).toNat 0 32) ∧
   posi .posiAll .posiAll (fun _ _ _ => true)))

/-- HSIFT and HPOP (R349) complete on a heap that passes its checks, and raise the first check that fails; a sift into a heap that is not full keeps
every entry, one into a full heap changes it only where the new entry is larger than the root, and a pop keeps every entry but the root; no
operation changes K, nor any byte outside COUNT and the entries that it writes.
Model's choices that it rests on: log entries 27, 62. -/
def Obligations.Heaps : Prop :=
  (∀ h o s, Goes .hsift h o true s → s.unwatched → s.heapCause (s.arg o.a).toNat = none →
    let off := (s.arg o.a).toNat
    let hp := s.heapAt (coreNo s.cur) off
    let r := heapSift hp.1 hp.2 ((s.arg o.b).toNat % 2 ^ 32, (s.arg o.c).toNat % 2 ^ 16)
    exec (.hsift h o) s = .next (((if r.2 then s.putHeap (coreNo s.cur) off r.1 else s).setS o.d (word r.2.toNat)).after .hsift (lenOf .hsift h o))) ∧
  (∀ h o s, Goes .hpop h o true s → s.unwatched → s.heapCause (s.arg o.a).toNat = none →
    let off := (s.arg o.a).toNat
    ((s.heapAt (coreNo s.cur) off).2 = [] →
      exec (.hpop h o) s = .next ((s.setMe (s.me.setGroup o.d [0, BitVec.allOnes 64])).after .hpop (lenOf .hpop h o))) ∧
    ∀ r es, (s.heapAt (coreNo s.cur) off).2 = r :: es →
      let s1 := s.putHeap (coreNo s.cur) off (heapPop (r :: es))
      exec (.hpop h o) s = .next ((s1.setMe (s1.me.setGroup o.d [word r.1, word r.2])).after .hpop (lenOf .hpop h o))) ∧
  (∀ h o s c, s.heapCause (s.arg o.a).toNat = some c →
    (Goes .hsift h o true s → exec (.hsift h o) s = .next (s.takeTrap s.cur .exact c.1 (lenOf .hsift h o / 4) s.me.pc (word c.2))) ∧
    (Goes .hpop h o true s → exec (.hpop h o) s = .next (s.takeTrap s.cur .exact c.1 (lenOf .hpop h o / 4) s.me.pc (word c.2)))) ∧
  (∀ (s : State) core off hs a, a < locLocal core (off + 2) ∨ (locLocal core (off + 4) ≤ a ∧ a < locLocal core (off + 8)) ∨
    locLocal core (off + 8) + 8 * hs.length ≤ a → readByte (s.putHeap core off hs).mem a = readByte s.mem a) ∧
  (∀ (r : HeapEntry) es, (heapPop (r :: es)).Perm es) ∧
  ∀ (k : Nat) (hs : List HeapEntry) (x : HeapEntry), hs.length ≤ k → k ≤ 64 →
    (hs.length < k → (heapSift k hs x).2 = true ∧ (heapSift k hs x).1.Perm (x :: hs)) ∧
    (∀ r es, hs = r :: es → hs.length = k →
      (heapLt r x = true → (heapSift k hs x).2 = true ∧ (heapSift k hs x).1.Perm (x :: es)) ∧
      (heapLt r x = false → heapSift k hs x = (hs, false)))

/-! ## Tasks -/

/-- SPAWN and JOINH (R43, R44, R271): a FREE helper below the limit starts at sA with its argument and its starter's view; JOINH answers 1 for a
FREE helper, frees an ENDED one with 0, and waits for a LIVE one; a helper that issues either raises HELPER_BUSY.
DONE (R267, R272): it waits for LIVE helpers and is a release at the unit's scope; a helper is ENDED, a context's record ends, and a
control context with no record leaves its launch; a program of a memory core ends once what it placed has completed.
Model's choices that it rests on: log entries 28, 45, 58. -/
def Obligations.HelpersAndDone : Prop :=
  ((∀ h o s, Goes .spawn h o true s → noHelper s → o.fn ≤ s.myCore.hlim → (s.ctx (s.cur + o.fn)).life = .free → o.fn ≠ 0 →
    ∃ t, exec (.spawn h o) s = .next t ∧
      let d := t.ctx (s.cur + o.fn)
      d.life = .live ∧ d.pc = s.arg o.a ∧ d.sreg 1 = s.arg o.b ∧ (∀ n, n ≠ 1 → d.sreg n = 0) ∧ d.p = 0 ∧ d.wait = .none ∧
      d.view = s.me.wholeView ∧ d.own = [] ∧ (∀ l ∈ d.loops, l.active = false) ∧ t.mem = s.mem ∧ (∀ n, t.me.sreg n = s.me.sreg n) ∧
      ∀ c, c ≠ s.cur → c ≠ s.cur + o.fn → t.ctx c = s.ctx c) ∧
  Traps .spawn .spawn atHome (fun o s => noHelper s ∧ (s.myCore.hlim < o.fn ∨ (s.ctx (s.cur + o.fn)).life ≠ .free)) 0x16 (fun o _ => word o.fn) ∧
  Completes .joinh .joinh atHome (fun o s => noHelper s ∧ (s.ctx (s.cur + o.fn)).life = .free) (fun o s => s.setS o.d 1) ∧
  Completes .joinh .joinh atHome (fun o s => noHelper s ∧ (s.ctx (s.cur + o.fn)).life = .ended)
    (fun o s => (s.setCtx (s.cur + o.fn) { s.ctx (s.cur + o.fn) with life := .free }).setS o.d 0) ∧
  Waits .joinh .joinh atHome (fun o s => noHelper s ∧ (s.ctx (s.cur + o.fn)).life = .live) (fun _ s => s) ∧
  Traps .spawn .spawn atHome (fun _ s => isHelper s.cur = true) 0x16 (fun _ _ => 0) ∧
  Traps .joinh .joinh atHome (fun _ s => isHelper s.cur = true) 0x16 (fun _ _ => 0)) ∧
  ((∀ h o s, Goes .done h o true s → isHelper s.cur = true → ReleasesNow s (s.myLaunch s.cur).unitScope →
    let t := releasedDrop s (s.myLaunch s.cur).unitScope
    let u := match t.me.record with | some va => t.endRecord t.cur va | none => t
    exec (.done h o) s = .next ((u.setMe { u.me with life := .ended }).after .done (lenOf .done h o))) ∧
  (∀ h o s, Goes .done h o true s → isControl s.cur = true → s.helpersLive (coreNo s.cur) = false →
    ReleasesNow s (s.myLaunch s.cur).unitScope →
    let t := releasedDrop s (s.myLaunch s.cur).unitScope
    (s.me.record = none → exec (.done h o) s = .next (((t.haltTask t.cur).leaveLaunch (coreNo t.cur)).after .done (lenOf .done h o))) ∧
    ∀ va, s.me.record = some va →
      let u := t.endRecord t.cur va
      exec (.done h o) s = .next ((u.haltTask u.cur).after .done (lenOf .done h o))) ∧
  (∀ h o s, Goes .done h o true s → isMemCore s.cur = true → s.placed s.cur = false → ReleasesNow s 1 →
    let t := (released s 1).publishPlaced (released s 1).cur
    exec (.done h o) s = .next ((t.endProgram (released s 1).cur none 0).after .done (lenOf .done h o))) ∧
  Completes .done .done atHome (fun _ s => isSupervisor s.cur = true ∧ ReleasesNow s 0) (fun _ s => releasedDrop s 0) ∧
  (∀ h o s, Goes .done h o true s → isControl s.cur = true → s.helpersLive (coreNo s.cur) = true →
    exec (.done h o) s = .next (waiting s (lenOf .done h o))) ∧
  (∀ h o s, Goes .done h o true s → isMemCore s.cur = true → s.placed s.cur = true → exec (.done h o) s = .next (waiting s (lenOf .done h o))) ∧
  ReleaseWaits .done .done (fun _ s => isHelper s.cur = true ∨ (isControl s.cur = true ∧ s.helpersLive (coreNo s.cur) = false))
    (fun s => (s.myLaunch s.cur).unitScope))

/-- CQGET, RQGET and CQNEXT take and add records (R51, R273 to R275): a popped record's core jumps to its code with its frame, its argument and
the link; a chunk comes from the range that the context holds, from a popped one, from the upper part of another's, or once the die's search has
answered; a record that may be queued joins its cluster's queue with answer 0, or in a phased launch's CQNEXT waits for the barrier, one that may
not answers its code, and a full queue raises QUEUE_FULL; a helper's CQNEXT raises HELPER_BUSY after the check of the queue (R397).
JDEC (R50, R86, R175, R275): JOIN goes down by one at the record's home, and the decrement from 1 to 0 enqueues the record at its PRIO in the
cluster of the core that executes it; one already at zero stays and answers 1, and so does a cancelled range task (R184); its walk marks the record's page (R79). The release comes before it; a full queue that it
would reach raises QUEUE_FULL before any effect. CANCEL, CANCEL.launch, LAUNCH and
CHKC (R184, R185, R277) complete with their answers.
Model's choices that it rests on: log entries 3, 28, 49, 57, 59, 79, 80. -/
def Obligations.TaskRecords : Prop :=
  ((∀ h o s s1 r, Goes .cqget h o true s → noHelper s → s.me.record = none → s.pop (coreNo s.cur) 0 = some (s1, r) →
    let s2 := (s1.taken (coreNo s.cur) r).setRec r.launch 0 r.va 1
    let f := s2.recFields r
    let c1 := [(o.d, f.1), (62, f.2.1), (1, f.2.2), (63, s2.me.pc + 8)].foldl (fun (k : Ctx) w => k.setS w.1 w.2) s2.me
    exec (.cqget h o) s = .next ((((s2.setMe { c1 with record := some r.va, canreq := s2.recCreq r.launch 0 r.va }).startUnits (coreNo s.cur)
      r).acquireWhole s.cur).jumped .cqget f.1)) ∧
  Completes .cqget .cqget atHome (fun _ s => noHelper s ∧ s.me.record = none ∧ s.pop (coreNo s.cur) 0 = none ∧
      ∃ l, s.myCore.launch = some l ∧ s.endTest (coreNo s.cur) l = true) (fun o s => s.setS o.d 0) ∧
  (∀ h o s g, Goes .rqget h o true s → s.me.range = some g → GivesChunk h o g s (exec (.rqget h o) s)) ∧
  Completes .rqget .rqget atHome (fun _ s => s.me.range = none ∧ s.me.search ≠ 2 ∧ s.pop (coreNo s.cur) 1 = none ∧ s.launchNo s.cur = 0)
    (fun o s => s.setMe (s.me.setGroup o.d [0, 0, 0, 0])) ∧
  Completes .rqget .rqget atHome (fun _ s => s.me.range = none ∧ s.me.search = 2)
    (fun o s => s.setMe (({ s.me with search := 0 }).setGroup o.d [0, 0, 0, 0])) ∧
  (∀ h o s s1 r, Goes .rqget h o true s → s.me.range = none → s.me.search ≠ 2 → s.pop (coreNo s.cur) 1 = some (s1, r) →
    let s2 := (s1.taken (coreNo s.cur) r).setRec r.launch 1 r.va 1
    GivesChunk h o (s2.rangeOf r.launch r.va) (found s2) (exec (.rqget h o) s)) ∧
  (∀ h o s, Goes .rqget h o true s → s.me.range = none → s.me.search ≠ 2 → s.pop (coreNo s.cur) 1 = none → s.launchNo s.cur ≠ 0 →
    (∀ v g, mostLeft (s.victims (s.launchNo s.cur) (coreNo s.cur / 8)) = some v → (s.split s.cur v).me.range = some g →
      GivesChunk h o g (found (s.split s.cur v)) (exec (.rqget h o) s)) ∧
    (mostLeft (s.victims (s.launchNo s.cur) (coreNo s.cur / 8)) = none →
      exec (.rqget h o) s = .next (waiting (s.setMe { s.me with search := 1 }) (lenOf .rqget h o)))) ∧
  (let add (i : Op) (mk : Hdr → Ops → Instr) (kind : Nat) (cl : Ops → State → Nat) (park : State → Bool) : Prop :=
    ∀ h o s l e, Goes i h o true s → (i = .cqnext → noHelper s) →
      let va := (s.arg o.a).toNat
      s.access s.cur va 1 .atomic = .global l e →
      let t := atHomeOf s va e
      let n := t.launchNo t.cur
      let ctrl := t.rdL n (va + ctrlAt kind) 4
      let r := queued n va kind (bits ctrl 0 2)
      let x := t.cluster (cl o s)
      (∀ code, t.addCode n kind ctrl (cl o s) = some code → exec (mk h o) s = .next ((t.setS o.d (word code)).after i (lenOf i h o))) ∧
      (t.addCode n kind ctrl (cl o s) = none → x.room n r.prio = false →
        exec (mk h o) s = .next (t.takeTrap t.cur .exact 0x17 (lenOf i h o / 4) s.me.pc (word (cl o s)))) ∧
      (t.addCode n kind ctrl (cl o s) = none → x.room n r.prio = true → park s = false ∨ (t.launchOf n).cancelled = true →
        exec (mk h o) s = .next (((t.arrive (cl o s) r).setS o.d 0).after i (lenOf i h o))) ∧
      (t.addCode n kind ctrl (cl o s) = none → x.room n r.prio = true → park s = true → (t.launchOf n).cancelled = false →
        exec (mk h o) s = .next ((((t.setRec n kind va 0).setCluster (cl o s) { x with
          parked := x.parked ++ [{ r with parker := coreNo t.cur, parkDom := t.myCore.bdom }] }).setS o.d 0).after i (lenOf i h o)))
   add .cqadd .cqadd 0 (fun o s => (s.arg o.b).toNat) (fun _ => false) ∧ add .rqadd .rqadd 1 (fun o s => (s.arg o.b).toNat) (fun _ => false) ∧
   add .cqnext .cqnext 0 (fun _ s => coreNo s.cur / 8) (fun s => (s.myLaunch s.cur).phased)) ∧
  ∀ h o s, Goes .cqnext h o true s → isHelper s.cur = true →
    let va := (s.arg o.a).toNat
    let cl := coreNo s.cur / 8
    (s.unread va = true → exec (.cqnext h o) s = .next (s.takeTrap s.cur .exact 0x16 (lenOf .cqnext h o / 4) s.me.pc 0)) ∧
    ∀ l e, s.access s.cur va 1 .atomic = .global l e →
      let t := atHomeOf s va e
      let n := t.launchNo t.cur
      let ctrl := t.rdL n (va + 0x14) 4
      let full := t.addCode n 0 ctrl cl = none ∧ (t.cluster cl).room n (bits ctrl 0 2) = false
      (full → exec (.cqnext h o) s = .next (t.takeTrap t.cur .exact 0x17 (lenOf .cqnext h o / 4) s.me.pc (word cl))) ∧
      (¬full → exec (.cqnext h o) s = .next (t.takeTrap t.cur .exact 0x16 (lenOf .cqnext h o / 4) s.me.pc 0))) ∧
  ((∀ (s : State) l va,
    let join := s.rdL l (va + 0x10) 4
    let s1 := s.markHomes (s.rootOf l) va 32
    let x := s.jdec l va
    (join = 0 ∨ withdrawn s l va → x = (s1, 1, none)) ∧
    (join ≠ 0 → ¬withdrawn s l va → x.1 = s1.wrL l (va + 0x10) 4 (join - 1) ∧ x.2.1 = 0 ∧ (x.2.2.isSome = true ↔ join = 1))) ∧
  (∀ (s : State) cid va,
    let l := s.launchNo cid
    let kind := s.kindAt l va
    let s1 := (s.markHomes (s.rootOf l) va 32).wrL l (va + 0x10) 4 0
    let r := queued l va kind (bits (s.rdL l (va + ctrlAt kind) 4) 0 2)
    l ≠ 0 → s.rdL l (va + 0x10) 4 = 1 → kind ≠ 2 → ¬withdrawn s l va →
    ((s1.cluster (s.jdecCluster cid)).room l r.prio = true → s.jdecBy cid va = (s1.arrive (s.jdecCluster cid) r, 0, none)) ∧
    ((s1.cluster (s.jdecCluster cid)).room l r.prio = false → (s.jdecBy cid va).2.2 = some (s.jdecCluster cid))) ∧
  (∀ h o s l e, Goes .jdec h o true s →
    let va := (s.arg o.a).toNat
    s.access s.cur va 1 .atomic = .global l e →
    let t := atHomeOf s va e
    let sc := (t.myLaunch t.cur).unitScope
    let full := (t.jdecBy t.cur va).2.2
    (∀ cl, full = some cl → t.me.released = false → exec (.jdec h o) s = .next (t.takeTrap t.cur .exact 0x17 (lenOf .jdec h o / 4) s.me.pc (word cl))) ∧
    (full = none ∨ t.me.released = true → ReleasesNow t sc →
      let u := released t sc
      let x := u.jdecBy u.cur va
      (x.2.2 = none → exec (.jdec h o) s = .next ((x.1.setS o.d (word x.2.1)).after .jdec (lenOf .jdec h o))) ∧
      (x.2.2 ≠ none → exec (.jdec h o) s = .next (waiting (u.setMe { u.me with released := true }) (lenOf .jdec h o))))) ∧
  (∀ h o s l e, Goes .cancel h o true s →
    let va := (s.arg o.a).toNat
    let n := s.launchNo s.cur
    let owner := match s.findRec n va with | some x => x.launch | none => n
    (n ≠ 0 → owner ≠ n → exec (.cancel h o) s = .next (s.takeTrap s.cur .exact 0x07 (lenOf .cancel h o / 4) s.me.pc (word va))) ∧
    (s.access s.cur va 1 .atomic = .global l e → n = 0 ∨ owner = n →
      let x := (atHomeOf s va e).cancelRec n va
      exec (.cancel h o) s = .next (((x.1.checkLaunch owner).setS o.d (word x.2)).after .cancel (lenOf .cancel h o)))) ∧
  Completes .cancelLaunch .cancelLaunch atHome (fun o s => (s.launches.find? fun x => x.2.va = (s.arg o.a).toNat && x.2.stage < 2) = none)
    (fun o s => s.setS o.d 2) ∧
  (∀ h o s l y, Goes .cancelLaunch h o true s → (s.launches.find? fun x => x.2.va = (s.arg o.a).toNat && x.2.stage < 2) = some (l, y) →
    exec (.cancelLaunch h o) s =
      .next (((s.cancelLaunch l).1.setS o.d (word (s.cancelLaunch l).2)).after .cancelLaunch (lenOf .cancelLaunch h o))) ∧
  Completes .launch .launch atHome always (fun o s =>
    (s.setLaunch s.newLaunch { Launch.init with va := (s.arg o.a).toNat, stage := 0 }).setS o.d (word s.newLaunch)) ∧
  Completes .chkc .chkc atHome always (fun o s => s.setP o.d (s.canreq s.cur)))

/-- What TBIND, TUNB, GRNT, GREV, HSIFT, HPOP, SPAWN, JOINH, DONE, SYNC, BDOM and RDSSN write where they take their effect, and what they leave
(R43, R44, R60, R263 to R265, R271, R272, R276, R349): a tensor register; sD and one entry of the grant table; sD and a heap; a helper's context; sD
and the helper's life; the end of a helper or of a context's record; the arrival at a barrier; the domain selected; sD alone. A release's own
publication is not described here.
Model's choices that it rests on: log entries 28, 31, 45. -/
def Obligations.TaskFrames : Prop :=
  (∀ h o s off, Goes .tbind h o true s → noHelper s → s.unwatched → s.access s.cur (s.arg o.a).toNat 64 .load = .loc off →
    s.poisoned (locLocal (coreNo s.cur) off) 64 = false →
    let r := Tsr.ofNat (ofBytes (s.readLocal (coreNo s.cur) off 64))
    r.fault = none → ∃ t, exec (.tbind h o) s = .next t ∧ t.tsr t.cur o.d = some r ∧ (∀ n, n ≠ o.d → t.tsr t.cur n = s.tsr s.cur n) ∧
      TaskFrame [] [] s t ∧ MemSame s t) ∧
  (∀ h o s, Goes .tunb h o true s → noHelper s → ∃ t, exec (.tunb h o) s = .next t ∧ t.tsr t.cur o.d = none ∧
    (∀ n, n ≠ o.d → t.tsr t.cur n = s.tsr s.cur n) ∧ TaskFrame [] [] s t ∧ MemSame s t) ∧
  (∀ h o x s y, Goes .grnt h o true s → s.tsr s.cur x.t1 = some y → y.pd = (s.myLaunch s.cur).pd → (s.region s.cur o.a.num).inx = false →
    ∃ t, exec (.grnt h o x) s = .next t ∧ TaskFrame [o.d] [] s t ∧ MemSame s t ∧
      (freeGrant s.grants 1024 0 = none → Holds t o.d (BitVec.allOnes 64) ∧ t.grants = s.grants) ∧
      ∀ n, freeGrant s.grants 1024 0 = some n → Holds t o.d (word n) ∧ (∀ m, m ≠ n → tfind t.grants m = tfind s.grants m) ∧
        ∃ g, tfind t.grants n = some g ∧ g.base = y.base ∧ g.dom = decide (o.mx % 2 = 1) ∧ g.write = decide (2 ≤ o.mx)) ∧
  (∀ h o x s, Goes .grev h o true s → (s.region s.cur o.a.num).inx = false →
    let n := (s.arg o.b).toNat
    (tfind s.grants n = none ∨ (∃ y, tfind s.grants n = some y ∧ y.launch ≠ ((s.file s.cur).launch).getD 0) →
      ∃ t, exec (.grev h o x) s = .next t ∧ TaskFrame [o.d] [] s t ∧ MemSame s t ∧ Holds t o.d 1 ∧ t.grants = s.grants) ∧
    ∀ y r, tfind s.grants n = some y → y.launch = ((s.file s.cur).launch).getD 0 →
      regionBinary .gsub y.region (s.region s.cur o.a.num) = .inr r →
      ∃ t, exec (.grev h o x) s = .next t ∧ TaskFrame [o.d] [] s t ∧ MemSame s t ∧ Holds t o.d 0 ∧
        ∀ m, m ≠ n → tfind t.grants m = tfind s.grants m) ∧
  (∀ h o s, s.unwatched → s.heapCause (s.arg o.a).toNat = none →
    let off := (s.arg o.a).toNat
    let es := (s.heapAt (coreNo s.cur) off).2
    (Goes .hsift h o true s → ∃ t, exec (.hsift h o) s = .next t ∧ TaskFrame [o.d] [] s t ∧ HeapFrame s t off (es.length + 1) ∧
      (t.me.sreg o.d = 0 ∨ t.me.sreg o.d = 1) ∧ (o.d ≠ 0 → t.me.sreg o.d = 0 → MemSame s t)) ∧
    (Goes .hpop h o true s → ∃ t, exec (.hpop h o) s = .next t ∧ TaskFrame [o.d, o.d + 1] [] s t ∧ HeapFrame s t off es.length ∧
      (es = [] → Holds t o.d 0 ∧ t.me.sreg (o.d + 1) = BitVec.allOnes 64 ∧ MemSame s t) ∧
      ∀ r, es.head? = some r → Holds t o.d (word r.1) ∧ t.me.sreg (o.d + 1) = word r.2)) ∧
  (∀ h o s, Goes .spawn h o true s → noHelper s → o.fn ≤ s.myCore.hlim → (s.ctx (s.cur + o.fn)).life = .free → o.fn ≠ 0 →
    ∃ t, exec (.spawn h o) s = .next t ∧ TaskFrame [] [s.cur + o.fn] s t ∧ MemSame s t ∧ (t.ctx (s.cur + o.fn)).life = .live ∧
      (t.ctx (s.cur + o.fn)).pc = s.arg o.a ∧ (t.ctx (s.cur + o.fn)).sreg 1 = s.arg o.b) ∧
  (∀ h o s, Goes .joinh h o true s → noHelper s → o.fn ≠ 0 → (s.ctx (s.cur + o.fn)).life ≠ .live →
    ∃ t, exec (.joinh h o) s = .next t ∧ TaskFrame [o.d] [s.cur + o.fn] s t ∧ MemSame s t ∧ (t.ctx (s.cur + o.fn)).life = .free ∧
      Holds t o.d (if (s.ctx (s.cur + o.fn)).life = .free then 1 else 0)) ∧
  (∀ h o s, Goes .done h o true s → ReleasesNow s (s.myLaunch s.cur).unitScope →
    (isHelper s.cur = true → ∃ t, exec (.done h o) s = .next t ∧ t.cur = s.cur ∧ t.me.life = .ended) ∧
    ∀ va, isControl s.cur = true → s.helpersLive (coreNo s.cur) = false → s.me.record = some va →
      ∃ t, exec (.done h o) s = .next t ∧ t.cur = s.cur ∧ t.me.record = none ∧ t.me.canreq = false) ∧
  (∀ h o s, Goes .sync h o true s → noHelper s → s.me.phase ≠ 2 → mayArrive s →
    ReleasesNow s (s.dom (s.launchNo s.cur) s.myCore.bdom).scope →
    let x := s.dom (s.launchNo s.cur) s.myCore.bdom
    ∃ t, exec (.sync h o) s = .next t ∧ t.cur = s.cur ∧
      ((s.launchOf (s.launchNo s.cur)).phased = false → t.me.stat = s.me.stat) ∧
      ((s.launchOf (s.launchNo s.cur)).phased = true → t.me.phase = 2 ∧ t.me.pc = s.me.pc ∧
        (t.dom (s.launchNo s.cur) s.myCore.bdom).arrived = x.arrived ++ [(coreNo s.cur, s.cyc)])) ∧
  (∀ h o s, Goes .bdom h o true s → noHelper s → (s.arg o.a).toNat < 16 →
    (s.dom (s.launchNo s.cur) (s.arg o.a).toNat).members.contains (coreNo s.cur) = true →
    ∃ t, exec (.bdom h o) s = .next t ∧ TaskFrame [] [] s t ∧ MemSame s t ∧ t.myCore.bdom = (s.arg o.a).toNat ∧ t.domains = s.domains) ∧
  ∀ h o s, Goes .rdssn h o true s →
    let x := s.dom (s.launchNo s.cur) ((s.arg o.a).toNat % 16)
    ∃ t, exec (.rdssn h o) s = .next t ∧ TaskFrame [o.d] [] s t ∧ MemSame s t ∧ t.domains = s.domains ∧
      Holds t o.d (if x.members.contains (coreNo s.cur) then word x.ssn else BitVec.allOnes 64)

/-- Supersteps (R60, R276): SYNC in task mode is a release and goes on, in a phased launch it waits for LIVE helpers, arrives and waits for the
barrier; BDOM selects a
domain that has the core, and any other raises ACCESS; RDSSN gives the superstep number, all ones outside the domain.
Model's choices that it rests on: log entries 30, 31, 45. -/
def Obligations.Supersteps : Prop :=
  (∀ h o s, Goes .sync h o true s → noHelper s → s.me.phase ≠ 2 → mayArrive s →
    let l := s.launchNo s.cur
    let sc := (s.dom l s.myCore.bdom).scope
    let t := releasedDrop s sc
    ReleasesNow s sc →
    ((t.launchOf l).phased = false → exec (.sync h o) s = .next (t.after .sync (lenOf .sync h o))) ∧
    ((t.launchOf l).phased = true →
      let d := (t.core (coreNo s.cur)).bdom
      let s1 := ((t.setMe (t.me.setStat 30 2 2)).captureSends (coreNo s.cur) (·.of l d)).keepSteps l (coreNo s.cur)
      let x := s1.dom l d
      exec (.sync h o) s = .next (waiting ((s1.setDom l d { x with arrived := x.arrived ++ [(coreNo s.cur, t.cyc)] }).checkExchange l d)
        (lenOf .sync h o)))) ∧
  ReleaseWaits .sync .sync (fun _ s => noHelper s ∧ s.me.phase ≠ 2 ∧ mayArrive s)
    (fun s => (s.dom (s.launchNo s.cur) s.myCore.bdom).scope) ∧
  Completes .bdom .bdom atHome (fun o s => noHelper s ∧ (s.arg o.a).toNat < 16 ∧
      (s.dom (s.launchNo s.cur) (s.arg o.a).toNat).members.contains (coreNo s.cur) = true)
    (fun o s => s.setMyCore { s.myCore with bdom := (s.arg o.a).toNat }) ∧
  Traps .bdom .bdom atHome (fun o s => 16 ≤ (s.arg o.a).toNat ∨
      (s.dom (s.launchNo s.cur) (s.arg o.a).toNat).members.contains (coreNo s.cur) = false) 0x07 (fun _ _ => 0) ∧
  Waits .sync .sync atHome (fun _ s => noHelper s ∧ (s.me.phase = 2 ∨ ¬mayArrive s)) (fun _ s => s) ∧
  Traps .sync .sync atHome (fun _ s => isHelper s.cur = true) 0x16 (fun _ _ => 0) ∧
  Traps .bdom .bdom atHome (fun o s => isHelper s.cur = true ∧ (s.arg o.a).toNat < 16 ∧
      (s.dom (s.launchNo s.cur) (s.arg o.a).toNat).members.contains (coreNo s.cur) = true) 0x16 (fun _ _ => 0) ∧
  Completes .rdssn .rdssn atHome always (fun o s =>
    let x := s.dom (s.launchNo s.cur) ((s.arg o.a).toNat % 16)
    s.setS o.d (if x.members.contains (coreNo s.cur) then word x.ssn else BitVec.allOnes 64))

/-! ## What engines and the setter do on their own -/

/-- Queued transfers move (R95, R99, R252, R254 to R257, R418): a point lands and the transfer stands behind its next one, or goes on where they
share an aligned word; the last one completes it, once nothing earlier of its queue has still to land in the ring that it moves on; a refused point
ends it, and one of an absent page waits, where its service does not fail (R414, R465), in a landing buffer where a counted send may go on with what follows (R419, R420). A held send with nothing left
completes. A mark at the head of its queue
sends its markers, completes once they are acknowledged, and publishes what the queue landed (R97, R101); a timed slot lands in the core that its
row names (R258), whose cluster joins the destinations of its sender (R101).
A program that MCRUN sent starts on a FREE context of the memory core that owns its line, with its argument and its starter's view
(R267, R268); a token operation at the head of qk performs at its record (R164, R345), and a retirement at its record's home (R165, R346).
Model's choices that it rests on: log entries 5, 6, 24, 25, 43, 47, 55, 56, 68, 82. -/
def Obligations.TransfersLand : Prop :=
  ((∀ core q id fail s e x pt rest s1 ls, q < 4 → s.movable core q id = some (e, x) → x.todo = pt :: rest →
    s.landPoint e.ctx x pt (x.valAt 0) = .landed s1 ls →
    let s2 := s1.noteLanded core q e.ctx ls
    let y : Transfer := { x.without 0 with landed := x.landed + 1, watch := x.watch || s.landingWatched x pt }
    (s2.wordsOpen y (s.partWords x 0) = false →
      exec (.transferStart core q id 1 fail) s = .next (State.stay core q e (s2, y))) ∧
    (rest = [] → x.failed = none → s2.mayFinish e.ctx y = true → ringFree s2 core q e y →
      exec (.transferComplete core q id fail) s = .next (s2.completeTransfer core q e y))) ∧
  (∀ core q id fail s e x, q < 4 → s.movable core q id = some (e, x) → x.todo = [] →
    (x.failed = none → s.mayFinish e.ctx x = true → ringFree s core q e x →
      exec (.transferComplete core q id fail) s = .next (s.completeTransfer core q e x)) ∧
    ∀ c, x.failed = some c → exec (.transferComplete core q id fail) s = .next (s.refuseTransfer core q e x c.1 c.2)) ∧
  (∀ core q id fail n s e x pt rest c a, q < 4 → s.movable core q id = some (e, x) → x.todo = pt :: rest →
    s.landPoint e.ctx x pt (x.valAt 0) = .refused c a →
    exec (.transferStart core q id (n + 1) fail) s = .next (s.refuseTransfer core q e x c a) ∧
      exec (.transferComplete core q id fail) s = .next (s.refuseTransfer core q e x c a)) ∧
  (∀ core q id n s e x pt rest p, q < 4 → s.movable core q id = some (e, x) → x.todo = pt :: rest →
    s.landPoint e.ctx x pt (x.valAt 0) = .absent p →
    (s.mayRefuse x.root (ptrVa p) = true → exec (.transferStart core q id (n + 1) true) s = .next (s.refuseTransfer core q e x 0x06 p)) ∧
    ∀ fail, fail = false ∨ s.mayRefuse x.root (ptrVa p) = false →
      (x.overtakes = false → exec (.transferStart core q id (n + 1) fail) s = .next (State.stay core q e (s, x))) ∧
      (x.overtakes = true →
        (s.parks x [pt] = none → exec (.transferStart core q id (n + 1) fail) s = .next (State.stay core q e (s, x))) ∧
        ∀ y, s.parks x [pt] = some y → s.wordsOpen (s.keepVal y 0) (s.readWords x 0) = false →
          exec (.transferStart core q id 1 fail) s = .next (State.stay core q e (s, s.keepVal y 0)))) ∧
  (∀ core q id fail s h x, 4 ≤ q → s.heldNow core id = some (h, x) → x.todo = [] →
    exec (.transferComplete core q id fail) s = .next (s.completeHeld core h x)) ∧
  (∀ core q s e r m scope ds, ((s.core core).queue q).entries = e :: r → e.op = .mark m scope ds → s.markMay e = true →
    let s1 := ((s.publishLanded scope ((s.core core).queue q).landed).completeEntry core q e.id).emptyDests e.ctx scope
    let sent := ds.getD (s.releaseDests e.ctx scope)
    (sent = [] → exec (.qmarkCompletion core q) s = .next (if scope ≤ 1 then
      s1.setCore core ((s1.core core).setQueue q { (s1.core core).queue q with landed := [] }) else s1)) ∧
    (sent ≠ [] → exec (.qmarkCompletion core q) s =
      .next (s.setCore core ((s.core core).setEntry q { e with op := .mark m scope (some sent) })))) ∧
  (∀ core id s h t bs, (s.core core).heldSend id = some h → s.exchanging h = true → s.releasedBefore h.ctx h.num = true → h.slot = some t →
    t.data = some bs →
    let s1 := s.setCore core ((s.core core).dropHeld id)
    let m : Spilled := { tag := 0, off := t.dst, len := t.len, lo := 0, wid := 8 * t.len, val := ofBytes bs, count := 0 }
    s.lostCore t.dest = false → s.lostCore core = false → s1.mayReceive h.ctx t.dest = true → s1.mayLand (t.dest = core) t.dest t.len = true →
    (s1.core t.dest).landingMeets t.dst t.len = false →
    exec (.slotLanding core id) s = .next ((s1.landOrSpill (t.dest = core) t.dest (.msg m)).addDest h.ctx (.cluster (t.dest / 8))))) ∧
  ((∀ core id j fail s e code arg line l pte, (s.core core).entry 0 id = some e → e.op = .mcrun code arg line →
    s.mayPerform core 0 e = true → s.home e.ctx line false = .at_ l pte →
    let cid := 0x10000 + 16 * ownerOf l + j % 8
    (s.ctx cid).life = .free →
    ∃ t, exec (.mcrunProgramStart core id j fail) s = .next t ∧
      let c := t.ctx cid
      c.life = .live ∧ c.pc = code ∧ c.sreg 1 = arg ∧ c.sreg 2 = word (coreNo e.ctx) ∧ c.sreg 3 = word (ctxNo e.ctx) ∧
        (∀ n, 3 < n → c.sreg n = 0) ∧ c.mode = 0 ∧ c.view = (s.ctx e.ctx).wholeView ∧ c.starter = some (core, id) ∧ t.mem = (s.markHomes (s.space e.ctx) line 1).mem ∧
        ∀ d, d ≠ cid → t.ctx d = s.ctx d) ∧
  (∀ core id s e va, (s.core core).entry 3 id = some e → s.mayPerform core 3 e = true →
    let at' (rs : List Range) : State :=
      let s0 := s.markRanges e.ctx rs
      match s.home e.ctx va false with | .at_ l _ => s0.addDest e.ctx (destOf l) | _ => s0
    (∀ src d, e.op = .kvapp va src d → s.blocked e.ctx (s.appendRanges core e.ctx va src) = none →
      let s1 := at' (s.appendRanges core e.ctx va src)
      exec (.tokenOpPerform core id) s = .next (s1.tokenEnd core e va d (s1.append core e.ctx va src))) ∧
    (e.op = .kvseal va → s.blocked e.ctx (s.sealRanges e.ctx va) = none →
      let s1 := at' (s.sealRanges e.ctx va)
      ∀ t, s1.sealTag e.ctx va = .inr t → exec (.tokenOpPerform core id) s = .next (s1.tokenEnd core e va 0 (.inr (t, 0)))) ∧
    (∀ tag, e.op = .spset va tag → s.blocked e.ctx (s.recordRanges e.ctx va true false) = none →
      let s1 := at' (s.recordRanges e.ctx va true false)
      ∀ t, s1.setTag e.ctx va tag = .inr t → exec (.tokenOpPerform core id) s = .next (s1.tokenEnd core e va 0 (.inr (t, 0))))) ∧
  (∀ n s r, s.retiring[n]? = some r → s.retirementMay r = true → ((s.retiring.take n).any fun x => x.cid = r.cid) = false →
    let rs := s.retireRanges r.cid r.va r.tag
    s.blocked r.cid rs = none →
    (∀ t, (s.markRanges r.cid rs).retire r.cid r.va r.tag = .inr t →
      let u := t.closeEntry (coreNo r.cid) r.jrn
      exec (.spanRetirementPerform n) s = .next ({ u with retiring := u.retiring.eraseIdx n }.retireCheck r.cid)) ∧
    ∀ c j, (s.markRanges r.cid rs).retire r.cid r.va r.tag = .inl c → r.jrn = some j →
      let u := s.refusePost (coreNo r.cid) j c 0 r.va 0
      exec (.spanRetirementPerform n) s = .next ({ u with retiring := u.retiring.eraseIdx n }.retireCheck r.cid)))

/-- The matrix engine (R144, R149 to R158, R338 to R343): an MMA at the head of qm reaches the vector path or a setter entry with its next
step, waits for a FREE one, or completes with no step left; once the setter has settled no eligible entry is HELD whose key has an event of R153, what
fires is a key's eligible entries in the order of arrival (R153) up to 128 rows, and where PRELOAD is free the group of the highest priority loads, the
first that fired among equals (R155), as far as its members may still read the tile (R441); a group whose tile can be read streams; a member's rows are written and its slots popped; drains, zeroes, swaps and holds perform once the queue order lets them.
Model's choices that it rests on: log entries 26, 62, 67, 71. -/
def Obligations.MatrixEngineMoves : Prop :=
  (∀ core id s e m, QmStarts s core id e → e.op = .mma m → m.ready = true → m.busy = false → m.waits = none →
    let c := s.core core
    let u := s.settleSetter (core / 8)
    let x := u.cluster (core / 8)
    let k := m.nextKey
    let matched := x.setter.any fun y => y.isHeld && y.key = k
    let s1 := u.setMma core e m.begin (m.steps.length = 1)
    (m.steps = [] → exec (.mmaArrival core id) s = .next (s.completeEntry core 1 id)) ∧
    (m.steps ≠ [] → s.claimed core m.ring + m.rows / 16 ≤ (c.ring m.ring).occ →
      (matched = false → m.rows < c.mvth.toNat → c.vpath = none →
        (x.setter.any fun y => y.core = core && (y.acc = m.acc || y.ring = m.ring)) = false →
        exec (.mmaArrival core id) s = .next (s1.setCore core { s1.core core with vpath := some id })) ∧
      (matched = true ∨ c.mvth.toNat ≤ m.rows → 16 ≤ x.setter.length →
        exec (.mmaArrival core id) s = .next (u.setMma core e { m with waits := some u.cyc } false)) ∧
      (matched = true ∨ c.mvth.toNat ≤ m.rows → x.setter.length < 16 →
        let lim := if u.preempting core || (!matched && m.rows = 128) then 0 else m.hold.getD (u.core core).hold.toNat
        let y : SEntry := ⟨core, e.id, e.ctx, m.task, m.steps.headD 0, m.acc, m.ring, m.rows, m.prio, k, u.cyc, u.cyc + lim, .held⟩
        let x1 : Cluster := { x with setter := x.setter ++ [y] }
        exec (.mmaArrival core id) s =
          .next ((s1.setCluster (core / 8) (if m.prio = 3 then x1.fire (s1.vecSteps (core / 8)) k (some y) else x1)).settleNow (core / 8))))) ∧
  (∀ cl s, exec (.setterDeadline cl) s = .next (s.settleSetter cl)) ∧
  (∀ (x : Cluster) now k, x.mustFire now k = true ↔ keyDue x now k) ∧
  (∀ (x : Cluster) (vp : List (Nat × Nat × Nat)) since now, x.setter.length ≤ 16 → (∀ e ∈ x.setter, e.rows ≤ 128) →
    let y := Cluster.settle vp since now 17 x
    ∀ e ∈ y.setter, e.isHeld = true → ineligible vp y.setter e = false → ¬keyDue y now e.key) ∧
  (∀ es : List SEntry, (byArrival es).Perm es ∧ (byArrival es).Pairwise fun a b => a.arrive ≤ b.arrive) ∧
  (∀ (x : Cluster) vp k, let ok := byArrival (x.setter.filter fun e => e.isHeld && e.key = k && !ineligible vp x.setter e)
    let ms := takeMembers 128 ok
    ms <+: ok ∧ (ms.map (·.rows)).sum ≤ 128 ∧ (ms ≠ [] → x.fire vp k none = { x with
      setter := x.setter.map (fun e => if ms.contains e then { e with life := .fired x.nextGroup } else e),
      groups := x.groups ++ [⟨x.nextGroup, k, (ms.map (·.prio)).foldl max 0⟩], nextGroup := x.nextGroup + 1 })) ∧
  (∀ cl (s : State) g as bs,
    let x := s.cluster cl
    x.preload = none → x.groups = as ++ g :: bs → some g.id ≠ x.running → (∀ h ∈ x.groups, h.prio ≤ 3) →
    (∀ h ∈ as, some h.id ≠ x.running → h.prio < g.prio) → (∀ h ∈ bs, some h.id ≠ x.running → h.prio ≤ g.prio) →
    (∀ h ∈ as, h.id ≠ g.id) → (x.active.any fun a => a.1 = g.key) = false →
    (∀ e ∈ x.setter, e.group = some g.id → s.memberMayRead e.core e.id e.key = true) →
    ((s.loadNext cl).cluster cl).preload = some (g.id, if s.tileBusy g.key then none else some (s.tileNow g.key))) ∧
  (∀ cl (s : State) id g bs,
    let u := s.settleSetter cl
    let x := u.cluster cl
    x.preload = some (id, some (.inr bs)) → (x.groups.find? fun y => y.id = id) = some g → x.running = none →
    let x1 : Cluster := { x with
      setter := x.setter.map (fun e => if e.group = some g.id then { e with life := .running g.id } else e),
      active := some (g.key, bs), preload := none, running := some g.id }
    exec (.groupStreamStart cl) s = .next ((u.setCluster cl x1).settleNow cl)) ∧
  (∀ cl core id (s : State) e m bs rows a,
    let u := s.settleSetter cl
    ((u.cluster cl).setter.find? fun y => y.running && y.core = core && y.id = id) = some e →
    (u.core core).mmaAt id = some m → (u.cluster cl).active = some (a, bs) →
    u.stepRows core { m with key := e.key } (tileRows e.key.fmt bs) m.rows = .inr rows →
    exec (.memberRowsWritten cl core id) s =
      .next ((((u.writeRows core m.acc rows).stepOver core id).dropMember cl e).settleNow cl)) ∧
  (∀ core (s : State) id m bs rows,
    let u := s.settleSetter (core / 8)
    (u.core core).vpath = some id → (u.core core).mmaAt id = some m →
    let k := { m.key with ptr := m.key.ptr + m.cur * tileBytes m.key.fmt }
    let s1 := u.setCore core { u.core core with vpath := none }
    u.tileBusy k = false → s1.memberMayRead core id k = true → s1.tileNow k = .inr bs → s1.stepRows core { m with key := k } (tileRows k.fmt bs) m.rows = .inr rows →
    (s1.core core).mmaAt id = some m →
    exec (.vectorPathComplete core) s = .next (((s1.writeRows core m.acc rows).stepOver core id).settleNow (core / 8))) ∧
  (∀ core id s e, QmStarts s core id e →
    let mark (t : State) (op : QOp) : State := t.setCore core ((t.core core).setEntry 1 { e with op := op, performed := true })
    let x := s.cluster (core / 8)
    (∀ acc, e.op = .zero acc → s.accFree core id acc = true →
      let ss := s.engSlots core acc
      exec (.qmEntryPerform core id) s = .next (mark (s.setCluster (core / 8) { x with
        slots := ss.foldl (fun t n => tput 0 t n 0) x.slots, flags := ss.foldl (fun t n => tput 0 t n 0) x.flags,
        bad := x.bad.filter fun b => !ss.contains b.1 }) (.zero acc))) ∧
    (∀ off acc, e.op = .swap off acc → s.accFree core id acc = true →
      exec (.qmEntryPerform core id) s = .next (mark (s.swapSlots core e off acc) (.swap off acc))) ∧
    (∀ off acc pitch t rm sat iacc out0, e.op = .drain off acc pitch t rm sat iacc out0 → s.accFree core id acc = true →
      let d := x.drainRows (s.engSlots core acc) t rm sat iacc
      let s1 := s.setCluster (core / 8) { x with flags := d.1.foldl (fun f r => tput 0 f r.2.1 (slotFlags r.2.2 (tget 0 f r.2.1))) x.flags }
      d.2 = none → exec (.qmEntryPerform core id) s =
        .next (mark s1 (.drain off acc pitch t rm sat iacc (d.1.zipIdx.map fun r => (off + r.2 * pitch, r.1.1))))) ∧
    (e.op = .holdFire → exec (.qmEntryPerform core id) s = .next ((s.completeEntry core 1 id).setDeadlines core fun _ => 0)) ∧
    (∀ n, e.op = .holdSet n →
      exec (.qmEntryPerform core id) s = .next ((s.completeEntry core 1 id).setDeadlines core fun y => y.arrive + n))) ∧
  (∀ core id s e, (s.core core).entry 1 id = some e → e.performed = true →
    (∀ off acc pitch t rm sat iacc out, e.op = .drain off acc pitch t rm sat iacc out →
      (∀ r ∈ out, (s.core core).landingMeets r.1 r.2.length = false) → exec (.qmEntryComplete core id) s =
      .next ((out.foldl (fun t r => t.poke (locLocal core r.1) r.2) s).completeEntry core 1 id)) ∧
    ((∃ acc, e.op = .zero acc) ∨ (∃ off acc, e.op = .swap off acc) →
      exec (.qmEntryComplete core id) s = .next (s.completeEntry core 1 id)))

/-! ## What the fabric, the homes and Smirvadin do for a context -/

/-- Services end (R79, R80, R82, R94, R188, R208, R216, R399, R415): a walk that finds a leaf fills the TLBs and the access is made again, one that finds
an absent entry ships the context, which gives up its lock bit, or has the fetch's page served; a block of code arrives; a small context runs where its
page is served, once, and comes home; only a page of a reserved range is served, and its service
fails only where it may (R414, R465); an answer completes the instruction that waited for it.
Model's choices that it rests on: log entries 7, 31, 69, 82. -/
def Obligations.ServicesEnd : Prop :=
  (∀ cid s va fetch, (s.ctx cid).wait = .walk va fetch → s.secondTlb cid va = none →
    (∀ e, walk s.mem (s.rootFor cid) va = .leaf e →
      exec (.walkComplete cid) s = .next ((s.setCtx cid { s.ctx cid with wait := .none }).fillTlb cid fetch va e)) ∧
    (∀ m, walk s.mem (s.rootFor cid) va = .absent m → s.lostDieHome m = false →
      exec (.walkComplete cid) s = .next (if fetch then s.setCtx cid { s.ctx cid with wait := .fetchService m (word va) }
        else (s.setCtx cid { s.ctx cid with wait := .shipping m (word va) }).dropLock cid))) ∧
  (∀ cid s va fetch e, (s.ctx cid).wait = .walk va fetch → s.secondTlb cid va = some e →
    exec (.walkComplete cid) s = .next ((s.setCtx cid { s.ctx cid with wait := .none }).fillFirst cid fetch e)) ∧
  (∀ cid s va e, (s.ctx cid).wait = .block va → isSupervisor cid = false → tlbFind (s.core (s.tlbKey cid)).itlb (s.rootFor cid) va = some e →
    let pa := e.phys (va / 32 * 32)
    let x := s.core (s.tlbKey cid)
    paExists pa = true → homeThere s pa → s.poisoned pa 32 = false →
    exec (.blockFetchComplete cid) s = .next (((s.setCore (s.tlbKey cid) { x with
      blocks := tins x.blocks (blockKey (s.rootFor cid) va) (readBytes s.mem pa 32) }).setCtx cid { s.ctx cid with wait := .none }).touchItlb cid va)) ∧
  (∀ cid s m va, (s.ctx cid).wait = .shipping m va → s.lostHome m = false → (s.ctx cid).away = none →
    let c := s.ctx cid
    exec (.smallContextArrival cid) s =
      .next (s.setCtx cid { c with away := some ⟨m, ⟨c.pc, c.s, c.p⟩, va, c.wlen, c.ops⟩, wait := .service m va })) ∧
  (∀ cid s m va root wipes writes, (s.ctx cid).wait = .service m va →
    let sp := s.rootFor cid
    let s1 := s.installFor sp va.toNat wipes writes
    (∀ e, s.present sp va.toNat = true ∨ (s.reserved sp va.toNat = true ∧ s.homeGone sp va.toNat = false) → walk s1.mem sp va.toNat = .leaf e →
      exec (.pageServiceComplete cid va.toNat root true wipes writes) s = .next
      ((s1.setCtx cid { s1.ctx cid with wait := .none }).fillTlb cid false va.toNat e)) ∧
    (∀ e, walk s.mem sp va.toNat = .leaf e → s1 = s) ∧
    (s.present sp va.toNat = false →
      ∀ ok, ok = false ∨ s.reserved sp va.toNat = false ∨ s.homeGone sp va.toNat = true →
        (s.mayRefuse (some sp) va.toNat = true → exec (.pageServiceComplete cid va.toNat root ok wipes writes) s = .next (s.setCtx cid { s.ctx cid with
          wait := if (s.ctx cid).away = none then .none else .returning, unserved := some va.toNat })) ∧
        (s.mayRefuse (some sp) va.toNat = false → exec (.pageServiceComplete cid va.toNat root ok wipes writes) s = .next s))) ∧
  (∀ cid s, (s.ctx cid).wait = .returning →
    exec (.smallContextReturn cid) s = .next (s.setCtx cid { s.ctx cid with wait := .none, away := none, recalling := false })) ∧
  (∀ cid s l, unwatchedAt s cid → homeThere s l →
    (∀ ws p n, (s.ctx cid).wait = .answer ws p n l → s.poisoned l n = false →
      exec (.globalAccessAnswer cid) s = .next (resumed s cid fun t => t.setMe (t.me.writes ws))) ∧
    (∀ n r p, (s.ctx cid).wait = .bind n r p l → s.poisoned l 64 = false →
      exec (.globalAccessAnswer cid) s = .next (resumed s cid fun t => t.setTsr n (some r)))) ∧
  (∀ cid s n r p ls, unwatchedAt s cid → (s.ctx cid).wait = .gload n r p ls → (∀ l ∈ ls, homeThere s l ∧ s.poisoned l 32 = false) →
    exec (.globalAccessAnswer cid) s = .next (resumed s cid fun t => t.setRegion n r)) ∧
  (∀ cid v s d a b, (s.ctx cid).wait = .sysc d a b → exec (.syscAnswer cid v) s =
    .next (resumed s cid fun t => { t.setS d (word v) with sysc := t.sysc.filter fun q => q.cid ≠ cid }))

/-- Posted operations and releases (R86, R90, R92, R101, R369, R402, R403, R416 to R418): a home takes the next part of a post into its buffer or log,
or refuses it where its die is lost or there is no place, an add to an exact cell too (R418); acceptance frees the journal entry and a refusal raises its cause; a destination that has
the markers performs the stores that they followed, its acknowledgement is counted, and the last one performs the release.
Model's choices that it rests on: log entries 7, 25, 31, 45, 46. -/
def Obligations.PostsAndReleases : Prop :=
  (∀ n s x l size, s.posts[n]? = some x → x.parts[x.took]? = some (l, size) → s.postBehind n x = false →
    let y : Post := { x with took := x.took + 1, arrived := x.took + 1 = x.parts.length && x.refuse = none }
    let held := (linesOf l size).foldl (State.holdLine x.cid) (some s)
    (s.lostLoc l = true → exec (.postedArrival n) s = .next (s.setPost n (x.stop 0x15 0))) ∧
    (homeThere s l → x.req = none →
      (held = none → exec (.postedArrival n) s = .next (s.setPost n (x.stop 0x18 (logDie l)))) ∧
      (∀ s1, held = some s1 → exec (.postedArrival n) s = .next (s1.setPost n y))) ∧
    (∀ r, homeThere s l → x.req = some r → s.poisoned r.loc 64 = false → held = none → exec (.postedArrival n) s = .next (s.setPost n (x.stop 0x18 (logDie l)))) ∧
    (∀ r, homeThere s l → x.req = some r → s.poisoned r.loc 64 = false → held ≠ none →
      let v := if r.kind = .ecclr then 0 else cellAdd (readNat s.mem r.loc 64) r.y.toNat
      exec (.postedArrival n) s = .next ((((s.poke r.loc (toBytes 64 v)).markDirty r.pte).noteDirty x.cid r.loc).setPost n y))) ∧
  (∀ n s x j, s.posts[n]? = some x → x.arrived = true → x.jrn = some j →
    let s1 : State := { s with posts := s.posts.eraseIdx n }
    exec (.journalClose n) s = .next ((s1.setJrnState (coreNo x.cid) j 0).setCtx x.cid { s.ctx x.cid with
      own := (s.ctx x.cid).own.map fun o => if o.jrn = some j then { o with jrn := none } else o })) ∧
  (∀ n s x j cause die, s.posts[n]? = some x → x.parts.length ≤ x.took → x.refuse = some (cause, die) → x.jrn = some j →
    let s1 : State := { s with posts := s.posts.eraseIdx n }
    let s2 := (s1.setCtx x.cid { s.ctx x.cid with own := dropRefused (s.ctx x.cid).own j (x.parts.take x.took) }).trimHeld x.cid
    exec (.postedRefusal n) s = .next (s2.refusePost (coreNo x.cid) j cause x.done (x.ptr + x.done) die)) ∧
  (∀ cid kind n q s scope dests bytes, kind < 2 → s.underWay cid q = some (scope, dests, bytes) →
    let d := destNo kind n
    let mine (o : OwnByte) : Bool := destOf o.loc = d
    (dests.contains (d, false) = true →
      let s1 := s.setUnderWay cid q (dests.map fun x => if x.1 = d then (d, true) else x)
      let c := s1.ctx cid
      (q < 4 → exec (.flushMarkerArrival cid kind n q) s = .next s1) ∧
      (4 ≤ q → exec (.flushMarkerArrival cid kind n q) s = .next ((s1.setCtx cid { c with
        own := c.own.map fun o => if bytes.contains o && mine o then { o with pub := true } else o }).publish cid scope (bytes.filter mine)))) ∧
    (dests.contains (d, true) = true →
      let s1 := s.setUnderWay cid q (dests.filter fun x => x.1 ≠ d)
      (q < 4 → exec (.releaseAck cid kind n q) s = .next s1) ∧
      (4 ≤ q → (s1.ctx cid).pubs ≠ [] → exec (.releaseAck cid kind n q) s = .next (s1.pubCheck cid)) ∧
      (4 ≤ q → (s1.ctx cid).pubs = [] → exec (.releaseAck cid kind n q) s = .next (s1.releaseCheck cid)))) ∧
  (∀ port peer num s, port < 16 → s.peersLost.contains peer = false →
    exec (.flushMarkerArrival port 2 peer num) s = .next (s.setUet peer port ((s.uetOf peer port).mark num))) ∧
  (∀ n peer port s x, s.steps[n]? = some x → x.peer = peer → exec (.releaseAck n 2 peer port) s =
    .next { s with steps := s.steps.set n { x with marks := x.marks.filter fun m => m.1 ≠ port || !s.vexUp.contains m.2.2 } })

/-- An asynchronous cause is taken where the context stands at its boundary and may take it (R393): the first in the order of R397, with the entry of
R394 and, where it is journal-reported, of R402. Smirvadin takes a handler fault and the default handler's work (R396, R430): the report, then every
context of the core stops, the core leaves its launch, and the launch is to end FAILED with the cause.
Model's choices that it rests on: log entries 7, 31. -/
def Obligations.CausesTaken : Prop :=
  (∀ cid s, isMemCore cid = false → s.atBoundary cid = true → (s.ctx cid).mode = 0 → (s.ctx cid).ie = true → (∃ a, Takeable s cid a) →
    ∃ a t, exec (.asyncCauseTake cid 0) s = .next t ∧ FirstOf s cid a ∧ AsyncEntry s t cid a) ∧
  (∀ cid s, s.atBoundary cid = true → s.takesAsync cid = true → exec (.asyncCauseTake cid 0) s = .next (s.takeAsync cid)) ∧
  (∀ cid s, (s.atBoundary cid && s.takesAsync cid) = false → exec (.asyncCauseTake cid 0) s = .next s) ∧
  (∀ cid s, (s.ctx cid).mode = 1 → isCompute cid = true → bitOf (s.myLaunch cid).handlers (bits (s.ctx cid).xcause.toNat 0 6) = false →
    (s.ctx cid).inPre = false → (s.ctx cid).missPosl = none → (s.ctx cid).stopped = false → bits (s.ctx cid).xcause.toNat 0 6 ≠ 0x05 →
    let c := s.ctx cid
    exec (.asyncCauseTake cid 1) s =
      .next ((s.faultReport cid c.xpc c.xval c.xcause).stopCore (coreNo cid) (bits c.xcause.toNat 0 6))) ∧
  (∀ cid s f, isCompute cid = true → (s.hfaults.find? fun y => y.cid = cid) = some f → exec (.asyncCauseTake cid 2) s =
    .next (({ s with hfaults := s.hfaults.erase f }.faultReport cid f.pc (word f.cause) 0x1C).stopCore (coreNo cid) 0x1C)) ∧
  (∀ (s : State) core l reason, core < 3072 → (s.core core).launch = some l → l ≠ 0 →
    let t := s.stopCore core reason
    (∀ n, n < 11 → (t.ctx (16 * core + n)).stopped = true ∧ (t.ctx (16 * core + n)).record = none ∧ (t.ctx (16 * core + n)).wait = .none ∧
      (t.ctx (16 * core + n)).stat = (s.ctx (16 * core + n)).stat) ∧
    (t.core core).launch = none ∧ (t.launchOf l).failed = some ((s.launchOf l).failed.getD reason)) ∧
  (∀ (s : State) cid l xpc xval xcause, isCompute cid = true → (s.core (coreNo cid)).launch = some l →
    let ring := (s.launchOf l).ring
    let n := readNat s.mem ring 8
    let rep := ring + 64 + 64 * (n % 256)
    let t := s.faultReport cid xpc xval xcause
    n < 2 ^ 64 - 1 →
    readNat t.mem ring 8 = n + 1 ∧ readNat t.mem (rep + 8) 8 = xpc.toNat ∧ readNat t.mem (rep + 16) 8 = xval.toNat ∧
      readNat t.mem (rep + 24) 4 = xcause.toNat % 2 ^ 32 ∧ (∀ a, (a < ring ∨ ring + 8 ≤ a) → (a < rep ∨ rep + 64 ≤ a) → readByte t.mem a = readByte s.mem a))

/-! ## Launches, barriers and jobs -/

/-- The launch unit (R53 to R59, R174, R182, R468) refuses a record with the first code of R182 that applies, and dispatches one that passes:
it runs with the cores of its placement; one of a function that has migrated away does not start (R457). A die's range search answers (R179). A barrier release (R60) ends the superstep: the SSN moves on, the
arrivals are over, and each member's PHASE is compute; an error release raises DOMAIN_LOST at each member's SYNC and writes the exchange status block of
each member and of each core whose landings were refused (R420, R421).
Model's choices that it rests on: log entries 7, 28, 30, 34, 41, 48, 49. -/
def Obligations.LaunchesAndBarriers : Prop :=
  (∀ l root func pd dies loop xbase ring miss handlers saveb cones s, (s.launchOf l).stage = 0 → s.migGone func = false →
    let x := s.launchOf l
    let s0 := s.setLaunch l { x with root := root, func := func, pd := pd, xbase := word xbase, ring := ring, miss := miss, handlers := handlers, saveb := saveb }
    let s1 := (s0.setLaunch l { s0.launchOf l with fin := s0.rdL l (x.va + 0x20) 8 }).markHomes (some root) x.va 0x100
    let s2 := s1.markTables l x.va
    (∀ c, s1.recordFields l x.va = .inl c →
      exec (.launchDispatch l root func pd dies loop xbase ring miss handlers saveb cones) s = .next (s1.refuseLaunch l c)) ∧
    (∀ levels, s1.recordFields l x.va = .inr levels →
      (s2.placement l levels dies = none →
        exec (.launchDispatch l root func pd dies loop xbase ring miss handlers saveb cones) s = .next (s2.refuseLaunch l 8)) ∧
      (∀ p c, s2.placement l levels dies = some p → s2.refusal l x.va p = some c →
        exec (.launchDispatch l root func pd dies loop xbase ring miss handlers saveb cones) s = .next (s2.refuseLaunch l c)) ∧
      (∀ p, s2.placement l levels dies = some p → s2.refusal l x.va p = none → p.units = [] →
        exec (.launchDispatch l root func pd dies loop xbase ring miss handlers saveb cones) s =
          .next ((s2.setLaunch l (s2.dispatched l levels p)).checkLaunch l)) ∧
      (∀ p, s2.placement l levels dies = some p → s2.refusal l x.va p = none → p.units ≠ [] → p.cores ≠ [] → x.cancelled = false → x.left = [] →
        s2.waiting l = false →
        ∃ t, exec (.launchDispatch l root func pd dies loop xbase ring miss handlers saveb cones) s = .next t ∧
          (t.launchOf l).stage = 1 ∧ (t.launchOf l).cores = p.cores ∧
          (t.launchOf l).phased = !bitOf (s2.rdL l (x.va + 0x10) 4) 0 ∧ (t.launchOf l).hlim = bits (s2.rdL l (x.va + 0x10) 4) 8 4))) ∧
  (∀ l root func pd dies loop xbase ring miss handlers saveb cones s, s.migGone func = true →
    exec (.launchDispatch l root func pd dies loop xbase ring miss handlers saveb cones) s = .next s) ∧
  (∀ cid s, isCompute cid = true → (s.ctx cid).search = 1 → (s.ctx cid).range = none →
    let cl := clusterNo cid
    let others := ((List.range 16).filter fun i => cl / 16 * 16 + i ≠ cl).map (cl / 16 * 16 + ·)
    let best := mostLeft (others.flatMap (s.victims (s.launchNo cid)))
    (best = none → exec (.dieRangeSearch cid) s = .next (s.setCtx cid { s.ctx cid with search := 2 })) ∧
    (∀ v, best = some v → exec (.dieRangeSearch cid) s =
      .next ((s.split cid v).setCtx cid { (s.split cid v).ctx cid with search := 0 }))) ∧
  (∀ l d s, (s.dom l d).exchange = true → s.steps.any (State.stepDue l ((s.dom l d).members.filter fun c => !(s.dom l d).gone.contains c)) = false → s.domainHolds l d = false →
    (s.launchOf l).cores.any (s.joined l) = true → (∀ c ∈ (s.dom l d).members, c < 3072) →
    ∃ t, exec (.barrierRelease l d) s = .next t ∧ (t.dom l d).ssn = (s.dom l d).ssn + 1 ∧ (t.dom l d).arrived = [] ∧
      (t.dom l d).exchange = false ∧ (∀ c ∈ s.syncing (s.dom l d), (t.ctx (16 * c)).phase = 1) ∧
      (let x := s.dom l d
       x.refused = true ∨ x.lostDie.isSome = true → s.waiting l = false → (s.launchOf l).orphans = [] →
        (∀ c ∈ s.syncing x, (s.ctx (16 * c)).mode = 0 → (t.ctx (16 * c)).xval = word (d + 256 * x.lostDie.getD 0x1F) ∧
          (t.ctx (16 * c)).xcause = word (0x15 + 64 * Kind.retired.code + 512) ∧ (t.ctx (16 * c)).mode = 1) ∧
        ∀ c, c < 3072 → s.lostCore c = false → c ∈ s.syncing x ∨ (∃ m ∈ x.missing, m.core = c) →
          let ms := x.missing.filter fun m => m.core = c
          readNat t.mem (locLocal c 0x0880) 8 = x.ssn % 2 ^ 64 ∧ readNat t.mem (locLocal c 0x088C) 1 = x.lostDie.getD 0x1F % 256 ∧
          readNat t.mem (locLocal c 0x0890) 4 = ms.length % 2 ^ 32 ∧
          readNat t.mem (locLocal c 0x0898) 8 = (ms.map fun m => m.points.length).sum % 2 ^ 64))

/-- Pre-emption and the job-wide switch (R83, R404, R407 to R411): PREEMPT is pending on the control context of the core; a job that is held
and quiet, no exchange of it under way, is drained; its cores' images are captured, their translations ABSENT and the cores free, and switching in, once every image finds its core
idle and leaves a core to each unit that has been promised one (R59, R64), brings the job back with no image left, its translations PRESENT, and replays what waits in its bounce ring.
Model's choices that it rests on: log entries 7, 29, 50, 64, 66. -/
def Obligations.JobSwitch : Prop :=
  (∀ core job s, s.birhiry.boot ≠ 2 → exec (.preemptRequest core job) s = .next s) ∧
  (∀ core job s, s.birhiry.boot = 2 → ∃ t, exec (.preemptRequest core job) s = .next t ∧
    (t.ctx (16 * core)).pend = (s.ctx (16 * core)).pend ++ [{ code := 0x1A, val := word (job % 2), entry := none }] ∧
    (∀ i, i < 11 → (s.ctx (16 * core + i)).life = .live → i ≠ 0 →
      (t.ctx (16 * core + i)).pend = (s.ctx (16 * core + i)).pend ++ [{ code := 0x1A, val := word (job % 2), entry := none }]) ∧
    t.mem = s.mem) ∧
  (∀ l s, (s.launchOf l).stage = 1 → (s.launchOf l).held = true → (s.launchOf l).switch = 0 → s.exchangeRuns l = false →
    (s.jobCores l).all s.quiet = true →
    exec (.drainComplete l) s = .next (s.setLaunch l { s.launchOf l with switch := 1 })) ∧
  (∀ l s, (s.launchOf l).switch = 1 → ∃ t, exec (.jobImageCapture l) s = .next t ∧ (t.launchOf l).switch = 2 ∧
    t.images.length = s.images.length + (s.jobCores l).length ∧
    ∀ c ∈ s.jobCores l, c < 3072 → (t.core c).launch = none ∧ tget none t.ptt (pttKey l c) = some false) ∧
  (∀ l s, (s.launchOf l).switch = 2 → s.migGone (s.launchOf l).func = false →
    s.seatsImages (s.images.filter fun i => i.launch = l) = true →
    ∃ t, exec (.jobSwitchIn l) s = .next t ∧ (t.launchOf l).switch = 0 ∧ (t.launchOf l).held = false ∧
      t.images = s.images.filter (fun i => i.launch ≠ l) ∧ (∀ i ∈ s.images, i.launch = l → t.isPresent l i.num = true) ∧
      (∀ y ∈ t.bounce, y ∈ s.bounce) ∧ ∀ y ∈ s.bounce, y.launch ≠ l → y ∈ t.bounce)

/-! ## Links, peers and dies -/

/-- The collective engine and Vexpen (R183, R186, R366 to R372, R410, R456): steps start after the step that they follow, and fail with it; a SEND sends its
data in packets with a flush marker on each port, and completes once its peer has acknowledged them; a RECV completes when its data have landed and
their markers have come, those for a PRESENT core landing whole once all are there, or waiting in
the spill buffer of a core whose interface is held (R406); a step that completes signals its table, entry by entry; an
arrival of a launch that the port translation table does not know is counted and discarded, one for a PRESENT core joins its RECV from that peer, and one for
an ABSENT core the bounce ring while there is room; what has come before, and retries, change nothing.
Model's choices that it rests on: log entries 7, 12, 49, 50, 57, 64, 80. -/
def Obligations.CollectivesMove : Prop :=
  (∀ n s x, s.steps[n]? = some x → x.stage = 0 → x.after ≠ 0 → (∃ y, s.stepAt x.launch x.after = some y ∧ y.stage = 3) →
    exec (.collectiveStepStart n) s = .next (s.failSteps 0x15 257 [(x.launch, x.va)])) ∧
  (∀ n s x, s.steps[n]? = some x → x.stage = 0 → x.after = 0 ∨ (∃ y, s.stepAt x.launch x.after = some y ∧ y.stage = 2) →
    (s.launchOf x.launch).held = false →
    (∀ c, s.stepFault x = some c → exec (.collectiveStepStart n) s = .next (s.failSteps c 257 [(x.launch, x.va)])) ∧
    let early := spaceCode x.addr = 3 ∧ x.op = 0 ∧ x.kept = none ∧ s.joined x.launch (bits x.addr 36 12) = false
    (s.stepFault x = none → early → exec (.collectiveStepStart n) s = .next s) ∧
    (s.stepFault x = none → ¬early → s.peersLost.contains x.peer = true →
      exec (.collectiveStepStart n) s = .next (s.failSteps 0x15 257 [(x.launch, x.va)])) ∧
    (s.stepFault x = none → ¬early → s.peersLost.contains x.peer = false →
      (x.op = 1 → exec (.collectiveStepStart n) s = .next (({ s with steps := s.steps.set n { x with stage := 1 } } : State).replay x.launch)) ∧
      (∀ bs, x.op = 0 → s.portsUp x.ports ≠ [] → s.stepMayMove x = true → s.stepBytes x = .inr bs →
        let kept := x.atSync (s.launchOf x.launch).phased
        kept = false ∨ x.kept ≠ none →
        let y := State.sendPackets x (s.portsUp x.ports) (x.len / 4096 + 1) 0 bs (if kept then s else s.markHomes (s.rootOf x.launch) x.addr x.len)
        exec (.collectiveStepStart n) s = .next { y.1 with steps := y.1.steps.set n { x with
          stage := 1, data := writeBytes [] 0 bs, marks := topMarks y.2 } }))) ∧
  (∀ n s x, s.steps[n]? = some x → x.op = 0 → x.stage = 1 → x.marks = [] → exec (.collectiveSendComplete n) s = .next (s.finishStep n x)) ∧
  (∀ n s x, s.steps[n]? = some x → x.op = 1 → x.stage = 1 →
    let core := bits x.addr 36 12
    let m : Spilled := { tag := 0, off := ptrOffset x.addr, len := x.len, lo := 0, wid := 8 * x.len, val := ofBytes (readBytes x.data 0 x.len), count := 0 }
    let y : CStep := { x with landed := true }
    let s1 := (State.landHeld core (s.landSpilled core) (.msg m)).performed x
    let s2 : State := { s1 with steps := s1.steps.set n y }
    let lands := x.landed = false ∧ x.full = true ∧ s.stepMayMove x = true ∧ s.isPresent x.launch core = true ∧ s.joined x.launch core = true ∧
      s.stepCore x = true ∧ s.spilledStep x = false ∧ s.mayLand false core x.len = true ∧ (s.core core).landingMeets (ptrOffset x.addr) x.len = false
    (spaceCode x.addr ≠ 3 → x.full = true → s.gathered x = true → exec (.collectiveRecvComplete n) s = .next (s.finishStep n x)) ∧
    (spaceCode x.addr = 3 → x.landed = true → s.gathered x = true → exec (.collectiveRecvComplete n) s = .next (s.finishStep n x)) ∧
    (spaceCode x.addr = 3 → lands → s.interfaceHeld core = false → (s.core core).spill = [] →
      s.steps.findIdx? (fun z => z.launch = x.launch && z.va = x.va && z.stage = 1 && !z.landed) = some n →
      exec (.collectiveRecvComplete n) s = .next (if s2.gathered y then s2.finishStep n y else s2)) ∧
    (spaceCode x.addr = 3 → lands → s.interfaceHeld core = true → exec (.collectiveRecvComplete n) s = .next (s.setCore core { s.core core with
      spill := (s.core core).spill ++ [.msg m, .step x.launch x.va] })) ∧
    (spaceCode x.addr = 3 → x.landed = false → s.stepCore x = false →
      exec (.collectiveRecvComplete n) s = .next (s.failSteps 0x07 257 [(x.launch, x.va)])) ∧
    (spaceCode x.addr = 3 → x.landed = false → s.stepCore x = true → s.isPresent x.launch core = false →
      exec (.collectiveRecvComplete n) s = .next s)) ∧
  (∀ (s : State) n x, s.finishStep n x = State.signal { s with steps := s.steps.set n { x with stage := 2 } } x.launch x.table) ∧
  (∀ (s : State) l list, list ≠ 0 → ∃ f : Nat → State, f 0 = s.markHomes (s.rootOf l) list (8 + 16 * s.rdL l list 8) ∧
    f (s.rdL l list 8) = s.signal l list ∧ ∀ i, i < s.rdL l list 8 → EntrySignalled l list i (f i) (f (i + 1))) ∧
  (∀ port of peer l p num bytes s, s.vexUp.contains port = true → of < 16 → s.peersLost.contains peer = false → bytes.length ≤ 4096 →
    s.received peer of num = false →
    let bs : List Byte := bytes.map (BitVec.ofNat 8)
    let took (t : State) : State := t.setUet peer of ((s.uetOf peer of).take num)
    let core := bits p 36 12
    ((s.ptt.any fun e => e.1 / 4096 = l) = false → exec (.vexpenArrival port of peer l p num bytes) s =
      .next (took { s with discards := tput 0 s.discards port (tget 0 s.discards port + 1) })) ∧
    ((s.ptt.any fun e => e.1 / 4096 = l) = true → spaceCode p = 3 →
      (tget none s.ptt (pttKey l core) = some true → (s.recvAt l peer core (ptrOffset p) bs.length).isSome = true → s.staged + bs.length ≤ 2 ^ 26 →
        exec (.vexpenArrival port of peer l p num bytes) s = .next (s.arriveLocal l peer core (ptrOffset p) bs of num)) ∧
      (tget none s.ptt (pttKey l core) = some true → (s.recvAt l peer core (ptrOffset p) bs.length).isSome = false ∨ 2 ^ 26 < s.staged + bs.length →
        exec (.vexpenArrival port of peer l p num bytes) s = .next s) ∧
      (tget none s.ptt (pttKey l core) = some false → ∃ seq, (∀ y ∈ s.bounce, y.launch = l → y.seq < seq) ∧
        let y : Bounced := ⟨peer, l, core, ptrOffset p, bs, seq, of, num⟩
        exec (.vexpenArrival port of peer l p num bytes) s = .next (if s.bounceRoom y then { s with bounce := s.bounce ++ [y] } else s))) ∧
    (∀ n s1, (s.ptt.any fun e => e.1 / 4096 = l) = true → spaceCode p ≠ 3 →
      (s.steps.findIdx? fun x => x.op = 1 && x.stage = 1 && x.launch = l && x.peer = peer && x.addr ≤ p && p + bs.length ≤ x.addr + x.len) = some n →
      s.peerWrite l peer p bs = .inr s1 →
      exec (.vexpenArrival port of peer l p num bytes) s = .next (took { s1 with
        steps := s1.steps.modify n fun x => { x with arrived := x.arrived ++ [⟨p - x.addr, bs.length, of, num⟩] } }))) ∧
  (∀ port of peer l p num bytes s, s.received peer of num = true → exec (.vexpenArrival port of peer l p num bytes) s = .next s) ∧
  (∀ s, exec .uetRetransmit s = .next s ∧ exec .linkLevelRetry s = .next s)

/-- Ports and parts come up, go down and are lost (R366, R423 to R425, R427, R429, R454 to R456): a link that comes up is up; a CXL port that goes down refuses
what was on its way; a Vexpen port that goes down leaves every send, and every packet
of theirs that no port which is up carries goes out again on a surviving port of the send, each by its own pick, under the failed port's numbers; a peer without acknowledgement is lost, and so is a die without a
heartbeat or with its last link down; a poisoned answer poisons its line.
Model's choices that it rests on: log entries 7, 50. -/
def Obligations.PartsComeAndGo : Prop :=
  (∀ port s, port < 16 → ∃ t, exec (.vexpenPortUp port) s = .next t ∧ t.vexUp.contains port = true ∧ t.mem = s.mem) ∧
  (∀ port cap s, port < 8 → ∃ t, exec (.cxlPortUp port cap) s = .next t ∧ t.cxlUp.contains port = true ∧
    (s.cxlUp.contains port = false → tget 0 t.cxlCap port = min cap (2 ^ 41)) ∧ t.mem = s.mem) ∧
  (∀ port s, port < 2 → ∃ t, exec (.hostLinkUp port) s = .next t ∧ t.hostUp.contains port = true ∧ t.mem = s.mem) ∧
  (∀ l s, exec (.cxlMemResponse l false) s = .next s ∧ ∃ t, exec (.cxlMemResponse l true) s = .next t ∧ t.poisoned l 1 = true) ∧
  (∀ port s, s.cxlUp.contains port = true →
    ∃ t, exec (.cxlPortDown port) s = .next t ∧ exec (.cxlResponseTimeout port) s = .next t ∧ t.cxlUp.contains port = false ∧
      ∀ x ∈ s.posts, x.refuse = none → (∃ p ∈ x.parts, p.1 < 2 ^ 48 ∧ bits p.1 47 1 = 1 ∧ bits p.1 41 3 = port) →
        { x.stop 0x06 0 with arrived := false } ∈ t.posts) ∧
  (∀ port s, ∃ t, exec (.vexpenPortDown port) s = .next t ∧ t.vexUp = s.vexUp.filter (fun p => p ≠ port) ∧
    (s.vexUp.contains port = true →
      (∀ x ∈ t.steps, x.op = 0 → x.stage = 1 → t.portsUp x.ports ≠ [] → ∀ m ∈ x.marks, m.2.2 ≠ port) ∧
      (s.birhiry.boot = 2 → t.vexUp ≠ [] → EventSent 3 port s t) ∧
      (∀ x ∈ s.steps, x.op = 0 → x.stage = 1 → t.portsUp x.ports ≠ [] → ∀ m ∈ x.marks,
        ∀ k ∈ s.vexOut, k.of = m.1 → k.num ≤ m.2.1 → k.peer = x.peer → k.launch = x.launch → k.va = x.va →
          ∃ q ∈ t.vexOut, t.vexUp.contains q.port = true ∧ q.same k = true) ∧
      ∀ q ∈ t.vexOut, q ∉ s.vexOut → t.vexUp.contains q.port = true ∧ ∃ x ∈ s.steps, bitOf x.ports q.port = true ∧
        ∃ k ∈ s.vexOut, q = { k with port := q.port } ∧ k.peer = x.peer ∧ k.launch = x.launch ∧ k.va = x.va)) ∧
  (∀ peer s, ∃ t, exec (.peerAckTimeout peer) s = .next t ∧ t.peersLost.contains peer = true) ∧
  (∀ d s, d < 24 → ∃ t, exec (.dieHeartbeatTimeout d) s = .next t ∧ (t.die d).lost = true) ∧
  (∀ d dir s, d < 24 → (dieLinks d).contains dir = true → (∀ k ∈ dieLinks d, k ≠ dir → (s.die d).linksDown.contains k = true) →
    ∃ t, exec (.ucieLinkDown d dir) s = .next t ∧ (t.die d).lost = true)

/-! ## Hosts and migration -/

/-- A host's requests (R361 to R364, R451, R452): the tail write rings a doorbell and the head write frees slots, its head the next one whose low byte it
names, at most the tail; MAP, UNMAP, the copies, LAUNCH and CANCEL answer with the
status that their conditions give; a copy whose host access fails stops with the bytes that it moved, and its port reports the error.
Model's choices that it rests on: log entries 7, 33, 34, 82. -/
def Obligations.HostRequests : Prop :=
  (∀ f u tail entries s, isFunc f = true → s.hostUp.contains (s.func f).port = true → ∃ t, exec (.reqtailWrite f u tail entries) s = .next t ∧
    (t.func f).reqTail % 256 = tail % 256 ∧ (s.func f).reqHead ≤ (t.func f).reqTail ∧ (t.func f).reqTail < (s.func f).reqHead + 256 ∧ t.bells.contains (0x20000 + 16 * (u % 32)) = true ∧ t.mem = s.mem) ∧
  (∀ f h s, isFunc f = true → s.hostUp.contains (s.func f).port = true → (s.func f).rspHead ≤ (s.func f).rspTail → ∃ t, exec (.rspheadWrite f h) s = .next t ∧
    (t.func f).rspHead = min ((s.func f).rspHead + (h + 256 - (s.func f).rspHead % 256) % 256) (s.func f).rspTail ∧ t.mem = s.mem) ∧
  (∀ n ok va wipes writes s r, Requested s n 1 r →
    let x := s.func r.func
    let good := mapOk (r.arg 0) (r.arg 1) (r.arg 2) && (r.args.drop 3).all (· = 0)
    (good = false → exec (.map n ok va wipes writes) s = .next (s.answer n r 2 0)) ∧
    (good = true →
      exec (.map n false va wipes writes) s = .next (s.answer n r 1 0) ∧
      (s.mapFits x.root va (r.arg 0) (r.arg 1) = true → s.mayInstall x.root wipes writes (newLeaf va (r.arg 0) (r.arg 1) (r.arg 2)) = true →
        (x.maps.any fun m => m.va < va + r.arg 0 && va < m.va + m.size) = false →
        exec (.map n true va wipes writes) s = .next (((s.install wipes writes).setFunc r.func { x with
          maps := x.maps ++ [⟨va, r.arg 0, r.arg 1, r.arg 2⟩] }).answer n r 0 va)))) ∧
  (∀ n s r, Requested s n 2 r →
    let a := r.arg 0
    let b := a + r.arg 1
    let x := s.func r.func
    (wholeLeaves x.maps a b = false → exec (.unmap n) s = .next (s.answer n r 1 0)) ∧
    (wholeLeaves x.maps a b = true → exec (.unmap n) s = .next (((s.unmapRange x.root a b).setFunc r.func { x with
      maps := x.maps.flatMap (Mapping.without a b) }).answer n r 0 0))) ∧
  (∀ n s r, r.active = false →
    (Requested s n 3 r → exec (.copyIn n) s = .next (s.copyCheck n { r with active := true })) ∧
    (Requested s n 4 r → exec (.copyOut n) s = .next (s.copyCheck n { r with active := true }))) ∧
  (∀ n s r, s.reqs[n]? = some r → r.active = true →
    exec (.hostCompletionTimeout n) s = .next ((s.reportAer r.func 4).answer n r 1 r.moved) ∧
    (∀ kind bytes, kind ≠ 0 → exec (.hostCompletionArrival n kind bytes) s = .next ((s.reportAer r.func kind).answer n r 1 r.moved)) ∧
    (∀ bytes, r.opc = 3 →
      let ls := s.copyRun r r.moved (r.whole bytes.length)
      let u := if ls = [] then s else s.markCopy r ls.length
      exec (.hostCompletionArrival n 0 bytes) s =
        .next ((u.copyLand r.func ls (bytes.map (BitVec.ofNat 8))).copyCheck n { r with moved := r.moved + ls.length })) ∧
    (∀ bytes, r.opc ≠ 3 →
      let ls := s.copyRun r r.moved (r.whole bytes.length)
      let u := if ls = [] then s else s.markCopy r ls.length
      (∀ l ∈ ls, u.poisoned l.1 1 = false) →
      exec (.hostCompletionArrival n 0 bytes) s = .next (State.copyCheck { u with
        hostOut := u.hostOut ++ [(r.func, r.hostAddr + r.moved, ls.map fun l => readByte u.mem l.1)] } n { r with moved := r.moved + ls.length }))) ∧
  (∀ n s r, Requested s n 5 r →
    (r.launch = none → s.migGone r.func = false → (s.func r.func).covers 0 (r.arg 0) 256 = true →
      exec (.mailboxLaunch n true) s = .next { s.setLaunch s.newLaunch { Launch.init with
        va := r.arg 0, stage := 0, func := r.func, root := (s.func r.func).root } with
      reqs := s.reqs.set n { r with launch := some s.newLaunch } }) ∧
    (∀ ok, r.launch = none → ok = false ∨ s.migGone r.func = true ∨ (s.func r.func).covers 0 (r.arg 0) 256 = false →
      exec (.mailboxLaunch n ok) s = .next (s.answer n r 1 0)) ∧
    (∀ l ok, r.launch = some l → (s.launchOf l).stage = 2 →
      exec (.mailboxLaunch n ok) s = .next (s.answer n r 0 (s.rdL l (s.launchOf l).fin 4)))) ∧
  (∀ n s r, Requested s n 6 r →
    ((s.launches.find? fun x => x.2.va = r.arg 0 && x.2.stage < 2 && x.2.func = r.func) = none →
      exec (.mailboxCancel n) s = .next (s.answer n r 0 2)) ∧
    (∀ l y, (s.launches.find? fun x => x.2.va = r.arg 0 && x.2.stage < 2 && x.2.func = r.func) = some (l, y) →
      exec (.mailboxCancel n) s = .next ((s.cancelLaunch l).1.answer n r 0 (s.cancelLaunch l).2)))

/-- Function resets, link losses and migration (R365, R373, R453, R457): a reset leaves no request, mapping or ring entry of the function, nor a
grant; a migration begins, counts its dirty rounds, sends frames that the destination lands, takes its final acknowledgement when the function stands at an
exchange boundary and everything has been sent, moves through its stages, and ends on a refusal, a timeout or RESUMED, after which the source runs nothing of the function; a frame that was found
dirty is owed until it is sent again; a profiler's grant is one of its
kind, and ends when its function has no launch left (R383, R463).
Model's choices that it rests on: log entries 7, 34, 65. -/
def Obligations.FunctionsResetAndMigrate : Prop :=
  (∀ f s, isFunc f = true → exec (.functionLevelReset f) s = .next (s.resetFunction f) ∧
    (∀ r ∈ (s.resetFunction f).reqs, r.func ≠ f) ∧
    let x := (s.resetFunction f).func f
    x.maps = [] ∧ x.req = [] ∧ x.reqTail = 0 ∧ x.reqHead = 0 ∧ x.rsp = [] ∧ x.rspTail = 0 ∧ x.rspHead = 0 ∧ x.waiting = [] ∧
      ∀ p ∈ (s.resetFunction f).profilers, p.func ≠ f) ∧
  (∀ port s, s.hostUp.contains port = true →
    let s1 : State := { s with hostUp := s.hostUp.filter (fun p => p ≠ port), hostLost := port :: s.hostLost }
    let fs := (List.range 66).filter fun f => (s1.func f).port = port
    let s2 := fs.foldl State.resetFunction s1
    exec (.hostLinkDown port) s = .next (s2.hostEvent 1 port) ∧ (s2.birhiry.boot = 2 → EventSent 1 port s2 (s2.hostEvent 1 port)) ∧
      ∀ f ∈ fs, ((s2.hostEvent 1 port).func f).maps = [] ∧ ∀ r ∈ (s2.hostEvent 1 port).reqs, r.func ≠ f) ∧
  (∀ f m w s, ∃ t, exec (.dirtyBitmapRead f m w) s = .next t ∧
    (t.mig f).dirtyWord = ((s.dirty.filter fun x => x.1 = f && ownerOf (x.2 * 32768) = m && frameBit x.2 / 64 = w).map
      fun x => 2 ^ (frameBit x.2 % 64)).sum ∧
    (∀ x ∈ t.dirty, ¬(x.1 = f ∧ ownerOf (x.2 * 32768) = m ∧ frameBit x.2 / 64 = w)) ∧ t.mem = s.mem ∧
    ((s.mig f).stage = 1 → ∀ x ∈ s.dirty, x.1 = f → ownerOf (x.2 * 32768) = m → frameBit x.2 / 64 = w → x.2 ∈ (t.mig f).owed)) ∧
  (∀ f stage peer s, s.birhiry.boot = 2 → (s.mig f).stage = 0 → exec (.registerWrite 13 [f, stage, peer]) s =
    .next (s.setMig f { Migration.init with stage := if stage = 0 then 1 else 4, peer := peer })) ∧
  (∀ f found threshold s, s.birhiry.boot = 2 → (s.mig f).stage = 1 → exec (.registerWrite 19 [f, found, threshold]) s = .next (s.setMig f { s.mig f with
    rounds := (s.mig f).rounds + 1, last := (s.mig f).last || found < threshold || 30 ≤ (s.mig f).rounds + 1 })) ∧
  (∀ f frame s, s.birhiry.boot = 2 → (s.mig f).stage = 1 → exec (.registerWrite 20 [f, frame]) s =
    .next (s.setMig f { s.mig f with
      frames := (s.mig f).frames ++ [(frame, readBytes s.mem (32768 * frame) 32768)], owed := (s.mig f).owed.filter fun x => x ≠ frame })) ∧
  (∀ f frame v s, s.birhiry.boot = 2 → (s.mig f).stage = 4 → (s.framesOf f).contains frame = true →
    exec (.registerWrite 22 [f, frame, v]) s = .next (s.poke (32768 * frame) (toBytes 32768 v))) ∧
  (∀ f pools s, (s.mig f).stage = 1 ∨ (s.mig f).stage = 2 →
    exec (.finalCopyAck f false pools) s = .next (s.abortMigration f) ∧
    ((s.mig f).stage = 1 → s.atExchangeBoundary f = true → s.allSent f pools = true →
      exec (.finalCopyAck f true pools) s = .next (s.setMig f { s.mig f with stage := 2 })) ∧
    ((s.mig f).stage = 1 → s.atExchangeBoundary f = false ∨ s.allSent f pools = false → exec (.finalCopyAck f true pools) s = .next s)) ∧
  (∀ f s, ((s.mig f).stage = 2 → exec (.migrationCommit f) s = .next (s.setMig f { s.mig f with stage := 3 })) ∧
    ((s.mig f).stage = 4 → exec (.migrationCommit f) s = .next ((s.setMig f { s.mig f with stage := 5 }).endMigration f))) ∧
  (∀ f s, (s.mig f).stage = 3 → ∃ t, exec (.migrationResumed f) s = .next t ∧ (t.mig f).stage = 6 ∧
    (t.func f).maps = [] ∧ t.migGone f = true) ∧
  (∀ f s, (s.mig f).stage = 3 → exec (.resumedTimeout f) s =
    .next (((((s.launchesOf f).foldl (fun t l => t.failWaitingLaunch l 0x15) s).endGrants f).abortMigration f).setMig f { Migration.init with stage := 6 })) ∧
  (∀ f s, (s.mig f).stage = 4 → exec (.commitTimeout f) s = .next (((s.freeFrames f).giveAway f).setMig f Migration.init)) ∧
  (∀ f kind clusters s, kind = 1 ∨ kind = 2 → isFunc f = true →
    ((s.profilers.any fun p => p.kind = kind) = false → exec (.profilerGrant f kind clusters true) s = .next
      (State.notify { s with profilers := s.profilers ++ [⟨kind, f, if kind = 2 then clusters else []⟩] } (fun g => g = f) (0x100 + kind))) ∧
    (s.launchesOf f = [] →
      exec (.profilerGrant f kind clusters false) s = .next (s.endProfilers fun p => p.func = f && p.kind = kind))) ∧
  ∀ (s : State) f, (s.launchesOf f = [] → ∀ p ∈ (s.endGrants f).profilers, p.func ≠ f) ∧ (s.launchesOf f ≠ [] → s.endGrants f = s)

/-! ## Boot, security and observation -/

/-- Boot and recovery (R375 to R377, R458, R459): a reset wipes every memory, keeps the fuses and takes up a change of the lifecycle; a header or
a body that fails its checks goes to recovery mode with its code in a response of function 0, and one that passes is measured in MEAS0 and MEAS1, loaded and
released on the 32 supervisor cores; a change of the lifecycle waits
for the next reset (R378).
Model's choices that it rests on: log entries 7, 8, 10, 35. -/
def Obligations.BootAndRecovery : Prop :=
  (∀ s, ∃ t, exec .packageReset s = .next t ∧ t.mem = [] ∧ t.ctxs = [] ∧ t.cores = [] ∧ t.meas = [] ∧ t.birhiry.life = s.birhiry.nextLife ∧
    t.birhiry.rollback = s.birhiry.rollback ∧ t.birhiry.dbgPath = s.birhiry.dbgPath ∧
    t.birhiry.boot = (if s.birhiry.nextLife = 3 then 3 else 0)) ∧
  (∀ s, s.birhiry.boot < 2 → Recovers s 1 (exec .flashResponseTimeout s) ∧
    ∀ data blown, Recovers s 1 (exec (.flashReadComplete false data blown) s)) ∧
  (∀ data blown s, s.birhiry.boot = 0 →
    (∀ c, headerCode (data % 2 ^ 4096) = some c → Recovers s c (exec (.flashReadComplete true data blown) s)) ∧
    (headerCode (data % 2 ^ 4096) = none → exec (.flashReadComplete true data blown) s =
      .next (s.setBirhiry { s.birhiry with boot := 1, header := data % 2 ^ 4096 }))) ∧
  (∀ data blown s, s.birhiry.boot = 1 →
    let b := s.birhiry
    let x := commitTo b.rollback b.header blown
    (∀ c, bodyCode b.life b.rollback b.header data = some c → Recovers s c (exec (.flashReadComplete true data blown) s)) ∧
    (bodyCode b.life b.rollback b.header data = none → x.2 = none →
      Boots s x.1 b.header data (exec (.flashReadComplete true data blown) s)) ∧
    ∀ c, bodyCode b.life b.rollback b.header data = none → x.2 = some c → Recovers s c (exec (.flashReadComplete true data blown) s)) ∧
  (∀ n image blown s r, s.reqs[n]? = some r → s.birhiry.boot = 3 → r.opc = 7 →
    let b := s.birhiry
    let h := image % 2 ^ (8 * min 512 (r.arg 1))
    let body := image / 2 ^ 4096 % 2 ^ (8 * (r.arg 1 - 512))
    let x := commitTo b.rollback h blown
    (∀ c, recoverCode b.life b.rollback (r.arg 1) h body = some c → exec (.recover n image blown) s = .next (s.answer n r 1 c)) ∧
    (recoverCode b.life b.rollback (r.arg 1) h body = none → x.2 = none → Boots s x.1 h body (exec (.recover n image blown) s))) ∧
  (∀ x s, s.birhiry.nextLife = s.birhiry.life → x = s.birhiry.life + 1 → x ≤ 2 → ∃ t, exec (.lifecycleFuseTransition x) s = .next t ∧
    t.birhiry.life = s.birhiry.life ∧ t.birhiry.nextLife = x)

/-- Measurements and debug unlock (R379 to R382, R389, R460 to R462, R464): MEAS3 to MEAS6 extend; requests on the selected path are answered; a token
that fails is refused with its first reason and uses up the nonce, and one that passes sends event 6, after event 7 where the port of an expired token has yet to
close; an expired token closes the port and sends event 7;
freezing takes an open port; the 1149.1 port reads all ones from a closed package, else the
chain of a die's state, and at level 2 a write gives the die the state that the written chain holds (log 9).
Model's choices that it rests on: log entries 7, 8, 9, 10, 35. -/
def Obligations.MeasureAndUnlock : Prop :=
  (∀ m n x s, 3 ≤ m → m ≤ 6 → s.birhiry.boot = 2 → exec (.measExtend m n x) s = .next { s with
    meas := tput 0 s.meas m (BitVec.ofNat 512 (sha512 (64 + n) ((tget 0 s.meas m).toNat + 2 ^ 512 * (x % 2 ^ (8 * n))))) }) ∧
  (∀ m n x s, m < 3 ∨ 6 < m ∨ s.birhiry.boot ≠ 2 → exec (.measExtend m n x) s = .next s) ∧
  (∀ path s, Reaches s path → exec (.getMeasurements path false) s = .next (s.reply path 0 0) ∧
    exec (.getMeasurements path true) s = .next (s.setBirhiry { s.birhiry with busy := true, blocks := s.measBlocks })) ∧
  (∀ (s : State) m, m < 8 → bits s.measBlocks (512 * m) 512 = (tget 0 s.meas m).toNat) ∧
  (∀ s, s.birhiry.busy = true →
    let b := s.birhiry
    let d := s.draw
    let e := d.2.draw
    let x := signWith (Config.attestationKey Config.devid (bits b.blocks 0 512)) (1 + e.1 % (orderP521 - 1))
      (sha512 Config.transcriptLength (Config.transcript d.1 b.blocks))
    exec .signatureComplete s =
      .next (((e.2.setBirhiry { b with busy := false }).reply b.dbgPath 2 b.blocks).reply b.dbgPath 6 (packBits [(528, x.1), (528, x.2)]))) ∧
  (∀ path nonce s, Reaches s path →
    (8 ≤ s.birhiry.refusals → exec (.debugNonceRequest path nonce) s = .next (refusalOn s path 8)) ∧
    (s.birhiry.refusals < 8 → exec (.debugNonceRequest path nonce) s =
      .next ((s.setBirhiry { s.birhiry with nonce := some (nonce % 2 ^ 256, s.cyc) }).reply path 3 (nonce % 2 ^ 256)))) ∧
  (∀ path token s, Reaches s path →
    (∀ r, s.tokenReason token = some r → exec (.debugToken path token) s =
      .next (refusalOn (s.setBirhiry { s.birhiry with nonce := none, refusals := s.birhiry.refusals + 1 }) path r)) ∧
    (s.tokenReason token = none → ∃ t, exec (.debugToken path token) s = .next t ∧
      t.birhiry.keys = [] ∧ t.birhiry.nonce = none ∧ t.birhiry.refusals = 0 ∧
      (let u := s.closeExpired
       (s.birhiry.boot = 2 → EventSent 6 (fieldAt token 0x21 1) u t) ∧
         (s.birhiry.boot = 2 → s.birhiry.level ≠ 0 → s.birhiry.life = 2 → s.birhiry.expiry ≤ s.cyc → EventSent 7 0 s u) ∧
         (fieldAt token 0x21 1 = 0xFF → t.birhiry.nextLife = 3 ∧ t.birhiry.level = u.birhiry.level)) ∧
      (fieldAt token 0x21 1 ≠ 0xFF → t.birhiry.nextLife = s.birhiry.nextLife ∧ t.birhiry.level = fieldAt token 0x21 1 ∧
        ∀ n at_, s.birhiry.nonce = some (n, at_) → t.birhiry.expiry = at_ + fieldAt token 0x24 4 * 1800000000))) ∧
  (∀ s, s.birhiry.level ≠ 0 → s.birhiry.life = 2 → s.birhiry.frozen = true ∨ s.birhiry.expiry ≤ s.cyc →
    ∃ t, exec .tokenExpiry s = .next t ∧ t = { s with birhiry := { s.birhiry with level := 0 }, funcs := t.funcs } ∧
      (s.birhiry.boot = 2 → EventSent 7 0 s t)) ∧
  (∀ s, (1 ≤ s.debugLevel → exec .freeze s = .next (s.setBirhiry { s.birhiry with frozen := true })) ∧
    (s.debugLevel = 0 → exec .freeze s = .next (s.setBirhiry { s.birhiry with ignored := s.birhiry.ignored + 1 }))) ∧
  (∀ bit s, exec (.bypass bit) s = .next (s.setBirhiry { s.birhiry with scanOut := bit % 2 })) ∧
  (∀ s, ∃ t, exec .idcode s = .next t ∧ t = s.setBirhiry t.birhiry ∧ bits t.birhiry.scanOut 0 1 = 1 ∧ bits t.birhiry.scanOut 12 16 = 0x2418) ∧
  (∀ die s, s.debugLevel = 0 → exec (.scanrd die) s = .next (s.setBirhiry { s.birhiry with scanOut := 2 ^ Config.scanLength die - 1 })) ∧
  (∀ die s, s.debugLevel ≠ 0 →
    let now := chainOf die (s.dieState die) % 2 ^ Config.scanLength die
    (s.birhiry.frozen = true → ∀ v, tfind s.birhiry.scan die = some v → exec (.scanrd die) s = .next (s.setBirhiry { s.birhiry with scanOut := v })) ∧
    (s.birhiry.frozen = false ∨ tfind s.birhiry.scan die = none → exec (.scanrd die) s = .next (s.setBirhiry { s.birhiry with scanOut := now }))) ∧
  (∀ die data s, let v := data % 2 ^ Config.scanLength die
    (s.debugLevel = 2 → die < 26 →
      let s1 := if s.birhiry.frozen then s.setBirhiry { s.birhiry with scan := tins s.birhiry.scan die v } else s
      (scannedDie die v = none → exec (.scanwr die data) s = .next s1) ∧ ∀ x, scannedDie die v = some x → exec (.scanwr die data) s = .next (s1.setDieState die x)) ∧
    (s.debugLevel ≠ 2 ∨ 26 ≤ die → exec (.scanwr die data) s = .next s)) ∧
  ∀ (s : State) d x, let t := s.setDieState d x
    t.die d = x.die ∧ (∀ k ∈ dieCores d, t.core k = tget Core.init x.cores k) ∧ (∀ k ∈ dieCtxs d, t.ctx k = tget (ctxReset k) x.ctxs k) ∧
      ∀ k ∈ dieClusters d, t.cluster k = tget Cluster.init x.clusters k

/-- Observation, errors and Smirvadin's register writes (R6, R74, R75, R240, R384, R385, R427 to R429): no observation changes memory outside a trace
ring; corrected errors are counted, uncorrectable ones poison what they strike or raise SOFT_ERROR, once boot has released
the dies (R375), and a host port reports its own (R452); a function gets only an address space that shares no memory (R366), and ranges are reserved (R465); a written register holds what was written.
Model's choices that it rests on: log entries 3, 7, 34, 36, 52, 82. -/
def Obligations.ObserveAndRepair : Prop :=
  (∀ core s, exec (.droopBudgetReset core) s =
    .next (if (s.core core).demand + 16 < s.cyc then s.setCore core { s.core core with bud := 2 } else s)) ∧
  (∀ die s, (s.cyc - (s.die die).wsBase) % 64 < 32 →
    ∃ t, exec (.weightStoreRefresh die) s = .next t ∧ t = { s with cyc := t.cyc } ∧ s.cyc < t.cyc) ∧
  (∀ cid s, (s.die (dieNo cid)).trace.period = 0 → exec (.traceSample cid) s = .next s) ∧
  (∀ cid s, (s.die (dieNo cid)).trace.period ≠ 0 → (s.ctx cid).ready = true →
    let x := (s.die (dieNo cid)).trace
    let a := x.base + 32 * x.next
    ∃ t, exec (.traceSample cid) s = .next t ∧ t = { s with mem := t.mem, poison := t.poison, dies := t.dies, free := t.free } ∧
      (x.size = 0 → t.mem = s.mem) ∧
      (x.size ≠ 0 → (∀ l, l < a ∨ a + 32 ≤ l → readByte t.mem l = readByte s.mem l) ∧ readNat t.mem a 8 = s.cyc % 2 ^ 64 ∧
        readNat t.mem (a + 14) 1 = 0 ∧ readNat t.mem (a + 16) 8 = (s.ctx cid).pc.toNat ∧
        (t.die (dieNo cid)).trace.next = (x.next + 1) % x.size)) ∧
  (∀ m fixed lines s, ∃ t, exec (.patrolScrub m fixed lines) s = .next t ∧ t.mem = s.mem ∧
    ∀ l ∈ lines, paExists l = true → ownerOf l = m → t.poisoned l 1 = true) ∧
  (∀ kind a b c s, s.birhiry.boot ≠ 2 → kind ≠ 11 → exec (.softError kind a b c) s = .next s) ∧
  (∀ port b c s, port < 2 → exec (.softError 11 port b c) s = .next { s with aer := s.aer ++ [(port, 5)] }) ∧
  (∀ die what c s, s.birhiry.boot = 2 → exec (.softError 0 die what c) s = .next (s.corrected die what 1)) ∧
  (∀ l b c s, s.birhiry.boot = 2 → ∃ t, exec (.softError 1 l b c) s = .next t ∧ t.poisoned l 1 = true ∧ t.mem = s.mem) ∧
  (∀ core entry what s, s.birhiry.boot = 2 → exec (.softError 3 core entry what) s = .next (s.pendTo (16 * core) 0x19 (softVal what entry))) ∧
  (∀ core s, s.birhiry.boot = 2 → exec (.softError 8 core 0 0) s = .next (s.discard core)) ∧
  (∀ n b c s x, s.birhiry.boot = 2 → s.posts[n]? = some x → x.refuse = none → x.req = none ∨ x.took = 0 → exec (.softError 5 n b c) s =
    .next (s.setPost n { x with parts := [], took := 0, arrived := false, refuse := some (0x19, 0) })) ∧
  (∀ cid b c s w, s.birhiry.boot = 2 → (s.ctx cid).ready = true → s.fetchAt cid = .word w →
    let reads := (decodeWord w).instr.any fun i => State.instrReads { s with cur := cid } i c b
    (reads = false → exec (.softError 2 cid b c) s = .next s) ∧
    (reads = true →
      exec (.softError 2 cid b c) s = .next (s.takeTrap cid .exact 0x19 ((decodeWord w).len / 4) (s.ctx cid).pc (softVal c b)))) ∧
  (∀ slot e cl s, s.birhiry.boot = 2 → ∃ t, exec (.softError 4 slot e cl) s = .next t ∧ (t.cluster cl).bad.contains (slot, e) = true ∧ t.mem = s.mem) ∧
  (∀ d b c s, s.birhiry.boot = 2 → d < 24 → exec (.softError 6 d b c) s = .next (s.loseDie d)) ∧
  (∀ cid b c s, s.birhiry.boot = 2 → (s.ctx cid).away ≠ none → exec (.softError 7 cid b c) s = .next (s.restoreAway cid)) ∧
  (∀ cid b c s m va, s.birhiry.boot = 2 → (s.ctx cid).away = none → (s.ctx cid).wait = .shipping m va → exec (.softError 7 cid b c) s =
    .next ((s.setCtx cid { s.ctx cid with wait := .none }).takeTrap cid .exact 0x06 ((s.ctx cid).wlen / 4) (s.ctx cid).pc (word (ptrOfVa va.toNat)))) ∧
  (∀ kind v s, s.birhiry.boot ≠ 2 → exec (.registerWrite kind v) s = .next s) ∧
  ∀ s, s.birhiry.boot = 2 →
    (∀ core w a c root, w < 4 → s.mayWatch core a c root = true → ∃ t, exec (.registerWrite 0 [core, w, a, c, root]) s = .next t ∧
      tget 0 (t.core core).waddr w = word a ∧ tget 0 (t.core core).wctl w = word (c % 512)) ∧
    (∀ core a c root, core < 0x10000 → s.mayWatch core a c root = true) ∧
    (∀ core a b, ∃ t, exec (.registerWrite 1 [core, a, b]) s = .next t ∧ (t.core core).llo = word a ∧ (t.core core).lhi = word b) ∧
    (∀ watts, 1600 ≤ watts → watts ≤ 2400 → exec (.registerWrite 5 [watts]) s = .next { s with cap := watts } ∧
      ∀ f, (s.profilers.any fun p => p.kind = 1 && p.func = f) = true → exec (.registerWrite 5 [watts, f]) s = .next { s with cap := watts }) ∧
    (∀ id, exec (.registerWrite 6 [id]) s = .next { s with pkgid := id }) ∧
    (∀ f root, isFunc f = true → s.mayAttach f root = true → exec (.registerWrite 14 [f, root]) s = .next (s.setFunc f { s.func f with root := root })) ∧
    (∀ f root, s.mayAttach f root = false → exec (.registerWrite 14 [f, root]) s = .next s) ∧
    (∀ root va n, ∃ t, exec (.registerWrite 25 [root, va, n]) s = .next t ∧ ∀ x, va ≤ x → x < va + n → t.reserved root x = true) ∧
    (∀ root n, n ≤ 2 ^ 32 → ∃ t, exec (.registerWrite 26 [root, n]) s = .next t ∧ tget 0 t.privs root = n) ∧
    ∀ core, ∃ t, exec (.registerWrite 17 [core, 1]) s = .next t ∧ (t.core core).jdb = true
end

