-- ==== Sys2Proof/Laws/Tab.lean ====
section
/-! SUPPORT. The laws of sparse tables: reading after writing, and the canonical form. -/

namespace Sys2Proof.Machine

variable {α : Type}

@[simp] theorem tget_nil (d : α) (n : Nat) : tget d [] n = d := rfl

theorem tget_tdel_same (d : α) (t : Tab α) (n : Nat) : tget d (tdel t n) n = d := by
  induction t with
  | nil => rfl
  | cons x r ih =>
    obtain ⟨k, v⟩ := x
    by_cases h : n = k <;> simp [tdel, tget, h]
    · subst h; exact ih
    · exact ih

theorem tget_tdel_ne (d : α) (t : Tab α) {n m : Nat} (h : m ≠ n) : tget d (tdel t n) m = tget d t m := by
  induction t with
  | nil => rfl
  | cons x r ih =>
    obtain ⟨k, v⟩ := x
    by_cases hk : n = k
    · subst hk; simp [tdel, tget, h, ih]
    · by_cases hm : m = k <;> simp [tdel, tget, hk, hm, ih]

theorem tget_tins_same (d : α) (t : Tab α) (n : Nat) (x : α) : tget d (tins t n x) n = x := by
  induction t with
  | nil => simp [tins, tget]
  | cons y r ih =>
    obtain ⟨k, v⟩ := y
    by_cases h1 : n < k
    · simp [tins, tget, h1]
    · by_cases h2 : n = k <;> simp [tins, tget, h1, h2, ih]

theorem tget_tins_ne (d : α) (t : Tab α) {n m : Nat} (x : α) (h : m ≠ n) : tget d (tins t n x) m = tget d t m := by
  induction t with
  | nil => simp [tins, tget, h]
  | cons y r ih =>
    obtain ⟨k, v⟩ := y
    by_cases h1 : n < k
    · simp [tins, tget, h1, h]
    · by_cases h2 : n = k
      · subst h2; simp [tins, tget, h]
      · by_cases hm : m = k <;> simp [tins, tget, h1, h2, hm, ih]

variable [DecidableEq α]

/-- A key reads what was written to it. -/
@[simp] theorem tget_tput_same (d : α) (t : Tab α) (n : Nat) (x : α) : tget d (tput d t n x) n = x := by
  unfold tput
  split
  · rename_i h; rw [h]; exact tget_tdel_same d t n
  · exact tget_tins_same d t n x

/-- A write leaves every other key alone. -/
theorem tget_tput_ne (e d : α) (t : Tab α) {n m : Nat} (x : α) (h : m ≠ n) : tget e (tput d t n x) m = tget e t m := by
  unfold tput
  split
  · exact tget_tdel_ne e t h
  · exact tget_tins_ne e t x h

/-- What a key reads after a write. -/
theorem tget_tput (d : α) (t : Tab α) (n m : Nat) (x : α) : tget d (tput d t n x) m = if m = n then x else tget d t m := by
  by_cases h : m = n
  · subst h; simp
  · simp [h, tget_tput_ne d d t x h]

theorem twfFrom_mono (d : α) (t : Tab α) {a b : Nat} (h : a ≤ b) (w : twfFrom d b t = true) : twfFrom d a t = true := by
  cases t with
  | nil => rfl
  | cons x r =>
    obtain ⟨k, v⟩ := x
    simp [twfFrom] at w ⊢
    exact ⟨⟨by omega, w.1.2⟩, w.2⟩

theorem twfFrom_filter (d : α) (p : Nat × α → Bool) (t : Tab α) (lo : Nat) (w : twfFrom d lo t = true) :
    twfFrom d lo (t.filter p) = true := by
  induction t generalizing lo with
  | nil => rfl
  | cons x r ih =>
    obtain ⟨k, v⟩ := x
    simp [twfFrom] at w
    by_cases h : p (k, v) = true
    · simp [List.filter, h, twfFrom, w.1]
      exact ih _ w.2
    · simp [List.filter, h]
      exact twfFrom_mono d _ (by omega) (ih _ w.2)

theorem twfFrom_tdel (d : α) (t : Tab α) (n lo : Nat) (w : twfFrom d lo t = true) : twfFrom d lo (tdel t n) = true := by
  induction t generalizing lo with
  | nil => rfl
  | cons x r ih =>
    obtain ⟨k, v⟩ := x
    simp [twfFrom] at w
    by_cases h : n = k
    · simp [tdel, h]
      exact twfFrom_mono d _ (by omega) (h ▸ ih _ w.2)
    · simp [tdel, h, twfFrom, w.1]
      exact ih _ w.2

theorem twfFrom_tins (d : α) (t : Tab α) (n lo : Nat) (x : α) (hl : lo ≤ n) (hx : x ≠ d) (w : twfFrom d lo t = true) :
    twfFrom d lo (tins t n x) = true := by
  induction t generalizing lo with
  | nil => simp [tins, twfFrom, hl, hx]
  | cons y r ih =>
    obtain ⟨k, v⟩ := y
    simp [twfFrom] at w
    by_cases h1 : n < k
    · simp [tins, h1, Nat.succ_le_of_lt h1, twfFrom, hl, hx, w]
    · by_cases h2 : n = k
      · subst h2; simp [tins, twfFrom, w, hx]
      · simp [tins, h1, h2, twfFrom, w.1]
        exact ih _ (by omega) w.2

/-- Deleting a key keeps the canonical form. -/
theorem twf_tdel (d : α) (t : Tab α) (n : Nat) (w : twf d t = true) : twf d (tdel t n) = true := twfFrom_tdel d t n 0 w

/-- A write keeps the canonical form. -/
theorem twf_tput (d : α) (t : Tab α) (n : Nat) (x : α) (w : twf d t = true) : twf d (tput d t n x) = true := by
  unfold tput
  split
  · exact twf_tdel d t n w
  · exact twfFrom_tins d t n 0 x (Nat.zero_le _) (by assumption) w

theorem twf_filter (d : α) (p : Nat × α → Bool) (t : Tab α) (w : twf d t = true) : twf d (t.filter p) = true :=
  twfFrom_filter d p t 0 w

end Sys2Proof.Machine
end

