-- ==== Sys2Proof/Laws/State.lean ====
section
/-! SUPPORT. The laws of the state: what each named update leaves in each field, and reading a part after writing one. The
proofs are written so that simp does not close a goal by reduction, which the kernel would then repeat on large terms. -/

namespace Sys2Proof.Machine

/-! ## setCtx -/

@[simp] theorem State.setCtx_mem (s : State) (c : Nat) (x : Ctx) : (s.setCtx c x).mem = s.mem := (rfl)
@[simp] theorem State.setCtx_lim (s : State) (c : Nat) (x : Ctx) : (s.setCtx c x).lim = s.lim := (rfl)
@[simp] theorem State.setCtx_pubs (s : State) (c : Nat) (x : Ctx) : (s.setCtx c x).pubs = s.pubs := (rfl)
@[simp] theorem State.setCtx_buffers (s : State) (c : Nat) (x : Ctx) : (s.setCtx c x).buffers = s.buffers := (rfl)
@[simp] theorem State.setCtx_poison (s : State) (c : Nat) (x : Ctx) : (s.setCtx c x).poison = s.poison := (rfl)
@[simp] theorem State.setCtx_mending (s : State) (c : Nat) (x : Ctx) : (s.setCtx c x).mending = s.mending := (rfl)
@[simp] theorem State.setCtx_posts (s : State) (c : Nat) (x : Ctx) : (s.setCtx c x).posts = s.posts := (rfl)
@[simp] theorem State.setCtx_cores (s : State) (c : Nat) (x : Ctx) : (s.setCtx c x).cores = s.cores := (rfl)
@[simp] theorem State.setCtx_dies (s : State) (c : Nat) (x : Ctx) : (s.setCtx c x).dies = s.dies := (rfl)
@[simp] theorem State.setCtx_hfaults (s : State) (c : Nat) (x : Ctx) : (s.setCtx c x).hfaults = s.hfaults := (rfl)
@[simp] theorem State.setCtx_sysc (s : State) (c : Nat) (x : Ctx) : (s.setCtx c x).sysc = s.sysc := (rfl)
@[simp] theorem State.setCtx_prefs (s : State) (c : Nat) (x : Ctx) : (s.setCtx c x).prefs = s.prefs := (rfl)
@[simp] theorem State.setCtx_prefServices (s : State) (c : Nat) (x : Ctx) : (s.setCtx c x).prefServices = s.prefServices := (rfl)
@[simp] theorem State.setCtx_bells (s : State) (c : Nat) (x : Ctx) : (s.setCtx c x).bells = s.bells := (rfl)
@[simp] theorem State.setCtx_clusters (s : State) (c : Nat) (x : Ctx) : (s.setCtx c x).clusters = s.clusters := (rfl)
@[simp] theorem State.setCtx_launches (s : State) (c : Nat) (x : Ctx) : (s.setCtx c x).launches = s.launches := (rfl)
@[simp] theorem State.setCtx_grants (s : State) (c : Nat) (x : Ctx) : (s.setCtx c x).grants = s.grants := (rfl)
@[simp] theorem State.setCtx_retiring (s : State) (c : Nat) (x : Ctx) : (s.setCtx c x).retiring = s.retiring := (rfl)
@[simp] theorem State.setCtx_retired (s : State) (c : Nat) (x : Ctx) : (s.setCtx c x).retired = s.retired := (rfl)
@[simp] theorem State.setCtx_domains (s : State) (c : Nat) (x : Ctx) : (s.setCtx c x).domains = s.domains := (rfl)
@[simp] theorem State.setCtx_images (s : State) (c : Nat) (x : Ctx) : (s.setCtx c x).images = s.images := (rfl)
@[simp] theorem State.setCtx_reserves (s : State) (c : Nat) (x : Ctx) : (s.setCtx c x).reserves = s.reserves := (rfl)
@[simp] theorem State.setCtx_privs (s : State) (c : Nat) (x : Ctx) : (s.setCtx c x).privs = s.privs := (rfl)
@[simp] theorem State.setCtx_pools (s : State) (c : Nat) (x : Ctx) : (s.setCtx c x).pools = s.pools := (rfl)
@[simp] theorem State.setCtx_funcs (s : State) (c : Nat) (x : Ctx) : (s.setCtx c x).funcs = s.funcs := (rfl)
@[simp] theorem State.setCtx_vfSplit (s : State) (c : Nat) (x : Ctx) : (s.setCtx c x).vfSplit = s.vfSplit := (rfl)
@[simp] theorem State.setCtx_reqs (s : State) (c : Nat) (x : Ctx) : (s.setCtx c x).reqs = s.reqs := (rfl)
@[simp] theorem State.setCtx_hostOut (s : State) (c : Nat) (x : Ctx) : (s.setCtx c x).hostOut = s.hostOut := (rfl)
@[simp] theorem State.setCtx_hostUp (s : State) (c : Nat) (x : Ctx) : (s.setCtx c x).hostUp = s.hostUp := (rfl)
@[simp] theorem State.setCtx_hostLost (s : State) (c : Nat) (x : Ctx) : (s.setCtx c x).hostLost = s.hostLost := (rfl)
@[simp] theorem State.setCtx_aer (s : State) (c : Nat) (x : Ctx) : (s.setCtx c x).aer = s.aer := (rfl)
@[simp] theorem State.setCtx_cxlUp (s : State) (c : Nat) (x : Ctx) : (s.setCtx c x).cxlUp = s.cxlUp := (rfl)
@[simp] theorem State.setCtx_cxlCap (s : State) (c : Nat) (x : Ctx) : (s.setCtx c x).cxlCap = s.cxlCap := (rfl)
@[simp] theorem State.setCtx_vexUp (s : State) (c : Nat) (x : Ctx) : (s.setCtx c x).vexUp = s.vexUp := (rfl)
@[simp] theorem State.setCtx_discards (s : State) (c : Nat) (x : Ctx) : (s.setCtx c x).discards = s.discards := (rfl)
@[simp] theorem State.setCtx_peersLost (s : State) (c : Nat) (x : Ctx) : (s.setCtx c x).peersLost = s.peersLost := (rfl)
@[simp] theorem State.setCtx_steps (s : State) (c : Nat) (x : Ctx) : (s.setCtx c x).steps = s.steps := (rfl)
@[simp] theorem State.setCtx_uet (s : State) (c : Nat) (x : Ctx) : (s.setCtx c x).uet = s.uet := (rfl)
@[simp] theorem State.setCtx_vexOut (s : State) (c : Nat) (x : Ctx) : (s.setCtx c x).vexOut = s.vexOut := (rfl)
@[simp] theorem State.setCtx_ptt (s : State) (c : Nat) (x : Ctx) : (s.setCtx c x).ptt = s.ptt := (rfl)
@[simp] theorem State.setCtx_bounce (s : State) (c : Nat) (x : Ctx) : (s.setCtx c x).bounce = s.bounce := (rfl)
@[simp] theorem State.setCtx_dirty (s : State) (c : Nat) (x : Ctx) : (s.setCtx c x).dirty = s.dirty := (rfl)
@[simp] theorem State.setCtx_migs (s : State) (c : Nat) (x : Ctx) : (s.setCtx c x).migs = s.migs := (rfl)
@[simp] theorem State.setCtx_birhiry (s : State) (c : Nat) (x : Ctx) : (s.setCtx c x).birhiry = s.birhiry := (rfl)
@[simp] theorem State.setCtx_profilers (s : State) (c : Nat) (x : Ctx) : (s.setCtx c x).profilers = s.profilers := (rfl)
@[simp] theorem State.setCtx_cap (s : State) (c : Nat) (x : Ctx) : (s.setCtx c x).cap = s.cap := (rfl)
@[simp] theorem State.setCtx_cyc (s : State) (c : Nat) (x : Ctx) : (s.setCtx c x).cyc = s.cyc := (rfl)
@[simp] theorem State.setCtx_pkgid (s : State) (c : Nat) (x : Ctx) : (s.setCtx c x).pkgid = s.pkgid := (rfl)
@[simp] theorem State.setCtx_meas (s : State) (c : Nat) (x : Ctx) : (s.setCtx c x).meas = s.meas := (rfl)
@[simp] theorem State.setCtx_cur (s : State) (c : Nat) (x : Ctx) : (s.setCtx c x).cur = s.cur := (rfl)
@[simp] theorem State.setCtx_agenda (s : State) (c : Nat) (x : Ctx) : (s.setCtx c x).agenda = s.agenda := (rfl)
@[simp] theorem State.setCtx_free (s : State) (c : Nat) (x : Ctx) : (s.setCtx c x).free = s.free := (rfl)

/-! ## setCore -/

@[simp] theorem State.setCore_mem (s : State) (c : Nat) (x : Core) : (s.setCore c x).mem = s.mem := (rfl)
@[simp] theorem State.setCore_lim (s : State) (c : Nat) (x : Core) : (s.setCore c x).lim = s.lim := (rfl)
@[simp] theorem State.setCore_pubs (s : State) (c : Nat) (x : Core) : (s.setCore c x).pubs = s.pubs := (rfl)
@[simp] theorem State.setCore_buffers (s : State) (c : Nat) (x : Core) : (s.setCore c x).buffers = s.buffers := (rfl)
@[simp] theorem State.setCore_poison (s : State) (c : Nat) (x : Core) : (s.setCore c x).poison = s.poison := (rfl)
@[simp] theorem State.setCore_mending (s : State) (c : Nat) (x : Core) : (s.setCore c x).mending = s.mending := (rfl)
@[simp] theorem State.setCore_posts (s : State) (c : Nat) (x : Core) : (s.setCore c x).posts = s.posts := (rfl)
@[simp] theorem State.setCore_ctxs (s : State) (c : Nat) (x : Core) : (s.setCore c x).ctxs = s.ctxs := (rfl)
@[simp] theorem State.setCore_dies (s : State) (c : Nat) (x : Core) : (s.setCore c x).dies = s.dies := (rfl)
@[simp] theorem State.setCore_hfaults (s : State) (c : Nat) (x : Core) : (s.setCore c x).hfaults = s.hfaults := (rfl)
@[simp] theorem State.setCore_sysc (s : State) (c : Nat) (x : Core) : (s.setCore c x).sysc = s.sysc := (rfl)
@[simp] theorem State.setCore_prefs (s : State) (c : Nat) (x : Core) : (s.setCore c x).prefs = s.prefs := (rfl)
@[simp] theorem State.setCore_prefServices (s : State) (c : Nat) (x : Core) : (s.setCore c x).prefServices = s.prefServices := (rfl)
@[simp] theorem State.setCore_bells (s : State) (c : Nat) (x : Core) : (s.setCore c x).bells = s.bells := (rfl)
@[simp] theorem State.setCore_clusters (s : State) (c : Nat) (x : Core) : (s.setCore c x).clusters = s.clusters := (rfl)
@[simp] theorem State.setCore_launches (s : State) (c : Nat) (x : Core) : (s.setCore c x).launches = s.launches := (rfl)
@[simp] theorem State.setCore_grants (s : State) (c : Nat) (x : Core) : (s.setCore c x).grants = s.grants := (rfl)
@[simp] theorem State.setCore_retiring (s : State) (c : Nat) (x : Core) : (s.setCore c x).retiring = s.retiring := (rfl)
@[simp] theorem State.setCore_retired (s : State) (c : Nat) (x : Core) : (s.setCore c x).retired = s.retired := (rfl)
@[simp] theorem State.setCore_domains (s : State) (c : Nat) (x : Core) : (s.setCore c x).domains = s.domains := (rfl)
@[simp] theorem State.setCore_images (s : State) (c : Nat) (x : Core) : (s.setCore c x).images = s.images := (rfl)
@[simp] theorem State.setCore_reserves (s : State) (c : Nat) (x : Core) : (s.setCore c x).reserves = s.reserves := (rfl)
@[simp] theorem State.setCore_privs (s : State) (c : Nat) (x : Core) : (s.setCore c x).privs = s.privs := (rfl)
@[simp] theorem State.setCore_pools (s : State) (c : Nat) (x : Core) : (s.setCore c x).pools = s.pools := (rfl)
@[simp] theorem State.setCore_funcs (s : State) (c : Nat) (x : Core) : (s.setCore c x).funcs = s.funcs := (rfl)
@[simp] theorem State.setCore_vfSplit (s : State) (c : Nat) (x : Core) : (s.setCore c x).vfSplit = s.vfSplit := (rfl)
@[simp] theorem State.setCore_reqs (s : State) (c : Nat) (x : Core) : (s.setCore c x).reqs = s.reqs := (rfl)
@[simp] theorem State.setCore_hostOut (s : State) (c : Nat) (x : Core) : (s.setCore c x).hostOut = s.hostOut := (rfl)
@[simp] theorem State.setCore_hostUp (s : State) (c : Nat) (x : Core) : (s.setCore c x).hostUp = s.hostUp := (rfl)
@[simp] theorem State.setCore_hostLost (s : State) (c : Nat) (x : Core) : (s.setCore c x).hostLost = s.hostLost := (rfl)
@[simp] theorem State.setCore_aer (s : State) (c : Nat) (x : Core) : (s.setCore c x).aer = s.aer := (rfl)
@[simp] theorem State.setCore_cxlUp (s : State) (c : Nat) (x : Core) : (s.setCore c x).cxlUp = s.cxlUp := (rfl)
@[simp] theorem State.setCore_cxlCap (s : State) (c : Nat) (x : Core) : (s.setCore c x).cxlCap = s.cxlCap := (rfl)
@[simp] theorem State.setCore_vexUp (s : State) (c : Nat) (x : Core) : (s.setCore c x).vexUp = s.vexUp := (rfl)
@[simp] theorem State.setCore_discards (s : State) (c : Nat) (x : Core) : (s.setCore c x).discards = s.discards := (rfl)
@[simp] theorem State.setCore_peersLost (s : State) (c : Nat) (x : Core) : (s.setCore c x).peersLost = s.peersLost := (rfl)
@[simp] theorem State.setCore_steps (s : State) (c : Nat) (x : Core) : (s.setCore c x).steps = s.steps := (rfl)
@[simp] theorem State.setCore_uet (s : State) (c : Nat) (x : Core) : (s.setCore c x).uet = s.uet := (rfl)
@[simp] theorem State.setCore_vexOut (s : State) (c : Nat) (x : Core) : (s.setCore c x).vexOut = s.vexOut := (rfl)
@[simp] theorem State.setCore_ptt (s : State) (c : Nat) (x : Core) : (s.setCore c x).ptt = s.ptt := (rfl)
@[simp] theorem State.setCore_bounce (s : State) (c : Nat) (x : Core) : (s.setCore c x).bounce = s.bounce := (rfl)
@[simp] theorem State.setCore_dirty (s : State) (c : Nat) (x : Core) : (s.setCore c x).dirty = s.dirty := (rfl)
@[simp] theorem State.setCore_migs (s : State) (c : Nat) (x : Core) : (s.setCore c x).migs = s.migs := (rfl)
@[simp] theorem State.setCore_birhiry (s : State) (c : Nat) (x : Core) : (s.setCore c x).birhiry = s.birhiry := (rfl)
@[simp] theorem State.setCore_profilers (s : State) (c : Nat) (x : Core) : (s.setCore c x).profilers = s.profilers := (rfl)
@[simp] theorem State.setCore_cap (s : State) (c : Nat) (x : Core) : (s.setCore c x).cap = s.cap := (rfl)
@[simp] theorem State.setCore_cyc (s : State) (c : Nat) (x : Core) : (s.setCore c x).cyc = s.cyc := (rfl)
@[simp] theorem State.setCore_pkgid (s : State) (c : Nat) (x : Core) : (s.setCore c x).pkgid = s.pkgid := (rfl)
@[simp] theorem State.setCore_meas (s : State) (c : Nat) (x : Core) : (s.setCore c x).meas = s.meas := (rfl)
@[simp] theorem State.setCore_cur (s : State) (c : Nat) (x : Core) : (s.setCore c x).cur = s.cur := (rfl)
@[simp] theorem State.setCore_agenda (s : State) (c : Nat) (x : Core) : (s.setCore c x).agenda = s.agenda := (rfl)
@[simp] theorem State.setCore_free (s : State) (c : Nat) (x : Core) : (s.setCore c x).free = s.free := (rfl)

/-! ## setDie -/

@[simp] theorem State.setDie_mem (s : State) (c : Nat) (x : Die) : (s.setDie c x).mem = s.mem := (rfl)
@[simp] theorem State.setDie_lim (s : State) (c : Nat) (x : Die) : (s.setDie c x).lim = s.lim := (rfl)
@[simp] theorem State.setDie_pubs (s : State) (c : Nat) (x : Die) : (s.setDie c x).pubs = s.pubs := (rfl)
@[simp] theorem State.setDie_buffers (s : State) (c : Nat) (x : Die) : (s.setDie c x).buffers = s.buffers := (rfl)
@[simp] theorem State.setDie_poison (s : State) (c : Nat) (x : Die) : (s.setDie c x).poison = s.poison := (rfl)
@[simp] theorem State.setDie_mending (s : State) (c : Nat) (x : Die) : (s.setDie c x).mending = s.mending := (rfl)
@[simp] theorem State.setDie_posts (s : State) (c : Nat) (x : Die) : (s.setDie c x).posts = s.posts := (rfl)
@[simp] theorem State.setDie_ctxs (s : State) (c : Nat) (x : Die) : (s.setDie c x).ctxs = s.ctxs := (rfl)
@[simp] theorem State.setDie_cores (s : State) (c : Nat) (x : Die) : (s.setDie c x).cores = s.cores := (rfl)
@[simp] theorem State.setDie_hfaults (s : State) (c : Nat) (x : Die) : (s.setDie c x).hfaults = s.hfaults := (rfl)
@[simp] theorem State.setDie_sysc (s : State) (c : Nat) (x : Die) : (s.setDie c x).sysc = s.sysc := (rfl)
@[simp] theorem State.setDie_prefs (s : State) (c : Nat) (x : Die) : (s.setDie c x).prefs = s.prefs := (rfl)
@[simp] theorem State.setDie_prefServices (s : State) (c : Nat) (x : Die) : (s.setDie c x).prefServices = s.prefServices := (rfl)
@[simp] theorem State.setDie_bells (s : State) (c : Nat) (x : Die) : (s.setDie c x).bells = s.bells := (rfl)
@[simp] theorem State.setDie_clusters (s : State) (c : Nat) (x : Die) : (s.setDie c x).clusters = s.clusters := (rfl)
@[simp] theorem State.setDie_launches (s : State) (c : Nat) (x : Die) : (s.setDie c x).launches = s.launches := (rfl)
@[simp] theorem State.setDie_grants (s : State) (c : Nat) (x : Die) : (s.setDie c x).grants = s.grants := (rfl)
@[simp] theorem State.setDie_retiring (s : State) (c : Nat) (x : Die) : (s.setDie c x).retiring = s.retiring := (rfl)
@[simp] theorem State.setDie_retired (s : State) (c : Nat) (x : Die) : (s.setDie c x).retired = s.retired := (rfl)
@[simp] theorem State.setDie_domains (s : State) (c : Nat) (x : Die) : (s.setDie c x).domains = s.domains := (rfl)
@[simp] theorem State.setDie_images (s : State) (c : Nat) (x : Die) : (s.setDie c x).images = s.images := (rfl)
@[simp] theorem State.setDie_reserves (s : State) (c : Nat) (x : Die) : (s.setDie c x).reserves = s.reserves := (rfl)
@[simp] theorem State.setDie_privs (s : State) (c : Nat) (x : Die) : (s.setDie c x).privs = s.privs := (rfl)
@[simp] theorem State.setDie_pools (s : State) (c : Nat) (x : Die) : (s.setDie c x).pools = s.pools := (rfl)
@[simp] theorem State.setDie_funcs (s : State) (c : Nat) (x : Die) : (s.setDie c x).funcs = s.funcs := (rfl)
@[simp] theorem State.setDie_vfSplit (s : State) (c : Nat) (x : Die) : (s.setDie c x).vfSplit = s.vfSplit := (rfl)
@[simp] theorem State.setDie_reqs (s : State) (c : Nat) (x : Die) : (s.setDie c x).reqs = s.reqs := (rfl)
@[simp] theorem State.setDie_hostOut (s : State) (c : Nat) (x : Die) : (s.setDie c x).hostOut = s.hostOut := (rfl)
@[simp] theorem State.setDie_hostUp (s : State) (c : Nat) (x : Die) : (s.setDie c x).hostUp = s.hostUp := (rfl)
@[simp] theorem State.setDie_hostLost (s : State) (c : Nat) (x : Die) : (s.setDie c x).hostLost = s.hostLost := (rfl)
@[simp] theorem State.setDie_aer (s : State) (c : Nat) (x : Die) : (s.setDie c x).aer = s.aer := (rfl)
@[simp] theorem State.setDie_cxlUp (s : State) (c : Nat) (x : Die) : (s.setDie c x).cxlUp = s.cxlUp := (rfl)
@[simp] theorem State.setDie_cxlCap (s : State) (c : Nat) (x : Die) : (s.setDie c x).cxlCap = s.cxlCap := (rfl)
@[simp] theorem State.setDie_vexUp (s : State) (c : Nat) (x : Die) : (s.setDie c x).vexUp = s.vexUp := (rfl)
@[simp] theorem State.setDie_discards (s : State) (c : Nat) (x : Die) : (s.setDie c x).discards = s.discards := (rfl)
@[simp] theorem State.setDie_peersLost (s : State) (c : Nat) (x : Die) : (s.setDie c x).peersLost = s.peersLost := (rfl)
@[simp] theorem State.setDie_steps (s : State) (c : Nat) (x : Die) : (s.setDie c x).steps = s.steps := (rfl)
@[simp] theorem State.setDie_uet (s : State) (c : Nat) (x : Die) : (s.setDie c x).uet = s.uet := (rfl)
@[simp] theorem State.setDie_vexOut (s : State) (c : Nat) (x : Die) : (s.setDie c x).vexOut = s.vexOut := (rfl)
@[simp] theorem State.setDie_ptt (s : State) (c : Nat) (x : Die) : (s.setDie c x).ptt = s.ptt := (rfl)
@[simp] theorem State.setDie_bounce (s : State) (c : Nat) (x : Die) : (s.setDie c x).bounce = s.bounce := (rfl)
@[simp] theorem State.setDie_dirty (s : State) (c : Nat) (x : Die) : (s.setDie c x).dirty = s.dirty := (rfl)
@[simp] theorem State.setDie_migs (s : State) (c : Nat) (x : Die) : (s.setDie c x).migs = s.migs := (rfl)
@[simp] theorem State.setDie_birhiry (s : State) (c : Nat) (x : Die) : (s.setDie c x).birhiry = s.birhiry := (rfl)
@[simp] theorem State.setDie_profilers (s : State) (c : Nat) (x : Die) : (s.setDie c x).profilers = s.profilers := (rfl)
@[simp] theorem State.setDie_cap (s : State) (c : Nat) (x : Die) : (s.setDie c x).cap = s.cap := (rfl)
@[simp] theorem State.setDie_cyc (s : State) (c : Nat) (x : Die) : (s.setDie c x).cyc = s.cyc := (rfl)
@[simp] theorem State.setDie_pkgid (s : State) (c : Nat) (x : Die) : (s.setDie c x).pkgid = s.pkgid := (rfl)
@[simp] theorem State.setDie_meas (s : State) (c : Nat) (x : Die) : (s.setDie c x).meas = s.meas := (rfl)
@[simp] theorem State.setDie_cur (s : State) (c : Nat) (x : Die) : (s.setDie c x).cur = s.cur := (rfl)
@[simp] theorem State.setDie_agenda (s : State) (c : Nat) (x : Die) : (s.setDie c x).agenda = s.agenda := (rfl)
@[simp] theorem State.setDie_free (s : State) (c : Nat) (x : Die) : (s.setDie c x).free = s.free := (rfl)

/-! ## setCluster -/

@[simp] theorem State.setCluster_mem (s : State) (c : Nat) (x : Cluster) : (s.setCluster c x).mem = s.mem := (rfl)
@[simp] theorem State.setCluster_lim (s : State) (c : Nat) (x : Cluster) : (s.setCluster c x).lim = s.lim := (rfl)
@[simp] theorem State.setCluster_pubs (s : State) (c : Nat) (x : Cluster) : (s.setCluster c x).pubs = s.pubs := (rfl)
@[simp] theorem State.setCluster_buffers (s : State) (c : Nat) (x : Cluster) : (s.setCluster c x).buffers = s.buffers := (rfl)
@[simp] theorem State.setCluster_poison (s : State) (c : Nat) (x : Cluster) : (s.setCluster c x).poison = s.poison := (rfl)
@[simp] theorem State.setCluster_mending (s : State) (c : Nat) (x : Cluster) : (s.setCluster c x).mending = s.mending := (rfl)
@[simp] theorem State.setCluster_posts (s : State) (c : Nat) (x : Cluster) : (s.setCluster c x).posts = s.posts := (rfl)
@[simp] theorem State.setCluster_ctxs (s : State) (c : Nat) (x : Cluster) : (s.setCluster c x).ctxs = s.ctxs := (rfl)
@[simp] theorem State.setCluster_cores (s : State) (c : Nat) (x : Cluster) : (s.setCluster c x).cores = s.cores := (rfl)
@[simp] theorem State.setCluster_dies (s : State) (c : Nat) (x : Cluster) : (s.setCluster c x).dies = s.dies := (rfl)
@[simp] theorem State.setCluster_hfaults (s : State) (c : Nat) (x : Cluster) : (s.setCluster c x).hfaults = s.hfaults := (rfl)
@[simp] theorem State.setCluster_sysc (s : State) (c : Nat) (x : Cluster) : (s.setCluster c x).sysc = s.sysc := (rfl)
@[simp] theorem State.setCluster_prefs (s : State) (c : Nat) (x : Cluster) : (s.setCluster c x).prefs = s.prefs := (rfl)
@[simp] theorem State.setCluster_prefServices (s : State) (c : Nat) (x : Cluster) : (s.setCluster c x).prefServices = s.prefServices := (rfl)
@[simp] theorem State.setCluster_bells (s : State) (c : Nat) (x : Cluster) : (s.setCluster c x).bells = s.bells := (rfl)
@[simp] theorem State.setCluster_launches (s : State) (c : Nat) (x : Cluster) : (s.setCluster c x).launches = s.launches := (rfl)
@[simp] theorem State.setCluster_grants (s : State) (c : Nat) (x : Cluster) : (s.setCluster c x).grants = s.grants := (rfl)
@[simp] theorem State.setCluster_retiring (s : State) (c : Nat) (x : Cluster) : (s.setCluster c x).retiring = s.retiring := (rfl)
@[simp] theorem State.setCluster_retired (s : State) (c : Nat) (x : Cluster) : (s.setCluster c x).retired = s.retired := (rfl)
@[simp] theorem State.setCluster_domains (s : State) (c : Nat) (x : Cluster) : (s.setCluster c x).domains = s.domains := (rfl)
@[simp] theorem State.setCluster_images (s : State) (c : Nat) (x : Cluster) : (s.setCluster c x).images = s.images := (rfl)
@[simp] theorem State.setCluster_reserves (s : State) (c : Nat) (x : Cluster) : (s.setCluster c x).reserves = s.reserves := (rfl)
@[simp] theorem State.setCluster_privs (s : State) (c : Nat) (x : Cluster) : (s.setCluster c x).privs = s.privs := (rfl)
@[simp] theorem State.setCluster_pools (s : State) (c : Nat) (x : Cluster) : (s.setCluster c x).pools = s.pools := (rfl)
@[simp] theorem State.setCluster_funcs (s : State) (c : Nat) (x : Cluster) : (s.setCluster c x).funcs = s.funcs := (rfl)
@[simp] theorem State.setCluster_vfSplit (s : State) (c : Nat) (x : Cluster) : (s.setCluster c x).vfSplit = s.vfSplit := (rfl)
@[simp] theorem State.setCluster_reqs (s : State) (c : Nat) (x : Cluster) : (s.setCluster c x).reqs = s.reqs := (rfl)
@[simp] theorem State.setCluster_hostOut (s : State) (c : Nat) (x : Cluster) : (s.setCluster c x).hostOut = s.hostOut := (rfl)
@[simp] theorem State.setCluster_hostUp (s : State) (c : Nat) (x : Cluster) : (s.setCluster c x).hostUp = s.hostUp := (rfl)
@[simp] theorem State.setCluster_hostLost (s : State) (c : Nat) (x : Cluster) : (s.setCluster c x).hostLost = s.hostLost := (rfl)
@[simp] theorem State.setCluster_aer (s : State) (c : Nat) (x : Cluster) : (s.setCluster c x).aer = s.aer := (rfl)
@[simp] theorem State.setCluster_cxlUp (s : State) (c : Nat) (x : Cluster) : (s.setCluster c x).cxlUp = s.cxlUp := (rfl)
@[simp] theorem State.setCluster_cxlCap (s : State) (c : Nat) (x : Cluster) : (s.setCluster c x).cxlCap = s.cxlCap := (rfl)
@[simp] theorem State.setCluster_vexUp (s : State) (c : Nat) (x : Cluster) : (s.setCluster c x).vexUp = s.vexUp := (rfl)
@[simp] theorem State.setCluster_discards (s : State) (c : Nat) (x : Cluster) : (s.setCluster c x).discards = s.discards := (rfl)
@[simp] theorem State.setCluster_peersLost (s : State) (c : Nat) (x : Cluster) : (s.setCluster c x).peersLost = s.peersLost := (rfl)
@[simp] theorem State.setCluster_steps (s : State) (c : Nat) (x : Cluster) : (s.setCluster c x).steps = s.steps := (rfl)
@[simp] theorem State.setCluster_uet (s : State) (c : Nat) (x : Cluster) : (s.setCluster c x).uet = s.uet := (rfl)
@[simp] theorem State.setCluster_vexOut (s : State) (c : Nat) (x : Cluster) : (s.setCluster c x).vexOut = s.vexOut := (rfl)
@[simp] theorem State.setCluster_ptt (s : State) (c : Nat) (x : Cluster) : (s.setCluster c x).ptt = s.ptt := (rfl)
@[simp] theorem State.setCluster_bounce (s : State) (c : Nat) (x : Cluster) : (s.setCluster c x).bounce = s.bounce := (rfl)
@[simp] theorem State.setCluster_dirty (s : State) (c : Nat) (x : Cluster) : (s.setCluster c x).dirty = s.dirty := (rfl)
@[simp] theorem State.setCluster_migs (s : State) (c : Nat) (x : Cluster) : (s.setCluster c x).migs = s.migs := (rfl)
@[simp] theorem State.setCluster_birhiry (s : State) (c : Nat) (x : Cluster) : (s.setCluster c x).birhiry = s.birhiry := (rfl)
@[simp] theorem State.setCluster_profilers (s : State) (c : Nat) (x : Cluster) : (s.setCluster c x).profilers = s.profilers := (rfl)
@[simp] theorem State.setCluster_cap (s : State) (c : Nat) (x : Cluster) : (s.setCluster c x).cap = s.cap := (rfl)
@[simp] theorem State.setCluster_cyc (s : State) (c : Nat) (x : Cluster) : (s.setCluster c x).cyc = s.cyc := (rfl)
@[simp] theorem State.setCluster_pkgid (s : State) (c : Nat) (x : Cluster) : (s.setCluster c x).pkgid = s.pkgid := (rfl)
@[simp] theorem State.setCluster_meas (s : State) (c : Nat) (x : Cluster) : (s.setCluster c x).meas = s.meas := (rfl)
@[simp] theorem State.setCluster_cur (s : State) (c : Nat) (x : Cluster) : (s.setCluster c x).cur = s.cur := (rfl)
@[simp] theorem State.setCluster_agenda (s : State) (c : Nat) (x : Cluster) : (s.setCluster c x).agenda = s.agenda := (rfl)
@[simp] theorem State.setCluster_free (s : State) (c : Nat) (x : Cluster) : (s.setCluster c x).free = s.free := (rfl)

/-! ## setLaunch -/

@[simp] theorem State.setLaunch_mem (s : State) (c : Nat) (x : Launch) : (s.setLaunch c x).mem = s.mem := (rfl)
@[simp] theorem State.setLaunch_lim (s : State) (c : Nat) (x : Launch) : (s.setLaunch c x).lim = s.lim := (rfl)
@[simp] theorem State.setLaunch_pubs (s : State) (c : Nat) (x : Launch) : (s.setLaunch c x).pubs = s.pubs := (rfl)
@[simp] theorem State.setLaunch_buffers (s : State) (c : Nat) (x : Launch) : (s.setLaunch c x).buffers = s.buffers := (rfl)
@[simp] theorem State.setLaunch_poison (s : State) (c : Nat) (x : Launch) : (s.setLaunch c x).poison = s.poison := (rfl)
@[simp] theorem State.setLaunch_mending (s : State) (c : Nat) (x : Launch) : (s.setLaunch c x).mending = s.mending := (rfl)
@[simp] theorem State.setLaunch_posts (s : State) (c : Nat) (x : Launch) : (s.setLaunch c x).posts = s.posts := (rfl)
@[simp] theorem State.setLaunch_ctxs (s : State) (c : Nat) (x : Launch) : (s.setLaunch c x).ctxs = s.ctxs := (rfl)
@[simp] theorem State.setLaunch_cores (s : State) (c : Nat) (x : Launch) : (s.setLaunch c x).cores = s.cores := (rfl)
@[simp] theorem State.setLaunch_dies (s : State) (c : Nat) (x : Launch) : (s.setLaunch c x).dies = s.dies := (rfl)
@[simp] theorem State.setLaunch_hfaults (s : State) (c : Nat) (x : Launch) : (s.setLaunch c x).hfaults = s.hfaults := (rfl)
@[simp] theorem State.setLaunch_sysc (s : State) (c : Nat) (x : Launch) : (s.setLaunch c x).sysc = s.sysc := (rfl)
@[simp] theorem State.setLaunch_prefs (s : State) (c : Nat) (x : Launch) : (s.setLaunch c x).prefs = s.prefs := (rfl)
@[simp] theorem State.setLaunch_prefServices (s : State) (c : Nat) (x : Launch) : (s.setLaunch c x).prefServices = s.prefServices := (rfl)
@[simp] theorem State.setLaunch_bells (s : State) (c : Nat) (x : Launch) : (s.setLaunch c x).bells = s.bells := (rfl)
@[simp] theorem State.setLaunch_clusters (s : State) (c : Nat) (x : Launch) : (s.setLaunch c x).clusters = s.clusters := (rfl)
@[simp] theorem State.setLaunch_grants (s : State) (c : Nat) (x : Launch) : (s.setLaunch c x).grants = s.grants := (rfl)
@[simp] theorem State.setLaunch_retiring (s : State) (c : Nat) (x : Launch) : (s.setLaunch c x).retiring = s.retiring := (rfl)
@[simp] theorem State.setLaunch_retired (s : State) (c : Nat) (x : Launch) : (s.setLaunch c x).retired = s.retired := (rfl)
@[simp] theorem State.setLaunch_domains (s : State) (c : Nat) (x : Launch) : (s.setLaunch c x).domains = s.domains := (rfl)
@[simp] theorem State.setLaunch_images (s : State) (c : Nat) (x : Launch) : (s.setLaunch c x).images = s.images := (rfl)
@[simp] theorem State.setLaunch_reserves (s : State) (c : Nat) (x : Launch) : (s.setLaunch c x).reserves = s.reserves := (rfl)
@[simp] theorem State.setLaunch_privs (s : State) (c : Nat) (x : Launch) : (s.setLaunch c x).privs = s.privs := (rfl)
@[simp] theorem State.setLaunch_pools (s : State) (c : Nat) (x : Launch) : (s.setLaunch c x).pools = s.pools := (rfl)
@[simp] theorem State.setLaunch_funcs (s : State) (c : Nat) (x : Launch) : (s.setLaunch c x).funcs = s.funcs := (rfl)
@[simp] theorem State.setLaunch_vfSplit (s : State) (c : Nat) (x : Launch) : (s.setLaunch c x).vfSplit = s.vfSplit := (rfl)
@[simp] theorem State.setLaunch_reqs (s : State) (c : Nat) (x : Launch) : (s.setLaunch c x).reqs = s.reqs := (rfl)
@[simp] theorem State.setLaunch_hostOut (s : State) (c : Nat) (x : Launch) : (s.setLaunch c x).hostOut = s.hostOut := (rfl)
@[simp] theorem State.setLaunch_hostUp (s : State) (c : Nat) (x : Launch) : (s.setLaunch c x).hostUp = s.hostUp := (rfl)
@[simp] theorem State.setLaunch_hostLost (s : State) (c : Nat) (x : Launch) : (s.setLaunch c x).hostLost = s.hostLost := (rfl)
@[simp] theorem State.setLaunch_aer (s : State) (c : Nat) (x : Launch) : (s.setLaunch c x).aer = s.aer := (rfl)
@[simp] theorem State.setLaunch_cxlUp (s : State) (c : Nat) (x : Launch) : (s.setLaunch c x).cxlUp = s.cxlUp := (rfl)
@[simp] theorem State.setLaunch_cxlCap (s : State) (c : Nat) (x : Launch) : (s.setLaunch c x).cxlCap = s.cxlCap := (rfl)
@[simp] theorem State.setLaunch_vexUp (s : State) (c : Nat) (x : Launch) : (s.setLaunch c x).vexUp = s.vexUp := (rfl)
@[simp] theorem State.setLaunch_discards (s : State) (c : Nat) (x : Launch) : (s.setLaunch c x).discards = s.discards := (rfl)
@[simp] theorem State.setLaunch_peersLost (s : State) (c : Nat) (x : Launch) : (s.setLaunch c x).peersLost = s.peersLost := (rfl)
@[simp] theorem State.setLaunch_steps (s : State) (c : Nat) (x : Launch) : (s.setLaunch c x).steps = s.steps := (rfl)
@[simp] theorem State.setLaunch_uet (s : State) (c : Nat) (x : Launch) : (s.setLaunch c x).uet = s.uet := (rfl)
@[simp] theorem State.setLaunch_vexOut (s : State) (c : Nat) (x : Launch) : (s.setLaunch c x).vexOut = s.vexOut := (rfl)
@[simp] theorem State.setLaunch_ptt (s : State) (c : Nat) (x : Launch) : (s.setLaunch c x).ptt = s.ptt := (rfl)
@[simp] theorem State.setLaunch_bounce (s : State) (c : Nat) (x : Launch) : (s.setLaunch c x).bounce = s.bounce := (rfl)
@[simp] theorem State.setLaunch_dirty (s : State) (c : Nat) (x : Launch) : (s.setLaunch c x).dirty = s.dirty := (rfl)
@[simp] theorem State.setLaunch_migs (s : State) (c : Nat) (x : Launch) : (s.setLaunch c x).migs = s.migs := (rfl)
@[simp] theorem State.setLaunch_birhiry (s : State) (c : Nat) (x : Launch) : (s.setLaunch c x).birhiry = s.birhiry := (rfl)
@[simp] theorem State.setLaunch_profilers (s : State) (c : Nat) (x : Launch) : (s.setLaunch c x).profilers = s.profilers := (rfl)
@[simp] theorem State.setLaunch_cap (s : State) (c : Nat) (x : Launch) : (s.setLaunch c x).cap = s.cap := (rfl)
@[simp] theorem State.setLaunch_cyc (s : State) (c : Nat) (x : Launch) : (s.setLaunch c x).cyc = s.cyc := (rfl)
@[simp] theorem State.setLaunch_pkgid (s : State) (c : Nat) (x : Launch) : (s.setLaunch c x).pkgid = s.pkgid := (rfl)
@[simp] theorem State.setLaunch_meas (s : State) (c : Nat) (x : Launch) : (s.setLaunch c x).meas = s.meas := (rfl)
@[simp] theorem State.setLaunch_cur (s : State) (c : Nat) (x : Launch) : (s.setLaunch c x).cur = s.cur := (rfl)
@[simp] theorem State.setLaunch_agenda (s : State) (c : Nat) (x : Launch) : (s.setLaunch c x).agenda = s.agenda := (rfl)
@[simp] theorem State.setLaunch_free (s : State) (c : Nat) (x : Launch) : (s.setLaunch c x).free = s.free := (rfl)

/-! ## setDom -/

@[simp] theorem State.setDom_mem (s : State) (l d : Nat) (x : Domain) : (s.setDom l d x).mem = s.mem := (rfl)
@[simp] theorem State.setDom_lim (s : State) (l d : Nat) (x : Domain) : (s.setDom l d x).lim = s.lim := (rfl)
@[simp] theorem State.setDom_pubs (s : State) (l d : Nat) (x : Domain) : (s.setDom l d x).pubs = s.pubs := (rfl)
@[simp] theorem State.setDom_buffers (s : State) (l d : Nat) (x : Domain) : (s.setDom l d x).buffers = s.buffers := (rfl)
@[simp] theorem State.setDom_poison (s : State) (l d : Nat) (x : Domain) : (s.setDom l d x).poison = s.poison := (rfl)
@[simp] theorem State.setDom_mending (s : State) (l d : Nat) (x : Domain) : (s.setDom l d x).mending = s.mending := (rfl)
@[simp] theorem State.setDom_posts (s : State) (l d : Nat) (x : Domain) : (s.setDom l d x).posts = s.posts := (rfl)
@[simp] theorem State.setDom_ctxs (s : State) (l d : Nat) (x : Domain) : (s.setDom l d x).ctxs = s.ctxs := (rfl)
@[simp] theorem State.setDom_cores (s : State) (l d : Nat) (x : Domain) : (s.setDom l d x).cores = s.cores := (rfl)
@[simp] theorem State.setDom_dies (s : State) (l d : Nat) (x : Domain) : (s.setDom l d x).dies = s.dies := (rfl)
@[simp] theorem State.setDom_hfaults (s : State) (l d : Nat) (x : Domain) : (s.setDom l d x).hfaults = s.hfaults := (rfl)
@[simp] theorem State.setDom_sysc (s : State) (l d : Nat) (x : Domain) : (s.setDom l d x).sysc = s.sysc := (rfl)
@[simp] theorem State.setDom_prefs (s : State) (l d : Nat) (x : Domain) : (s.setDom l d x).prefs = s.prefs := (rfl)
@[simp] theorem State.setDom_prefServices (s : State) (l d : Nat) (x : Domain) : (s.setDom l d x).prefServices = s.prefServices := (rfl)
@[simp] theorem State.setDom_bells (s : State) (l d : Nat) (x : Domain) : (s.setDom l d x).bells = s.bells := (rfl)
@[simp] theorem State.setDom_clusters (s : State) (l d : Nat) (x : Domain) : (s.setDom l d x).clusters = s.clusters := (rfl)
@[simp] theorem State.setDom_launches (s : State) (l d : Nat) (x : Domain) : (s.setDom l d x).launches = s.launches := (rfl)
@[simp] theorem State.setDom_grants (s : State) (l d : Nat) (x : Domain) : (s.setDom l d x).grants = s.grants := (rfl)
@[simp] theorem State.setDom_retiring (s : State) (l d : Nat) (x : Domain) : (s.setDom l d x).retiring = s.retiring := (rfl)
@[simp] theorem State.setDom_retired (s : State) (l d : Nat) (x : Domain) : (s.setDom l d x).retired = s.retired := (rfl)
@[simp] theorem State.setDom_images (s : State) (l d : Nat) (x : Domain) : (s.setDom l d x).images = s.images := (rfl)
@[simp] theorem State.setDom_reserves (s : State) (l d : Nat) (x : Domain) : (s.setDom l d x).reserves = s.reserves := (rfl)
@[simp] theorem State.setDom_privs (s : State) (l d : Nat) (x : Domain) : (s.setDom l d x).privs = s.privs := (rfl)
@[simp] theorem State.setDom_pools (s : State) (l d : Nat) (x : Domain) : (s.setDom l d x).pools = s.pools := (rfl)
@[simp] theorem State.setDom_funcs (s : State) (l d : Nat) (x : Domain) : (s.setDom l d x).funcs = s.funcs := (rfl)
@[simp] theorem State.setDom_vfSplit (s : State) (l d : Nat) (x : Domain) : (s.setDom l d x).vfSplit = s.vfSplit := (rfl)
@[simp] theorem State.setDom_reqs (s : State) (l d : Nat) (x : Domain) : (s.setDom l d x).reqs = s.reqs := (rfl)
@[simp] theorem State.setDom_hostOut (s : State) (l d : Nat) (x : Domain) : (s.setDom l d x).hostOut = s.hostOut := (rfl)
@[simp] theorem State.setDom_hostUp (s : State) (l d : Nat) (x : Domain) : (s.setDom l d x).hostUp = s.hostUp := (rfl)
@[simp] theorem State.setDom_hostLost (s : State) (l d : Nat) (x : Domain) : (s.setDom l d x).hostLost = s.hostLost := (rfl)
@[simp] theorem State.setDom_aer (s : State) (l d : Nat) (x : Domain) : (s.setDom l d x).aer = s.aer := (rfl)
@[simp] theorem State.setDom_cxlUp (s : State) (l d : Nat) (x : Domain) : (s.setDom l d x).cxlUp = s.cxlUp := (rfl)
@[simp] theorem State.setDom_cxlCap (s : State) (l d : Nat) (x : Domain) : (s.setDom l d x).cxlCap = s.cxlCap := (rfl)
@[simp] theorem State.setDom_vexUp (s : State) (l d : Nat) (x : Domain) : (s.setDom l d x).vexUp = s.vexUp := (rfl)
@[simp] theorem State.setDom_discards (s : State) (l d : Nat) (x : Domain) : (s.setDom l d x).discards = s.discards := (rfl)
@[simp] theorem State.setDom_peersLost (s : State) (l d : Nat) (x : Domain) : (s.setDom l d x).peersLost = s.peersLost := (rfl)
@[simp] theorem State.setDom_steps (s : State) (l d : Nat) (x : Domain) : (s.setDom l d x).steps = s.steps := (rfl)
@[simp] theorem State.setDom_uet (s : State) (l d : Nat) (x : Domain) : (s.setDom l d x).uet = s.uet := (rfl)
@[simp] theorem State.setDom_vexOut (s : State) (l d : Nat) (x : Domain) : (s.setDom l d x).vexOut = s.vexOut := (rfl)
@[simp] theorem State.setDom_ptt (s : State) (l d : Nat) (x : Domain) : (s.setDom l d x).ptt = s.ptt := (rfl)
@[simp] theorem State.setDom_bounce (s : State) (l d : Nat) (x : Domain) : (s.setDom l d x).bounce = s.bounce := (rfl)
@[simp] theorem State.setDom_dirty (s : State) (l d : Nat) (x : Domain) : (s.setDom l d x).dirty = s.dirty := (rfl)
@[simp] theorem State.setDom_migs (s : State) (l d : Nat) (x : Domain) : (s.setDom l d x).migs = s.migs := (rfl)
@[simp] theorem State.setDom_birhiry (s : State) (l d : Nat) (x : Domain) : (s.setDom l d x).birhiry = s.birhiry := (rfl)
@[simp] theorem State.setDom_profilers (s : State) (l d : Nat) (x : Domain) : (s.setDom l d x).profilers = s.profilers := (rfl)
@[simp] theorem State.setDom_cap (s : State) (l d : Nat) (x : Domain) : (s.setDom l d x).cap = s.cap := (rfl)
@[simp] theorem State.setDom_cyc (s : State) (l d : Nat) (x : Domain) : (s.setDom l d x).cyc = s.cyc := (rfl)
@[simp] theorem State.setDom_pkgid (s : State) (l d : Nat) (x : Domain) : (s.setDom l d x).pkgid = s.pkgid := (rfl)
@[simp] theorem State.setDom_meas (s : State) (l d : Nat) (x : Domain) : (s.setDom l d x).meas = s.meas := (rfl)
@[simp] theorem State.setDom_cur (s : State) (l d : Nat) (x : Domain) : (s.setDom l d x).cur = s.cur := (rfl)
@[simp] theorem State.setDom_agenda (s : State) (l d : Nat) (x : Domain) : (s.setDom l d x).agenda = s.agenda := (rfl)
@[simp] theorem State.setDom_free (s : State) (l d : Nat) (x : Domain) : (s.setDom l d x).free = s.free := (rfl)

/-! ## poke -/

@[simp] theorem State.poke_pubs (s : State) (l : Nat) (bs : List Byte) : (s.poke l bs).pubs = s.pubs := (rfl)
@[simp] theorem State.poke_buffers (s : State) (l : Nat) (bs : List Byte) : (s.poke l bs).buffers = s.buffers := (rfl)
@[simp] theorem State.poke_mending (s : State) (l : Nat) (bs : List Byte) : (s.poke l bs).mending = s.mending := (rfl)
@[simp] theorem State.poke_posts (s : State) (l : Nat) (bs : List Byte) : (s.poke l bs).posts = s.posts := (rfl)
@[simp] theorem State.poke_ctxs (s : State) (l : Nat) (bs : List Byte) : (s.poke l bs).ctxs = s.ctxs := (rfl)
@[simp] theorem State.poke_cores (s : State) (l : Nat) (bs : List Byte) : (s.poke l bs).cores = s.cores := (rfl)
@[simp] theorem State.poke_dies (s : State) (l : Nat) (bs : List Byte) : (s.poke l bs).dies = s.dies := (rfl)
@[simp] theorem State.poke_hfaults (s : State) (l : Nat) (bs : List Byte) : (s.poke l bs).hfaults = s.hfaults := (rfl)
@[simp] theorem State.poke_sysc (s : State) (l : Nat) (bs : List Byte) : (s.poke l bs).sysc = s.sysc := (rfl)
@[simp] theorem State.poke_prefs (s : State) (l : Nat) (bs : List Byte) : (s.poke l bs).prefs = s.prefs := (rfl)
@[simp] theorem State.poke_prefServices (s : State) (l : Nat) (bs : List Byte) : (s.poke l bs).prefServices = s.prefServices := (rfl)
@[simp] theorem State.poke_bells (s : State) (l : Nat) (bs : List Byte) : (s.poke l bs).bells = s.bells := (rfl)
@[simp] theorem State.poke_clusters (s : State) (l : Nat) (bs : List Byte) : (s.poke l bs).clusters = s.clusters := (rfl)
@[simp] theorem State.poke_launches (s : State) (l : Nat) (bs : List Byte) : (s.poke l bs).launches = s.launches := (rfl)
@[simp] theorem State.poke_grants (s : State) (l : Nat) (bs : List Byte) : (s.poke l bs).grants = s.grants := (rfl)
@[simp] theorem State.poke_retiring (s : State) (l : Nat) (bs : List Byte) : (s.poke l bs).retiring = s.retiring := (rfl)
@[simp] theorem State.poke_retired (s : State) (l : Nat) (bs : List Byte) : (s.poke l bs).retired = s.retired := (rfl)
@[simp] theorem State.poke_domains (s : State) (l : Nat) (bs : List Byte) : (s.poke l bs).domains = s.domains := (rfl)
@[simp] theorem State.poke_images (s : State) (l : Nat) (bs : List Byte) : (s.poke l bs).images = s.images := (rfl)
@[simp] theorem State.poke_reserves (s : State) (l : Nat) (bs : List Byte) : (s.poke l bs).reserves = s.reserves := (rfl)
@[simp] theorem State.poke_privs (s : State) (l : Nat) (bs : List Byte) : (s.poke l bs).privs = s.privs := (rfl)
@[simp] theorem State.poke_pools (s : State) (l : Nat) (bs : List Byte) : (s.poke l bs).pools = s.pools := (rfl)
@[simp] theorem State.poke_funcs (s : State) (l : Nat) (bs : List Byte) : (s.poke l bs).funcs = s.funcs := (rfl)
@[simp] theorem State.poke_vfSplit (s : State) (l : Nat) (bs : List Byte) : (s.poke l bs).vfSplit = s.vfSplit := (rfl)
@[simp] theorem State.poke_reqs (s : State) (l : Nat) (bs : List Byte) : (s.poke l bs).reqs = s.reqs := (rfl)
@[simp] theorem State.poke_hostOut (s : State) (l : Nat) (bs : List Byte) : (s.poke l bs).hostOut = s.hostOut := (rfl)
@[simp] theorem State.poke_hostUp (s : State) (l : Nat) (bs : List Byte) : (s.poke l bs).hostUp = s.hostUp := (rfl)
@[simp] theorem State.poke_hostLost (s : State) (l : Nat) (bs : List Byte) : (s.poke l bs).hostLost = s.hostLost := (rfl)
@[simp] theorem State.poke_aer (s : State) (l : Nat) (bs : List Byte) : (s.poke l bs).aer = s.aer := (rfl)
@[simp] theorem State.poke_cxlUp (s : State) (l : Nat) (bs : List Byte) : (s.poke l bs).cxlUp = s.cxlUp := (rfl)
@[simp] theorem State.poke_cxlCap (s : State) (l : Nat) (bs : List Byte) : (s.poke l bs).cxlCap = s.cxlCap := (rfl)
@[simp] theorem State.poke_vexUp (s : State) (l : Nat) (bs : List Byte) : (s.poke l bs).vexUp = s.vexUp := (rfl)
@[simp] theorem State.poke_discards (s : State) (l : Nat) (bs : List Byte) : (s.poke l bs).discards = s.discards := (rfl)
@[simp] theorem State.poke_peersLost (s : State) (l : Nat) (bs : List Byte) : (s.poke l bs).peersLost = s.peersLost := (rfl)
@[simp] theorem State.poke_steps (s : State) (l : Nat) (bs : List Byte) : (s.poke l bs).steps = s.steps := (rfl)
@[simp] theorem State.poke_uet (s : State) (l : Nat) (bs : List Byte) : (s.poke l bs).uet = s.uet := (rfl)
@[simp] theorem State.poke_vexOut (s : State) (l : Nat) (bs : List Byte) : (s.poke l bs).vexOut = s.vexOut := (rfl)
@[simp] theorem State.poke_ptt (s : State) (l : Nat) (bs : List Byte) : (s.poke l bs).ptt = s.ptt := (rfl)
@[simp] theorem State.poke_bounce (s : State) (l : Nat) (bs : List Byte) : (s.poke l bs).bounce = s.bounce := (rfl)
@[simp] theorem State.poke_dirty (s : State) (l : Nat) (bs : List Byte) : (s.poke l bs).dirty = s.dirty := (rfl)
@[simp] theorem State.poke_migs (s : State) (l : Nat) (bs : List Byte) : (s.poke l bs).migs = s.migs := (rfl)
@[simp] theorem State.poke_birhiry (s : State) (l : Nat) (bs : List Byte) : (s.poke l bs).birhiry = s.birhiry := (rfl)
@[simp] theorem State.poke_profilers (s : State) (l : Nat) (bs : List Byte) : (s.poke l bs).profilers = s.profilers := (rfl)
@[simp] theorem State.poke_cap (s : State) (l : Nat) (bs : List Byte) : (s.poke l bs).cap = s.cap := (rfl)
@[simp] theorem State.poke_cyc (s : State) (l : Nat) (bs : List Byte) : (s.poke l bs).cyc = s.cyc := (rfl)
@[simp] theorem State.poke_pkgid (s : State) (l : Nat) (bs : List Byte) : (s.poke l bs).pkgid = s.pkgid := (rfl)
@[simp] theorem State.poke_meas (s : State) (l : Nat) (bs : List Byte) : (s.poke l bs).meas = s.meas := (rfl)
@[simp] theorem State.poke_cur (s : State) (l : Nat) (bs : List Byte) : (s.poke l bs).cur = s.cur := (rfl)
@[simp] theorem State.poke_agenda (s : State) (l : Nat) (bs : List Byte) : (s.poke l bs).agenda = s.agenda := (rfl)
@[simp] theorem State.poke_free (s : State) (l : Nat) (bs : List Byte) : (s.poke l bs).free = s.free := (rfl)

/-! ## tick -/

@[simp] theorem State.tick_mem (s : State) : s.tick.mem = s.mem := (rfl)
@[simp] theorem State.tick_lim (s : State) : s.tick.lim = s.lim := (rfl)
@[simp] theorem State.tick_pubs (s : State) : s.tick.pubs = s.pubs := (rfl)
@[simp] theorem State.tick_buffers (s : State) : s.tick.buffers = s.buffers := (rfl)
@[simp] theorem State.tick_poison (s : State) : s.tick.poison = s.poison := (rfl)
@[simp] theorem State.tick_mending (s : State) : s.tick.mending = s.mending := (rfl)
@[simp] theorem State.tick_posts (s : State) : s.tick.posts = s.posts := (rfl)
@[simp] theorem State.tick_ctxs (s : State) : s.tick.ctxs = s.ctxs := (rfl)
@[simp] theorem State.tick_cores (s : State) : s.tick.cores = s.cores := (rfl)
@[simp] theorem State.tick_dies (s : State) : s.tick.dies = s.dies := (rfl)
@[simp] theorem State.tick_hfaults (s : State) : s.tick.hfaults = s.hfaults := (rfl)
@[simp] theorem State.tick_sysc (s : State) : s.tick.sysc = s.sysc := (rfl)
@[simp] theorem State.tick_prefs (s : State) : s.tick.prefs = s.prefs := (rfl)
@[simp] theorem State.tick_prefServices (s : State) : s.tick.prefServices = s.prefServices := (rfl)
@[simp] theorem State.tick_bells (s : State) : s.tick.bells = s.bells := (rfl)
@[simp] theorem State.tick_clusters (s : State) : s.tick.clusters = s.clusters := (rfl)
@[simp] theorem State.tick_launches (s : State) : s.tick.launches = s.launches := (rfl)
@[simp] theorem State.tick_grants (s : State) : s.tick.grants = s.grants := (rfl)
@[simp] theorem State.tick_retiring (s : State) : s.tick.retiring = s.retiring := (rfl)
@[simp] theorem State.tick_retired (s : State) : s.tick.retired = s.retired := (rfl)
@[simp] theorem State.tick_domains (s : State) : s.tick.domains = s.domains := (rfl)
@[simp] theorem State.tick_images (s : State) : s.tick.images = s.images := (rfl)
@[simp] theorem State.tick_reserves (s : State) : s.tick.reserves = s.reserves := (rfl)
@[simp] theorem State.tick_privs (s : State) : s.tick.privs = s.privs := (rfl)
@[simp] theorem State.tick_pools (s : State) : s.tick.pools = s.pools := (rfl)
@[simp] theorem State.tick_funcs (s : State) : s.tick.funcs = s.funcs := (rfl)
@[simp] theorem State.tick_vfSplit (s : State) : s.tick.vfSplit = s.vfSplit := (rfl)
@[simp] theorem State.tick_reqs (s : State) : s.tick.reqs = s.reqs := (rfl)
@[simp] theorem State.tick_hostOut (s : State) : s.tick.hostOut = s.hostOut := (rfl)
@[simp] theorem State.tick_hostUp (s : State) : s.tick.hostUp = s.hostUp := (rfl)
@[simp] theorem State.tick_hostLost (s : State) : s.tick.hostLost = s.hostLost := (rfl)
@[simp] theorem State.tick_aer (s : State) : s.tick.aer = s.aer := (rfl)
@[simp] theorem State.tick_cxlUp (s : State) : s.tick.cxlUp = s.cxlUp := (rfl)
@[simp] theorem State.tick_cxlCap (s : State) : s.tick.cxlCap = s.cxlCap := (rfl)
@[simp] theorem State.tick_vexUp (s : State) : s.tick.vexUp = s.vexUp := (rfl)
@[simp] theorem State.tick_discards (s : State) : s.tick.discards = s.discards := (rfl)
@[simp] theorem State.tick_peersLost (s : State) : s.tick.peersLost = s.peersLost := (rfl)
@[simp] theorem State.tick_steps (s : State) : s.tick.steps = s.steps := (rfl)
@[simp] theorem State.tick_uet (s : State) : s.tick.uet = s.uet := (rfl)
@[simp] theorem State.tick_vexOut (s : State) : s.tick.vexOut = s.vexOut := (rfl)
@[simp] theorem State.tick_ptt (s : State) : s.tick.ptt = s.ptt := (rfl)
@[simp] theorem State.tick_bounce (s : State) : s.tick.bounce = s.bounce := (rfl)
@[simp] theorem State.tick_dirty (s : State) : s.tick.dirty = s.dirty := (rfl)
@[simp] theorem State.tick_migs (s : State) : s.tick.migs = s.migs := (rfl)
@[simp] theorem State.tick_birhiry (s : State) : s.tick.birhiry = s.birhiry := (rfl)
@[simp] theorem State.tick_profilers (s : State) : s.tick.profilers = s.profilers := (rfl)
@[simp] theorem State.tick_cap (s : State) : s.tick.cap = s.cap := (rfl)
@[simp] theorem State.tick_pkgid (s : State) : s.tick.pkgid = s.pkgid := (rfl)
@[simp] theorem State.tick_meas (s : State) : s.tick.meas = s.meas := (rfl)
@[simp] theorem State.tick_cur (s : State) : s.tick.cur = s.cur := (rfl)
@[simp] theorem State.tick_agenda (s : State) : s.tick.agenda = s.agenda := (rfl)

/-! ## Reading a part after writing one -/

@[simp] theorem State.ctx_setCtx (s : State) (c : Nat) (x : Ctx) : (s.setCtx c x).ctx c = x := by simp [State.ctx, State.setCtx]
theorem State.ctx_setCtx_ne (s : State) {c d : Nat} (x : Ctx) (h : d ≠ c) : (s.setCtx c x).ctx d = s.ctx d := by
  simp [State.ctx, State.setCtx, tget_tput_ne _ _ _ _ h]
@[simp] theorem State.ctx_setCore (s : State) (c d : Nat) (x : Core) : (s.setCore c x).ctx d = s.ctx d := (rfl)
@[simp] theorem State.ctx_setDie (s : State) (c d : Nat) (x : Die) : (s.setDie c x).ctx d = s.ctx d := (rfl)
@[simp] theorem State.ctx_setCluster (s : State) (c d : Nat) (x : Cluster) : (s.setCluster c x).ctx d = s.ctx d := (rfl)
@[simp] theorem State.ctx_setLaunch (s : State) (c d : Nat) (x : Launch) : (s.setLaunch c x).ctx d = s.ctx d := (rfl)
@[simp] theorem State.ctx_poke (s : State) (l d : Nat) (bs : List Byte) : (s.poke l bs).ctx d = s.ctx d := (rfl)
@[simp] theorem State.ctx_tick (s : State) (d : Nat) : s.tick.ctx d = s.ctx d := (rfl)

@[simp] theorem State.core_setCore (s : State) (c : Nat) (x : Core) : (s.setCore c x).core c = x := by simp [State.core, State.setCore]
theorem State.core_setCore_ne (s : State) {c d : Nat} (x : Core) (h : d ≠ c) : (s.setCore c x).core d = s.core d := by
  simp [State.core, State.setCore, tget_tput_ne _ _ _ _ h]
@[simp] theorem State.core_setCtx (s : State) (c d : Nat) (x : Ctx) : (s.setCtx c x).core d = s.core d := (rfl)
@[simp] theorem State.core_setDie (s : State) (c d : Nat) (x : Die) : (s.setDie c x).core d = s.core d := (rfl)
@[simp] theorem State.core_setCluster (s : State) (c d : Nat) (x : Cluster) : (s.setCluster c x).core d = s.core d := (rfl)
@[simp] theorem State.core_setLaunch (s : State) (c d : Nat) (x : Launch) : (s.setLaunch c x).core d = s.core d := (rfl)
@[simp] theorem State.core_poke (s : State) (l d : Nat) (bs : List Byte) : (s.poke l bs).core d = s.core d := (rfl)
@[simp] theorem State.core_tick (s : State) (d : Nat) : s.tick.core d = s.core d := (rfl)

@[simp] theorem State.die_setDie (s : State) (c : Nat) (x : Die) : (s.setDie c x).die c = x := by simp [State.die, State.setDie]
theorem State.die_setDie_ne (s : State) {c d : Nat} (x : Die) (h : d ≠ c) : (s.setDie c x).die d = s.die d := by
  simp [State.die, State.setDie, tget_tput_ne _ _ _ _ h]
@[simp] theorem State.die_setCtx (s : State) (c d : Nat) (x : Ctx) : (s.setCtx c x).die d = s.die d := (rfl)
@[simp] theorem State.die_setCore (s : State) (c d : Nat) (x : Core) : (s.setCore c x).die d = s.die d := (rfl)
@[simp] theorem State.die_setCluster (s : State) (c d : Nat) (x : Cluster) : (s.setCluster c x).die d = s.die d := (rfl)
@[simp] theorem State.die_setLaunch (s : State) (c d : Nat) (x : Launch) : (s.setLaunch c x).die d = s.die d := (rfl)
@[simp] theorem State.die_poke (s : State) (l d : Nat) (bs : List Byte) : (s.poke l bs).die d = s.die d := (rfl)
@[simp] theorem State.die_tick (s : State) (d : Nat) : s.tick.die d = s.die d := (rfl)

@[simp] theorem State.cluster_setCluster (s : State) (c : Nat) (x : Cluster) : (s.setCluster c x).cluster c = x := by simp [State.cluster, State.setCluster]
theorem State.cluster_setCluster_ne (s : State) {c d : Nat} (x : Cluster) (h : d ≠ c) : (s.setCluster c x).cluster d = s.cluster d := by
  simp [State.cluster, State.setCluster, tget_tput_ne _ _ _ _ h]
@[simp] theorem State.cluster_setCtx (s : State) (c d : Nat) (x : Ctx) : (s.setCtx c x).cluster d = s.cluster d := (rfl)
@[simp] theorem State.cluster_setCore (s : State) (c d : Nat) (x : Core) : (s.setCore c x).cluster d = s.cluster d := (rfl)
@[simp] theorem State.cluster_setDie (s : State) (c d : Nat) (x : Die) : (s.setDie c x).cluster d = s.cluster d := (rfl)
@[simp] theorem State.cluster_setLaunch (s : State) (c d : Nat) (x : Launch) : (s.setLaunch c x).cluster d = s.cluster d := (rfl)
@[simp] theorem State.cluster_poke (s : State) (l d : Nat) (bs : List Byte) : (s.poke l bs).cluster d = s.cluster d := (rfl)
@[simp] theorem State.cluster_tick (s : State) (d : Nat) : s.tick.cluster d = s.cluster d := (rfl)

@[simp] theorem State.launchOf_setLaunch (s : State) (c : Nat) (x : Launch) : (s.setLaunch c x).launchOf c = x := by simp [State.launchOf, State.setLaunch]
theorem State.launchOf_setLaunch_ne (s : State) {c d : Nat} (x : Launch) (h : d ≠ c) : (s.setLaunch c x).launchOf d = s.launchOf d := by
  simp [State.launchOf, State.setLaunch, tget_tput_ne _ _ _ _ h]
@[simp] theorem State.launchOf_setCtx (s : State) (c d : Nat) (x : Ctx) : (s.setCtx c x).launchOf d = s.launchOf d := (rfl)
@[simp] theorem State.launchOf_setCore (s : State) (c d : Nat) (x : Core) : (s.setCore c x).launchOf d = s.launchOf d := (rfl)
@[simp] theorem State.launchOf_setDie (s : State) (c d : Nat) (x : Die) : (s.setDie c x).launchOf d = s.launchOf d := (rfl)
@[simp] theorem State.launchOf_setCluster (s : State) (c d : Nat) (x : Cluster) : (s.setCluster c x).launchOf d = s.launchOf d := (rfl)
@[simp] theorem State.launchOf_poke (s : State) (l d : Nat) (bs : List Byte) : (s.poke l bs).launchOf d = s.launchOf d := (rfl)
@[simp] theorem State.launchOf_tick (s : State) (d : Nat) : s.tick.launchOf d = s.launchOf d := (rfl)

@[simp] theorem State.setMe_mem (s : State) (c : Ctx) : (s.setMe c).mem = s.mem := (rfl)
@[simp] theorem State.setMe_lim (s : State) (c : Ctx) : (s.setMe c).lim = s.lim := (rfl)
@[simp] theorem State.setMe_pubs (s : State) (c : Ctx) : (s.setMe c).pubs = s.pubs := (rfl)
@[simp] theorem State.setMe_buffers (s : State) (c : Ctx) : (s.setMe c).buffers = s.buffers := (rfl)
@[simp] theorem State.setMe_poison (s : State) (c : Ctx) : (s.setMe c).poison = s.poison := (rfl)
@[simp] theorem State.setMe_mending (s : State) (c : Ctx) : (s.setMe c).mending = s.mending := (rfl)
@[simp] theorem State.setMe_posts (s : State) (c : Ctx) : (s.setMe c).posts = s.posts := (rfl)
@[simp] theorem State.setMe_cores (s : State) (c : Ctx) : (s.setMe c).cores = s.cores := (rfl)
@[simp] theorem State.setMe_dies (s : State) (c : Ctx) : (s.setMe c).dies = s.dies := (rfl)
@[simp] theorem State.setMe_hfaults (s : State) (c : Ctx) : (s.setMe c).hfaults = s.hfaults := (rfl)
@[simp] theorem State.setMe_sysc (s : State) (c : Ctx) : (s.setMe c).sysc = s.sysc := (rfl)
@[simp] theorem State.setMe_prefs (s : State) (c : Ctx) : (s.setMe c).prefs = s.prefs := (rfl)
@[simp] theorem State.setMe_prefServices (s : State) (c : Ctx) : (s.setMe c).prefServices = s.prefServices := (rfl)
@[simp] theorem State.setMe_bells (s : State) (c : Ctx) : (s.setMe c).bells = s.bells := (rfl)
@[simp] theorem State.setMe_clusters (s : State) (c : Ctx) : (s.setMe c).clusters = s.clusters := (rfl)
@[simp] theorem State.setMe_launches (s : State) (c : Ctx) : (s.setMe c).launches = s.launches := (rfl)
@[simp] theorem State.setMe_grants (s : State) (c : Ctx) : (s.setMe c).grants = s.grants := (rfl)
@[simp] theorem State.setMe_retiring (s : State) (c : Ctx) : (s.setMe c).retiring = s.retiring := (rfl)
@[simp] theorem State.setMe_retired (s : State) (c : Ctx) : (s.setMe c).retired = s.retired := (rfl)
@[simp] theorem State.setMe_domains (s : State) (c : Ctx) : (s.setMe c).domains = s.domains := (rfl)
@[simp] theorem State.setMe_images (s : State) (c : Ctx) : (s.setMe c).images = s.images := (rfl)
@[simp] theorem State.setMe_reserves (s : State) (c : Ctx) : (s.setMe c).reserves = s.reserves := (rfl)
@[simp] theorem State.setMe_privs (s : State) (c : Ctx) : (s.setMe c).privs = s.privs := (rfl)
@[simp] theorem State.setMe_pools (s : State) (c : Ctx) : (s.setMe c).pools = s.pools := (rfl)
@[simp] theorem State.setMe_funcs (s : State) (c : Ctx) : (s.setMe c).funcs = s.funcs := (rfl)
@[simp] theorem State.setMe_vfSplit (s : State) (c : Ctx) : (s.setMe c).vfSplit = s.vfSplit := (rfl)
@[simp] theorem State.setMe_reqs (s : State) (c : Ctx) : (s.setMe c).reqs = s.reqs := (rfl)
@[simp] theorem State.setMe_hostOut (s : State) (c : Ctx) : (s.setMe c).hostOut = s.hostOut := (rfl)
@[simp] theorem State.setMe_hostUp (s : State) (c : Ctx) : (s.setMe c).hostUp = s.hostUp := (rfl)
@[simp] theorem State.setMe_hostLost (s : State) (c : Ctx) : (s.setMe c).hostLost = s.hostLost := (rfl)
@[simp] theorem State.setMe_aer (s : State) (c : Ctx) : (s.setMe c).aer = s.aer := (rfl)
@[simp] theorem State.setMe_cxlUp (s : State) (c : Ctx) : (s.setMe c).cxlUp = s.cxlUp := (rfl)
@[simp] theorem State.setMe_cxlCap (s : State) (c : Ctx) : (s.setMe c).cxlCap = s.cxlCap := (rfl)
@[simp] theorem State.setMe_vexUp (s : State) (c : Ctx) : (s.setMe c).vexUp = s.vexUp := (rfl)
@[simp] theorem State.setMe_discards (s : State) (c : Ctx) : (s.setMe c).discards = s.discards := (rfl)
@[simp] theorem State.setMe_peersLost (s : State) (c : Ctx) : (s.setMe c).peersLost = s.peersLost := (rfl)
@[simp] theorem State.setMe_steps (s : State) (c : Ctx) : (s.setMe c).steps = s.steps := (rfl)
@[simp] theorem State.setMe_uet (s : State) (c : Ctx) : (s.setMe c).uet = s.uet := (rfl)
@[simp] theorem State.setMe_vexOut (s : State) (c : Ctx) : (s.setMe c).vexOut = s.vexOut := (rfl)
@[simp] theorem State.setMe_ptt (s : State) (c : Ctx) : (s.setMe c).ptt = s.ptt := (rfl)
@[simp] theorem State.setMe_bounce (s : State) (c : Ctx) : (s.setMe c).bounce = s.bounce := (rfl)
@[simp] theorem State.setMe_dirty (s : State) (c : Ctx) : (s.setMe c).dirty = s.dirty := (rfl)
@[simp] theorem State.setMe_migs (s : State) (c : Ctx) : (s.setMe c).migs = s.migs := (rfl)
@[simp] theorem State.setMe_birhiry (s : State) (c : Ctx) : (s.setMe c).birhiry = s.birhiry := (rfl)
@[simp] theorem State.setMe_profilers (s : State) (c : Ctx) : (s.setMe c).profilers = s.profilers := (rfl)
@[simp] theorem State.setMe_cap (s : State) (c : Ctx) : (s.setMe c).cap = s.cap := (rfl)
@[simp] theorem State.setMe_cyc (s : State) (c : Ctx) : (s.setMe c).cyc = s.cyc := (rfl)
@[simp] theorem State.setMe_pkgid (s : State) (c : Ctx) : (s.setMe c).pkgid = s.pkgid := (rfl)
@[simp] theorem State.setMe_meas (s : State) (c : Ctx) : (s.setMe c).meas = s.meas := (rfl)
@[simp] theorem State.setMe_cur (s : State) (c : Ctx) : (s.setMe c).cur = s.cur := (rfl)
@[simp] theorem State.setMe_agenda (s : State) (c : Ctx) : (s.setMe c).agenda = s.agenda := (rfl)
@[simp] theorem State.setMe_free (s : State) (c : Ctx) : (s.setMe c).free = s.free := (rfl)

@[simp] theorem State.setMyCore_mem (s : State) (c : Core) : (s.setMyCore c).mem = s.mem := (rfl)
@[simp] theorem State.setMyCore_lim (s : State) (c : Core) : (s.setMyCore c).lim = s.lim := (rfl)
@[simp] theorem State.setMyCore_pubs (s : State) (c : Core) : (s.setMyCore c).pubs = s.pubs := (rfl)
@[simp] theorem State.setMyCore_buffers (s : State) (c : Core) : (s.setMyCore c).buffers = s.buffers := (rfl)
@[simp] theorem State.setMyCore_poison (s : State) (c : Core) : (s.setMyCore c).poison = s.poison := (rfl)
@[simp] theorem State.setMyCore_mending (s : State) (c : Core) : (s.setMyCore c).mending = s.mending := (rfl)
@[simp] theorem State.setMyCore_posts (s : State) (c : Core) : (s.setMyCore c).posts = s.posts := (rfl)
@[simp] theorem State.setMyCore_ctxs (s : State) (c : Core) : (s.setMyCore c).ctxs = s.ctxs := (rfl)
@[simp] theorem State.setMyCore_dies (s : State) (c : Core) : (s.setMyCore c).dies = s.dies := (rfl)
@[simp] theorem State.setMyCore_hfaults (s : State) (c : Core) : (s.setMyCore c).hfaults = s.hfaults := (rfl)
@[simp] theorem State.setMyCore_sysc (s : State) (c : Core) : (s.setMyCore c).sysc = s.sysc := (rfl)
@[simp] theorem State.setMyCore_prefs (s : State) (c : Core) : (s.setMyCore c).prefs = s.prefs := (rfl)
@[simp] theorem State.setMyCore_prefServices (s : State) (c : Core) : (s.setMyCore c).prefServices = s.prefServices := (rfl)
@[simp] theorem State.setMyCore_bells (s : State) (c : Core) : (s.setMyCore c).bells = s.bells := (rfl)
@[simp] theorem State.setMyCore_clusters (s : State) (c : Core) : (s.setMyCore c).clusters = s.clusters := (rfl)
@[simp] theorem State.setMyCore_launches (s : State) (c : Core) : (s.setMyCore c).launches = s.launches := (rfl)
@[simp] theorem State.setMyCore_grants (s : State) (c : Core) : (s.setMyCore c).grants = s.grants := (rfl)
@[simp] theorem State.setMyCore_retiring (s : State) (c : Core) : (s.setMyCore c).retiring = s.retiring := (rfl)
@[simp] theorem State.setMyCore_retired (s : State) (c : Core) : (s.setMyCore c).retired = s.retired := (rfl)
@[simp] theorem State.setMyCore_domains (s : State) (c : Core) : (s.setMyCore c).domains = s.domains := (rfl)
@[simp] theorem State.setMyCore_images (s : State) (c : Core) : (s.setMyCore c).images = s.images := (rfl)
@[simp] theorem State.setMyCore_reserves (s : State) (c : Core) : (s.setMyCore c).reserves = s.reserves := (rfl)
@[simp] theorem State.setMyCore_privs (s : State) (c : Core) : (s.setMyCore c).privs = s.privs := (rfl)
@[simp] theorem State.setMyCore_pools (s : State) (c : Core) : (s.setMyCore c).pools = s.pools := (rfl)
@[simp] theorem State.setMyCore_funcs (s : State) (c : Core) : (s.setMyCore c).funcs = s.funcs := (rfl)
@[simp] theorem State.setMyCore_vfSplit (s : State) (c : Core) : (s.setMyCore c).vfSplit = s.vfSplit := (rfl)
@[simp] theorem State.setMyCore_reqs (s : State) (c : Core) : (s.setMyCore c).reqs = s.reqs := (rfl)
@[simp] theorem State.setMyCore_hostOut (s : State) (c : Core) : (s.setMyCore c).hostOut = s.hostOut := (rfl)
@[simp] theorem State.setMyCore_hostUp (s : State) (c : Core) : (s.setMyCore c).hostUp = s.hostUp := (rfl)
@[simp] theorem State.setMyCore_hostLost (s : State) (c : Core) : (s.setMyCore c).hostLost = s.hostLost := (rfl)
@[simp] theorem State.setMyCore_aer (s : State) (c : Core) : (s.setMyCore c).aer = s.aer := (rfl)
@[simp] theorem State.setMyCore_cxlUp (s : State) (c : Core) : (s.setMyCore c).cxlUp = s.cxlUp := (rfl)
@[simp] theorem State.setMyCore_cxlCap (s : State) (c : Core) : (s.setMyCore c).cxlCap = s.cxlCap := (rfl)
@[simp] theorem State.setMyCore_vexUp (s : State) (c : Core) : (s.setMyCore c).vexUp = s.vexUp := (rfl)
@[simp] theorem State.setMyCore_discards (s : State) (c : Core) : (s.setMyCore c).discards = s.discards := (rfl)
@[simp] theorem State.setMyCore_peersLost (s : State) (c : Core) : (s.setMyCore c).peersLost = s.peersLost := (rfl)
@[simp] theorem State.setMyCore_steps (s : State) (c : Core) : (s.setMyCore c).steps = s.steps := (rfl)
@[simp] theorem State.setMyCore_uet (s : State) (c : Core) : (s.setMyCore c).uet = s.uet := (rfl)
@[simp] theorem State.setMyCore_vexOut (s : State) (c : Core) : (s.setMyCore c).vexOut = s.vexOut := (rfl)
@[simp] theorem State.setMyCore_ptt (s : State) (c : Core) : (s.setMyCore c).ptt = s.ptt := (rfl)
@[simp] theorem State.setMyCore_bounce (s : State) (c : Core) : (s.setMyCore c).bounce = s.bounce := (rfl)
@[simp] theorem State.setMyCore_dirty (s : State) (c : Core) : (s.setMyCore c).dirty = s.dirty := (rfl)
@[simp] theorem State.setMyCore_migs (s : State) (c : Core) : (s.setMyCore c).migs = s.migs := (rfl)
@[simp] theorem State.setMyCore_birhiry (s : State) (c : Core) : (s.setMyCore c).birhiry = s.birhiry := (rfl)
@[simp] theorem State.setMyCore_profilers (s : State) (c : Core) : (s.setMyCore c).profilers = s.profilers := (rfl)
@[simp] theorem State.setMyCore_cap (s : State) (c : Core) : (s.setMyCore c).cap = s.cap := (rfl)
@[simp] theorem State.setMyCore_cyc (s : State) (c : Core) : (s.setMyCore c).cyc = s.cyc := (rfl)
@[simp] theorem State.setMyCore_pkgid (s : State) (c : Core) : (s.setMyCore c).pkgid = s.pkgid := (rfl)
@[simp] theorem State.setMyCore_meas (s : State) (c : Core) : (s.setMyCore c).meas = s.meas := (rfl)
@[simp] theorem State.setMyCore_cur (s : State) (c : Core) : (s.setMyCore c).cur = s.cur := (rfl)
@[simp] theorem State.setMyCore_agenda (s : State) (c : Core) : (s.setMyCore c).agenda = s.agenda := (rfl)
@[simp] theorem State.setMyCore_free (s : State) (c : Core) : (s.setMyCore c).free = s.free := (rfl)

/-! ## The issuing context and its core -/

@[simp] theorem State.me_setMe (s : State) (c : Ctx) : (s.setMe c).me = c := by simp [State.me, State.setMe]
@[simp] theorem State.me_setCtx_cur (s : State) (c : Ctx) : (s.setCtx s.cur c).me = c := by simp [State.me]
@[simp] theorem State.me_setCore (s : State) (k : Nat) (x : Core) : (s.setCore k x).me = s.me := (rfl)
@[simp] theorem State.me_poke (s : State) (l : Nat) (bs : List Byte) : (s.poke l bs).me = s.me := (rfl)
@[simp] theorem State.me_tick (s : State) : s.tick.me = s.me := (rfl)
@[simp] theorem State.core_setMe (s : State) (c : Ctx) (k : Nat) : (s.setMe c).core k = s.core k := (rfl)
@[simp] theorem State.myCore_setMe (s : State) (c : Ctx) : (s.setMe c).myCore = s.myCore := (rfl)
@[simp] theorem State.myCore_setMyCore (s : State) (c : Core) : (s.setMyCore c).myCore = c := by
  simp [State.myCore, State.setMyCore]
@[simp] theorem State.me_setMyCore (s : State) (c : Core) : (s.setMyCore c).me = s.me := (rfl)
@[simp] theorem State.ctx_setMe_cur (s : State) (c : Ctx) : (s.setMe c).ctx s.cur = c := by simp [State.setMe]
theorem State.ctx_setMe_ne (s : State) (c : Ctx) {d : Nat} (h : d ≠ s.cur) : (s.setMe c).ctx d = s.ctx d :=
  s.ctx_setCtx_ne c h
@[simp] theorem State.me_setS (s : State) (n : Nat) (w : Word) : (s.setS n w).me = s.me.setS n w := by simp [State.setS]
@[simp] theorem State.me_setP (s : State) (n : Nat) (b : Bool) : (s.setP n b).me = s.me.setP n b := by simp [State.setP]
/-! ## Registers -/

/-- s0 reads zero. -/
@[simp] theorem Ctx.sreg_zero (c : Ctx) : c.sreg 0 = 0 := (rfl)
/-- A write to s0 is discarded. -/
@[simp] theorem Ctx.setS_zero (c : Ctx) (w : Word) : c.setS 0 w = c := (rfl)
/-- A scalar register reads what was written to it. -/
theorem Ctx.sreg_setS_same (c : Ctx) {n : Nat} (w : Word) (h : n ≠ 0) : (c.setS n w).sreg n = w := by
  simp [Ctx.sreg, Ctx.setS, h]
/-- A write to a scalar register leaves every other one alone. -/
theorem Ctx.sreg_setS_ne (c : Ctx) {n m : Nat} (w : Word) (h : m ≠ n) : (c.setS n w).sreg m = c.sreg m := by
  unfold Ctx.sreg Ctx.setS
  by_cases h0 : n = 0
  · simp [h0]
  · simp [h0, tget_tput, h]
/-- A write to p0 is discarded. -/
@[simp] theorem Ctx.setP_zero (c : Ctx) (b : Bool) : c.setP 0 b = c := (rfl)
/-- p0 reads true. -/
@[simp] theorem Ctx.preg_zero (c : Ctx) : c.preg 0 = true := (rfl)

@[simp] theorem Ctx.setStat_pc (c : Ctx) (lo n v : Nat) : (c.setStat lo n v).pc = c.pc := (rfl)
@[simp] theorem Ctx.setStat_s (c : Ctx) (lo n v : Nat) : (c.setStat lo n v).s = c.s := (rfl)
@[simp] theorem Ctx.setStat_p (c : Ctx) (lo n v : Nat) : (c.setStat lo n v).p = c.p := (rfl)
@[simp] theorem Ctx.setStat_xpc (c : Ctx) (lo n v : Nat) : (c.setStat lo n v).xpc = c.xpc := (rfl)
@[simp] theorem Ctx.setStat_xcause (c : Ctx) (lo n v : Nat) : (c.setStat lo n v).xcause = c.xcause := (rfl)
@[simp] theorem Ctx.setStat_xval (c : Ctx) (lo n v : Nat) : (c.setStat lo n v).xval = c.xval := (rfl)
@[simp] theorem Ctx.setStat_fmtd (c : Ctx) (lo n v : Nat) : (c.setStat lo n v).fmtd = c.fmtd := (rfl)
@[simp] theorem Ctx.setStat_canreq (c : Ctx) (lo n v : Nat) : (c.setStat lo n v).canreq = c.canreq := (rfl)
@[simp] theorem Ctx.setStat_loops (c : Ctx) (lo n v : Nat) : (c.setStat lo n v).loops = c.loops := (rfl)
@[simp] theorem Ctx.setStat_saved (c : Ctx) (lo n v : Nat) : (c.setStat lo n v).saved = c.saved := (rfl)
@[simp] theorem Ctx.setStat_life (c : Ctx) (lo n v : Nat) : (c.setStat lo n v).life = c.life := (rfl)
@[simp] theorem Ctx.setStat_view (c : Ctx) (lo n v : Nat) : (c.setStat lo n v).view = c.view := (rfl)
@[simp] theorem Ctx.setStat_own (c : Ctx) (lo n v : Nat) : (c.setStat lo n v).own = c.own := (rfl)
@[simp] theorem Ctx.setStat_pubs (c : Ctx) (lo n v : Nat) : (c.setStat lo n v).pubs = c.pubs := (rfl)
@[simp] theorem Ctx.setStat_lock (c : Ctx) (lo n v : Nat) : (c.setStat lo n v).lock = c.lock := (rfl)
@[simp] theorem Ctx.setStat_wait (c : Ctx) (lo n v : Nat) : (c.setStat lo n v).wait = c.wait := (rfl)
@[simp] theorem Ctx.setStat_away (c : Ctx) (lo n v : Nat) : (c.setStat lo n v).away = c.away := (rfl)
@[simp] theorem Ctx.setStat_record (c : Ctx) (lo n v : Nat) : (c.setStat lo n v).record = c.record := (rfl)
@[simp] theorem Ctx.setStat_range (c : Ctx) (lo n v : Nat) : (c.setStat lo n v).range = c.range := (rfl)
@[simp] theorem Ctx.setStat_sprets (c : Ctx) (lo n v : Nat) : (c.setStat lo n v).sprets = c.sprets := (rfl)
@[simp] theorem Ctx.setStat_pend (c : Ctx) (lo n v : Nat) : (c.setStat lo n v).pend = c.pend := (rfl)
@[simp] theorem Ctx.setStat_stopped (c : Ctx) (lo n v : Nat) : (c.setStat lo n v).stopped = c.stopped := (rfl)
@[simp] theorem Ctx.setStat_missPosl (c : Ctx) (lo n v : Nat) : (c.setStat lo n v).missPosl = c.missPosl := (rfl)
@[simp] theorem Ctx.setStat_search (c : Ctx) (lo n v : Nat) : (c.setStat lo n v).search = c.search := (rfl)
@[simp] theorem Ctx.setStat_under (c : Ctx) (lo n v : Nat) : (c.setStat lo n v).under = c.under := (rfl)
@[simp] theorem Ctx.setStat_cameFrom (c : Ctx) (lo n v : Nat) : (c.setStat lo n v).cameFrom = c.cameFrom := (rfl)
@[simp] theorem Ctx.setStat_released (c : Ctx) (lo n v : Nat) : (c.setStat lo n v).released = c.released := (rfl)
@[simp] theorem Ctx.setStat_unserved (c : Ctx) (lo n v : Nat) : (c.setStat lo n v).unserved = c.unserved := (rfl)
@[simp] theorem Ctx.setStat_wlen (c : Ctx) (lo n v : Nat) : (c.setStat lo n v).wlen = c.wlen := (rfl)
@[simp] theorem Ctx.setStat_inPre (c : Ctx) (lo n v : Nat) : (c.setStat lo n v).inPre = c.inPre := (rfl)
@[simp] theorem Ctx.setStat_trapCyc (c : Ctx) (lo n v : Nat) : (c.setStat lo n v).trapCyc = c.trapCyc := (rfl)
@[simp] theorem Ctx.setStat_owedAcq (c : Ctx) (lo n v : Nat) : (c.setStat lo n v).owedAcq = c.owedAcq := (rfl)
@[simp] theorem Ctx.setStat_starter (c : Ctx) (lo n v : Nat) : (c.setStat lo n v).starter = c.starter := (rfl)
@[simp] theorem Ctx.setStat_ops (c : Ctx) (lo n v : Nat) : (c.setStat lo n v).ops = c.ops := (rfl)
@[simp] theorem Ctx.setStat_recalling (c : Ctx) (lo n v : Nat) : (c.setStat lo n v).recalling = c.recalling := (rfl)
@[simp] theorem Ctx.setStat_atBarrier (c : Ctx) (lo n v : Nat) : (c.setStat lo n v).atBarrier = c.atBarrier := (rfl)

@[simp] theorem Ctx.setS_pc (c : Ctx) (n : Nat) (w : Word) : (c.setS n w).pc = c.pc := by unfold Ctx.setS; split <;> rfl
@[simp] theorem Ctx.setS_p (c : Ctx) (n : Nat) (w : Word) : (c.setS n w).p = c.p := by unfold Ctx.setS; split <;> rfl
@[simp] theorem Ctx.setS_stat (c : Ctx) (n : Nat) (w : Word) : (c.setS n w).stat = c.stat := by unfold Ctx.setS; split <;> rfl
@[simp] theorem Ctx.setS_xpc (c : Ctx) (n : Nat) (w : Word) : (c.setS n w).xpc = c.xpc := by unfold Ctx.setS; split <;> rfl
@[simp] theorem Ctx.setS_xcause (c : Ctx) (n : Nat) (w : Word) : (c.setS n w).xcause = c.xcause := by unfold Ctx.setS; split <;> rfl
@[simp] theorem Ctx.setS_xval (c : Ctx) (n : Nat) (w : Word) : (c.setS n w).xval = c.xval := by unfold Ctx.setS; split <;> rfl
@[simp] theorem Ctx.setS_fmtd (c : Ctx) (n : Nat) (w : Word) : (c.setS n w).fmtd = c.fmtd := by unfold Ctx.setS; split <;> rfl
@[simp] theorem Ctx.setS_canreq (c : Ctx) (n : Nat) (w : Word) : (c.setS n w).canreq = c.canreq := by unfold Ctx.setS; split <;> rfl
@[simp] theorem Ctx.setS_loops (c : Ctx) (n : Nat) (w : Word) : (c.setS n w).loops = c.loops := by unfold Ctx.setS; split <;> rfl
@[simp] theorem Ctx.setS_saved (c : Ctx) (n : Nat) (w : Word) : (c.setS n w).saved = c.saved := by unfold Ctx.setS; split <;> rfl
@[simp] theorem Ctx.setS_life (c : Ctx) (n : Nat) (w : Word) : (c.setS n w).life = c.life := by unfold Ctx.setS; split <;> rfl
@[simp] theorem Ctx.setS_view (c : Ctx) (n : Nat) (w : Word) : (c.setS n w).view = c.view := by unfold Ctx.setS; split <;> rfl
@[simp] theorem Ctx.setS_own (c : Ctx) (n : Nat) (w : Word) : (c.setS n w).own = c.own := by unfold Ctx.setS; split <;> rfl
@[simp] theorem Ctx.setS_pubs (c : Ctx) (n : Nat) (w : Word) : (c.setS n w).pubs = c.pubs := by unfold Ctx.setS; split <;> rfl
@[simp] theorem Ctx.setS_lock (c : Ctx) (n : Nat) (w : Word) : (c.setS n w).lock = c.lock := by unfold Ctx.setS; split <;> rfl
@[simp] theorem Ctx.setS_wait (c : Ctx) (n : Nat) (w : Word) : (c.setS n w).wait = c.wait := by unfold Ctx.setS; split <;> rfl
@[simp] theorem Ctx.setS_away (c : Ctx) (n : Nat) (w : Word) : (c.setS n w).away = c.away := by unfold Ctx.setS; split <;> rfl
@[simp] theorem Ctx.setS_record (c : Ctx) (n : Nat) (w : Word) : (c.setS n w).record = c.record := by unfold Ctx.setS; split <;> rfl
@[simp] theorem Ctx.setS_range (c : Ctx) (n : Nat) (w : Word) : (c.setS n w).range = c.range := by unfold Ctx.setS; split <;> rfl
@[simp] theorem Ctx.setS_sprets (c : Ctx) (n : Nat) (w : Word) : (c.setS n w).sprets = c.sprets := by unfold Ctx.setS; split <;> rfl
@[simp] theorem Ctx.setS_pend (c : Ctx) (n : Nat) (w : Word) : (c.setS n w).pend = c.pend := by unfold Ctx.setS; split <;> rfl
@[simp] theorem Ctx.setS_stopped (c : Ctx) (n : Nat) (w : Word) : (c.setS n w).stopped = c.stopped := by unfold Ctx.setS; split <;> rfl
@[simp] theorem Ctx.setS_missPosl (c : Ctx) (n : Nat) (w : Word) : (c.setS n w).missPosl = c.missPosl := by unfold Ctx.setS; split <;> rfl
@[simp] theorem Ctx.setS_search (c : Ctx) (n : Nat) (w : Word) : (c.setS n w).search = c.search := by unfold Ctx.setS; split <;> rfl
@[simp] theorem Ctx.setS_under (c : Ctx) (n : Nat) (w : Word) : (c.setS n w).under = c.under := by unfold Ctx.setS; split <;> rfl
@[simp] theorem Ctx.setS_cameFrom (c : Ctx) (n : Nat) (w : Word) : (c.setS n w).cameFrom = c.cameFrom := by unfold Ctx.setS; split <;> rfl
@[simp] theorem Ctx.setS_released (c : Ctx) (n : Nat) (w : Word) : (c.setS n w).released = c.released := by unfold Ctx.setS; split <;> rfl
@[simp] theorem Ctx.setS_unserved (c : Ctx) (n : Nat) (w : Word) : (c.setS n w).unserved = c.unserved := by unfold Ctx.setS; split <;> rfl
@[simp] theorem Ctx.setS_wlen (c : Ctx) (n : Nat) (w : Word) : (c.setS n w).wlen = c.wlen := by unfold Ctx.setS; split <;> rfl
@[simp] theorem Ctx.setS_inPre (c : Ctx) (n : Nat) (w : Word) : (c.setS n w).inPre = c.inPre := by unfold Ctx.setS; split <;> rfl
@[simp] theorem Ctx.setS_trapCyc (c : Ctx) (n : Nat) (w : Word) : (c.setS n w).trapCyc = c.trapCyc := by unfold Ctx.setS; split <;> rfl
@[simp] theorem Ctx.setS_owedAcq (c : Ctx) (n : Nat) (w : Word) : (c.setS n w).owedAcq = c.owedAcq := by unfold Ctx.setS; split <;> rfl
@[simp] theorem Ctx.setS_starter (c : Ctx) (n : Nat) (w : Word) : (c.setS n w).starter = c.starter := by unfold Ctx.setS; split <;> rfl
@[simp] theorem Ctx.setS_ops (c : Ctx) (n : Nat) (w : Word) : (c.setS n w).ops = c.ops := by unfold Ctx.setS; split <;> rfl
@[simp] theorem Ctx.setS_recalling (c : Ctx) (n : Nat) (w : Word) : (c.setS n w).recalling = c.recalling := by unfold Ctx.setS; split <;> rfl
@[simp] theorem Ctx.setS_atBarrier (c : Ctx) (n : Nat) (w : Word) : (c.setS n w).atBarrier = c.atBarrier := by unfold Ctx.setS; split <;> rfl

@[simp] theorem Ctx.setP_pc (c : Ctx) (n : Nat) (b : Bool) : (c.setP n b).pc = c.pc := by unfold Ctx.setP; split <;> rfl
@[simp] theorem Ctx.setP_s (c : Ctx) (n : Nat) (b : Bool) : (c.setP n b).s = c.s := by unfold Ctx.setP; split <;> rfl
@[simp] theorem Ctx.setP_stat (c : Ctx) (n : Nat) (b : Bool) : (c.setP n b).stat = c.stat := by unfold Ctx.setP; split <;> rfl
@[simp] theorem Ctx.setP_xpc (c : Ctx) (n : Nat) (b : Bool) : (c.setP n b).xpc = c.xpc := by unfold Ctx.setP; split <;> rfl
@[simp] theorem Ctx.setP_xcause (c : Ctx) (n : Nat) (b : Bool) : (c.setP n b).xcause = c.xcause := by unfold Ctx.setP; split <;> rfl
@[simp] theorem Ctx.setP_xval (c : Ctx) (n : Nat) (b : Bool) : (c.setP n b).xval = c.xval := by unfold Ctx.setP; split <;> rfl
@[simp] theorem Ctx.setP_fmtd (c : Ctx) (n : Nat) (b : Bool) : (c.setP n b).fmtd = c.fmtd := by unfold Ctx.setP; split <;> rfl
@[simp] theorem Ctx.setP_canreq (c : Ctx) (n : Nat) (b : Bool) : (c.setP n b).canreq = c.canreq := by unfold Ctx.setP; split <;> rfl
@[simp] theorem Ctx.setP_loops (c : Ctx) (n : Nat) (b : Bool) : (c.setP n b).loops = c.loops := by unfold Ctx.setP; split <;> rfl
@[simp] theorem Ctx.setP_saved (c : Ctx) (n : Nat) (b : Bool) : (c.setP n b).saved = c.saved := by unfold Ctx.setP; split <;> rfl
@[simp] theorem Ctx.setP_life (c : Ctx) (n : Nat) (b : Bool) : (c.setP n b).life = c.life := by unfold Ctx.setP; split <;> rfl
@[simp] theorem Ctx.setP_view (c : Ctx) (n : Nat) (b : Bool) : (c.setP n b).view = c.view := by unfold Ctx.setP; split <;> rfl
@[simp] theorem Ctx.setP_own (c : Ctx) (n : Nat) (b : Bool) : (c.setP n b).own = c.own := by unfold Ctx.setP; split <;> rfl
@[simp] theorem Ctx.setP_pubs (c : Ctx) (n : Nat) (b : Bool) : (c.setP n b).pubs = c.pubs := by unfold Ctx.setP; split <;> rfl
@[simp] theorem Ctx.setP_lock (c : Ctx) (n : Nat) (b : Bool) : (c.setP n b).lock = c.lock := by unfold Ctx.setP; split <;> rfl
@[simp] theorem Ctx.setP_wait (c : Ctx) (n : Nat) (b : Bool) : (c.setP n b).wait = c.wait := by unfold Ctx.setP; split <;> rfl
@[simp] theorem Ctx.setP_away (c : Ctx) (n : Nat) (b : Bool) : (c.setP n b).away = c.away := by unfold Ctx.setP; split <;> rfl
@[simp] theorem Ctx.setP_record (c : Ctx) (n : Nat) (b : Bool) : (c.setP n b).record = c.record := by unfold Ctx.setP; split <;> rfl
@[simp] theorem Ctx.setP_range (c : Ctx) (n : Nat) (b : Bool) : (c.setP n b).range = c.range := by unfold Ctx.setP; split <;> rfl
@[simp] theorem Ctx.setP_sprets (c : Ctx) (n : Nat) (b : Bool) : (c.setP n b).sprets = c.sprets := by unfold Ctx.setP; split <;> rfl
@[simp] theorem Ctx.setP_pend (c : Ctx) (n : Nat) (b : Bool) : (c.setP n b).pend = c.pend := by unfold Ctx.setP; split <;> rfl
@[simp] theorem Ctx.setP_stopped (c : Ctx) (n : Nat) (b : Bool) : (c.setP n b).stopped = c.stopped := by unfold Ctx.setP; split <;> rfl
@[simp] theorem Ctx.setP_missPosl (c : Ctx) (n : Nat) (b : Bool) : (c.setP n b).missPosl = c.missPosl := by unfold Ctx.setP; split <;> rfl
@[simp] theorem Ctx.setP_search (c : Ctx) (n : Nat) (b : Bool) : (c.setP n b).search = c.search := by unfold Ctx.setP; split <;> rfl
@[simp] theorem Ctx.setP_under (c : Ctx) (n : Nat) (b : Bool) : (c.setP n b).under = c.under := by unfold Ctx.setP; split <;> rfl
@[simp] theorem Ctx.setP_cameFrom (c : Ctx) (n : Nat) (b : Bool) : (c.setP n b).cameFrom = c.cameFrom := by unfold Ctx.setP; split <;> rfl
@[simp] theorem Ctx.setP_released (c : Ctx) (n : Nat) (b : Bool) : (c.setP n b).released = c.released := by unfold Ctx.setP; split <;> rfl
@[simp] theorem Ctx.setP_unserved (c : Ctx) (n : Nat) (b : Bool) : (c.setP n b).unserved = c.unserved := by unfold Ctx.setP; split <;> rfl
@[simp] theorem Ctx.setP_wlen (c : Ctx) (n : Nat) (b : Bool) : (c.setP n b).wlen = c.wlen := by unfold Ctx.setP; split <;> rfl
@[simp] theorem Ctx.setP_inPre (c : Ctx) (n : Nat) (b : Bool) : (c.setP n b).inPre = c.inPre := by unfold Ctx.setP; split <;> rfl
@[simp] theorem Ctx.setP_trapCyc (c : Ctx) (n : Nat) (b : Bool) : (c.setP n b).trapCyc = c.trapCyc := by unfold Ctx.setP; split <;> rfl
@[simp] theorem Ctx.setP_owedAcq (c : Ctx) (n : Nat) (b : Bool) : (c.setP n b).owedAcq = c.owedAcq := by unfold Ctx.setP; split <;> rfl
@[simp] theorem Ctx.setP_starter (c : Ctx) (n : Nat) (b : Bool) : (c.setP n b).starter = c.starter := by unfold Ctx.setP; split <;> rfl
@[simp] theorem Ctx.setP_ops (c : Ctx) (n : Nat) (b : Bool) : (c.setP n b).ops = c.ops := by unfold Ctx.setP; split <;> rfl
@[simp] theorem Ctx.setP_recalling (c : Ctx) (n : Nat) (b : Bool) : (c.setP n b).recalling = c.recalling := by unfold Ctx.setP; split <;> rfl
@[simp] theorem Ctx.setP_atBarrier (c : Ctx) (n : Nat) (b : Bool) : (c.setP n b).atBarrier = c.atBarrier := by unfold Ctx.setP; split <;> rfl

@[simp] theorem Ctx.advance_s (c : Ctx) (len : Nat) : (c.advance len).s = c.s := by simp only [Ctx.advance]
@[simp] theorem Ctx.advance_p (c : Ctx) (len : Nat) : (c.advance len).p = c.p := by simp only [Ctx.advance]
@[simp] theorem Ctx.advance_stat (c : Ctx) (len : Nat) : (c.advance len).stat = c.stat := by simp only [Ctx.advance]
@[simp] theorem Ctx.advance_xpc (c : Ctx) (len : Nat) : (c.advance len).xpc = c.xpc := by simp only [Ctx.advance]
@[simp] theorem Ctx.advance_xcause (c : Ctx) (len : Nat) : (c.advance len).xcause = c.xcause := by simp only [Ctx.advance]
@[simp] theorem Ctx.advance_xval (c : Ctx) (len : Nat) : (c.advance len).xval = c.xval := by simp only [Ctx.advance]
@[simp] theorem Ctx.advance_fmtd (c : Ctx) (len : Nat) : (c.advance len).fmtd = c.fmtd := by simp only [Ctx.advance]
@[simp] theorem Ctx.advance_canreq (c : Ctx) (len : Nat) : (c.advance len).canreq = c.canreq := by simp only [Ctx.advance]
@[simp] theorem Ctx.advance_saved (c : Ctx) (len : Nat) : (c.advance len).saved = c.saved := by simp only [Ctx.advance]
@[simp] theorem Ctx.advance_life (c : Ctx) (len : Nat) : (c.advance len).life = c.life := by simp only [Ctx.advance]
@[simp] theorem Ctx.advance_view (c : Ctx) (len : Nat) : (c.advance len).view = c.view := by simp only [Ctx.advance]
@[simp] theorem Ctx.advance_own (c : Ctx) (len : Nat) : (c.advance len).own = c.own := by simp only [Ctx.advance]
@[simp] theorem Ctx.advance_pubs (c : Ctx) (len : Nat) : (c.advance len).pubs = c.pubs := by simp only [Ctx.advance]
@[simp] theorem Ctx.advance_lock (c : Ctx) (len : Nat) : (c.advance len).lock = c.lock := by simp only [Ctx.advance]
@[simp] theorem Ctx.advance_wait (c : Ctx) (len : Nat) : (c.advance len).wait = c.wait := by simp only [Ctx.advance]
@[simp] theorem Ctx.advance_away (c : Ctx) (len : Nat) : (c.advance len).away = c.away := by simp only [Ctx.advance]
@[simp] theorem Ctx.advance_record (c : Ctx) (len : Nat) : (c.advance len).record = c.record := by simp only [Ctx.advance]
@[simp] theorem Ctx.advance_range (c : Ctx) (len : Nat) : (c.advance len).range = c.range := by simp only [Ctx.advance]
@[simp] theorem Ctx.advance_sprets (c : Ctx) (len : Nat) : (c.advance len).sprets = c.sprets := by simp only [Ctx.advance]
@[simp] theorem Ctx.advance_pend (c : Ctx) (len : Nat) : (c.advance len).pend = c.pend := by simp only [Ctx.advance]
@[simp] theorem Ctx.advance_stopped (c : Ctx) (len : Nat) : (c.advance len).stopped = c.stopped := by simp only [Ctx.advance]
@[simp] theorem Ctx.advance_missPosl (c : Ctx) (len : Nat) : (c.advance len).missPosl = c.missPosl := by simp only [Ctx.advance]
@[simp] theorem Ctx.advance_search (c : Ctx) (len : Nat) : (c.advance len).search = c.search := by simp only [Ctx.advance]
@[simp] theorem Ctx.advance_under (c : Ctx) (len : Nat) : (c.advance len).under = c.under := by simp only [Ctx.advance]
@[simp] theorem Ctx.advance_released (c : Ctx) (len : Nat) : (c.advance len).released = c.released := by simp only [Ctx.advance]
@[simp] theorem Ctx.advance_wlen (c : Ctx) (len : Nat) : (c.advance len).wlen = c.wlen := by simp only [Ctx.advance]
@[simp] theorem Ctx.advance_inPre (c : Ctx) (len : Nat) : (c.advance len).inPre = c.inPre := by simp only [Ctx.advance]
@[simp] theorem Ctx.advance_trapCyc (c : Ctx) (len : Nat) : (c.advance len).trapCyc = c.trapCyc := by simp only [Ctx.advance]
@[simp] theorem Ctx.advance_owedAcq (c : Ctx) (len : Nat) : (c.advance len).owedAcq = c.owedAcq := by simp only [Ctx.advance]
@[simp] theorem Ctx.advance_starter (c : Ctx) (len : Nat) : (c.advance len).starter = c.starter := by simp only [Ctx.advance]
@[simp] theorem Ctx.advance_ops (c : Ctx) (len : Nat) : (c.advance len).ops = c.ops := by simp only [Ctx.advance]
@[simp] theorem Ctx.advance_recalling (c : Ctx) (len : Nat) : (c.advance len).recalling = c.recalling := by simp only [Ctx.advance]

@[simp] theorem Ctx.jump_s (c : Ctx) (t : Word) : (c.jump t).s = c.s := rfl
@[simp] theorem Ctx.jump_p (c : Ctx) (t : Word) : (c.jump t).p = c.p := rfl
@[simp] theorem Ctx.jump_stat (c : Ctx) (t : Word) : (c.jump t).stat = c.stat := rfl
@[simp] theorem Ctx.jump_xpc (c : Ctx) (t : Word) : (c.jump t).xpc = c.xpc := rfl
@[simp] theorem Ctx.jump_xcause (c : Ctx) (t : Word) : (c.jump t).xcause = c.xcause := rfl
@[simp] theorem Ctx.jump_xval (c : Ctx) (t : Word) : (c.jump t).xval = c.xval := rfl
@[simp] theorem Ctx.jump_fmtd (c : Ctx) (t : Word) : (c.jump t).fmtd = c.fmtd := rfl
@[simp] theorem Ctx.jump_canreq (c : Ctx) (t : Word) : (c.jump t).canreq = c.canreq := rfl
@[simp] theorem Ctx.jump_loops (c : Ctx) (t : Word) : (c.jump t).loops = c.loops := rfl
@[simp] theorem Ctx.jump_saved (c : Ctx) (t : Word) : (c.jump t).saved = c.saved := rfl
@[simp] theorem Ctx.jump_life (c : Ctx) (t : Word) : (c.jump t).life = c.life := rfl
@[simp] theorem Ctx.jump_view (c : Ctx) (t : Word) : (c.jump t).view = c.view := rfl
@[simp] theorem Ctx.jump_own (c : Ctx) (t : Word) : (c.jump t).own = c.own := rfl
@[simp] theorem Ctx.jump_pubs (c : Ctx) (t : Word) : (c.jump t).pubs = c.pubs := rfl
@[simp] theorem Ctx.jump_lock (c : Ctx) (t : Word) : (c.jump t).lock = c.lock := rfl
@[simp] theorem Ctx.jump_wait (c : Ctx) (t : Word) : (c.jump t).wait = c.wait := rfl
@[simp] theorem Ctx.jump_away (c : Ctx) (t : Word) : (c.jump t).away = c.away := rfl
@[simp] theorem Ctx.jump_record (c : Ctx) (t : Word) : (c.jump t).record = c.record := rfl
@[simp] theorem Ctx.jump_range (c : Ctx) (t : Word) : (c.jump t).range = c.range := rfl
@[simp] theorem Ctx.jump_sprets (c : Ctx) (t : Word) : (c.jump t).sprets = c.sprets := rfl
@[simp] theorem Ctx.jump_pend (c : Ctx) (t : Word) : (c.jump t).pend = c.pend := rfl
@[simp] theorem Ctx.jump_stopped (c : Ctx) (t : Word) : (c.jump t).stopped = c.stopped := rfl
@[simp] theorem Ctx.jump_missPosl (c : Ctx) (t : Word) : (c.jump t).missPosl = c.missPosl := rfl
@[simp] theorem Ctx.jump_search (c : Ctx) (t : Word) : (c.jump t).search = c.search := rfl
@[simp] theorem Ctx.jump_under (c : Ctx) (t : Word) : (c.jump t).under = c.under := rfl
@[simp] theorem Ctx.jump_released (c : Ctx) (t : Word) : (c.jump t).released = c.released := rfl
@[simp] theorem Ctx.jump_wlen (c : Ctx) (t : Word) : (c.jump t).wlen = c.wlen := rfl
@[simp] theorem Ctx.jump_inPre (c : Ctx) (t : Word) : (c.jump t).inPre = c.inPre := rfl
@[simp] theorem Ctx.jump_trapCyc (c : Ctx) (t : Word) : (c.jump t).trapCyc = c.trapCyc := rfl
@[simp] theorem Ctx.jump_owedAcq (c : Ctx) (t : Word) : (c.jump t).owedAcq = c.owedAcq := rfl
@[simp] theorem Ctx.jump_starter (c : Ctx) (t : Word) : (c.jump t).starter = c.starter := rfl
@[simp] theorem Ctx.jump_ops (c : Ctx) (t : Word) : (c.jump t).ops = c.ops := rfl
@[simp] theorem Ctx.jump_recalling (c : Ctx) (t : Word) : (c.jump t).recalling = c.recalling := rfl

@[simp] theorem Ctx.usePrefix_pc (c : Ctx) (i : Op) : (c.usePrefix i).pc = c.pc := by unfold Ctx.usePrefix; split; exact Ctx.setStat_pc _ _ _ _; rfl
@[simp] theorem Ctx.usePrefix_s (c : Ctx) (i : Op) : (c.usePrefix i).s = c.s := by unfold Ctx.usePrefix; split; exact Ctx.setStat_s _ _ _ _; rfl
@[simp] theorem Ctx.usePrefix_p (c : Ctx) (i : Op) : (c.usePrefix i).p = c.p := by unfold Ctx.usePrefix; split; exact Ctx.setStat_p _ _ _ _; rfl
@[simp] theorem Ctx.usePrefix_xpc (c : Ctx) (i : Op) : (c.usePrefix i).xpc = c.xpc := by unfold Ctx.usePrefix; split; exact Ctx.setStat_xpc _ _ _ _; rfl
@[simp] theorem Ctx.usePrefix_xcause (c : Ctx) (i : Op) : (c.usePrefix i).xcause = c.xcause := by unfold Ctx.usePrefix; split; exact Ctx.setStat_xcause _ _ _ _; rfl
@[simp] theorem Ctx.usePrefix_xval (c : Ctx) (i : Op) : (c.usePrefix i).xval = c.xval := by unfold Ctx.usePrefix; split; exact Ctx.setStat_xval _ _ _ _; rfl
@[simp] theorem Ctx.usePrefix_fmtd (c : Ctx) (i : Op) : (c.usePrefix i).fmtd = c.fmtd := by unfold Ctx.usePrefix; split; exact Ctx.setStat_fmtd _ _ _ _; rfl
@[simp] theorem Ctx.usePrefix_canreq (c : Ctx) (i : Op) : (c.usePrefix i).canreq = c.canreq := by unfold Ctx.usePrefix; split; exact Ctx.setStat_canreq _ _ _ _; rfl
@[simp] theorem Ctx.usePrefix_loops (c : Ctx) (i : Op) : (c.usePrefix i).loops = c.loops := by unfold Ctx.usePrefix; split; exact Ctx.setStat_loops _ _ _ _; rfl
@[simp] theorem Ctx.usePrefix_saved (c : Ctx) (i : Op) : (c.usePrefix i).saved = c.saved := by unfold Ctx.usePrefix; split; exact Ctx.setStat_saved _ _ _ _; rfl
@[simp] theorem Ctx.usePrefix_life (c : Ctx) (i : Op) : (c.usePrefix i).life = c.life := by unfold Ctx.usePrefix; split; exact Ctx.setStat_life _ _ _ _; rfl
@[simp] theorem Ctx.usePrefix_view (c : Ctx) (i : Op) : (c.usePrefix i).view = c.view := by unfold Ctx.usePrefix; split; exact Ctx.setStat_view _ _ _ _; rfl
@[simp] theorem Ctx.usePrefix_own (c : Ctx) (i : Op) : (c.usePrefix i).own = c.own := by unfold Ctx.usePrefix; split; exact Ctx.setStat_own _ _ _ _; rfl
@[simp] theorem Ctx.usePrefix_pubs (c : Ctx) (i : Op) : (c.usePrefix i).pubs = c.pubs := by unfold Ctx.usePrefix; split; exact Ctx.setStat_pubs _ _ _ _; rfl
@[simp] theorem Ctx.usePrefix_lock (c : Ctx) (i : Op) : (c.usePrefix i).lock = c.lock := by unfold Ctx.usePrefix; split; exact Ctx.setStat_lock _ _ _ _; rfl
@[simp] theorem Ctx.usePrefix_wait (c : Ctx) (i : Op) : (c.usePrefix i).wait = c.wait := by unfold Ctx.usePrefix; split; exact Ctx.setStat_wait _ _ _ _; rfl
@[simp] theorem Ctx.usePrefix_away (c : Ctx) (i : Op) : (c.usePrefix i).away = c.away := by unfold Ctx.usePrefix; split; exact Ctx.setStat_away _ _ _ _; rfl
@[simp] theorem Ctx.usePrefix_record (c : Ctx) (i : Op) : (c.usePrefix i).record = c.record := by unfold Ctx.usePrefix; split; exact Ctx.setStat_record _ _ _ _; rfl
@[simp] theorem Ctx.usePrefix_range (c : Ctx) (i : Op) : (c.usePrefix i).range = c.range := by unfold Ctx.usePrefix; split; exact Ctx.setStat_range _ _ _ _; rfl
@[simp] theorem Ctx.usePrefix_sprets (c : Ctx) (i : Op) : (c.usePrefix i).sprets = c.sprets := by unfold Ctx.usePrefix; split; exact Ctx.setStat_sprets _ _ _ _; rfl
@[simp] theorem Ctx.usePrefix_pend (c : Ctx) (i : Op) : (c.usePrefix i).pend = c.pend := by unfold Ctx.usePrefix; split; exact Ctx.setStat_pend _ _ _ _; rfl
@[simp] theorem Ctx.usePrefix_stopped (c : Ctx) (i : Op) : (c.usePrefix i).stopped = c.stopped := by unfold Ctx.usePrefix; split; exact Ctx.setStat_stopped _ _ _ _; rfl
@[simp] theorem Ctx.usePrefix_missPosl (c : Ctx) (i : Op) : (c.usePrefix i).missPosl = c.missPosl := by unfold Ctx.usePrefix; split; exact Ctx.setStat_missPosl _ _ _ _; rfl
@[simp] theorem Ctx.usePrefix_search (c : Ctx) (i : Op) : (c.usePrefix i).search = c.search := by unfold Ctx.usePrefix; split; exact Ctx.setStat_search _ _ _ _; rfl
@[simp] theorem Ctx.usePrefix_under (c : Ctx) (i : Op) : (c.usePrefix i).under = c.under := by unfold Ctx.usePrefix; split; exact Ctx.setStat_under _ _ _ _; rfl
@[simp] theorem Ctx.usePrefix_cameFrom (c : Ctx) (i : Op) : (c.usePrefix i).cameFrom = c.cameFrom := by unfold Ctx.usePrefix; split; exact Ctx.setStat_cameFrom _ _ _ _; rfl
@[simp] theorem Ctx.usePrefix_released (c : Ctx) (i : Op) : (c.usePrefix i).released = c.released := by unfold Ctx.usePrefix; split; exact Ctx.setStat_released _ _ _ _; rfl
@[simp] theorem Ctx.usePrefix_unserved (c : Ctx) (i : Op) : (c.usePrefix i).unserved = c.unserved := by unfold Ctx.usePrefix; split; exact Ctx.setStat_unserved _ _ _ _; rfl
@[simp] theorem Ctx.usePrefix_wlen (c : Ctx) (i : Op) : (c.usePrefix i).wlen = c.wlen := by unfold Ctx.usePrefix; split; exact Ctx.setStat_wlen _ _ _ _; rfl
@[simp] theorem Ctx.usePrefix_inPre (c : Ctx) (i : Op) : (c.usePrefix i).inPre = c.inPre := by unfold Ctx.usePrefix; split; exact Ctx.setStat_inPre _ _ _ _; rfl
@[simp] theorem Ctx.usePrefix_trapCyc (c : Ctx) (i : Op) : (c.usePrefix i).trapCyc = c.trapCyc := by unfold Ctx.usePrefix; split; exact Ctx.setStat_trapCyc _ _ _ _; rfl
@[simp] theorem Ctx.usePrefix_owedAcq (c : Ctx) (i : Op) : (c.usePrefix i).owedAcq = c.owedAcq := by unfold Ctx.usePrefix; split; exact Ctx.setStat_owedAcq _ _ _ _; rfl
@[simp] theorem Ctx.usePrefix_starter (c : Ctx) (i : Op) : (c.usePrefix i).starter = c.starter := by unfold Ctx.usePrefix; split; exact Ctx.setStat_starter _ _ _ _; rfl
@[simp] theorem Ctx.usePrefix_ops (c : Ctx) (i : Op) : (c.usePrefix i).ops = c.ops := by unfold Ctx.usePrefix; split; exact Ctx.setStat_ops _ _ _ _; rfl
@[simp] theorem Ctx.usePrefix_recalling (c : Ctx) (i : Op) : (c.usePrefix i).recalling = c.recalling := by unfold Ctx.usePrefix; split; exact Ctx.setStat_recalling _ _ _ _; rfl
@[simp] theorem Ctx.usePrefix_atBarrier (c : Ctx) (i : Op) : (c.usePrefix i).atBarrier = c.atBarrier := by unfold Ctx.usePrefix; split; exact Ctx.setStat_atBarrier _ _ _ _; rfl

@[simp] theorem Ctx.homeward_pc (c : Ctx) : c.homeward.pc = c.pc := by unfold Ctx.homeward; split <;> rfl
@[simp] theorem Ctx.homeward_s (c : Ctx) : c.homeward.s = c.s := by unfold Ctx.homeward; split <;> rfl
@[simp] theorem Ctx.homeward_p (c : Ctx) : c.homeward.p = c.p := by unfold Ctx.homeward; split <;> rfl
@[simp] theorem Ctx.homeward_stat (c : Ctx) : c.homeward.stat = c.stat := by unfold Ctx.homeward; split <;> rfl
@[simp] theorem Ctx.homeward_xpc (c : Ctx) : c.homeward.xpc = c.xpc := by unfold Ctx.homeward; split <;> rfl
@[simp] theorem Ctx.homeward_xcause (c : Ctx) : c.homeward.xcause = c.xcause := by unfold Ctx.homeward; split <;> rfl
@[simp] theorem Ctx.homeward_xval (c : Ctx) : c.homeward.xval = c.xval := by unfold Ctx.homeward; split <;> rfl
@[simp] theorem Ctx.homeward_fmtd (c : Ctx) : c.homeward.fmtd = c.fmtd := by unfold Ctx.homeward; split <;> rfl
@[simp] theorem Ctx.homeward_canreq (c : Ctx) : c.homeward.canreq = c.canreq := by unfold Ctx.homeward; split <;> rfl
@[simp] theorem Ctx.homeward_loops (c : Ctx) : c.homeward.loops = c.loops := by unfold Ctx.homeward; split <;> rfl
@[simp] theorem Ctx.homeward_saved (c : Ctx) : c.homeward.saved = c.saved := by unfold Ctx.homeward; split <;> rfl
@[simp] theorem Ctx.homeward_life (c : Ctx) : c.homeward.life = c.life := by unfold Ctx.homeward; split <;> rfl
@[simp] theorem Ctx.homeward_view (c : Ctx) : c.homeward.view = c.view := by unfold Ctx.homeward; split <;> rfl
@[simp] theorem Ctx.homeward_own (c : Ctx) : c.homeward.own = c.own := by unfold Ctx.homeward; split <;> rfl
@[simp] theorem Ctx.homeward_pubs (c : Ctx) : c.homeward.pubs = c.pubs := by unfold Ctx.homeward; split <;> rfl
@[simp] theorem Ctx.homeward_lock (c : Ctx) : c.homeward.lock = c.lock := by unfold Ctx.homeward; split <;> rfl
@[simp] theorem Ctx.homeward_away (c : Ctx) : c.homeward.away = c.away := by unfold Ctx.homeward; split <;> rfl
@[simp] theorem Ctx.homeward_record (c : Ctx) : c.homeward.record = c.record := by unfold Ctx.homeward; split <;> rfl
@[simp] theorem Ctx.homeward_range (c : Ctx) : c.homeward.range = c.range := by unfold Ctx.homeward; split <;> rfl
@[simp] theorem Ctx.homeward_sprets (c : Ctx) : c.homeward.sprets = c.sprets := by unfold Ctx.homeward; split <;> rfl
@[simp] theorem Ctx.homeward_pend (c : Ctx) : c.homeward.pend = c.pend := by unfold Ctx.homeward; split <;> rfl
@[simp] theorem Ctx.homeward_stopped (c : Ctx) : c.homeward.stopped = c.stopped := by unfold Ctx.homeward; split <;> rfl
@[simp] theorem Ctx.homeward_missPosl (c : Ctx) : c.homeward.missPosl = c.missPosl := by unfold Ctx.homeward; split <;> rfl
@[simp] theorem Ctx.homeward_search (c : Ctx) : c.homeward.search = c.search := by unfold Ctx.homeward; split <;> rfl
@[simp] theorem Ctx.homeward_under (c : Ctx) : c.homeward.under = c.under := by unfold Ctx.homeward; split <;> rfl
@[simp] theorem Ctx.homeward_cameFrom (c : Ctx) : c.homeward.cameFrom = c.cameFrom := by unfold Ctx.homeward; split <;> rfl
@[simp] theorem Ctx.homeward_released (c : Ctx) : c.homeward.released = c.released := by unfold Ctx.homeward; split <;> rfl
@[simp] theorem Ctx.homeward_unserved (c : Ctx) : c.homeward.unserved = c.unserved := by unfold Ctx.homeward; split <;> rfl
@[simp] theorem Ctx.homeward_wlen (c : Ctx) : c.homeward.wlen = c.wlen := by unfold Ctx.homeward; split <;> rfl
@[simp] theorem Ctx.homeward_inPre (c : Ctx) : c.homeward.inPre = c.inPre := by unfold Ctx.homeward; split <;> rfl
@[simp] theorem Ctx.homeward_trapCyc (c : Ctx) : c.homeward.trapCyc = c.trapCyc := by unfold Ctx.homeward; split <;> rfl
@[simp] theorem Ctx.homeward_owedAcq (c : Ctx) : c.homeward.owedAcq = c.owedAcq := by unfold Ctx.homeward; split <;> rfl
@[simp] theorem Ctx.homeward_starter (c : Ctx) : c.homeward.starter = c.starter := by unfold Ctx.homeward; split <;> rfl
@[simp] theorem Ctx.homeward_ops (c : Ctx) : c.homeward.ops = c.ops := by unfold Ctx.homeward; split <;> rfl
@[simp] theorem Ctx.homeward_recalling (c : Ctx) : c.homeward.recalling = c.recalling := by unfold Ctx.homeward; split <;> rfl
@[simp] theorem Ctx.homeward_atBarrier (c : Ctx) : c.homeward.atBarrier = c.atBarrier := by unfold Ctx.homeward; split <;> rfl

@[simp] theorem State.setS_mem (s : State) (n : Nat) (w : Word) : (s.setS n w).mem = s.mem := by simp only [State.setS, State.setMe_mem]
@[simp] theorem State.setS_lim (s : State) (n : Nat) (w : Word) : (s.setS n w).lim = s.lim := by simp only [State.setS, State.setMe_lim]
@[simp] theorem State.setS_pubs (s : State) (n : Nat) (w : Word) : (s.setS n w).pubs = s.pubs := by simp only [State.setS, State.setMe_pubs]
@[simp] theorem State.setS_buffers (s : State) (n : Nat) (w : Word) : (s.setS n w).buffers = s.buffers := by simp only [State.setS, State.setMe_buffers]
@[simp] theorem State.setS_poison (s : State) (n : Nat) (w : Word) : (s.setS n w).poison = s.poison := by simp only [State.setS, State.setMe_poison]
@[simp] theorem State.setS_mending (s : State) (n : Nat) (w : Word) : (s.setS n w).mending = s.mending := by simp only [State.setS, State.setMe_mending]
@[simp] theorem State.setS_posts (s : State) (n : Nat) (w : Word) : (s.setS n w).posts = s.posts := by simp only [State.setS, State.setMe_posts]
@[simp] theorem State.setS_cores (s : State) (n : Nat) (w : Word) : (s.setS n w).cores = s.cores := by simp only [State.setS, State.setMe_cores]
@[simp] theorem State.setS_dies (s : State) (n : Nat) (w : Word) : (s.setS n w).dies = s.dies := by simp only [State.setS, State.setMe_dies]
@[simp] theorem State.setS_hfaults (s : State) (n : Nat) (w : Word) : (s.setS n w).hfaults = s.hfaults := by simp only [State.setS, State.setMe_hfaults]
@[simp] theorem State.setS_sysc (s : State) (n : Nat) (w : Word) : (s.setS n w).sysc = s.sysc := by simp only [State.setS, State.setMe_sysc]
@[simp] theorem State.setS_prefs (s : State) (n : Nat) (w : Word) : (s.setS n w).prefs = s.prefs := by simp only [State.setS, State.setMe_prefs]
@[simp] theorem State.setS_prefServices (s : State) (n : Nat) (w : Word) : (s.setS n w).prefServices = s.prefServices := by simp only [State.setS, State.setMe_prefServices]
@[simp] theorem State.setS_bells (s : State) (n : Nat) (w : Word) : (s.setS n w).bells = s.bells := by simp only [State.setS, State.setMe_bells]
@[simp] theorem State.setS_clusters (s : State) (n : Nat) (w : Word) : (s.setS n w).clusters = s.clusters := by simp only [State.setS, State.setMe_clusters]
@[simp] theorem State.setS_launches (s : State) (n : Nat) (w : Word) : (s.setS n w).launches = s.launches := by simp only [State.setS, State.setMe_launches]
@[simp] theorem State.setS_grants (s : State) (n : Nat) (w : Word) : (s.setS n w).grants = s.grants := by simp only [State.setS, State.setMe_grants]
@[simp] theorem State.setS_retiring (s : State) (n : Nat) (w : Word) : (s.setS n w).retiring = s.retiring := by simp only [State.setS, State.setMe_retiring]
@[simp] theorem State.setS_retired (s : State) (n : Nat) (w : Word) : (s.setS n w).retired = s.retired := by simp only [State.setS, State.setMe_retired]
@[simp] theorem State.setS_domains (s : State) (n : Nat) (w : Word) : (s.setS n w).domains = s.domains := by simp only [State.setS, State.setMe_domains]
@[simp] theorem State.setS_images (s : State) (n : Nat) (w : Word) : (s.setS n w).images = s.images := by simp only [State.setS, State.setMe_images]
@[simp] theorem State.setS_reserves (s : State) (n : Nat) (w : Word) : (s.setS n w).reserves = s.reserves := by simp only [State.setS, State.setMe_reserves]
@[simp] theorem State.setS_privs (s : State) (n : Nat) (w : Word) : (s.setS n w).privs = s.privs := by simp only [State.setS, State.setMe_privs]
@[simp] theorem State.setS_pools (s : State) (n : Nat) (w : Word) : (s.setS n w).pools = s.pools := by simp only [State.setS, State.setMe_pools]
@[simp] theorem State.setS_funcs (s : State) (n : Nat) (w : Word) : (s.setS n w).funcs = s.funcs := by simp only [State.setS, State.setMe_funcs]
@[simp] theorem State.setS_vfSplit (s : State) (n : Nat) (w : Word) : (s.setS n w).vfSplit = s.vfSplit := by simp only [State.setS, State.setMe_vfSplit]
@[simp] theorem State.setS_reqs (s : State) (n : Nat) (w : Word) : (s.setS n w).reqs = s.reqs := by simp only [State.setS, State.setMe_reqs]
@[simp] theorem State.setS_hostOut (s : State) (n : Nat) (w : Word) : (s.setS n w).hostOut = s.hostOut := by simp only [State.setS, State.setMe_hostOut]
@[simp] theorem State.setS_hostUp (s : State) (n : Nat) (w : Word) : (s.setS n w).hostUp = s.hostUp := by simp only [State.setS, State.setMe_hostUp]
@[simp] theorem State.setS_hostLost (s : State) (n : Nat) (w : Word) : (s.setS n w).hostLost = s.hostLost := by simp only [State.setS, State.setMe_hostLost]
@[simp] theorem State.setS_aer (s : State) (n : Nat) (w : Word) : (s.setS n w).aer = s.aer := by simp only [State.setS, State.setMe_aer]
@[simp] theorem State.setS_cxlUp (s : State) (n : Nat) (w : Word) : (s.setS n w).cxlUp = s.cxlUp := by simp only [State.setS, State.setMe_cxlUp]
@[simp] theorem State.setS_cxlCap (s : State) (n : Nat) (w : Word) : (s.setS n w).cxlCap = s.cxlCap := by simp only [State.setS, State.setMe_cxlCap]
@[simp] theorem State.setS_vexUp (s : State) (n : Nat) (w : Word) : (s.setS n w).vexUp = s.vexUp := by simp only [State.setS, State.setMe_vexUp]
@[simp] theorem State.setS_discards (s : State) (n : Nat) (w : Word) : (s.setS n w).discards = s.discards := by simp only [State.setS, State.setMe_discards]
@[simp] theorem State.setS_peersLost (s : State) (n : Nat) (w : Word) : (s.setS n w).peersLost = s.peersLost := by simp only [State.setS, State.setMe_peersLost]
@[simp] theorem State.setS_steps (s : State) (n : Nat) (w : Word) : (s.setS n w).steps = s.steps := by simp only [State.setS, State.setMe_steps]
@[simp] theorem State.setS_uet (s : State) (n : Nat) (w : Word) : (s.setS n w).uet = s.uet := by simp only [State.setS, State.setMe_uet]
@[simp] theorem State.setS_vexOut (s : State) (n : Nat) (w : Word) : (s.setS n w).vexOut = s.vexOut := by simp only [State.setS, State.setMe_vexOut]
@[simp] theorem State.setS_ptt (s : State) (n : Nat) (w : Word) : (s.setS n w).ptt = s.ptt := by simp only [State.setS, State.setMe_ptt]
@[simp] theorem State.setS_bounce (s : State) (n : Nat) (w : Word) : (s.setS n w).bounce = s.bounce := by simp only [State.setS, State.setMe_bounce]
@[simp] theorem State.setS_dirty (s : State) (n : Nat) (w : Word) : (s.setS n w).dirty = s.dirty := by simp only [State.setS, State.setMe_dirty]
@[simp] theorem State.setS_migs (s : State) (n : Nat) (w : Word) : (s.setS n w).migs = s.migs := by simp only [State.setS, State.setMe_migs]
@[simp] theorem State.setS_birhiry (s : State) (n : Nat) (w : Word) : (s.setS n w).birhiry = s.birhiry := by simp only [State.setS, State.setMe_birhiry]
@[simp] theorem State.setS_profilers (s : State) (n : Nat) (w : Word) : (s.setS n w).profilers = s.profilers := by simp only [State.setS, State.setMe_profilers]
@[simp] theorem State.setS_cap (s : State) (n : Nat) (w : Word) : (s.setS n w).cap = s.cap := by simp only [State.setS, State.setMe_cap]
@[simp] theorem State.setS_cyc (s : State) (n : Nat) (w : Word) : (s.setS n w).cyc = s.cyc := by simp only [State.setS, State.setMe_cyc]
@[simp] theorem State.setS_pkgid (s : State) (n : Nat) (w : Word) : (s.setS n w).pkgid = s.pkgid := by simp only [State.setS, State.setMe_pkgid]
@[simp] theorem State.setS_meas (s : State) (n : Nat) (w : Word) : (s.setS n w).meas = s.meas := by simp only [State.setS, State.setMe_meas]
@[simp] theorem State.setS_cur (s : State) (n : Nat) (w : Word) : (s.setS n w).cur = s.cur := by simp only [State.setS, State.setMe_cur]
@[simp] theorem State.setS_agenda (s : State) (n : Nat) (w : Word) : (s.setS n w).agenda = s.agenda := by simp only [State.setS, State.setMe_agenda]
@[simp] theorem State.setS_free (s : State) (n : Nat) (w : Word) : (s.setS n w).free = s.free := by simp only [State.setS, State.setMe_free]

@[simp] theorem State.setP_mem (s : State) (n : Nat) (b : Bool) : (s.setP n b).mem = s.mem := by simp only [State.setP, State.setMe_mem]
@[simp] theorem State.setP_lim (s : State) (n : Nat) (b : Bool) : (s.setP n b).lim = s.lim := by simp only [State.setP, State.setMe_lim]
@[simp] theorem State.setP_pubs (s : State) (n : Nat) (b : Bool) : (s.setP n b).pubs = s.pubs := by simp only [State.setP, State.setMe_pubs]
@[simp] theorem State.setP_buffers (s : State) (n : Nat) (b : Bool) : (s.setP n b).buffers = s.buffers := by simp only [State.setP, State.setMe_buffers]
@[simp] theorem State.setP_poison (s : State) (n : Nat) (b : Bool) : (s.setP n b).poison = s.poison := by simp only [State.setP, State.setMe_poison]
@[simp] theorem State.setP_mending (s : State) (n : Nat) (b : Bool) : (s.setP n b).mending = s.mending := by simp only [State.setP, State.setMe_mending]
@[simp] theorem State.setP_posts (s : State) (n : Nat) (b : Bool) : (s.setP n b).posts = s.posts := by simp only [State.setP, State.setMe_posts]
@[simp] theorem State.setP_cores (s : State) (n : Nat) (b : Bool) : (s.setP n b).cores = s.cores := by simp only [State.setP, State.setMe_cores]
@[simp] theorem State.setP_dies (s : State) (n : Nat) (b : Bool) : (s.setP n b).dies = s.dies := by simp only [State.setP, State.setMe_dies]
@[simp] theorem State.setP_hfaults (s : State) (n : Nat) (b : Bool) : (s.setP n b).hfaults = s.hfaults := by simp only [State.setP, State.setMe_hfaults]
@[simp] theorem State.setP_sysc (s : State) (n : Nat) (b : Bool) : (s.setP n b).sysc = s.sysc := by simp only [State.setP, State.setMe_sysc]
@[simp] theorem State.setP_prefs (s : State) (n : Nat) (b : Bool) : (s.setP n b).prefs = s.prefs := by simp only [State.setP, State.setMe_prefs]
@[simp] theorem State.setP_prefServices (s : State) (n : Nat) (b : Bool) : (s.setP n b).prefServices = s.prefServices := by simp only [State.setP, State.setMe_prefServices]
@[simp] theorem State.setP_bells (s : State) (n : Nat) (b : Bool) : (s.setP n b).bells = s.bells := by simp only [State.setP, State.setMe_bells]
@[simp] theorem State.setP_clusters (s : State) (n : Nat) (b : Bool) : (s.setP n b).clusters = s.clusters := by simp only [State.setP, State.setMe_clusters]
@[simp] theorem State.setP_launches (s : State) (n : Nat) (b : Bool) : (s.setP n b).launches = s.launches := by simp only [State.setP, State.setMe_launches]
@[simp] theorem State.setP_grants (s : State) (n : Nat) (b : Bool) : (s.setP n b).grants = s.grants := by simp only [State.setP, State.setMe_grants]
@[simp] theorem State.setP_retiring (s : State) (n : Nat) (b : Bool) : (s.setP n b).retiring = s.retiring := by simp only [State.setP, State.setMe_retiring]
@[simp] theorem State.setP_retired (s : State) (n : Nat) (b : Bool) : (s.setP n b).retired = s.retired := by simp only [State.setP, State.setMe_retired]
@[simp] theorem State.setP_domains (s : State) (n : Nat) (b : Bool) : (s.setP n b).domains = s.domains := by simp only [State.setP, State.setMe_domains]
@[simp] theorem State.setP_images (s : State) (n : Nat) (b : Bool) : (s.setP n b).images = s.images := by simp only [State.setP, State.setMe_images]
@[simp] theorem State.setP_reserves (s : State) (n : Nat) (b : Bool) : (s.setP n b).reserves = s.reserves := by simp only [State.setP, State.setMe_reserves]
@[simp] theorem State.setP_privs (s : State) (n : Nat) (b : Bool) : (s.setP n b).privs = s.privs := by simp only [State.setP, State.setMe_privs]
@[simp] theorem State.setP_pools (s : State) (n : Nat) (b : Bool) : (s.setP n b).pools = s.pools := by simp only [State.setP, State.setMe_pools]
@[simp] theorem State.setP_funcs (s : State) (n : Nat) (b : Bool) : (s.setP n b).funcs = s.funcs := by simp only [State.setP, State.setMe_funcs]
@[simp] theorem State.setP_vfSplit (s : State) (n : Nat) (b : Bool) : (s.setP n b).vfSplit = s.vfSplit := by simp only [State.setP, State.setMe_vfSplit]
@[simp] theorem State.setP_reqs (s : State) (n : Nat) (b : Bool) : (s.setP n b).reqs = s.reqs := by simp only [State.setP, State.setMe_reqs]
@[simp] theorem State.setP_hostOut (s : State) (n : Nat) (b : Bool) : (s.setP n b).hostOut = s.hostOut := by simp only [State.setP, State.setMe_hostOut]
@[simp] theorem State.setP_hostUp (s : State) (n : Nat) (b : Bool) : (s.setP n b).hostUp = s.hostUp := by simp only [State.setP, State.setMe_hostUp]
@[simp] theorem State.setP_hostLost (s : State) (n : Nat) (b : Bool) : (s.setP n b).hostLost = s.hostLost := by simp only [State.setP, State.setMe_hostLost]
@[simp] theorem State.setP_aer (s : State) (n : Nat) (b : Bool) : (s.setP n b).aer = s.aer := by simp only [State.setP, State.setMe_aer]
@[simp] theorem State.setP_cxlUp (s : State) (n : Nat) (b : Bool) : (s.setP n b).cxlUp = s.cxlUp := by simp only [State.setP, State.setMe_cxlUp]
@[simp] theorem State.setP_cxlCap (s : State) (n : Nat) (b : Bool) : (s.setP n b).cxlCap = s.cxlCap := by simp only [State.setP, State.setMe_cxlCap]
@[simp] theorem State.setP_vexUp (s : State) (n : Nat) (b : Bool) : (s.setP n b).vexUp = s.vexUp := by simp only [State.setP, State.setMe_vexUp]
@[simp] theorem State.setP_discards (s : State) (n : Nat) (b : Bool) : (s.setP n b).discards = s.discards := by simp only [State.setP, State.setMe_discards]
@[simp] theorem State.setP_peersLost (s : State) (n : Nat) (b : Bool) : (s.setP n b).peersLost = s.peersLost := by simp only [State.setP, State.setMe_peersLost]
@[simp] theorem State.setP_steps (s : State) (n : Nat) (b : Bool) : (s.setP n b).steps = s.steps := by simp only [State.setP, State.setMe_steps]
@[simp] theorem State.setP_uet (s : State) (n : Nat) (b : Bool) : (s.setP n b).uet = s.uet := by simp only [State.setP, State.setMe_uet]
@[simp] theorem State.setP_vexOut (s : State) (n : Nat) (b : Bool) : (s.setP n b).vexOut = s.vexOut := by simp only [State.setP, State.setMe_vexOut]
@[simp] theorem State.setP_ptt (s : State) (n : Nat) (b : Bool) : (s.setP n b).ptt = s.ptt := by simp only [State.setP, State.setMe_ptt]
@[simp] theorem State.setP_bounce (s : State) (n : Nat) (b : Bool) : (s.setP n b).bounce = s.bounce := by simp only [State.setP, State.setMe_bounce]
@[simp] theorem State.setP_dirty (s : State) (n : Nat) (b : Bool) : (s.setP n b).dirty = s.dirty := by simp only [State.setP, State.setMe_dirty]
@[simp] theorem State.setP_migs (s : State) (n : Nat) (b : Bool) : (s.setP n b).migs = s.migs := by simp only [State.setP, State.setMe_migs]
@[simp] theorem State.setP_birhiry (s : State) (n : Nat) (b : Bool) : (s.setP n b).birhiry = s.birhiry := by simp only [State.setP, State.setMe_birhiry]
@[simp] theorem State.setP_profilers (s : State) (n : Nat) (b : Bool) : (s.setP n b).profilers = s.profilers := by simp only [State.setP, State.setMe_profilers]
@[simp] theorem State.setP_cap (s : State) (n : Nat) (b : Bool) : (s.setP n b).cap = s.cap := by simp only [State.setP, State.setMe_cap]
@[simp] theorem State.setP_cyc (s : State) (n : Nat) (b : Bool) : (s.setP n b).cyc = s.cyc := by simp only [State.setP, State.setMe_cyc]
@[simp] theorem State.setP_pkgid (s : State) (n : Nat) (b : Bool) : (s.setP n b).pkgid = s.pkgid := by simp only [State.setP, State.setMe_pkgid]
@[simp] theorem State.setP_meas (s : State) (n : Nat) (b : Bool) : (s.setP n b).meas = s.meas := by simp only [State.setP, State.setMe_meas]
@[simp] theorem State.setP_cur (s : State) (n : Nat) (b : Bool) : (s.setP n b).cur = s.cur := by simp only [State.setP, State.setMe_cur]
@[simp] theorem State.setP_agenda (s : State) (n : Nat) (b : Bool) : (s.setP n b).agenda = s.agenda := by simp only [State.setP, State.setMe_agenda]
@[simp] theorem State.setP_free (s : State) (n : Nat) (b : Bool) : (s.setP n b).free = s.free := by simp only [State.setP, State.setMe_free]

@[simp] theorem State.after_mem (s : State) (i : Op) (len : Nat) : (s.after i len).mem = s.mem := by simp only [State.after, State.setMe_mem]
@[simp] theorem State.after_lim (s : State) (i : Op) (len : Nat) : (s.after i len).lim = s.lim := by simp only [State.after, State.setMe_lim]
@[simp] theorem State.after_pubs (s : State) (i : Op) (len : Nat) : (s.after i len).pubs = s.pubs := by simp only [State.after, State.setMe_pubs]
@[simp] theorem State.after_buffers (s : State) (i : Op) (len : Nat) : (s.after i len).buffers = s.buffers := by simp only [State.after, State.setMe_buffers]
@[simp] theorem State.after_poison (s : State) (i : Op) (len : Nat) : (s.after i len).poison = s.poison := by simp only [State.after, State.setMe_poison]
@[simp] theorem State.after_mending (s : State) (i : Op) (len : Nat) : (s.after i len).mending = s.mending := by simp only [State.after, State.setMe_mending]
@[simp] theorem State.after_posts (s : State) (i : Op) (len : Nat) : (s.after i len).posts = s.posts := by simp only [State.after, State.setMe_posts]
@[simp] theorem State.after_cores (s : State) (i : Op) (len : Nat) : (s.after i len).cores = s.cores := by simp only [State.after, State.setMe_cores]
@[simp] theorem State.after_dies (s : State) (i : Op) (len : Nat) : (s.after i len).dies = s.dies := by simp only [State.after, State.setMe_dies]
@[simp] theorem State.after_hfaults (s : State) (i : Op) (len : Nat) : (s.after i len).hfaults = s.hfaults := by simp only [State.after, State.setMe_hfaults]
@[simp] theorem State.after_sysc (s : State) (i : Op) (len : Nat) : (s.after i len).sysc = s.sysc := by simp only [State.after, State.setMe_sysc]
@[simp] theorem State.after_prefs (s : State) (i : Op) (len : Nat) : (s.after i len).prefs = s.prefs := by simp only [State.after, State.setMe_prefs]
@[simp] theorem State.after_prefServices (s : State) (i : Op) (len : Nat) : (s.after i len).prefServices = s.prefServices := by simp only [State.after, State.setMe_prefServices]
@[simp] theorem State.after_bells (s : State) (i : Op) (len : Nat) : (s.after i len).bells = s.bells := by simp only [State.after, State.setMe_bells]
@[simp] theorem State.after_clusters (s : State) (i : Op) (len : Nat) : (s.after i len).clusters = s.clusters := by simp only [State.after, State.setMe_clusters]
@[simp] theorem State.after_launches (s : State) (i : Op) (len : Nat) : (s.after i len).launches = s.launches := by simp only [State.after, State.setMe_launches]
@[simp] theorem State.after_grants (s : State) (i : Op) (len : Nat) : (s.after i len).grants = s.grants := by simp only [State.after, State.setMe_grants]
@[simp] theorem State.after_retiring (s : State) (i : Op) (len : Nat) : (s.after i len).retiring = s.retiring := by simp only [State.after, State.setMe_retiring]
@[simp] theorem State.after_retired (s : State) (i : Op) (len : Nat) : (s.after i len).retired = s.retired := by simp only [State.after, State.setMe_retired]
@[simp] theorem State.after_domains (s : State) (i : Op) (len : Nat) : (s.after i len).domains = s.domains := by simp only [State.after, State.setMe_domains]
@[simp] theorem State.after_images (s : State) (i : Op) (len : Nat) : (s.after i len).images = s.images := by simp only [State.after, State.setMe_images]
@[simp] theorem State.after_reserves (s : State) (i : Op) (len : Nat) : (s.after i len).reserves = s.reserves := by simp only [State.after, State.setMe_reserves]
@[simp] theorem State.after_privs (s : State) (i : Op) (len : Nat) : (s.after i len).privs = s.privs := by simp only [State.after, State.setMe_privs]
@[simp] theorem State.after_pools (s : State) (i : Op) (len : Nat) : (s.after i len).pools = s.pools := by simp only [State.after, State.setMe_pools]
@[simp] theorem State.after_funcs (s : State) (i : Op) (len : Nat) : (s.after i len).funcs = s.funcs := by simp only [State.after, State.setMe_funcs]
@[simp] theorem State.after_vfSplit (s : State) (i : Op) (len : Nat) : (s.after i len).vfSplit = s.vfSplit := by simp only [State.after, State.setMe_vfSplit]
@[simp] theorem State.after_reqs (s : State) (i : Op) (len : Nat) : (s.after i len).reqs = s.reqs := by simp only [State.after, State.setMe_reqs]
@[simp] theorem State.after_hostOut (s : State) (i : Op) (len : Nat) : (s.after i len).hostOut = s.hostOut := by simp only [State.after, State.setMe_hostOut]
@[simp] theorem State.after_hostUp (s : State) (i : Op) (len : Nat) : (s.after i len).hostUp = s.hostUp := by simp only [State.after, State.setMe_hostUp]
@[simp] theorem State.after_hostLost (s : State) (i : Op) (len : Nat) : (s.after i len).hostLost = s.hostLost := by simp only [State.after, State.setMe_hostLost]
@[simp] theorem State.after_aer (s : State) (i : Op) (len : Nat) : (s.after i len).aer = s.aer := by simp only [State.after, State.setMe_aer]
@[simp] theorem State.after_cxlUp (s : State) (i : Op) (len : Nat) : (s.after i len).cxlUp = s.cxlUp := by simp only [State.after, State.setMe_cxlUp]
@[simp] theorem State.after_cxlCap (s : State) (i : Op) (len : Nat) : (s.after i len).cxlCap = s.cxlCap := by simp only [State.after, State.setMe_cxlCap]
@[simp] theorem State.after_vexUp (s : State) (i : Op) (len : Nat) : (s.after i len).vexUp = s.vexUp := by simp only [State.after, State.setMe_vexUp]
@[simp] theorem State.after_discards (s : State) (i : Op) (len : Nat) : (s.after i len).discards = s.discards := by simp only [State.after, State.setMe_discards]
@[simp] theorem State.after_peersLost (s : State) (i : Op) (len : Nat) : (s.after i len).peersLost = s.peersLost := by simp only [State.after, State.setMe_peersLost]
@[simp] theorem State.after_steps (s : State) (i : Op) (len : Nat) : (s.after i len).steps = s.steps := by simp only [State.after, State.setMe_steps]
@[simp] theorem State.after_uet (s : State) (i : Op) (len : Nat) : (s.after i len).uet = s.uet := by simp only [State.after, State.setMe_uet]
@[simp] theorem State.after_vexOut (s : State) (i : Op) (len : Nat) : (s.after i len).vexOut = s.vexOut := by simp only [State.after, State.setMe_vexOut]
@[simp] theorem State.after_ptt (s : State) (i : Op) (len : Nat) : (s.after i len).ptt = s.ptt := by simp only [State.after, State.setMe_ptt]
@[simp] theorem State.after_bounce (s : State) (i : Op) (len : Nat) : (s.after i len).bounce = s.bounce := by simp only [State.after, State.setMe_bounce]
@[simp] theorem State.after_dirty (s : State) (i : Op) (len : Nat) : (s.after i len).dirty = s.dirty := by simp only [State.after, State.setMe_dirty]
@[simp] theorem State.after_migs (s : State) (i : Op) (len : Nat) : (s.after i len).migs = s.migs := by simp only [State.after, State.setMe_migs]
@[simp] theorem State.after_birhiry (s : State) (i : Op) (len : Nat) : (s.after i len).birhiry = s.birhiry := by simp only [State.after, State.setMe_birhiry]
@[simp] theorem State.after_profilers (s : State) (i : Op) (len : Nat) : (s.after i len).profilers = s.profilers := by simp only [State.after, State.setMe_profilers]
@[simp] theorem State.after_cap (s : State) (i : Op) (len : Nat) : (s.after i len).cap = s.cap := by simp only [State.after, State.setMe_cap]
@[simp] theorem State.after_cyc (s : State) (i : Op) (len : Nat) : (s.after i len).cyc = s.cyc := by simp only [State.after, State.setMe_cyc]
@[simp] theorem State.after_pkgid (s : State) (i : Op) (len : Nat) : (s.after i len).pkgid = s.pkgid := by simp only [State.after, State.setMe_pkgid]
@[simp] theorem State.after_meas (s : State) (i : Op) (len : Nat) : (s.after i len).meas = s.meas := by simp only [State.after, State.setMe_meas]
@[simp] theorem State.after_cur (s : State) (i : Op) (len : Nat) : (s.after i len).cur = s.cur := by simp only [State.after, State.setMe_cur]
@[simp] theorem State.after_agenda (s : State) (i : Op) (len : Nat) : (s.after i len).agenda = s.agenda := by simp only [State.after, State.setMe_agenda]
@[simp] theorem State.after_free (s : State) (i : Op) (len : Nat) : (s.after i len).free = s.free := by simp only [State.after, State.setMe_free]

@[simp] theorem State.jumped_mem (s : State) (i : Op) (t : Word) : (s.jumped i t).mem = s.mem := by simp only [State.jumped, State.setMe_mem]
@[simp] theorem State.jumped_lim (s : State) (i : Op) (t : Word) : (s.jumped i t).lim = s.lim := by simp only [State.jumped, State.setMe_lim]
@[simp] theorem State.jumped_pubs (s : State) (i : Op) (t : Word) : (s.jumped i t).pubs = s.pubs := by simp only [State.jumped, State.setMe_pubs]
@[simp] theorem State.jumped_buffers (s : State) (i : Op) (t : Word) : (s.jumped i t).buffers = s.buffers := by simp only [State.jumped, State.setMe_buffers]
@[simp] theorem State.jumped_poison (s : State) (i : Op) (t : Word) : (s.jumped i t).poison = s.poison := by simp only [State.jumped, State.setMe_poison]
@[simp] theorem State.jumped_mending (s : State) (i : Op) (t : Word) : (s.jumped i t).mending = s.mending := by simp only [State.jumped, State.setMe_mending]
@[simp] theorem State.jumped_posts (s : State) (i : Op) (t : Word) : (s.jumped i t).posts = s.posts := by simp only [State.jumped, State.setMe_posts]
@[simp] theorem State.jumped_cores (s : State) (i : Op) (t : Word) : (s.jumped i t).cores = s.cores := by simp only [State.jumped, State.setMe_cores]
@[simp] theorem State.jumped_dies (s : State) (i : Op) (t : Word) : (s.jumped i t).dies = s.dies := by simp only [State.jumped, State.setMe_dies]
@[simp] theorem State.jumped_hfaults (s : State) (i : Op) (t : Word) : (s.jumped i t).hfaults = s.hfaults := by simp only [State.jumped, State.setMe_hfaults]
@[simp] theorem State.jumped_sysc (s : State) (i : Op) (t : Word) : (s.jumped i t).sysc = s.sysc := by simp only [State.jumped, State.setMe_sysc]
@[simp] theorem State.jumped_prefs (s : State) (i : Op) (t : Word) : (s.jumped i t).prefs = s.prefs := by simp only [State.jumped, State.setMe_prefs]
@[simp] theorem State.jumped_prefServices (s : State) (i : Op) (t : Word) : (s.jumped i t).prefServices = s.prefServices := by simp only [State.jumped, State.setMe_prefServices]
@[simp] theorem State.jumped_bells (s : State) (i : Op) (t : Word) : (s.jumped i t).bells = s.bells := by simp only [State.jumped, State.setMe_bells]
@[simp] theorem State.jumped_clusters (s : State) (i : Op) (t : Word) : (s.jumped i t).clusters = s.clusters := by simp only [State.jumped, State.setMe_clusters]
@[simp] theorem State.jumped_launches (s : State) (i : Op) (t : Word) : (s.jumped i t).launches = s.launches := by simp only [State.jumped, State.setMe_launches]
@[simp] theorem State.jumped_grants (s : State) (i : Op) (t : Word) : (s.jumped i t).grants = s.grants := by simp only [State.jumped, State.setMe_grants]
@[simp] theorem State.jumped_retiring (s : State) (i : Op) (t : Word) : (s.jumped i t).retiring = s.retiring := by simp only [State.jumped, State.setMe_retiring]
@[simp] theorem State.jumped_retired (s : State) (i : Op) (t : Word) : (s.jumped i t).retired = s.retired := by simp only [State.jumped, State.setMe_retired]
@[simp] theorem State.jumped_domains (s : State) (i : Op) (t : Word) : (s.jumped i t).domains = s.domains := by simp only [State.jumped, State.setMe_domains]
@[simp] theorem State.jumped_images (s : State) (i : Op) (t : Word) : (s.jumped i t).images = s.images := by simp only [State.jumped, State.setMe_images]
@[simp] theorem State.jumped_reserves (s : State) (i : Op) (t : Word) : (s.jumped i t).reserves = s.reserves := by simp only [State.jumped, State.setMe_reserves]
@[simp] theorem State.jumped_privs (s : State) (i : Op) (t : Word) : (s.jumped i t).privs = s.privs := by simp only [State.jumped, State.setMe_privs]
@[simp] theorem State.jumped_pools (s : State) (i : Op) (t : Word) : (s.jumped i t).pools = s.pools := by simp only [State.jumped, State.setMe_pools]
@[simp] theorem State.jumped_funcs (s : State) (i : Op) (t : Word) : (s.jumped i t).funcs = s.funcs := by simp only [State.jumped, State.setMe_funcs]
@[simp] theorem State.jumped_vfSplit (s : State) (i : Op) (t : Word) : (s.jumped i t).vfSplit = s.vfSplit := by simp only [State.jumped, State.setMe_vfSplit]
@[simp] theorem State.jumped_reqs (s : State) (i : Op) (t : Word) : (s.jumped i t).reqs = s.reqs := by simp only [State.jumped, State.setMe_reqs]
@[simp] theorem State.jumped_hostOut (s : State) (i : Op) (t : Word) : (s.jumped i t).hostOut = s.hostOut := by simp only [State.jumped, State.setMe_hostOut]
@[simp] theorem State.jumped_hostUp (s : State) (i : Op) (t : Word) : (s.jumped i t).hostUp = s.hostUp := by simp only [State.jumped, State.setMe_hostUp]
@[simp] theorem State.jumped_hostLost (s : State) (i : Op) (t : Word) : (s.jumped i t).hostLost = s.hostLost := by simp only [State.jumped, State.setMe_hostLost]
@[simp] theorem State.jumped_aer (s : State) (i : Op) (t : Word) : (s.jumped i t).aer = s.aer := by simp only [State.jumped, State.setMe_aer]
@[simp] theorem State.jumped_cxlUp (s : State) (i : Op) (t : Word) : (s.jumped i t).cxlUp = s.cxlUp := by simp only [State.jumped, State.setMe_cxlUp]
@[simp] theorem State.jumped_cxlCap (s : State) (i : Op) (t : Word) : (s.jumped i t).cxlCap = s.cxlCap := by simp only [State.jumped, State.setMe_cxlCap]
@[simp] theorem State.jumped_vexUp (s : State) (i : Op) (t : Word) : (s.jumped i t).vexUp = s.vexUp := by simp only [State.jumped, State.setMe_vexUp]
@[simp] theorem State.jumped_discards (s : State) (i : Op) (t : Word) : (s.jumped i t).discards = s.discards := by simp only [State.jumped, State.setMe_discards]
@[simp] theorem State.jumped_peersLost (s : State) (i : Op) (t : Word) : (s.jumped i t).peersLost = s.peersLost := by simp only [State.jumped, State.setMe_peersLost]
@[simp] theorem State.jumped_steps (s : State) (i : Op) (t : Word) : (s.jumped i t).steps = s.steps := by simp only [State.jumped, State.setMe_steps]
@[simp] theorem State.jumped_uet (s : State) (i : Op) (t : Word) : (s.jumped i t).uet = s.uet := by simp only [State.jumped, State.setMe_uet]
@[simp] theorem State.jumped_vexOut (s : State) (i : Op) (t : Word) : (s.jumped i t).vexOut = s.vexOut := by simp only [State.jumped, State.setMe_vexOut]
@[simp] theorem State.jumped_ptt (s : State) (i : Op) (t : Word) : (s.jumped i t).ptt = s.ptt := by simp only [State.jumped, State.setMe_ptt]
@[simp] theorem State.jumped_bounce (s : State) (i : Op) (t : Word) : (s.jumped i t).bounce = s.bounce := by simp only [State.jumped, State.setMe_bounce]
@[simp] theorem State.jumped_dirty (s : State) (i : Op) (t : Word) : (s.jumped i t).dirty = s.dirty := by simp only [State.jumped, State.setMe_dirty]
@[simp] theorem State.jumped_migs (s : State) (i : Op) (t : Word) : (s.jumped i t).migs = s.migs := by simp only [State.jumped, State.setMe_migs]
@[simp] theorem State.jumped_birhiry (s : State) (i : Op) (t : Word) : (s.jumped i t).birhiry = s.birhiry := by simp only [State.jumped, State.setMe_birhiry]
@[simp] theorem State.jumped_profilers (s : State) (i : Op) (t : Word) : (s.jumped i t).profilers = s.profilers := by simp only [State.jumped, State.setMe_profilers]
@[simp] theorem State.jumped_cap (s : State) (i : Op) (t : Word) : (s.jumped i t).cap = s.cap := by simp only [State.jumped, State.setMe_cap]
@[simp] theorem State.jumped_cyc (s : State) (i : Op) (t : Word) : (s.jumped i t).cyc = s.cyc := by simp only [State.jumped, State.setMe_cyc]
@[simp] theorem State.jumped_pkgid (s : State) (i : Op) (t : Word) : (s.jumped i t).pkgid = s.pkgid := by simp only [State.jumped, State.setMe_pkgid]
@[simp] theorem State.jumped_meas (s : State) (i : Op) (t : Word) : (s.jumped i t).meas = s.meas := by simp only [State.jumped, State.setMe_meas]
@[simp] theorem State.jumped_cur (s : State) (i : Op) (t : Word) : (s.jumped i t).cur = s.cur := by simp only [State.jumped, State.setMe_cur]
@[simp] theorem State.jumped_agenda (s : State) (i : Op) (t : Word) : (s.jumped i t).agenda = s.agenda := by simp only [State.jumped, State.setMe_agenda]
@[simp] theorem State.jumped_free (s : State) (i : Op) (t : Word) : (s.jumped i t).free = s.free := by simp only [State.jumped, State.setMe_free]

end Sys2Proof.Machine
end

