-- ==== Sys2Proof/Laws/Memory.lean ====
section
/-! SUPPORT. The laws of memory: a read after a write, bytes outside a write, and the canonical form that every memory
operation keeps. -/

namespace Sys2Proof.Machine

/-- A byte reads what was written to it. -/
@[simp] theorem readByte_writeByte_same (m : Tab Byte) (l : Nat) (b : Byte) : readByte (writeByte m l b) l = b := by
  simp [readByte, writeByte]

/-- A write of a byte leaves every other byte alone. -/
theorem readByte_writeByte_ne (m : Tab Byte) {l a : Nat} (b : Byte) (h : a ≠ l) :
    readByte (writeByte m l b) a = readByte m a := tget_tput_ne 0 0 m b h

/-- A write of bytes leaves every byte outside them alone. -/
theorem readByte_writeBytes_out (m : Tab Byte) (l : Nat) (bs : List Byte) (a : Nat) (h : a < l ∨ l + bs.length ≤ a) :
    readByte (writeBytes m l bs) a = readByte m a := by
  induction bs generalizing m l with
  | nil => rfl
  | cons b bs ih =>
    simp only [List.length_cons] at h
    rw [writeBytes, ih _ _ (by omega), readByte_writeByte_ne _ _ (by omega)]

/-- A byte inside a write reads the byte written there. -/
theorem readByte_writeBytes_in (m : Tab Byte) (l : Nat) (bs : List Byte) (i : Nat) (h : i < bs.length) :
    readByte (writeBytes m l bs) (l + i) = bs[i] := by
  induction bs generalizing m l i with
  | nil => simp at h
  | cons b bs ih =>
    cases i with
    | zero => rw [writeBytes, readByte_writeBytes_out _ _ _ _ (by omega)]; simp
    | succ i =>
      have := ih (writeByte m l b) (l + 1) i (by simpa using h)
      simpa [writeBytes, Nat.add_comm, Nat.add_left_comm] using this

/-- Bytes read what was written to them. -/
theorem readBytes_writeBytes (m : Tab Byte) (l : Nat) (bs : List Byte) : readBytes (writeBytes m l bs) l bs.length = bs := by
  have h : ∀ n i, n + i = bs.length → readBytes (writeBytes m l bs) (l + i) n = bs.drop i := by
    intro n
    induction n with
    | zero => intro i hi; simp at hi; simp [readBytes, hi]
    | succ n ih =>
      intro i hi
      rw [readBytes, readByte_writeBytes_in _ _ _ _ (by omega), Nat.add_assoc, ih (i + 1) (by omega),
        ← List.drop_eq_getElem_cons]
  simpa using h bs.length 0 rfl

/-! ## The canonical form -/

theorem wf_writeByte (m : Tab Byte) (l : Nat) (b : Byte) (w : Memory.wf m = true) : Memory.wf (writeByte m l b) = true :=
  twf_tput 0 m l b w

theorem wf_writeBytes (m : Tab Byte) (l : Nat) (bs : List Byte) (w : Memory.wf m = true) :
    Memory.wf (writeBytes m l bs) = true := by
  induction bs generalizing m l with
  | nil => exact w
  | cons b bs ih => exact ih _ _ (wf_writeByte m l b w)

theorem wf_writeNat (m : Tab Byte) (l n v : Nat) (w : Memory.wf m = true) : Memory.wf (writeNat m l n v) = true :=
  wf_writeBytes m l _ w

theorem State.wf_poke (s : State) (l : Nat) (bs : List Byte) (w : Memory.wf s.mem = true) :
    Memory.wf (s.poke l bs).mem = true := wf_writeBytes s.mem l bs w

theorem State.wf_markDirty (s : State) (pte : Nat) (w : Memory.wf s.mem = true) : Memory.wf (s.markDirty pte).mem = true := by
  unfold State.markDirty
  split
  · exact w
  · exact wf_writeByte _ _ _ w

@[simp] theorem State.mem_markFrame (s : State) (f l : Nat) : (s.markFrame f l).mem = s.mem := by
  unfold State.markFrame; split <;> rfl

@[simp] theorem State.mem_noteDirty (s : State) (cid l : Nat) : (s.noteDirty cid l).mem = s.mem := s.mem_markFrame _ _

/-- What each step of a fold leaves alone, the fold leaves alone. -/
theorem foldl_same {σ β γ : Type} (g : σ → γ) (f : σ → β → σ) (l : List β) (h : ∀ s x, g (f s x) = g s) (s : σ) : g (l.foldl f s) = g s := by
  induction l generalizing s with
  | nil => rfl
  | cons x l ih => exact (ih _).trans (h s x)

/-- A property that each step of a fold keeps, the fold keeps. -/
theorem foldl_keeps {σ β : Type} (P : σ → Prop) (f : σ → β → σ) (l : List β) (h : ∀ s x, P s → P (f s x)) (s : σ) (w : P s) :
    P (l.foldl f s) := by
  induction l generalizing s with
  | nil => exact w
  | cons x l ih => exact ih _ (h s x w)

@[simp] theorem State.mem_trimHeld (s : State) (cid : Nat) : (s.trimHeld cid).mem = s.mem := by
  unfold State.trimHeld
  exact foldl_same State.mem _ _ (fun t d => by split <;> rfl) _

/-- Performing one byte keeps the canonical form. -/
theorem State.wf_publishByte (cid scope num : Nat) (s : State) (o : OwnByte) (w : Memory.wf s.mem = true) :
    Memory.wf (State.publishByte cid scope num s o).mem = true := by
  simp only [State.publishByte, State.mem_noteDirty]
  apply State.wf_markDirty
  have h := s.wf_poke o.loc [o.val] w
  split <;> exact h

/-- Publishing bytes keeps the canonical form. -/
theorem State.wf_publish (s : State) (cid scope : Nat) (os : List OwnByte) (w : Memory.wf s.mem = true) :
    Memory.wf (s.publish cid scope os).mem = true := by
  simp only [State.publish, State.mem_trimHeld]
  exact foldl_keeps (fun t : State => Memory.wf t.mem = true) _ _ (fun t o h => State.wf_publishByte cid scope s.pubs t o h) _ w

@[simp] theorem State.mem_acquireAll (s : State) (cid : Nat) : (s.acquireAll cid).mem = s.mem := rfl
@[simp] theorem State.mem_acquireAt (s : State) (cid : Nat) (ls : List (Nat × Nat)) : (s.acquireAt cid ls).mem = s.mem := rfl

theorem State.wf_wipe (s : State) (a n : Nat) (w : Memory.wf s.mem = true) : Memory.wf (s.wipe a n).mem = true :=
  twf_filter 0 _ s.mem w

/-- Installing a leaf keeps the canonical form. -/
theorem State.wf_install (s : State) (wipes : List (Nat × Nat)) (writes : List (Nat × Nat × Nat))
    (w : Memory.wf s.mem = true) : Memory.wf (s.install wipes writes).mem = true := by
  unfold State.install
  refine foldl_keeps (fun t : State => Memory.wf t.mem = true) _ _ ?_ _ ?_
  · exact fun t x h => t.wf_poke _ _ h
  · exact foldl_keeps (fun t : State => Memory.wf t.mem = true) _ _ (fun t x h => t.wf_wipe _ _ h) _ w

/-- A poke at a location leaves every byte outside it alone. -/
theorem State.readByte_poke_out (s : State) (l : Nat) (bs : List Byte) (a : Nat) (h : a < l ∨ l + bs.length ≤ a) :
    readByte (s.poke l bs).mem a = readByte s.mem a := readByte_writeBytes_out s.mem l bs a h

end Sys2Proof.Machine
end

