-- ==== Sys2Proof/Laws/Ops.lean ====
section
/-! SUPPORT. One lemma for each shared operation: what issuing, retiring, trapping and a watched access can do. -/

namespace Sys2Proof.Machine

/-- Issuing an instruction that takes its effect is carrying out what its body answers. -/
theorem issue_goes {i : Op} {h : Hdr} {o : Ops} {home : Bool} {s : State} (len : Nat) (body : State → Act)
    (g : Goes i h o home s) : issue i h len o.k home [o.a, o.b, o.c] (dynReject i o) body s = finish i len s.me.pc (body s) := by
  obtain ⟨g1, g2, g3, g4, g5, g6, g7⟩ := g
  unfold issue
  simp only [g1, g3, g4, g5, g6, g7]
  rcases g2 with g2 | g2 <;> simp [g2]

/-- No constant-window word is flawed where no operand names one. -/
theorem State.badConst_none (s : State) (as : List Arg) (h : ∀ a ∈ as, a.isCw = false) : s.badConst as = none := by
  unfold State.badConst
  rw [List.findSome?_eq_none_iff]
  intro a ha
  have := h a ha
  cases a <;> simp_all [Arg.isCw]

/-- Issuing an instruction of a format without operands. -/
theorem issue_goesPlain {i : Op} {h : Hdr} {home : Bool} {s : State} (len : Nat) (body : State → Act)
    (hv : vectorUnit i = false) (hp : privileged i 0 s.cur s.me = false) (g : GoesPlain i h home s) :
    issue i h len 0 home [] (fun _ => none) body s = finish i len s.me.pc (body s) := by
  obtain ⟨g1, g2, g3, g4⟩ := g
  unfold issue
  simp only [g1, g3, g4, hv, hp, s.badConst_none [] (by simp)]
  rcases g2 with g2 | g2 <;> simp [g2]

/-- Everything that issuing can do: nothing, go home, a cause of R204, a flawed constant word, or the body's act. -/
theorem issue_cases (i : Op) (h : Hdr) (len k : Nat) (home : Bool) (as : List Arg) (dyn : State → Option Reject) (body : State → Act)
    (s : State) :
    issue i h len k home as dyn body s = .next s ∨
    (s.me.away ≠ none ∧ home = true ∧ issue i h len k home as dyn body s = .next (s.setMe { s.me with wait := .returning })) ∨
    (∃ r, stateReject i (dyn s) s.cur s.me = some r ∧
      issue i h len k home as dyn body s = .next (s.takeTrap s.cur .exact 0x01 (len / 4) s.me.pc (word r.code))) ∨
    (privileged i k s.cur s.me = true ∧
      issue i h len k home as dyn body s = .next (s.takeTrap s.cur .exact 0x03 (len / 4) s.me.pc (privVal i k))) ∨
    (s.me.predicate h = false ∧ issue i h len k home as dyn body s = .next (s.after i len)) ∨
    (∃ n, s.badConst as = some n ∧ issue i h len k home as dyn body s =
      .next (s.takeTrap s.cur .exact 0x19 (len / 4) s.me.pc (word (0xF1 * 2 ^ 56 + coreNo s.cur * 2 ^ 36 + 8 * n)))) ∨
    (s.me.ready = true ∧ stateReject i (dyn s) s.cur s.me = none ∧ privileged i k s.cur s.me = false ∧
      s.me.predicate h = true ∧ s.badConst as = none ∧ issue i h len k home as dyn body s = finish i len s.me.pc (body s)) := by
  unfold issue
  dsimp only
  split
  · exact .inl rfl
  · rename_i h1
    split
    · rename_i h2
      simp at h2
      exact .inr (.inl ⟨h2.1, h2.2, rfl⟩)
    · split
      · rename_i r hr
        exact .inr (.inr (.inl ⟨r, hr, rfl⟩))
      · rename_i hr
        split
        · rename_i hp
          exact .inr (.inr (.inr (.inl ⟨hp, rfl⟩)))
        · rename_i hp
          split
          · rename_i hq
            exact .inr (.inr (.inr (.inr (.inl ⟨by simpa using hq, rfl⟩))))
          · rename_i hq
            split
            · exact .inl rfl
            · split
              · rename_i n hn
                exact .inr (.inr (.inr (.inr (.inr (.inl ⟨n, hn, rfl⟩)))))
              · rename_i hn
                exact .inr (.inr (.inr (.inr (.inr (.inr ⟨by simpa using h1, hr, by simpa using hp, by simpa using hq, hn, rfl⟩)))))

@[simp] theorem finish_retire (i : Op) (len : Nat) (pc : Word) (s : State) : finish i len pc (.retire s) = .next (s.after i len) := rfl
@[simp] theorem finish_jump (i : Op) (len : Nat) (pc t : Word) (s : State) : finish i len pc (.jump s t) = .next (s.jumped i t) := rfl
@[simp] theorem finish_trap (i : Op) (len c : Nat) (pc v : Word) (s : State) :
    finish i len pc (.trap s c v) = .next (s.takeTrap s.cur .exact c (len / 4) pc v) := rfl

/-- The issuing context after an instruction has retired in sequence. -/
theorem State.after_me (s : State) (i : Op) (len : Nat) :
    (s.after i len).me = ((s.me.usePrefix i).advance len).homeward := State.me_setMe _ _

/-- The issuing context after a transfer of control. -/
theorem State.jumped_me (s : State) (i : Op) (t : Word) : (s.jumped i t).me = ((s.me.usePrefix i).jump t).homeward :=
  State.me_setMe _ _

/-- Retirement leaves every other context alone. -/
theorem State.after_ctx_ne (s : State) (i : Op) (len : Nat) {d : Nat} (h : d ≠ s.cur) : (s.after i len).ctx d = s.ctx d :=
  s.ctx_setMe_ne _ h

theorem State.jumped_ctx_ne (s : State) (i : Op) (t : Word) {d : Nat} (h : d ≠ s.cur) : (s.jumped i t).ctx d = s.ctx d :=
  s.ctx_setMe_ne _ h

/-- A transfer of control sets the pc. -/
theorem State.jumped_pc (s : State) (i : Op) (t : Word) : (s.jumped i t).me.pc = t := by
  rw [State.jumped_me, Ctx.homeward_pc]; rfl

/-- Retirement with no active loop goes to the next instruction. -/
theorem loopEnd_off (next : Word) (ls : List Loop) (h : ∀ l ∈ ls, l.active = false) : loopEnd next ls = (ls, none) := by
  induction ls with
  | nil => rfl
  | cons l r ih =>
    have hl := h l (by simp)
    simp [loopEnd, hl, ih (fun x hx => h x (by simp [hx]))]

theorem Ctx.advance_pc (c : Ctx) (len : Nat) (h : ∀ l ∈ c.loops, l.active = false) : (c.advance len).pc = c.pc + word len := by
  have : loopEnd (c.pc + word len) c.loops.reverse = (c.loops.reverse, none) := loopEnd_off _ _ (by simpa using h)
  simp [Ctx.advance, this]

/-- The three things that taking a cause can do: end a program that MCRUN started, report a handler fault, or enter the handler. -/
theorem State.takeTrap_cases (s : State) (cid : Nat) (k : Kind) (cause ilen : Nat) (xpc v : Word) :
    (isMemCore cid = true ∧ s.takeTrap cid k cause ilen xpc v = s.endProgram cid (some cause) 0) ∨
    (isMemCore cid = false ∧ (s.ctx cid).mode = 1 ∧ s.takeTrap cid k cause ilen xpc v =
      { s.setCtx cid { s.ctx cid with stopped := true, away := none, trapCyc := s.cyc } with
        hfaults := s.hfaults ++ [{ cid := cid, cause := cause, pc := xpc }] }) ∨
    (isMemCore cid = false ∧ (s.ctx cid).mode ≠ 1 ∧ s.takeTrap cid k cause ilen xpc v =
      s.setCtx cid { (s.ctx cid).enter (s.core (coreKey cid)).xbase k cause ilen xpc v with trapCyc := s.cyc }) := by
  by_cases h1 : isMemCore cid = true
  · simp [State.takeTrap, h1]
  · by_cases h2 : (s.ctx cid).mode = 1 <;> simp [State.takeTrap, h1, h2]

/-- An entry to the handler keeps memory and every other context. -/
theorem State.takeTrap_frame (s : State) {cid : Nat} (k : Kind) (cause ilen : Nat) (xpc v : Word) (h : isMemCore cid = false) :
    (s.takeTrap cid k cause ilen xpc v).mem = s.mem ∧ (s.takeTrap cid k cause ilen xpc v).cores = s.cores ∧
      ∀ d, d ≠ cid → (s.takeTrap cid k cause ilen xpc v).ctx d = s.ctx d := by
  obtain ⟨h1, h2⟩ | ⟨h1, h2, h3⟩ | ⟨h1, h2, h3⟩ := s.takeTrap_cases cid k cause ilen xpc v
  · simp [h] at h1
  · rw [h3]; exact ⟨rfl, rfl, fun d hd => s.ctx_setCtx_ne _ hd⟩
  · rw [h3]; exact ⟨rfl, rfl, fun d hd => s.ctx_setCtx_ne _ hd⟩

theorem watchMatch_quiet (x : Core) (w p size : Nat) (ld st : Bool) (h : bits (tget 0 x.wctl w).toNat 5 2 = 0) :
    watchMatch x w p size ld st = 0 := by
  have h5 : bitOf (tget 0 x.wctl w).toNat 5 = false := by unfold bits at h; unfold bitOf; rw [beq_eq_false_iff_ne]; omega
  have h6 : bitOf (tget 0 x.wctl w).toNat 6 = false := by unfold bits at h; unfold bitOf; rw [beq_eq_false_iff_ne]; omega
  unfold watchMatch
  dsimp only
  rw [h5, h6]
  simp

/-- With no watchpoint set, no access is watched. -/
theorem State.watchHits_quiet (s : State) (acc : List (Nat × Nat)) (ld st : Bool) (h : s.unwatched) :
    s.watchHits s.cur acc ld st = [] := by
  unfold State.watchHits
  split
  · rfl
  · rw [List.filterMap_eq_nil_iff]
    intro w hw
    have hm := fun a : Nat × Nat => watchMatch_quiet (s.core (coreKey s.cur)) w a.1 a.2 ld st (h w (by simp at hw; omega))
    have hn : acc.find? (fun a => decide (watchMatch (s.core (coreKey s.cur)) w a.1 a.2 ld st ≠ 0)) = none := by
      simp [List.find?_eq_none, hm]
    simp only [hn]

/-- With no watchpoint set, a watched access only retires. -/
theorem State.watchedAll_quiet (s : State) (pc : Word) (acc : List (Nat × Nat)) (ld st : Bool) (h : s.unwatched) :
    s.watchedAll pc acc ld st = .retire s := by
  simp [State.watchedAll, s.watchHits_quiet acc ld st h, State.endHits, State.noteHits]

theorem State.watchNotes_quiet (s : State) (pc : Word) (acc : List (Nat × Nat)) (ld st : Bool) (h : s.unwatched) :
    s.watchNotes pc acc ld st = s := by
  simp [State.watchNotes, s.watchHits_quiet acc ld st h, State.noteHits]

theorem State.watchedWith_quiet (s : State) (pc : Word) (loads acc : List (Nat × Nat)) (ld st : Bool) (h : s.unwatched) :
    s.watchedWith pc loads acc ld st = .retire s := by
  simp [State.watchedWith, s.watchHits_quiet _ _ _ h, State.endHits, State.noteHits]

theorem State.watched_quiet (s : State) (pc : Word) (p size : Nat) (ld st : Bool) (h : s.unwatched) :
    s.watched pc p size ld st = .retire s := s.watchedAll_quiet pc _ ld st h

end Sys2Proof.Machine
end

