-- ==== Sys2Proof/Laws/PerInstr.lean ====
section
/-! SUPPORT. The family Encodes of statements made per instruction: the word of a well-formed instruction fits the bytes that
its length announces (R187). An event has no word, and is not well-formed. -/

namespace Sys2Proof.Laws

/-- Packed fields fit the sum of their widths. -/
theorem packBits_lt (l : List (Nat × Nat)) : packBits l < 2 ^ (l.map (·.1)).sum := by
  induction l with
  | nil => simp [packBits]
  | cons x r ih =>
    obtain ⟨w, v⟩ := x
    simp only [packBits, List.map_cons, List.sum_cons, Nat.pow_add]
    have h1 : v % 2 ^ w < 2 ^ w := Nat.mod_lt _ (Nat.two_pow_pos w)
    calc v % 2 ^ w + 2 ^ w * packBits r < 2 ^ w + 2 ^ w * packBits r := by omega
      _ = 2 ^ w * (packBits r + 1) := by rw [Nat.mul_add, Nat.mul_one, Nat.add_comm]
      _ ≤ 2 ^ w * 2 ^ (r.map (·.1)).sum := Nat.mul_le_mul_left _ ih

theorem head_lt (f : Fields) : f.head < 2 ^ 64 := packBits_lt _
theorem ext_lt (f : Fields) : f.ext < 2 ^ 64 := packBits_lt _

/-- The word of an instruction of formats A, I and W. -/
def wordOf (i : Op) (h : Hdr) (o : Ops) (x : Ext) : Nat :=
  let f := toFields i h o x
  match i.row.form with
  | .w => f.head + 2 ^ 64 * f.ext
  | _ => if o.isImm then f.head + 2 ^ 64 * f.imm else f.head

/-- The word of a well-formed instruction of formats A, I and W fits its bytes. -/
theorem wordOf_lt (i : Op) (h : Hdr) (o : Ops) (x : Ext) (w : wfParts i h o x = true) :
    wordOf i h o x < 2 ^ (8 * lenOf i h o) := by
  have hh : (toFields i h o x).head < 18446744073709551616 := head_lt _
  have he : (toFields i h o x).ext < 18446744073709551616 := ext_lt _
  simp only [wfParts, Bool.and_eq_true] at w
  have hb : o.b.fits = true := by
    have := w.1.1.1.1.1.1.2
    simp only [Ops.fits, Bool.and_eq_true] at this
    exact this.1.1.1.1.2
  have ha := w.1.1.1.2
  have hi : ∀ n, o.b = .imm n → (toFields i h o x).imm = n := by intro n hn; simp only [toFields, hn]
  unfold wordOf lenOf
  generalize toFields i h o x = f at hh he hi ⊢
  cases hf : i.row.form <;> cases hob : o.b <;> simp only [hf, hob, Ops.isImm, Form.admits, Arg.fits, Form.len, lenBytes] at ha hb hi ⊢ <;>
    first
    | (simp; omega)
    | (simp at ha)
    | (have := hi _ rfl; simp at hb; cases h.wide <;> simp <;> omega)

def Encodes.Statement (i : Instr) : Prop := i.wf = true → encode i < 2 ^ (8 * i.len)

theorem Encodes.nop : Encodes.Statement .nop := fun _ => by decide
theorem Encodes.brk (h : Hdr) (o : Ops) : Encodes.Statement (.brk h o) := fun w => wordOf_lt .brk h o .zero w
theorem Encodes.trap (h : Hdr) (o : Ops) : Encodes.Statement (.trap h o) := fun w => wordOf_lt .trap h o .zero w
theorem Encodes.eret (h : Hdr) (o : Ops) : Encodes.Statement (.eret h o) := fun w => wordOf_lt .eret h o .zero w
theorem Encodes.sysc (h : Hdr) (o : Ops) : Encodes.Statement (.sysc h o) := fun w => wordOf_lt .sysc h o .zero w
theorem Encodes.fmt (t2 : TCode) (rv : Bool) (rnd : Rnd) (scm : Nat) : Encodes.Statement (.fmt t2 rv rnd scm) := fun _ => packBits_lt _
theorem Encodes.waiti (h : Hdr) (o : Ops) : Encodes.Statement (.waiti h o) := fun w => wordOf_lt .waiti h o .zero w
theorem Encodes.mfsr (h : Hdr) (o : Ops) : Encodes.Statement (.mfsr h o) := fun w => wordOf_lt .mfsr h o .zero w
theorem Encodes.mtsr (h : Hdr) (o : Ops) : Encodes.Statement (.mtsr h o) := fun w => wordOf_lt .mtsr h o .zero w
theorem Encodes.fencei (h : Hdr) (o : Ops) : Encodes.Statement (.fencei h o) := fun w => wordOf_lt .fencei h o .zero w
theorem Encodes.idle (h : Hdr) (o : Ops) : Encodes.Statement (.idle h o) := fun w => wordOf_lt .idle h o .zero w
theorem Encodes.add (h : Hdr) (o : Ops) : Encodes.Statement (.add h o) := fun w => wordOf_lt .add h o .zero w
theorem Encodes.sub (h : Hdr) (o : Ops) : Encodes.Statement (.sub h o) := fun w => wordOf_lt .sub h o .zero w
theorem Encodes.mul (h : Hdr) (o : Ops) : Encodes.Statement (.mul h o) := fun w => wordOf_lt .mul h o .zero w
theorem Encodes.mulh (h : Hdr) (o : Ops) : Encodes.Statement (.mulh h o) := fun w => wordOf_lt .mulh h o .zero w
theorem Encodes.mulhu (h : Hdr) (o : Ops) : Encodes.Statement (.mulhu h o) := fun w => wordOf_lt .mulhu h o .zero w
theorem Encodes.div (h : Hdr) (o : Ops) : Encodes.Statement (.div h o) := fun w => wordOf_lt .div h o .zero w
theorem Encodes.divu (h : Hdr) (o : Ops) : Encodes.Statement (.divu h o) := fun w => wordOf_lt .divu h o .zero w
theorem Encodes.rem (h : Hdr) (o : Ops) : Encodes.Statement (.rem h o) := fun w => wordOf_lt .rem h o .zero w
theorem Encodes.remu (h : Hdr) (o : Ops) : Encodes.Statement (.remu h o) := fun w => wordOf_lt .remu h o .zero w
theorem Encodes.and (h : Hdr) (o : Ops) : Encodes.Statement (.and h o) := fun w => wordOf_lt .and h o .zero w
theorem Encodes.or (h : Hdr) (o : Ops) : Encodes.Statement (.or h o) := fun w => wordOf_lt .or h o .zero w
theorem Encodes.xor (h : Hdr) (o : Ops) : Encodes.Statement (.xor h o) := fun w => wordOf_lt .xor h o .zero w
theorem Encodes.andn (h : Hdr) (o : Ops) : Encodes.Statement (.andn h o) := fun w => wordOf_lt .andn h o .zero w
theorem Encodes.shl (h : Hdr) (o : Ops) : Encodes.Statement (.shl h o) := fun w => wordOf_lt .shl h o .zero w
theorem Encodes.shr (h : Hdr) (o : Ops) : Encodes.Statement (.shr h o) := fun w => wordOf_lt .shr h o .zero w
theorem Encodes.sar (h : Hdr) (o : Ops) : Encodes.Statement (.sar h o) := fun w => wordOf_lt .sar h o .zero w
theorem Encodes.rol (h : Hdr) (o : Ops) : Encodes.Statement (.rol h o) := fun w => wordOf_lt .rol h o .zero w
theorem Encodes.min (h : Hdr) (o : Ops) : Encodes.Statement (.min h o) := fun w => wordOf_lt .min h o .zero w
theorem Encodes.max (h : Hdr) (o : Ops) : Encodes.Statement (.max h o) := fun w => wordOf_lt .max h o .zero w
theorem Encodes.minu (h : Hdr) (o : Ops) : Encodes.Statement (.minu h o) := fun w => wordOf_lt .minu h o .zero w
theorem Encodes.maxu (h : Hdr) (o : Ops) : Encodes.Statement (.maxu h o) := fun w => wordOf_lt .maxu h o .zero w
theorem Encodes.cmp (h : Hdr) (o : Ops) : Encodes.Statement (.cmp h o) := fun w => wordOf_lt .cmp h o .zero w
theorem Encodes.cmpu (h : Hdr) (o : Ops) : Encodes.Statement (.cmpu h o) := fun w => wordOf_lt .cmpu h o .zero w
theorem Encodes.sel (h : Hdr) (o : Ops) : Encodes.Statement (.sel h o) := fun w => wordOf_lt .sel h o .zero w
theorem Encodes.mov (h : Hdr) (o : Ops) : Encodes.Statement (.mov h o) := fun w => wordOf_lt .mov h o .zero w
theorem Encodes.movi (h : Hdr) (d : Nat) (t : TCode) (imm : Nat) : Encodes.Statement (.movi h d t imm) := fun _ => packBits_lt _
theorem Encodes.clz (h : Hdr) (o : Ops) : Encodes.Statement (.clz h o) := fun w => wordOf_lt .clz h o .zero w
theorem Encodes.popc (h : Hdr) (o : Ops) : Encodes.Statement (.popc h o) := fun w => wordOf_lt .popc h o .zero w
theorem Encodes.bfx (h : Hdr) (o : Ops) : Encodes.Statement (.bfx h o) := fun w => wordOf_lt .bfx h o .zero w
theorem Encodes.bfi (h : Hdr) (o : Ops) : Encodes.Statement (.bfi h o) := fun w => wordOf_lt .bfi h o .zero w
theorem Encodes.adds (h : Hdr) (o : Ops) : Encodes.Statement (.adds h o) := fun w => wordOf_lt .adds h o .zero w
theorem Encodes.mad (h : Hdr) (o : Ops) : Encodes.Statement (.mad h o) := fun w => wordOf_lt .mad h o .zero w
theorem Encodes.abs (h : Hdr) (o : Ops) : Encodes.Statement (.abs h o) := fun w => wordOf_lt .abs h o .zero w
theorem Encodes.neg (h : Hdr) (o : Ops) : Encodes.Statement (.neg h o) := fun w => wordOf_lt .neg h o .zero w
theorem Encodes.fadd (h : Hdr) (o : Ops) : Encodes.Statement (.fadd h o) := fun w => wordOf_lt .fadd h o .zero w
theorem Encodes.fsub (h : Hdr) (o : Ops) : Encodes.Statement (.fsub h o) := fun w => wordOf_lt .fsub h o .zero w
theorem Encodes.fmul (h : Hdr) (o : Ops) : Encodes.Statement (.fmul h o) := fun w => wordOf_lt .fmul h o .zero w
theorem Encodes.ffma (h : Hdr) (o : Ops) : Encodes.Statement (.ffma h o) := fun w => wordOf_lt .ffma h o .zero w
theorem Encodes.fdiv (h : Hdr) (o : Ops) : Encodes.Statement (.fdiv h o) := fun w => wordOf_lt .fdiv h o .zero w
theorem Encodes.fsqrt (h : Hdr) (o : Ops) : Encodes.Statement (.fsqrt h o) := fun w => wordOf_lt .fsqrt h o .zero w
theorem Encodes.fmin (h : Hdr) (o : Ops) : Encodes.Statement (.fmin h o) := fun w => wordOf_lt .fmin h o .zero w
theorem Encodes.fmax (h : Hdr) (o : Ops) : Encodes.Statement (.fmax h o) := fun w => wordOf_lt .fmax h o .zero w
theorem Encodes.fcmp (h : Hdr) (o : Ops) : Encodes.Statement (.fcmp h o) := fun w => wordOf_lt .fcmp h o .zero w
theorem Encodes.fcvt (h : Hdr) (o : Ops) : Encodes.Statement (.fcvt h o) := fun w => wordOf_lt .fcvt h o .zero w
theorem Encodes.br (h : Hdr) (disp : Int) : Encodes.Statement (.br h disp) := fun _ => packBits_lt _
theorem Encodes.brc (h : Hdr) (cnd a b : Nat) (disp : Int) : Encodes.Statement (.brc h cnd a b disp) := fun _ => packBits_lt _
theorem Encodes.call (h : Hdr) (disp : Int) : Encodes.Statement (.call h disp) := fun _ => packBits_lt _
theorem Encodes.ret (h : Hdr) (o : Ops) : Encodes.Statement (.ret h o) := fun w => wordOf_lt .ret h o .zero w
theorem Encodes.jmpr (h : Hdr) (o : Ops) : Encodes.Statement (.jmpr h o) := fun w => wordOf_lt .jmpr h o .zero w
theorem Encodes.loop (l : LoopOps) : Encodes.Statement (.loop l) := fun _ => packBits_lt _
theorem Encodes.loopx (h : Hdr) (o : Ops) : Encodes.Statement (.loopx h o) := fun w => wordOf_lt .loopx h o .zero w
theorem Encodes.jtab (h : Hdr) (o : Ops) : Encodes.Statement (.jtab h o) := fun w => wordOf_lt .jtab h o .zero w
theorem Encodes.ld (h : Hdr) (o : Ops) : Encodes.Statement (.ld h o) := fun w => wordOf_lt .ld h o .zero w
theorem Encodes.st (h : Hdr) (o : Ops) : Encodes.Statement (.st h o) := fun w => wordOf_lt .st h o .zero w
theorem Encodes.ld2 (h : Hdr) (o : Ops) : Encodes.Statement (.ld2 h o) := fun w => wordOf_lt .ld2 h o .zero w
theorem Encodes.st2 (h : Hdr) (o : Ops) : Encodes.Statement (.st2 h o) := fun w => wordOf_lt .st2 h o .zero w
theorem Encodes.pref (h : Hdr) (o : Ops) : Encodes.Statement (.pref h o) := fun w => wordOf_lt .pref h o .zero w
theorem Encodes.spq (h : Hdr) (o : Ops) : Encodes.Statement (.spq h o) := fun w => wordOf_lt .spq h o .zero w
theorem Encodes.spcv (h : Hdr) (o : Ops) : Encodes.Statement (.spcv h o) := fun w => wordOf_lt .spcv h o .zero w
theorem Encodes.spmk (h : Hdr) (o : Ops) : Encodes.Statement (.spmk h o) := fun w => wordOf_lt .spmk h o .zero w
theorem Encodes.lea (h : Hdr) (o : Ops) : Encodes.Statement (.lea h o) := fun w => wordOf_lt .lea h o .zero w
theorem Encodes.chkb (h : Hdr) (o : Ops) : Encodes.Statement (.chkb h o) := fun w => wordOf_lt .chkb h o .zero w
theorem Encodes.llk (h : Hdr) (o : Ops) : Encodes.Statement (.llk h o) := fun w => wordOf_lt .llk h o .zero w
theorem Encodes.sul (h : Hdr) (o : Ops) : Encodes.Statement (.sul h o) := fun w => wordOf_lt .sul h o .zero w
theorem Encodes.aadd (h : Hdr) (o : Ops) : Encodes.Statement (.aadd h o) := fun w => wordOf_lt .aadd h o .zero w
theorem Encodes.amin (h : Hdr) (o : Ops) : Encodes.Statement (.amin h o) := fun w => wordOf_lt .amin h o .zero w
theorem Encodes.amax (h : Hdr) (o : Ops) : Encodes.Statement (.amax h o) := fun w => wordOf_lt .amax h o .zero w
theorem Encodes.aand (h : Hdr) (o : Ops) : Encodes.Statement (.aand h o) := fun w => wordOf_lt .aand h o .zero w
theorem Encodes.aor (h : Hdr) (o : Ops) : Encodes.Statement (.aor h o) := fun w => wordOf_lt .aor h o .zero w
theorem Encodes.axor (h : Hdr) (o : Ops) : Encodes.Statement (.axor h o) := fun w => wordOf_lt .axor h o .zero w
theorem Encodes.aswp (h : Hdr) (o : Ops) : Encodes.Statement (.aswp h o) := fun w => wordOf_lt .aswp h o .zero w
theorem Encodes.acas (h : Hdr) (o : Ops) : Encodes.Statement (.acas h o) := fun w => wordOf_lt .acas h o .zero w
theorem Encodes.faadd (h : Hdr) (o : Ops) : Encodes.Statement (.faadd h o) := fun w => wordOf_lt .faadd h o .zero w
theorem Encodes.ecrd (h : Hdr) (o : Ops) : Encodes.Statement (.ecrd h o) := fun w => wordOf_lt .ecrd h o .zero w
theorem Encodes.ecclr (h : Hdr) (o : Ops) : Encodes.Statement (.ecclr h o) := fun w => wordOf_lt .ecclr h o .zero w
theorem Encodes.vadd (h : Hdr) (o : Ops) : Encodes.Statement (.vadd h o) := fun w => wordOf_lt .vadd h o .zero w
theorem Encodes.vsub (h : Hdr) (o : Ops) : Encodes.Statement (.vsub h o) := fun w => wordOf_lt .vsub h o .zero w
theorem Encodes.vmul (h : Hdr) (o : Ops) : Encodes.Statement (.vmul h o) := fun w => wordOf_lt .vmul h o .zero w
theorem Encodes.vfma (h : Hdr) (o : Ops) : Encodes.Statement (.vfma h o) := fun w => wordOf_lt .vfma h o .zero w
theorem Encodes.vmin (h : Hdr) (o : Ops) : Encodes.Statement (.vmin h o) := fun w => wordOf_lt .vmin h o .zero w
theorem Encodes.vmax (h : Hdr) (o : Ops) : Encodes.Statement (.vmax h o) := fun w => wordOf_lt .vmax h o .zero w
theorem Encodes.vabs (h : Hdr) (o : Ops) : Encodes.Statement (.vabs h o) := fun w => wordOf_lt .vabs h o .zero w
theorem Encodes.vneg (h : Hdr) (o : Ops) : Encodes.Statement (.vneg h o) := fun w => wordOf_lt .vneg h o .zero w
theorem Encodes.vand (h : Hdr) (o : Ops) : Encodes.Statement (.vand h o) := fun w => wordOf_lt .vand h o .zero w
theorem Encodes.vor (h : Hdr) (o : Ops) : Encodes.Statement (.vor h o) := fun w => wordOf_lt .vor h o .zero w
theorem Encodes.vxor (h : Hdr) (o : Ops) : Encodes.Statement (.vxor h o) := fun w => wordOf_lt .vxor h o .zero w
theorem Encodes.vshl (h : Hdr) (o : Ops) : Encodes.Statement (.vshl h o) := fun w => wordOf_lt .vshl h o .zero w
theorem Encodes.vshr (h : Hdr) (o : Ops) : Encodes.Statement (.vshr h o) := fun w => wordOf_lt .vshr h o .zero w
theorem Encodes.vsar (h : Hdr) (o : Ops) : Encodes.Statement (.vsar h o) := fun w => wordOf_lt .vsar h o .zero w
theorem Encodes.vcmp (h : Hdr) (o : Ops) : Encodes.Statement (.vcmp h o) := fun w => wordOf_lt .vcmp h o .zero w
theorem Encodes.vsel (h : Hdr) (o : Ops) : Encodes.Statement (.vsel h o) := fun w => wordOf_lt .vsel h o .zero w
theorem Encodes.vrcp (h : Hdr) (o : Ops) : Encodes.Statement (.vrcp h o) := fun w => wordOf_lt .vrcp h o .zero w
theorem Encodes.vrsq (h : Hdr) (o : Ops) : Encodes.Statement (.vrsq h o) := fun w => wordOf_lt .vrsq h o .zero w
theorem Encodes.vexp2 (h : Hdr) (o : Ops) : Encodes.Statement (.vexp2 h o) := fun w => wordOf_lt .vexp2 h o .zero w
theorem Encodes.vlog2 (h : Hdr) (o : Ops) : Encodes.Statement (.vlog2 h o) := fun w => wordOf_lt .vlog2 h o .zero w
theorem Encodes.vred (h : Hdr) (o : Ops) : Encodes.Statement (.vred h o) := fun w => wordOf_lt .vred h o .zero w
theorem Encodes.vscan (h : Hdr) (o : Ops) : Encodes.Statement (.vscan h o) := fun w => wordOf_lt .vscan h o .zero w
theorem Encodes.vshuf (h : Hdr) (o : Ops) : Encodes.Statement (.vshuf h o) := fun w => wordOf_lt .vshuf h o .zero w
theorem Encodes.vshufi (h : Hdr) (o : Ops) : Encodes.Statement (.vshufi h o) := fun w => wordOf_lt .vshufi h o .zero w
theorem Encodes.vbcast (h : Hdr) (o : Ops) : Encodes.Statement (.vbcast h o) := fun w => wordOf_lt .vbcast h o .zero w
theorem Encodes.vbcastLane (h : Hdr) (o : Ops) : Encodes.Statement (.vbcastLane h o) := fun w => wordOf_lt .vbcastLane h o .zero w
theorem Encodes.vvote (h : Hdr) (o : Ops) : Encodes.Statement (.vvote h o) := fun w => wordOf_lt .vvote h o .zero w
theorem Encodes.vmatch (h : Hdr) (o : Ops) : Encodes.Statement (.vmatch h o) := fun w => wordOf_lt .vmatch h o .zero w
theorem Encodes.vmatchLeader (h : Hdr) (o : Ops) : Encodes.Statement (.vmatchLeader h o) := fun w => wordOf_lt .vmatchLeader h o .zero w
theorem Encodes.vpopc (h : Hdr) (o : Ops) : Encodes.Statement (.vpopc h o) := fun w => wordOf_lt .vpopc h o .zero w
theorem Encodes.vpopcPre (h : Hdr) (o : Ops) : Encodes.Statement (.vpopcPre h o) := fun w => wordOf_lt .vpopcPre h o .zero w
theorem Encodes.vmovs (h : Hdr) (o : Ops) : Encodes.Statement (.vmovs h o) := fun w => wordOf_lt .vmovs h o .zero w
theorem Encodes.vmovsV (h : Hdr) (o : Ops) : Encodes.Statement (.vmovsV h o) := fun w => wordOf_lt .vmovsV h o .zero w
theorem Encodes.viota (h : Hdr) (o : Ops) : Encodes.Statement (.viota h o) := fun w => wordOf_lt .viota h o .zero w
theorem Encodes.kopLogic (h : Hdr) (o : Ops) : Encodes.Statement (.kopLogic h o) := fun w => wordOf_lt .kopLogic h o .zero w
theorem Encodes.kopNot (h : Hdr) (o : Ops) : Encodes.Statement (.kopNot h o) := fun w => wordOf_lt .kopNot h o .zero w
theorem Encodes.kopMov (h : Hdr) (o : Ops) : Encodes.Statement (.kopMov h o) := fun w => wordOf_lt .kopMov h o .zero w
theorem Encodes.kopSet (h : Hdr) (o : Ops) : Encodes.Statement (.kopSet h o) := fun w => wordOf_lt .kopSet h o .zero w
theorem Encodes.kopLen (h : Hdr) (o : Ops) : Encodes.Statement (.kopLen h o) := fun w => wordOf_lt .kopLen h o .zero w
theorem Encodes.kopFirst (h : Hdr) (o : Ops) : Encodes.Statement (.kopFirst h o) := fun w => wordOf_lt .kopFirst h o .zero w
theorem Encodes.kopLo (h : Hdr) (o : Ops) : Encodes.Statement (.kopLo h o) := fun w => wordOf_lt .kopLo h o .zero w
theorem Encodes.kopHi (h : Hdr) (o : Ops) : Encodes.Statement (.kopHi h o) := fun w => wordOf_lt .kopHi h o .zero w
theorem Encodes.vmvp (h : Hdr) (o : Ops) : Encodes.Statement (.vmvp h o) := fun w => wordOf_lt .vmvp h o .zero w
theorem Encodes.vld (h : Hdr) (o : Ops) : Encodes.Statement (.vld h o) := fun w => wordOf_lt .vld h o .zero w
theorem Encodes.vst (h : Hdr) (o : Ops) : Encodes.Statement (.vst h o) := fun w => wordOf_lt .vst h o .zero w
theorem Encodes.vlds (h : Hdr) (o : Ops) : Encodes.Statement (.vlds h o) := fun w => wordOf_lt .vlds h o .zero w
theorem Encodes.vsts (h : Hdr) (o : Ops) : Encodes.Statement (.vsts h o) := fun w => wordOf_lt .vsts h o .zero w
theorem Encodes.vgath (h : Hdr) (o : Ops) : Encodes.Statement (.vgath h o) := fun w => wordOf_lt .vgath h o .zero w
theorem Encodes.vscat (h : Hdr) (o : Ops) : Encodes.Statement (.vscat h o) := fun w => wordOf_lt .vscat h o .zero w
theorem Encodes.vtld (h : Hdr) (o : Ops) : Encodes.Statement (.vtld h o) := fun w => wordOf_lt .vtld h o .zero w
theorem Encodes.vldrg (h : Hdr) (o : Ops) : Encodes.Statement (.vldrg h o) := fun w => wordOf_lt .vldrg h o .zero w
theorem Encodes.vstrg (h : Hdr) (o : Ops) : Encodes.Statement (.vstrg h o) := fun w => wordOf_lt .vstrg h o .zero w
theorem Encodes.vldb (h : Hdr) (o : Ops) : Encodes.Statement (.vldb h o) := fun w => wordOf_lt .vldb h o .zero w
theorem Encodes.vcvt (h : Hdr) (o : Ops) : Encodes.Statement (.vcvt h o) := fun w => wordOf_lt .vcvt h o .zero w
theorem Encodes.vamax (h : Hdr) (o : Ops) : Encodes.Statement (.vamax h o) := fun w => wordOf_lt .vamax h o .zero w
theorem Encodes.vqnt (h : Hdr) (o : Ops) : Encodes.Statement (.vqnt h o) := fun w => wordOf_lt .vqnt h o .zero w
theorem Encodes.vdqnt (h : Hdr) (o : Ops) : Encodes.Statement (.vdqnt h o) := fun w => wordOf_lt .vdqnt h o .zero w
theorem Encodes.vpack (h : Hdr) (o : Ops) : Encodes.Statement (.vpack h o) := fun w => wordOf_lt .vpack h o .zero w
theorem Encodes.vunpk (h : Hdr) (o : Ops) : Encodes.Statement (.vunpk h o) := fun w => wordOf_lt .vunpk h o .zero w
theorem Encodes.gmk (h : Hdr) (o : Ops) : Encodes.Statement (.gmk h o) := fun w => wordOf_lt .gmk h o .zero w
theorem Encodes.gmkApp (h : Hdr) (o : Ops) : Encodes.Statement (.gmkApp h o) := fun w => wordOf_lt .gmkApp h o .zero w
theorem Encodes.gmki (h : Hdr) (o : Ops) (x : Ext) : Encodes.Statement (.gmki h o x) := fun w => wordOf_lt .gmki h o x w
theorem Encodes.gld (h : Hdr) (o : Ops) : Encodes.Statement (.gld h o) := fun w => wordOf_lt .gld h o .zero w
theorem Encodes.gst (h : Hdr) (o : Ops) : Encodes.Statement (.gst h o) := fun w => wordOf_lt .gst h o .zero w
theorem Encodes.gmov (h : Hdr) (o : Ops) : Encodes.Statement (.gmov h o) := fun w => wordOf_lt .gmov h o .zero w
theorem Encodes.guni (h : Hdr) (o : Ops) (x : Ext) : Encodes.Statement (.guni h o x) := fun w => wordOf_lt .guni h o x w
theorem Encodes.gint (h : Hdr) (o : Ops) (x : Ext) : Encodes.Statement (.gint h o x) := fun w => wordOf_lt .gint h o x w
theorem Encodes.gsub (h : Hdr) (o : Ops) (x : Ext) : Encodes.Statement (.gsub h o x) := fun w => wordOf_lt .gsub h o x w
theorem Encodes.gdil (h : Hdr) (o : Ops) (x : Ext) : Encodes.Statement (.gdil h o x) := fun w => wordOf_lt .gdil h o x w
theorem Encodes.gero (h : Hdr) (o : Ops) (x : Ext) : Encodes.Statement (.gero h o x) := fun w => wordOf_lt .gero h o x w
theorem Encodes.gtrn (h : Hdr) (o : Ops) (x : Ext) : Encodes.Statement (.gtrn h o x) := fun w => wordOf_lt .gtrn h o x w
theorem Encodes.gprj (h : Hdr) (o : Ops) (x : Ext) : Encodes.Statement (.gprj h o x) := fun w => wordOf_lt .gprj h o x w
theorem Encodes.gspl (h : Hdr) (o : Ops) (x : Ext) : Encodes.Statement (.gspl h o x) := fun w => wordOf_lt .gspl h o x w
theorem Encodes.gcan (h : Hdr) (o : Ops) (x : Ext) : Encodes.Statement (.gcan h o x) := fun w => wordOf_lt .gcan h o x w
theorem Encodes.ghul (h : Hdr) (o : Ops) : Encodes.Statement (.ghul h o) := fun w => wordOf_lt .ghul h o .zero w
theorem Encodes.glat (h : Hdr) (o : Ops) : Encodes.Statement (.glat h o) := fun w => wordOf_lt .glat h o .zero w
theorem Encodes.glatUnit (h : Hdr) (o : Ops) : Encodes.Statement (.glatUnit h o) := fun w => wordOf_lt .glatUnit h o .zero w
theorem Encodes.glatRd (h : Hdr) (o : Ops) : Encodes.Statement (.glatRd h o) := fun w => wordOf_lt .glatRd h o .zero w
theorem Encodes.grag (h : Hdr) (o : Ops) : Encodes.Statement (.grag h o) := fun w => wordOf_lt .grag h o .zero w
theorem Encodes.gvol (h : Hdr) (o : Ops) : Encodes.Statement (.gvol h o) := fun w => wordOf_lt .gvol h o .zero w
theorem Encodes.gnbx (h : Hdr) (o : Ops) : Encodes.Statement (.gnbx h o) := fun w => wordOf_lt .gnbx h o .zero w
theorem Encodes.gbox (h : Hdr) (o : Ops) : Encodes.Statement (.gbox h o) := fun w => wordOf_lt .gbox h o .zero w
theorem Encodes.gtstPt (h : Hdr) (o : Ops) : Encodes.Statement (.gtstPt h o) := fun w => wordOf_lt .gtstPt h o .zero w
theorem Encodes.gtstOvl (h : Hdr) (o : Ops) : Encodes.Statement (.gtstOvl h o) := fun w => wordOf_lt .gtstOvl h o .zero w
theorem Encodes.gtstSub (h : Hdr) (o : Ops) : Encodes.Statement (.gtstSub h o) := fun w => wordOf_lt .gtstSub h o .zero w
theorem Encodes.gtstEq (h : Hdr) (o : Ops) : Encodes.Statement (.gtstEq h o) := fun w => wordOf_lt .gtstEq h o .zero w
theorem Encodes.gclr (h : Hdr) (o : Ops) : Encodes.Statement (.gclr h o) := fun w => wordOf_lt .gclr h o .zero w
theorem Encodes.gwalk (h : Hdr) (o : Ops) : Encodes.Statement (.gwalk h o) := fun w => wordOf_lt .gwalk h o .zero w
theorem Encodes.gown (h : Hdr) (o : Ops) : Encodes.Statement (.gown h o) := fun w => wordOf_lt .gown h o .zero w
theorem Encodes.xget (h : Hdr) (o : Ops) (x : Ext) : Encodes.Statement (.xget h o x) := fun w => wordOf_lt .xget h o x w
theorem Encodes.xsend (h : Hdr) (o : Ops) (x : Ext) : Encodes.Statement (.xsend h o x) := fun w => wordOf_lt .xsend h o x w
theorem Encodes.xcopy (h : Hdr) (o : Ops) (x : Ext) : Encodes.Statement (.xcopy h o x) := fun w => wordOf_lt .xcopy h o x w
theorem Encodes.xmma (h : Hdr) (o : Ops) (x : Ext) : Encodes.Statement (.xmma h o x) := fun w => wordOf_lt .xmma h o x w
theorem Encodes.xsts (h : Hdr) (o : Ops) (x : Ext) : Encodes.Statement (.xsts h o x) := fun w => wordOf_lt .xsts h o x w
theorem Encodes.xcnt (h : Hdr) (o : Ops) (x : Ext) : Encodes.Statement (.xcnt h o x) := fun w => wordOf_lt .xcnt h o x w
theorem Encodes.waitg (h : Hdr) (o : Ops) : Encodes.Statement (.waitg h o) := fun w => wordOf_lt .waitg h o .zero w
theorem Encodes.waitq (h : Hdr) (o : Ops) : Encodes.Statement (.waitq h o) := fun w => wordOf_lt .waitq h o .zero w
theorem Encodes.qfence (h : Hdr) (o : Ops) : Encodes.Statement (.qfence h o) := fun w => wordOf_lt .qfence h o .zero w
theorem Encodes.qmark (h : Hdr) (o : Ops) : Encodes.Statement (.qmark h o) := fun w => wordOf_lt .qmark h o .zero w
theorem Encodes.tbind (h : Hdr) (o : Ops) : Encodes.Statement (.tbind h o) := fun w => wordOf_lt .tbind h o .zero w
theorem Encodes.tunb (h : Hdr) (o : Ops) : Encodes.Statement (.tunb h o) := fun w => wordOf_lt .tunb h o .zero w
theorem Encodes.grnt (h : Hdr) (o : Ops) (x : Ext) : Encodes.Statement (.grnt h o x) := fun w => wordOf_lt .grnt h o x w
theorem Encodes.grev (h : Hdr) (o : Ops) (x : Ext) : Encodes.Statement (.grev h o x) := fun w => wordOf_lt .grev h o x w
theorem Encodes.acq (h : Hdr) (o : Ops) (x : Ext) : Encodes.Statement (.acq h o x) := fun w => wordOf_lt .acq h o x w
theorem Encodes.pub (h : Hdr) (o : Ops) (x : Ext) : Encodes.Statement (.pub h o x) := fun w => wordOf_lt .pub h o x w
theorem Encodes.mcrun (h : Hdr) (o : Ops) : Encodes.Statement (.mcrun h o) := fun w => wordOf_lt .mcrun h o .zero w
theorem Encodes.mring (h : Hdr) (o : Ops) : Encodes.Statement (.mring h o) := fun w => wordOf_lt .mring h o .zero w
theorem Encodes.mringRd (h : Hdr) (o : Ops) : Encodes.Statement (.mringRd h o) := fun w => wordOf_lt .mringRd h o .zero w
theorem Encodes.mradv (h : Hdr) (o : Ops) : Encodes.Statement (.mradv h o) := fun w => wordOf_lt .mradv h o .zero w
theorem Encodes.mldw (h : Hdr) (o : Ops) (x : Ext) : Encodes.Statement (.mldw h o x) := fun w => wordOf_lt .mldw h o x w
theorem Encodes.mma (h : Hdr) (o : Ops) (x : Ext) : Encodes.Statement (.mma h o x) := fun w => wordOf_lt .mma h o x w
theorem Encodes.mdrn (h : Hdr) (o : Ops) : Encodes.Statement (.mdrn h o) := fun w => wordOf_lt .mdrn h o .zero w
theorem Encodes.mzro (h : Hdr) (o : Ops) : Encodes.Statement (.mzro h o) := fun w => wordOf_lt .mzro h o .zero w
theorem Encodes.mswp (h : Hdr) (o : Ops) : Encodes.Statement (.mswp h o) := fun w => wordOf_lt .mswp h o .zero w
theorem Encodes.mflg (h : Hdr) (o : Ops) : Encodes.Statement (.mflg h o) := fun w => wordOf_lt .mflg h o .zero w
theorem Encodes.mholdFire (h : Hdr) (o : Ops) : Encodes.Statement (.mholdFire h o) := fun w => wordOf_lt .mholdFire h o .zero w
theorem Encodes.mholdSet (h : Hdr) (o : Ops) : Encodes.Statement (.mholdSet h o) := fun w => wordOf_lt .mholdSet h o .zero w
theorem Encodes.kvapp (h : Hdr) (o : Ops) : Encodes.Statement (.kvapp h o) := fun w => wordOf_lt .kvapp h o .zero w
theorem Encodes.kvseal (h : Hdr) (o : Ops) : Encodes.Statement (.kvseal h o) := fun w => wordOf_lt .kvseal h o .zero w
theorem Encodes.spset (h : Hdr) (o : Ops) : Encodes.Statement (.spset h o) := fun w => wordOf_lt .spset h o .zero w
theorem Encodes.spret (h : Hdr) (o : Ops) : Encodes.Statement (.spret h o) := fun w => wordOf_lt .spret h o .zero w
theorem Encodes.posl (h : Hdr) (o : Ops) : Encodes.Statement (.posl h o) := fun w => wordOf_lt .posl h o .zero w
theorem Encodes.posf (h : Hdr) (o : Ops) : Encodes.Statement (.posf h o) := fun w => wordOf_lt .posf h o .zero w
theorem Encodes.posiTag (h : Hdr) (o : Ops) : Encodes.Statement (.posiTag h o) := fun w => wordOf_lt .posiTag h o .zero w
theorem Encodes.posiSeq (h : Hdr) (o : Ops) : Encodes.Statement (.posiSeq h o) := fun w => wordOf_lt .posiSeq h o .zero w
theorem Encodes.posiAll (h : Hdr) (o : Ops) : Encodes.Statement (.posiAll h o) := fun w => wordOf_lt .posiAll h o .zero w
theorem Encodes.hsift (h : Hdr) (o : Ops) : Encodes.Statement (.hsift h o) := fun w => wordOf_lt .hsift h o .zero w
theorem Encodes.hpop (h : Hdr) (o : Ops) : Encodes.Statement (.hpop h o) := fun w => wordOf_lt .hpop h o .zero w
theorem Encodes.spawn (h : Hdr) (o : Ops) : Encodes.Statement (.spawn h o) := fun w => wordOf_lt .spawn h o .zero w
theorem Encodes.done (h : Hdr) (o : Ops) : Encodes.Statement (.done h o) := fun w => wordOf_lt .done h o .zero w
theorem Encodes.joinh (h : Hdr) (o : Ops) : Encodes.Statement (.joinh h o) := fun w => wordOf_lt .joinh h o .zero w
theorem Encodes.cqadd (h : Hdr) (o : Ops) : Encodes.Statement (.cqadd h o) := fun w => wordOf_lt .cqadd h o .zero w
theorem Encodes.cqget (h : Hdr) (o : Ops) : Encodes.Statement (.cqget h o) := fun w => wordOf_lt .cqget h o .zero w
theorem Encodes.cqnext (h : Hdr) (o : Ops) : Encodes.Statement (.cqnext h o) := fun w => wordOf_lt .cqnext h o .zero w
theorem Encodes.jdec (h : Hdr) (o : Ops) : Encodes.Statement (.jdec h o) := fun w => wordOf_lt .jdec h o .zero w
theorem Encodes.rqadd (h : Hdr) (o : Ops) : Encodes.Statement (.rqadd h o) := fun w => wordOf_lt .rqadd h o .zero w
theorem Encodes.rqget (h : Hdr) (o : Ops) : Encodes.Statement (.rqget h o) := fun w => wordOf_lt .rqget h o .zero w
theorem Encodes.sync (h : Hdr) (o : Ops) : Encodes.Statement (.sync h o) := fun w => wordOf_lt .sync h o .zero w
theorem Encodes.bdom (h : Hdr) (o : Ops) : Encodes.Statement (.bdom h o) := fun w => wordOf_lt .bdom h o .zero w
theorem Encodes.rdssn (h : Hdr) (o : Ops) : Encodes.Statement (.rdssn h o) := fun w => wordOf_lt .rdssn h o .zero w
theorem Encodes.launch (h : Hdr) (o : Ops) : Encodes.Statement (.launch h o) := fun w => wordOf_lt .launch h o .zero w
theorem Encodes.cancel (h : Hdr) (o : Ops) : Encodes.Statement (.cancel h o) := fun w => wordOf_lt .cancel h o .zero w
theorem Encodes.cancelLaunch (h : Hdr) (o : Ops) : Encodes.Statement (.cancelLaunch h o) := fun w => wordOf_lt .cancelLaunch h o .zero w
theorem Encodes.chkc (h : Hdr) (o : Ops) : Encodes.Statement (.chkc h o) := fun w => wordOf_lt .chkc h o .zero w
theorem Encodes.launchDispatch (l root func pd : Nat) (dies : List Nat) (loop xbase ring : Nat) (miss : Bool) (handlers : Nat) (saveb : Bool) (cones : List Nat) : Encodes.Statement (.launchDispatch l root func pd dies loop xbase ring miss handlers saveb cones) := fun w => (Bool.false_ne_true w).elim
theorem Encodes.dieRangeSearch (cid : Nat) : Encodes.Statement (.dieRangeSearch cid) := fun w => (Bool.false_ne_true w).elim
theorem Encodes.barrierRelease (l d : Nat) : Encodes.Statement (.barrierRelease l d) := fun w => (Bool.false_ne_true w).elim
theorem Encodes.transferStart (core q id n : Nat) (fail : Bool) : Encodes.Statement (.transferStart core q id n fail) := fun w => (Bool.false_ne_true w).elim
theorem Encodes.transferComplete (core q id : Nat) (fail : Bool) : Encodes.Statement (.transferComplete core q id fail) := fun w => (Bool.false_ne_true w).elim
theorem Encodes.qmarkCompletion (core q : Nat) : Encodes.Statement (.qmarkCompletion core q) := fun w => (Bool.false_ne_true w).elim
theorem Encodes.qmEntryPerform (core id : Nat) : Encodes.Statement (.qmEntryPerform core id) := fun w => (Bool.false_ne_true w).elim
theorem Encodes.qmEntryComplete (core id : Nat) : Encodes.Statement (.qmEntryComplete core id) := fun w => (Bool.false_ne_true w).elim
theorem Encodes.mmaArrival (core id : Nat) : Encodes.Statement (.mmaArrival core id) := fun w => (Bool.false_ne_true w).elim
theorem Encodes.setterDeadline (cl : Nat) : Encodes.Statement (.setterDeadline cl) := fun w => (Bool.false_ne_true w).elim
theorem Encodes.groupStreamStart (cl : Nat) : Encodes.Statement (.groupStreamStart cl) := fun w => (Bool.false_ne_true w).elim
theorem Encodes.memberRowsWritten (cl core id : Nat) : Encodes.Statement (.memberRowsWritten cl core id) := fun w => (Bool.false_ne_true w).elim
theorem Encodes.vectorPathComplete (core : Nat) : Encodes.Statement (.vectorPathComplete core) := fun w => (Bool.false_ne_true w).elim
theorem Encodes.mcrunProgramStart (core id j : Nat) (fail : Bool) : Encodes.Statement (.mcrunProgramStart core id j fail) := fun w => (Bool.false_ne_true w).elim
theorem Encodes.smallContextArrival (cid : Nat) : Encodes.Statement (.smallContextArrival cid) := fun w => (Bool.false_ne_true w).elim
theorem Encodes.pageServiceComplete (cid va root : Nat) (ok : Bool) (wipes : List (Nat × Nat)) (writes : List (Nat × Nat × Nat)) : Encodes.Statement (.pageServiceComplete cid va root ok wipes writes) := fun w => (Bool.false_ne_true w).elim
theorem Encodes.smallContextReturn (cid : Nat) : Encodes.Statement (.smallContextReturn cid) := fun w => (Bool.false_ne_true w).elim
theorem Encodes.globalAccessAnswer (cid : Nat) : Encodes.Statement (.globalAccessAnswer cid) := fun w => (Bool.false_ne_true w).elim
theorem Encodes.postedArrival (n : Nat) : Encodes.Statement (.postedArrival n) := fun w => (Bool.false_ne_true w).elim
theorem Encodes.journalClose (n : Nat) : Encodes.Statement (.journalClose n) := fun w => (Bool.false_ne_true w).elim
theorem Encodes.postedRefusal (n : Nat) : Encodes.Statement (.postedRefusal n) := fun w => (Bool.false_ne_true w).elim
theorem Encodes.flushMarkerArrival (cid kind n q : Nat) : Encodes.Statement (.flushMarkerArrival cid kind n q) := fun w => (Bool.false_ne_true w).elim
theorem Encodes.releaseAck (cid kind n q : Nat) : Encodes.Statement (.releaseAck cid kind n q) := fun w => (Bool.false_ne_true w).elim
theorem Encodes.tokenOpPerform (core id : Nat) : Encodes.Statement (.tokenOpPerform core id) := fun w => (Bool.false_ne_true w).elim
theorem Encodes.spanRetirementPerform (n : Nat) : Encodes.Statement (.spanRetirementPerform n) := fun w => (Bool.false_ne_true w).elim
theorem Encodes.syscAnswer (cid v : Nat) : Encodes.Statement (.syscAnswer cid v) := fun w => (Bool.false_ne_true w).elim
theorem Encodes.asyncCauseTake (cid what : Nat) : Encodes.Statement (.asyncCauseTake cid what) := fun w => (Bool.false_ne_true w).elim
theorem Encodes.preemptRequest (core job : Nat) : Encodes.Statement (.preemptRequest core job) := fun w => (Bool.false_ne_true w).elim
theorem Encodes.drainComplete (l : Nat) : Encodes.Statement (.drainComplete l) := fun w => (Bool.false_ne_true w).elim
theorem Encodes.jobImageCapture (l : Nat) : Encodes.Statement (.jobImageCapture l) := fun w => (Bool.false_ne_true w).elim
theorem Encodes.jobSwitchIn (l : Nat) : Encodes.Statement (.jobSwitchIn l) := fun w => (Bool.false_ne_true w).elim
theorem Encodes.vexpenArrival (port of peer l p num : Nat) (bytes : List Nat) : Encodes.Statement (.vexpenArrival port of peer l p num bytes) := fun w => (Bool.false_ne_true w).elim
theorem Encodes.collectiveStepStart (n : Nat) : Encodes.Statement (.collectiveStepStart n) := fun w => (Bool.false_ne_true w).elim
theorem Encodes.collectiveSendComplete (n : Nat) : Encodes.Statement (.collectiveSendComplete n) := fun w => (Bool.false_ne_true w).elim
theorem Encodes.collectiveRecvComplete (n : Nat) : Encodes.Statement (.collectiveRecvComplete n) := fun w => (Bool.false_ne_true w).elim
theorem Encodes.reqtailWrite (f u tail : Nat) (entries : List (Nat × Nat)) : Encodes.Statement (.reqtailWrite f u tail entries) := fun w => (Bool.false_ne_true w).elim
theorem Encodes.rspheadWrite (f h : Nat) : Encodes.Statement (.rspheadWrite f h) := fun w => (Bool.false_ne_true w).elim
theorem Encodes.map (n : Nat) (ok : Bool) (va : Nat) (wipes : List (Nat × Nat)) (writes : List (Nat × Nat × Nat)) : Encodes.Statement (.map n ok va wipes writes) := fun w => (Bool.false_ne_true w).elim
theorem Encodes.unmap (n : Nat) : Encodes.Statement (.unmap n) := fun w => (Bool.false_ne_true w).elim
theorem Encodes.copyIn (n : Nat) : Encodes.Statement (.copyIn n) := fun w => (Bool.false_ne_true w).elim
theorem Encodes.copyOut (n : Nat) : Encodes.Statement (.copyOut n) := fun w => (Bool.false_ne_true w).elim
theorem Encodes.mailboxLaunch (n : Nat) (ok : Bool) : Encodes.Statement (.mailboxLaunch n ok) := fun w => (Bool.false_ne_true w).elim
theorem Encodes.mailboxCancel (n : Nat) : Encodes.Statement (.mailboxCancel n) := fun w => (Bool.false_ne_true w).elim
theorem Encodes.hostCompletionTimeout (n : Nat) : Encodes.Statement (.hostCompletionTimeout n) := fun w => (Bool.false_ne_true w).elim
theorem Encodes.functionLevelReset (f : Nat) : Encodes.Statement (.functionLevelReset f) := fun w => (Bool.false_ne_true w).elim
theorem Encodes.hostLinkDown (port : Nat) : Encodes.Statement (.hostLinkDown port) := fun w => (Bool.false_ne_true w).elim
theorem Encodes.cxlPortDown (port : Nat) : Encodes.Statement (.cxlPortDown port) := fun w => (Bool.false_ne_true w).elim
theorem Encodes.cxlResponseTimeout (port : Nat) : Encodes.Statement (.cxlResponseTimeout port) := fun w => (Bool.false_ne_true w).elim
theorem Encodes.vexpenPortDown (port : Nat) : Encodes.Statement (.vexpenPortDown port) := fun w => (Bool.false_ne_true w).elim
theorem Encodes.peerAckTimeout (peer : Nat) : Encodes.Statement (.peerAckTimeout peer) := fun w => (Bool.false_ne_true w).elim
theorem Encodes.ucieLinkDown (d dir : Nat) : Encodes.Statement (.ucieLinkDown d dir) := fun w => (Bool.false_ne_true w).elim
theorem Encodes.dieHeartbeatTimeout (d : Nat) : Encodes.Statement (.dieHeartbeatTimeout d) := fun w => (Bool.false_ne_true w).elim
theorem Encodes.dirtyBitmapRead (f m w : Nat) : Encodes.Statement (.dirtyBitmapRead f m w) := fun w => (Bool.false_ne_true w).elim
theorem Encodes.migrationCommit (f : Nat) : Encodes.Statement (.migrationCommit f) := fun w => (Bool.false_ne_true w).elim
theorem Encodes.migrationResumed (f : Nat) : Encodes.Statement (.migrationResumed f) := fun w => (Bool.false_ne_true w).elim
theorem Encodes.resumedTimeout (f : Nat) : Encodes.Statement (.resumedTimeout f) := fun w => (Bool.false_ne_true w).elim
theorem Encodes.commitTimeout (f : Nat) : Encodes.Statement (.commitTimeout f) := fun w => (Bool.false_ne_true w).elim
theorem Encodes.packageReset : Encodes.Statement .packageReset := fun w => (Bool.false_ne_true w).elim
theorem Encodes.flashResponseTimeout : Encodes.Statement .flashResponseTimeout := fun w => (Bool.false_ne_true w).elim
theorem Encodes.recover (n image blown : Nat) : Encodes.Statement (.recover n image blown) := fun w => (Bool.false_ne_true w).elim
theorem Encodes.measExtend (m n x : Nat) : Encodes.Statement (.measExtend m n x) := fun w => (Bool.false_ne_true w).elim
theorem Encodes.getMeasurements (path : Nat) (ok : Bool) : Encodes.Statement (.getMeasurements path ok) := fun w => (Bool.false_ne_true w).elim
theorem Encodes.debugNonceRequest (path nonce : Nat) : Encodes.Statement (.debugNonceRequest path nonce) := fun w => (Bool.false_ne_true w).elim
theorem Encodes.debugToken (path token : Nat) : Encodes.Statement (.debugToken path token) := fun w => (Bool.false_ne_true w).elim
theorem Encodes.tokenExpiry : Encodes.Statement .tokenExpiry := fun w => (Bool.false_ne_true w).elim
theorem Encodes.freeze : Encodes.Statement .freeze := fun w => (Bool.false_ne_true w).elim
theorem Encodes.bypass (bit : Nat) : Encodes.Statement (.bypass bit) := fun w => (Bool.false_ne_true w).elim
theorem Encodes.idcode : Encodes.Statement .idcode := fun w => (Bool.false_ne_true w).elim
theorem Encodes.scanrd (die : Nat) : Encodes.Statement (.scanrd die) := fun w => (Bool.false_ne_true w).elim
theorem Encodes.scanwr (die data : Nat) : Encodes.Statement (.scanwr die data) := fun w => (Bool.false_ne_true w).elim
theorem Encodes.profilerGrant (f kind : Nat) (clusters : List Nat) (on : Bool) : Encodes.Statement (.profilerGrant f kind clusters on) := fun w => (Bool.false_ne_true w).elim
theorem Encodes.weightStoreRefresh (die : Nat) : Encodes.Statement (.weightStoreRefresh die) := fun w => (Bool.false_ne_true w).elim
theorem Encodes.traceSample (cid : Nat) : Encodes.Statement (.traceSample cid) := fun w => (Bool.false_ne_true w).elim
theorem Encodes.droopBudgetReset (core : Nat) : Encodes.Statement (.droopBudgetReset core) := fun w => (Bool.false_ne_true w).elim
theorem Encodes.patrolScrub (m fixed : Nat) (lines : List Nat) : Encodes.Statement (.patrolScrub m fixed lines) := fun w => (Bool.false_ne_true w).elim
theorem Encodes.registerWrite (kind : Nat) (v : List Nat) : Encodes.Statement (.registerWrite kind v) := fun w => (Bool.false_ne_true w).elim
theorem Encodes.softError (kind a b c : Nat) : Encodes.Statement (.softError kind a b c) := fun w => (Bool.false_ne_true w).elim
theorem Encodes.hostLinkUp (port : Nat) : Encodes.Statement (.hostLinkUp port) := fun w => (Bool.false_ne_true w).elim
theorem Encodes.cxlPortUp (port cap : Nat) : Encodes.Statement (.cxlPortUp port cap) := fun w => (Bool.false_ne_true w).elim
theorem Encodes.vexpenPortUp (port : Nat) : Encodes.Statement (.vexpenPortUp port) := fun w => (Bool.false_ne_true w).elim
theorem Encodes.hostCompletionArrival (n kind : Nat) (bytes : List Nat) : Encodes.Statement (.hostCompletionArrival n kind bytes) := fun w => (Bool.false_ne_true w).elim
theorem Encodes.cxlMemResponse (l : Nat) (poison : Bool) : Encodes.Statement (.cxlMemResponse l poison) := fun w => (Bool.false_ne_true w).elim
theorem Encodes.flashReadComplete (ok : Bool) (data blown : Nat) : Encodes.Statement (.flashReadComplete ok data blown) := fun w => (Bool.false_ne_true w).elim
theorem Encodes.finalCopyAck (f : Nat) (ok : Bool) (pool : List Nat) : Encodes.Statement (.finalCopyAck f ok pool) := fun w => (Bool.false_ne_true w).elim
theorem Encodes.lifecycleFuseTransition (state : Nat) : Encodes.Statement (.lifecycleFuseTransition state) := fun w => (Bool.false_ne_true w).elim
theorem Encodes.uetRetransmit : Encodes.Statement .uetRetransmit := fun w => (Bool.false_ne_true w).elim
theorem Encodes.linkLevelRetry : Encodes.Statement .linkLevelRetry := fun w => (Bool.false_ne_true w).elim
theorem Encodes.slotLanding (core id : Nat) : Encodes.Statement (.slotLanding core id) := fun w => (Bool.false_ne_true w).elim
theorem Encodes.walkComplete (cid : Nat) : Encodes.Statement (.walkComplete cid) := fun w => (Bool.false_ne_true w).elim
theorem Encodes.blockFetchComplete (cid : Nat) : Encodes.Statement (.blockFetchComplete cid) := fun w => (Bool.false_ne_true w).elim
theorem Encodes.signatureComplete : Encodes.Statement .signatureComplete := fun w => (Bool.false_ne_true w).elim

end Sys2Proof.Laws
end

