-- ==== Sys2Proof/Tests/Slice0.lean ====
section
/-! SUPPORT. Tests: ill-formed terms that WellFormed refuses, words written out from the spec's encodings, single steps with results that
the spec states, and for each statement states that meet its hypotheses together. -/

namespace Sys2Proof.Tests

set_option Elab.async false

open Sys2Proof Sys2Proof.Machine Sys2Proof.Claims

/-! ## Building blocks -/

/-- Unpredicated. -/
def hd : Hdr := ⟨0, false, false⟩
/-- Operands D, A, B, C and T, every other field zero. -/
def ops (d a b c : Nat) (t : TCode) : Ops := ⟨d, .reg a, .reg b, .reg c, 0, t, 0, .rne, false, 0⟩
/-- Operands with FN, K or MX. -/
def opsF (d a b c : Nat) (t : TCode) (fn k mx : Nat) : Ops := ⟨d, .reg a, .reg b, .reg c, fn, t, k, .rne, false, mx⟩

/-- A 4 x 4 tensor of I32 in core 0's local memory. -/
def tLocal : Tsr :=
  { base := 0xF100000000002000, rag := 0, ext := [4, 4, 1, 1], stride := [16, 0, 0, 0], origin := [0, 0, 0, 0], tile := [1, 1, 1, 1], ctrl := 0x24 }
/-- The same in global memory. -/
def tGlobal : Tsr := { tLocal with base := 0x100000 }
/-- The square [0, 2) x [0, 2) of tensor n. -/
def square (n : Nat) : Region := { Region.init with tsr := n, rank := 2, lat := [(0, 0), (0, 0)], boxes := [[(0, 2), (0, 2)]] }
/-- A ring of four slots of 8 KiB, with two filled. -/
def ring0 : Ring := { tail := 2, head := 0, occ := 2, count := 4, slotsz := 32, base := 64, sbase := 0, scl := false }
/-- A page of global memory at 0x100000, mapped one to one. -/
def page : TlbEntry := { root := 0, va := 0x100000, pa := 0x100000, size := 15, r := true, w := true, x := true, pte := 0x80000 }
/-- A tile of E4M3 in core 0's local memory. -/
def key0 : WKey := ⟨0xF100000000004000, .e4m3, 0, 0, .rne, none⟩

/-- Core 0, with records, regions, a ring, a key and a slot row. -/
def core0 : Core :=
  { Core.init with
    t := [(1, tLocal), (2, tGlobal), (3, { tLocal with base := 0xF100000000003000 })], g := [(1, square 1), (2, square 2), (3, { square 1 with owner := 1 }), (4, Region.init)],
    o := [(0, ring0)], key := some key0, dtlb := [page], hlim := 10, rows := [⟨0, 64, 1⟩] }

/-- The scalars of the context: pointers to local, shared and global memory, small numbers, and local offsets. -/
def regs : Tab Word :=
  [(1, 0xF100000000001000), (2, 3), (3, 0xF200000000000000), (4, 0x100000), (5, 0x2000), (6, 64), (7, 0xF100000000002000), (8, 1), (9, 0x1100),
   (10, 0xF300000000000000), (11, 0x40004), (63, 0x2000)]

/-- The control context of core 0, running at 0x1000 in USER mode. -/
def ctx0 : Ctx := { Ctx.init statReset with pc := 0x1000, life := .live, s := regs }

/-- A small machine. -/
def lab : State := { State.reset with ctxs := [(0, ctx0)], cores := [(0, core0)] }
/-- The same in HANDLER mode. -/
def labH : State := { lab with ctxs := [(0, { ctx0 with stat := 0x101 })] }
/-- A helper of core 0 that issues, its control context live. -/
def labX : State := { lab with ctxs := [(0, ctx0), (1, { ctx0 with pc := 0x2000 })], cur := 1 }
/-- Supervisor core 0. -/
def labS : State := { State.reset with ctxs := [(0x20000, { ctx0 with stat := statSupervisor })], cur := 0x20000 }
/-- A program context of memory core 0. -/
def labM : State := { State.reset with ctxs := [(0x10000, { ctx0 with starter := some (0, 0) })], cores := [(0x10000, core0)], cur := 0x10000 }
/-- The small machine with core 0 changed. -/
def labC (f : Core → Core) : State := { lab with cores := [(0, f core0)] }
/-- The small machine with its context changed. -/
def labK (f : Ctx → Ctx) : State := { lab with ctxs := [(0, f ctx0)] }
/-- A machine about to run a word of n bits. -/
def labW (n w : Nat) : State := lab.withFetchWord n w

/-- An EXT64 of a format W form: its Q one that the form admits, IMM32 in the form's range, the other fields zero (R192). -/
def ext0 (i : Op) (o : Ops) : Ext :=
  let imm := match i with | .gprj => 1 | .mma => 0x330 | .xmma => 0x330 | .xget => o.mx | _ => 0
  ⟨imm, 0, 0, i.row.q.headD 0, 0, 0, 0⟩

/-- An instruction with operands is well-formed and takes its effect. -/
def goes (s : State) (home : Bool) (l : List (Op × Ops)) : Bool :=
  l.all fun x => wfParts x.1 hd x.2 (ext0 x.1 x.2) && decide (Goes x.1 hd x.2 home s)

/-- What a context's register holds after a step. -/
def after (o : Out) (cid n : Nat) : Option Word := match o with | .next t => some ((t.ctx cid).sreg n) | _ => none
/-- Where a context stands after a step. -/
def pcAfter (o : Out) (cid : Nat) : Option Word := match o with | .next t => some (t.ctx cid).pc | _ => none

/-! ## Ill-formed terms -/

theorem test_wf_accepts : (Instr.add hd (ops 3 1 2 0 .i64)).wf = true := by decide
theorem test_wf_register : (Instr.add hd (ops 64 1 2 0 .i64)).wf = false := by decide
theorem test_wf_predicate : (Instr.add ⟨8, false, false⟩ (ops 3 1 2 0 .i64)).wf = false ∧ (Instr.add ⟨0, true, false⟩ (ops 3 1 2 0 .i64)).wf = false := by
  decide
theorem test_wf_type : (Instr.add hd (ops 3 1 2 0 .f32)).wf = false := by decide
theorem test_wf_unused : (Instr.add hd (ops 3 1 2 4 .i64)).wf = false := by decide
theorem test_wf_modifier : (Instr.add hd { ops 3 1 2 0 .i64 with sat := true }).wf = false := by decide
theorem test_wf_function : (Instr.vcmp hd (opsF 1 1 2 0 .i32 8 0 0)).wf = false := by decide
theorem test_wf_two_constants : (Instr.add hd { ops 3 0 0 0 .i64 with a := .cw 1, b := .cw 2 }).wf = false := by decide
theorem test_wf_immediate_size : (Instr.add hd { ops 3 1 0 0 .i64 with b := .imm (2 ^ 32) }).wf = false := by decide
theorem test_wf_immediate_place : (Instr.add hd { ops 3 0 2 0 .i64 with a := .imm 1 }).wf = false := by decide
theorem test_wf_form : (Instr.ret hd { ops 0 0 0 0 .i8 with b := .imm 1 }).wf = false := by decide
theorem test_wf_wide : (Instr.add ⟨0, false, true⟩ (ops 3 1 2 0 .i64)).wf = false := by decide
theorem test_wf_ext : (Instr.xget hd (opsF 1 3 0 0 .i8 0 0 1) ⟨2 ^ 32, 0, 0, 0, 0, 2, 9⟩).wf = false := by decide
theorem test_wf_group : (Instr.ld2 hd (ops 63 1 0 0 .i64)).wf = false := by decide
theorem test_wf_displacement : (Instr.br hd (2 ^ 33)).wf = false ∧ (Instr.brc hd 12 1 2 0).wf = false := by decide
theorem test_wf_loop : (Instr.loop ⟨0, .reg 5, false, 1, 4⟩).wf = false ∧ (Instr.loop ⟨0, .reg 5, true, 1, 67⟩).wf = false := by decide
theorem test_wf_movi : (Instr.movi hd 1 .i64 (2 ^ 64)).wf = false := by decide
theorem test_wf_fmt : (Instr.fmt .f32 false .rtz 0).wf = false := by decide
theorem test_wf_event : Instr.packageReset.wf = false := by decide

/-! ## Words of the spec -/

/-- Section 12: ADD s3, s1, #-5. -/
theorem test_decode_add : decode 0xFFFFFFFB0000300000010C41 = some (.add hd { ops 3 1 0 0 .i64 with b := .imm 0xFFFFFFFB }, 12) := by decide
/-- Section 12: MFSR s7, SSN. -/
theorem test_decode_mfsr : decode 0x0006000000001C1C = some (.mfsr hd (opsF 7 0 0 0 .i8 0 0x0C 0), 8) := by decide
/-- Section 12: LOOP.rot.rs1 lc0, s5 with END 4. -/
theorem test_decode_loop : decode 0x0000000418005124 = some (.loop ⟨0, .reg 5, true, 1, 4⟩, 8) := by decide
/-- Section 13: LD.i32 s7, [s4+0x40]. -/
theorem test_decode_ld : decode 0x000000400000200000041D41 = some (.ld hd { ops 7 4 0 0 .i32 with b := .imm 0x40 }, 12) := by decide
/-- Section 13: XGET.adv t9, t2, g3, o1, #2. -/
theorem test_decode_xget :
    decode 0x00000002000002092000000000030722 = some (.xget hd (opsF 1 3 0 0 .i8 0 0 1) ⟨2, 0, 0, 0, 0, 2, 9⟩, 16) := by decide
/-- Section 16: MMA.e4m3 a1, o2, 48 rows at priority 3 with hold limit 0. -/
theorem test_decode_mma : decode 0x0000033000000000000040000002077E = some (.mma hd (ops 1 2 0 0 .e4m3) ⟨0x330, 0, 0, 0, 0, 0, 0⟩, 16) := by decide
/-- Section 16: POSL s20, s4, s5. -/
theorem test_decode_posl : decode 0x00000000014453A8 = some (.posl hd (ops 20 4 5 0 .i8), 8) := by decide
/-- Section 24: SPCV.loc s9, s2. -/
theorem test_decode_spcv : decode 0x000000C000022558 = some (.spcv hd (opsF 9 2 0 0 .i8 3 0 0), 8) := by decide
/-- Section 24: XSTS s16, s16, s18, #0. -/
theorem test_decode_xsts :
    decode 0x00000000002000000000000120104332 = some (.xsts hd (ops 16 16 0 18 .i8) ⟨0, 0, 0, 2, 0, 0, 0⟩, 16) := by decide


/-- Section 11: (p3) SUB.i64 s9, s4, cw[17]; with B left in the field, reason 0x09. -/
theorem test_decode_sub :
    decode 0x0108B00C00042444 = some (.sub ⟨3, false, false⟩ { ops 9 4 0 0 .i64 with b := .cw 17 }, 8) ∧
    (decodeWord (0x0108B00C00042444 + 4 * 2 ^ 22)).reject = some .constant := by decide
/-- Section 14: VFMA.f32 v4, v5, v6, v7, and VADD.i32.k2.z v1, v2, v3. -/
theorem test_decode_vector :
    decode 0x00007800718511CC = some (.vfma hd (ops 4 5 6 7 .f32), 8) ∧
    decode 0x000D200000C205C0 = some (.vadd hd (opsF 1 2 3 0 .i32 0 0x1A 0), 8) := by decide
/-- Section 15: GMK g1, t4, s10, and GSUB.bl8.outer g2, g1, g3. -/
theorem test_decode_region :
    decode 0x00000000028406C0 = some (.gmk hd (ops 1 4 10 0 .i8), 8) ∧
    decode 0x00000000180300000000000000010ADE = some (.gsub hd (ops 2 1 0 0 .i8) ⟨0, 1, 8, 0, 3, 0, 0⟩, 16) := by decide
/-- Section 19: HSIFT s0, s5, s9, s8. -/
theorem test_decode_hsift : decode 0x00000000824503B4 = some (.hsift hd (ops 0 5 9 8 .i8), 8) := by decide
/-- From R194 bit by bit: BRC.ne s4, s0 by -3, with OP 0x45: DISP -3 in [63:30], CND 1 in [25:22], A 4 in [15:10]. -/
theorem test_decode_brc : decode (0x3FFFFFFFD * 2 ^ 30 + 1 * 2 ^ 22 + 4 * 2 ^ 10 + 0x45 * 4) = some (.brc hd 1 4 0 (-3), 8) := by decide
/-- From R190 bit by bit: FADD.rtz s3, s1, s2, and SPAWN #3 with s1 and s2. -/
theorem test_decode_float_and_task :
    decode (0x38 * 4 + 3 * 2 ^ 10 + 1 * 2 ^ 16 + 2 * 2 ^ 22 + 15 * 2 ^ 43 + 1 * 2 ^ 57) = some (.fadd hd { ops 3 1 2 0 .f32 with rm := .rtz }, 8) ∧
    decode (0xF0 * 4 + 1 * 2 ^ 16 + 2 * 2 ^ 22 + 3 * 2 ^ 38) = some (.spawn hd (opsF 0 1 2 0 .i8 3 0 0), 8) := by decide
/-- From R190 and R250: AADD.u32 s3, [s1], s2; and R244: ST.i8 [s1+4], s2 with IMM32 in the word above. -/
theorem test_decode_memory :
    decode (0x5E * 4 + 3 * 2 ^ 10 + 1 * 2 ^ 16 + 2 * 2 ^ 28 + 5 * 2 ^ 43) = some (.aadd hd (ops 3 1 0 2 .u32), 8) ∧
    decode (0x51 * 4 + 1 + 1 * 2 ^ 16 + 2 * 2 ^ 28 + 4 * 2 ^ 64) = some (.st hd { ops 0 1 0 2 .i8 with b := .imm 4 }, 12) := by decide
/-- R200: FMT.e4m3.rtz.sc3, the prefix of R202's example; and a padding NOP (R188). -/
theorem test_decode_system :
    decode (0x05 * 4 + 1 * 2 ^ 38 + 8 * 2 ^ 43 + 1 * 2 ^ 57 + 3 * 2 ^ 61) = some (.fmt .e4m3 true .rtz 3, 8) ∧ decode 0 = some (.nop, 8) := by decide

/-! ## Single steps -/

/-- The small machine about to run section 12's ADD s3, s1, #-5 with s1 = 2. -/
def labAdd : State := { labW 96 0xFFFFFFFB0000300000010C41 with ctxs := [(0, { ctx0 with s := [(1, 2)] })] }
/-- Section 12 gives its result. -/
theorem test_step_add : after (step labAdd) 0 3 = some 0xFFFFFFFFFFFFFFFD ∧ pcAfter (step labAdd) 0 = some 0x100C := by decide
/-- R200, R201: FMT leaves V 1, RV 1, RND 001, SCM 11 and T2 8 in STAT[27:16]. -/
theorem test_step_fmt :
    (match exec (.fmt .e4m3 true .rtz 3) lab with | .next t => t.me.field 16 12 | _ => 0) = 8 + 16 * 3 + 64 * 1 + 512 + 1024 := by decide
/-- Section 12: BFX.sx s4, s2, #((8 << 8) | 60) reads 4 bits, [63:60], and sign-extends them. -/
theorem test_step_bfx :
    after (exec (.bfx hd { opsF 4 4 0 0 .i64 0 0 1 with a := .reg 63, b := .imm 0x83C }) (labK fun c => { c with s := [(63, 0x9000000000000000)] })) 0 4 =
      some 0xFFFFFFFFFFFFFFF9 := by decide
/-- R225: -2^63 by -1, and a division by zero. -/
theorem test_step_div :
    after (exec (.div hd (ops 3 1 2 0 .i64)) (labK fun c => { c with s := [(1, 0x8000000000000000), (2, BitVec.allOnes 64)] })) 0 3 =
      some 0x8000000000000000 ∧
    after (exec (.rem hd (ops 3 1 4 0 .i32)) (labK fun c => { c with s := [(1, 0xFFFFFFFB)] })) 0 3 = some 0xFFFFFFFFFFFFFFFB := by decide
/-- R234: BRC.lt compares signed values: -1 < 1. -/
theorem test_step_brc :
    pcAfter (exec (.brc hd 2 1 2 4) (labK fun c => { c with s := [(1, BitVec.allOnes 64), (2, 1)] })) 0 = some 0x1010 ∧
    pcAfter (exec (.brc hd 6 1 2 4) (labK fun c => { c with s := [(1, BitVec.allOnes 64), (2, 1)] })) 0 = some 0x1008 := by decide
/-- R228: 1.0 + 2.0 is 3.0; R230: the maximum of NaN and a number is the canonical NaN. -/
theorem test_step_float :
    after (exec (.fadd hd (ops 3 1 2 0 .f32)) (labK fun c => { c with s := [(1, 0x3F800000), (2, 0x40000000)] })) 0 3 = some 0x40400000 ∧
    after (exec (.fmax hd (ops 3 1 2 0 .f32)) (labK fun c => { c with s := [(1, 0x7FC00001), (2, 0x40000000)] })) 0 3 = some 0x7FC00000 := by decide
/-- R129's example: 464.0 converts to E4M3 as 448, 0x7E; 465.0 as NaN, 0x7F. -/
theorem test_convert_e4m3 :
    (roundTo .e4m3 (widen .f32 0x43E80000) .rne false true).1 = 0x7E ∧ (roundTo .e4m3 (widen .f32 0x43E88000) .rne false true).1 = 0x7F := by decide
/-- R126's example: the four E3M2 elements 0x0C, 0x1F, 0x01, 0x28 lie in the bytes CC 17 A0. -/
theorem test_pack_e3m2 : packedElems .e3m2 4 [0xCC, 0x17, 0xA0] = [0x0C, 0x1F, 0x01, 0x28] := by decide
/-- R244: a byte stored to local memory reads back with its sign. -/
theorem test_step_store :
    (match exec (.st hd (ops 0 1 0 11 .i8)) (labK fun c => { c with s := tins c.s 11 0x80 }) with
     | .next t => after (exec (.ld hd (ops 3 1 0 0 .i8)) t) 0 3 | _ => none) = some 0xFFFFFFFFFFFFFF80 := by decide
/-- R394: a breakpoint enters the handler at XBASE + 64 x 4 with XVAL n, and XCAUSE names the cause, exact, of 2 words. -/
theorem test_step_brk :
    (match exec (.brk hd { ops 0 0 0 0 .i8 with k := 7 }) lab with
     | .next t => (t.me.pc.toNat, t.me.xpc.toNat, t.me.xval.toNat, t.me.xcause.toNat, t.me.mode) | _ => (0, 0, 0, 0, 0)) =
      (0x100, 0x1000, 7, 0x204, 1) := by decide

/-! ## Witnesses: states and operands that meet the hypotheses of each statement together -/

/-- Whether a step answers a next state. -/
def answers (o : Out) : Bool := match o with | .next _ => true | _ => false

theorem witness_DecodeOfEncode : (Instr.add hd (ops 63 1 2 0 .u32)).wf = true ∧ (Instr.brc hd 11 63 1 (-(2 ^ 33))).wf = true ∧
    (Instr.xget hd (opsF 3 3 0 0 .i8 0 0 1) ⟨2, 0, 0, 3, 0, 63, 9⟩).wf = true := by decide
theorem witness_EncodeOfDecode : (decode 0x00007800718511CC).isSome = true := by decide
theorem witness_StepRunsDecoded :
    let s := labW 96 0xFFFFFFFB0000300000010C41
    let t := s.tick
    Turn s t ∧ (t.atBoundary t.cur && t.takesAsync t.cur) = false ∧ t.me.ready = true ∧
      t.fetch t.cur t.me.pc.toNat = .bytes (tableBytes 96 0xFFFFFFFB0000300000010C41) ∧
      decode (fetched (tableBytes 96 0xFFFFFFFB0000300000010C41) t.me.pc) = some (.add hd { ops 3 1 0 0 .i64 with b := .imm 0xFFFFFFFB }, 12) ∧
      crosses t.me.pc.toNat 12 = false := ⟨⟨by decide, .inl ⟨by decide, rfl⟩⟩, by decide⟩
theorem witness_StepRunsEvent : ∃ i r, lab.birhiry.frozen = false ∧ ({ lab with agenda := [.event .uetRetransmit] } : State).agenda = .event i :: r :=
  ⟨.uetRetransmit, [], by decide, rfl⟩
/-- An unassigned major (R206). -/
theorem witness_FetchRejects_encoding :
    let s := labW 64 (0xFF * 4)
    let t := s.tick
    Turn s t ∧ (t.atBoundary t.cur && t.takesAsync t.cur) = false ∧ t.me.ready = true ∧
      t.fetch t.cur t.me.pc.toNat = .bytes (tableBytes 64 (0xFF * 4)) ∧ (decodeWord (fetched (tableBytes 64 (0xFF * 4)) t.me.pc)).instr = none ∧
      (decodeWord (fetched (tableBytes 64 (0xFF * 4)) t.me.pc)).reject = some .opcode ∧ fetched (tableBytes 64 (0xFF * 4)) t.me.pc % 4 ≠ 3 ∧
      crosses t.me.pc.toNat (decodeWord (fetched (tableBytes 64 (0xFF * 4)) t.me.pc)).len = false :=
  ⟨⟨by decide, .inl ⟨by decide, rfl⟩⟩, by decide⟩
theorem witness_FetchRejects_length : (0xFFFFFFFFFFFFFFFF : Nat) % 4 = 3 := by decide
/-- A 96-bit instruction 24 bytes into its block. -/
def labCross : State :=
  { State.reset with ctxs := [(0, { ctx0 with pc := 0x1018 })], cores := [(0, { core0 with blocks := [(0x80, toBytes 32 (2 ^ 192))] })] }
theorem witness_FetchRejects_boundary :
    let s := labCross
    let t := s.tick
    Turn s t ∧ (t.atBoundary t.cur && t.takesAsync t.cur) = false ∧ t.me.ready = true ∧
      t.fetch t.cur t.me.pc.toNat = .bytes (toBytes 32 (2 ^ 192)) ∧ fetched (toBytes 32 (2 ^ 192)) t.me.pc % 4 ≠ 3 ∧
      crosses t.me.pc.toNat (lenBytes (fetched (toBytes 32 (2 ^ 192)) t.me.pc % 4)) = true :=
  ⟨⟨by decide, .inl ⟨by decide, rfl⟩⟩, by decide⟩
/-- A machine whose context has a pending cause, and IE set. -/
def labPend : State := labK fun c => { c with stat := 0x108, pend := [{ code := 0x1A, val := 0, entry := none }] }
theorem witness_AsyncCauseTaken : Turn labPend labPend.tick ∧ labPend.tick.atBoundary labPend.tick.cur = true ∧ labPend.tick.me.mode = 0 ∧
    labPend.tick.me.ie = true ∧ (labPend.tick.core (coreKey labPend.tick.cur)).jholder = none ∧ labPend.tick.me.pend ≠ [] :=
  ⟨⟨by decide, .inl ⟨by decide, rfl⟩⟩, by decide⟩
theorem witness_AsyncCauseTaken_stays : (labH.ctx 0).mode ≠ 0 ∧ (lab.ctx 0).mode = 0 ∧ (lab.ctx 0).ie = false := by decide
theorem witness_FrozenHolds :
    ({ lab with birhiry := { lab.birhiry with frozen := true } } : State).birhiry.frozen = true ∧
      ∀ r, ({ lab with birhiry := { lab.birhiry with frozen := true } } : State).agenda ≠ .event .packageReset :: r :=
  ⟨by decide, by intro r h; cases h⟩
theorem witness_CanonicalKept : labAdd.Canonical ∧ answers (step labAdd) = true := ⟨by show Memory.wf _ = true; decide, by decide⟩
theorem witness_TrapEntry : isMemCore 0 = false ∧ (lab.ctx 0).mode ≠ 1 ∧ isMemCore 0x20000 = false ∧ (labS.ctx 0x20000).mode ≠ 1 ∧
    0x3F < 64 ∧ 4 < 8 := by decide
theorem witness_HandlerFaultStops : isMemCore 0 = false ∧ (labH.ctx 0).mode = 1 := by decide
theorem witness_ExceptionInstructions : goes lab true [(.brk, { ops 0 0 0 0 .i8 with k := 255 }), (.trap, ops 0 0 0 0 .i8)] = true ∧
    goes labH true [(.eret, ops 0 0 0 0 .i8)] = true ∧ labH.me.missPosl = none ∧ labH.me.owedAcq = none ∧
    labH.myCore.jholder ≠ some (ctxNo labH.cur) ∧ labH.myCore.spill = [] := by decide
theorem witness_IssueDiscipline_held : (labK fun c => { c with stopped := true }).me.ready = false := by decide
/-- A helper has no matrix instructions (R204, step 5). -/
theorem witness_IssueDiscipline_rejected : labX.me.ready = true ∧ labX.me.away = none ∧
    (vectorUnit .vadd && isControl labX.cur && labX.myCore.vpath.isSome) = false ∧
    (stateReject .vadd (dynReject .vadd (ops 1 2 3 0 .f32) labX) labX.cur labX.me).isSome = true := by decide
theorem witness_IssueDiscipline_privileged : (Instr.eret hd (ops 0 0 0 0 .i8)).op = some .eret ∧ lab.me.ready = true ∧ lab.me.away = none ∧
    (vectorUnit .eret && isControl lab.cur && lab.myCore.vpath.isSome) = false ∧
    stateReject .eret (dynReject .eret (ops 0 0 0 0 .i8) lab) lab.cur lab.me = none ∧ privileged .eret 0 lab.cur lab.me = true := by decide
theorem witness_IssueDiscipline_false : stateReject .add (dynReject .add (ops 3 1 2 0 .i64) lab) lab.cur lab.me = none ∧
    privileged .add 0 lab.cur lab.me = false ∧ lab.me.predicate ⟨1, false, false⟩ = false ∧ lab.me.ready = true := by decide

/-- Operands of an integer instruction at its three types. -/
def intForms (i : Op) (c : Nat) : List (Op × Ops) := [(i, ops 3 1 2 c .i64), (i, ops 3 1 2 c .i32), (i, { ops 3 1 0 c .u32 with b := .cw 255 })]
theorem witness_IntegerResults : goes lab true (([.add, .sub, .mul, .mulh, .mulhu, .and, .or, .xor, .andn, .shl, .shr, .sar, .rol, .min, .max,
    .minu, .maxu, .div, .divu, .rem, .remu] : List Op).flatMap fun i => intForms i 0) = true ∧
    goes lab true (intForms .mad 6 ++ [(.clz, ops 3 1 0 0 .i64), (.popc, ops 3 1 0 0 .u32)]) = true := by decide
theorem witness_CompareResults : goes lab true [(.cmp, opsF 1 1 2 0 .i64 0 0 0), (.cmp, opsF 7 1 2 0 .u32 7 0 0), (.cmpu, opsF 1 1 2 0 .i32 5 0 0),
    (.cmpu, opsF 0 1 2 0 .i64 6 0 0)] = true := by decide
theorem test_wf_fields : (Instr.bfx hd (opsF 3 1 2 0 .i64 0 0 2)).wf = false ∧ (Instr.bfi hd (opsF 3 1 2 4 .i64 0 0 1)).wf = false := by decide
theorem witness_MovesAndFields : goes lab true [(.sel, ops 3 1 2 7 .i64), (.mov, ops 3 0 2 0 .i64), (.bfx, opsF 3 1 2 0 .i64 0 0 1),
    (.bfi, ops 3 1 2 4 .i64), (.adds, ops 3 1 2 0 .u32), (.abs, { ops 3 1 0 0 .i32 with sat := true }), (.neg, ops 3 1 0 0 .i64)] = true ∧
    GoesPlain .movi hd false lab := by decide
theorem witness_FloatResults : goes lab true [(.fadd, ops 3 1 2 0 .f32), (.fsub, { ops 3 1 2 0 .f32 with rm := .rup }), (.fmul, ops 3 1 2 0 .f32),
    (.ffma, ops 3 1 2 4 .f32), (.fdiv, ops 3 1 2 0 .f32), (.fsqrt, ops 3 1 0 0 .f32), (.fmin, ops 3 1 2 0 .f32), (.fmax, ops 3 1 2 0 .f32),
    (.fcmp, opsF 7 1 2 0 .f32 7 0 0), (.fcvt, opsF 3 1 0 0 .f16 0 0 1)] = true ∧ widen .f32 0x7F800001 = .nan ∧ widen .f32 0xFFFFFFFF = .nan := by
  decide
theorem witness_ScalarFrame : scalarOp .add = true ∧ scalarOp .fcmp = true ∧ goes lab true [(.add, ops 3 1 2 0 .i64), (.fcmp, opsF 7 1 2 0 .f32 7 0 0)] = true ∧
    answers (exec (.add hd (ops 3 1 2 0 .i64)) lab) = true ∧ answers (exec (.movi hd 3 .i64 5) lab) = true ∧ GoesPlain .movi hd false lab := by decide
theorem witness_HardwiredRegisters : goes lab true [(.add, ops 0 1 2 0 .i64)] = true := by decide

theorem witness_BranchesTransfer : GoesPlain .br hd false lab ∧ GoesPlain .brc hd false lab ∧ GoesPlain .call hd false lab ∧
    brcRule 0 (lab.me.sreg 1) (lab.me.sreg 1) = true ∧ brcRule 11 (lab.me.sreg 2) (lab.me.sreg 0) = false ∧
    goes lab true [(.ret, ops 0 0 0 0 .i8), (.jmpr, ops 3 63 0 0 .i8), (.jtab, ops 0 63 2 8 .i8)] = true ∧
    (lab.arg (.reg 63)).toNat % 4 = 0 ∧ (lab.arg (.reg 9)).toNat % 4 = 0 ∧ ((labK fun c => { c with s := [(63, 0x2002)] }).arg (.reg 63)).toNat % 4 ≠ 0 ∧
    (lab.arg (.reg 8)).toNat ≤ (lab.arg (.reg 2)).toNat ∧ (lab.arg (.reg 8)).toNat < (lab.arg (.reg 2)).toNat := by decide
/-- A machine with a block of a jump table fetched. -/
def labTab : State := labC fun c => { c with blocks := [(0x100, toBytes 32 0x40)] }
theorem witness_BranchesTransfer_table : goes labTab true [(.jtab, ops 0 63 0 2 .i8), (.jtab, ops 0 7 0 2 .i8)] = true ∧
    (labTab.arg (.reg 0)).toNat < (labTab.arg (.reg 2)).toNat ∧ (labTab.arg (.reg 63)).toNat % 4 = 0 ∧
    labTab.fetch labTab.cur (labTab.arg (.reg 63) + 4 * labTab.arg (.reg 0)).toNat = .bytes (toBytes 32 0x40) ∧
    ((labK fun c => { c with s := [(2, 3), (7, 0x2001)] }).arg (.reg 7)).toNat % 4 ≠ 0 := by decide
/-- A machine inside a loop of one instruction, with three passes left, under a second level that ends there too. -/
def labLoop : State := labK fun c => { c with loops := [⟨0x1000, 0x1008, 3, true, false, 0, 0⟩, ⟨0x1000, 0x1008, 1, true, false, 0, 0⟩, Loop.off, Loop.off] }
theorem witness_HardwareLoops : GoesPlain .loop ⟨0, false, false⟩ true lab ∧ lab.arg (.reg 0) = 0 ∧ lab.arg (.reg 2) ≠ 0 ∧
    (lab.me.pc + BitVec.ofInt 64 (4 * 4)).toNat % 4 = 0 ∧ goes labLoop true [(.loopx, ops 0 0 0 0 .i8), (.loopx, ops 3 0 0 0 .i8)] = true ∧
    labLoop.me.loops[0]? = some ⟨0x1000, 0x1008, 3, true, false, 0, 0⟩ ∧ labLoop.me.loops[3]? = some Loop.off := by decide
theorem witness_HardwareLoops_end :
    let due (l : Loop) : Bool := l.active && l.fin == labLoop.me.pc + BitVec.ofNat 64 8
    labLoop.me.loops[0]? = some ⟨0x1000, 0x1008, 3, true, false, 0, 0⟩ ∧ due ⟨0x1000, 0x1008, 3, true, false, 0, 0⟩ = true ∧
      1 < (3 : Word).toNat ∧ (∀ m, m < 4 → 0 < m → ∀ x, labLoop.me.loops[m]? = some x → due x = true → x.count.toNat ≤ 1) ∧
      ∀ l ∈ lab.me.loops, due l = true → l.count.toNat ≤ 1 := by
  refine ⟨by decide, by decide, by decide, ?_, by decide⟩
  intro m h h0 x hx
  have : m = 1 ∨ m = 2 ∨ m = 3 := by omega
  rcases this with rfl | rfl | rfl <;> cases hx <;> decide

/-- The location that an access of local memory finds at a pointer register of the small machine. -/
def findsLoc (s : State) (p al : Nat) (k : AKind) : Bool := match s.access s.cur p al k with | .loc _ => true | _ => false

/-- The boundaries of the windows (R66): the last offset of each, and pointers that are no space. -/
theorem witness_AccessesChecked_windows :
    spaceCode (2 ^ 50 - 1) = 1 ∧ spaceCode (2 ^ 50) = 0 ∧ spaceCode (0xF1 * 2 ^ 56 + 3071 * 2 ^ 36 + (2 ^ 17 - 1)) = 3 ∧
    spaceCode (0xF1 * 2 ^ 56 + 2 ^ 17) = 0 ∧ spaceCode (0xF0 * 2 ^ 56 + 10 * 2 ^ 32) = 2 ∧ spaceCode (0xF0 * 2 ^ 56 + 11 * 2 ^ 32) = 0 ∧
    spaceCode (0xF2 * 2 ^ 56 + 383 * 2 ^ 38 + (2 ^ 19 - 1)) = 4 ∧ spaceCode (0xF3 * 2 ^ 56 + 23 * 2 ^ 40 + 0xBFFFFFF) = 5 ∧
    spaceCode (0xF3 * 2 ^ 56 + 24 * 2 ^ 40) = 0 ∧ spmkLimit 3 = 2 ^ 17 := by decide
/-- Pointers of each case of R67 and of the windows' rules. -/
theorem witness_AccessesChecked_order :
    let own (p al : Nat) : Bool := ownsPtr 0 p && decide (p % al = 0)
    spaceCode (2 ^ 63) = 0 ∧ (spaceCode 0xF100001000001000 ≠ 0 ∧ ownsPtr 0 0xF100001000001000 = false) ∧
    (ownsPtr 0 0xF100000000001001 = true ∧ 0xF100000000001001 % 4 ≠ 0) ∧
    own 0xF1000000000007F8 8 = true ∧ spaceCode 0xF1000000000007F8 = 3 ∧ own 0xF100000000000800 8 = true ∧ (lab.ctx 0).mode = 0 ∧
    own 0xF100000000001000 8 = true ∧ (labH.ctx 0).mode ≠ 0 ∧ own 0xF200000000000000 8 = true ∧ spaceCode 0xF200000000000000 = 4 ∧
    own 0xF300000000000000 8 = true ∧ spaceCode 0xF300000000000000 = 5 ∧ own 0x100000 8 = true ∧ spaceCode 0x100000 = 1 := by decide
theorem witness_AccessesChecked_raised : goes lab true [(.ld, ops 3 2 0 0 .i32), (.st, ops 0 2 0 6 .i32)] = true ∧
    lab.access lab.cur (lab.addr (ops 3 2 0 0 .i32)).toNat 4 .load = .cause 0x0A 3 ∧
    lab.access lab.cur (lab.addr (ops 0 2 0 6 .i32)).toNat 4 .store = .cause 0x0A 3 := by decide

theorem witness_LoadsComplete : goes lab true [(.ld, ops 3 1 0 0 .i16), (.ld, ops 3 3 0 0 .i64), (.ld, ops 3 10 0 0 .u8), (.ld2, ops 20 1 0 0 .i64),
      (.ld, ops 3 4 0 0 .i32)] = true ∧ lab.unwatched ∧
    lab.access lab.cur 0xF100000000001000 8 .load = .loc 0x1000 ∧ lab.access lab.cur 0xF200000000000000 8 .load = .shared (locShared 0 0) ∧
    lab.access lab.cur 0xF300000000000000 1 .load = .weight (locWeight 0 0) ∧
    lab.poisoned (locLocal 0 0x1000) 16 = false ∧ lab.access lab.cur 0x100000 4 .load = .global 0x100000 page := by decide
/-- Outside its refresh window a weight store answers (R74, R75). -/
theorem witness_LoadsComplete_weight : ({ lab with cyc := 40 } : State).refreshing (locWeight 0 0) = false := by decide
theorem witness_SpaceInstructions : goes lab true [(.pref, ops 0 4 0 0 .i8), (.lea, { ops 3 1 0 0 .i8 with b := .imm 0xFFFFFFFF }), (.spq, ops 3 1 0 0 .i8),
      (.spcv, opsF 3 1 0 0 .i8 3 0 0), (.spcv, opsF 3 1 0 0 .i8 4 0 0), (.spmk, opsF 3 2 0 0 .i8 3 0 0), (.spmk, opsF 3 7 0 0 .i8 3 0 0),
      (.chkb, opsF 1 1 0 0 .i64 0 0 1)] = true ∧
    spaceCode (lab.arg (.reg 1)).toNat = 3 ∧ ownsPtr 0 (lab.arg (.reg 1)).toNat = true ∧ (lab.arg (.reg 2)).toNat < spmkLimit 3 ∧
    spmkLimit 3 ≤ (lab.arg (.reg 7)).toNat := by decide
theorem witness_StoresComplete : goes lab true [(.st, ops 0 1 0 11 .i32), (.st2, ops 0 1 0 20 .i64), (.st, ops 0 3 0 2 .i64), (.st, ops 0 4 0 2 .i8)] = true ∧
    lab.unwatched ∧ lab.access lab.cur 0xF100000000001000 16 .store = .loc 0x1000 ∧
    lab.access lab.cur 0xF200000000000000 8 .store = .shared (locShared 0 0) ∧ (lab.openEntry 0 0xF200000000000000).isSome = true ∧
    lab.access lab.cur 0x100000 1 .store = .global 0x100000 page ∧ ((lab.touchTlb lab.cur page).openEntry 0 0x100000).isSome = true := by decide
/-- The small machine with every journal entry of core 0 open (R402). -/
def labFull : State := { lab with mem := (List.range 32).map fun j => (locLocal 0 (jrnOff j + 0x17), 1) }
theorem witness_StoresComplete_full : goes labFull true [(.st, ops 0 3 0 2 .i64)] = true ∧ labFull.openEntry 0 0xF200000000000000 = none ∧
    labFull.access labFull.cur 0xF200000000000000 8 .store = .shared (locShared 0 0) := by decide

/-- The lock bit of the word at local offset 0x1000. -/
def bit0 : LockBit := lockBitAt (locLocal 0 0x1000)
/-- A machine whose context holds that bit, and one in which a helper holds it. -/
def labLock : State := { lab with ctxs := [(0, { ctx0 with lock := some bit0 })], cores := [(0, { core0 with locks := [(bit0, 0)] })] }
def labLock1 : State := { lab with cores := [(0, { core0 with locks := [(bit0, 1)] })] }
/-- The integer atomics at a type. -/
def atomicForms (t : TCode) : List (Op × Ops) :=
  ([.aadd, .aand, .aor, .axor, .aswp, .acas, .amin, .amax, .llk, .sul] : List Op).map fun i => (i, ops (if i = .acas then 6 else 20) 1 0 (if i = .llk then 0 else 2) t)
theorem witness_AtomicsComplete : goes lab true (atomicForms .i64 ++ atomicForms .u32) = true ∧ lab.atomicMay lab.cur = true ∧ lab.unwatched ∧
    lab.access lab.cur 0xF100000000001000 8 .atomic = .loc 0x1000 ∧ lab.access lab.cur 0xF100000000001000 8 .lock = .loc 0x1000 ∧
    lab.poisoned (locLocal (coreNo lab.cur) 0x1000) 8 = false ∧ ((lab.dropLock lab.cur).wantLock lab.cur bit0).2 = true ∧
    ((labLock1.dropLock labLock1.cur).wantLock labLock1.cur bit0).2 = false ∧ labLock.me.lock = some bit0 ∧ lab.me.lock ≠ some bit0 := by decide
theorem witness_AtomicsComplete_cells : goes lab true [(.faadd, ops 0 1 0 2 .f32), (.ecrd, ops 3 1 0 0 .f32), (.ecclr, ops 0 1 0 0 .i8)] = true ∧
    lab.access lab.cur 0xF100000000001000 64 .atomic = .loc 0x1000 ∧ lab.poisoned (locLocal (coreNo lab.cur) 0x1000) 64 = false ∧
    widen .f32 1 = .fin false 1 (-149) := by decide
set_option exponentiation.threshold 512 in
/-- The cell that holds -1 unit passes the bounds of an addition. -/
theorem witness_AtomicsComplete_bounds : (2 ^ 320 - 1 : Nat) < 2 ^ 512 ∧ (2 ^ 320 - 1 : Nat) / 2 ^ 320 % 256 = 0 ∧ sext 320 (2 ^ 320 - 1) + 1 < 2 ^ 319 ∧
    -(2 ^ 319) ≤ sext 320 (2 ^ 320 - 1) + 1 := by decide

/-- A handler with a pending cause. -/
def labPendH : State := labK fun c => { c with stat := 0x101, pend := [{ code := 0x1A, val := 0, entry := none }] }
theorem witness_SystemInstructions : GoesPlain .nop ⟨0, false, false⟩ false lab ∧ GoesPlain .fmt ⟨0, false, false⟩ true lab ∧
    goes labH true [(.mfsr, opsF 7 0 0 0 .i8 0 0x40 0), (.mtsr, opsF 0 1 0 0 .i8 0 5 0), (.fencei, ops 0 0 0 0 .i8)] = true ∧
    goes lab true [(.mfsr, opsF 7 0 0 0 .i8 0 0x0D 0), (.sysc, ops 3 1 2 0 .i8)] = true ∧
    goes labH true [(.waiti, ops 0 0 0 0 .i8)] = true ∧ goes labPendH true [(.waiti, ops 0 0 0 0 .i8)] = true ∧ labPendH.me.pend ≠ [] ∧ labH.me.pend = [] := by decide
theorem witness_SystemInstructions_idle : goes labS true [(.idle, ops 0 0 0 0 .i8)] = true ∧
    ({ labS with bells := [0x20000] } : State).bells.contains (coreKey labS.cur) = true ∧ labS.bells.contains (coreKey labS.cur) = false := by decide
theorem witness_SystemRegisters : isCompute 0 = true ∧ ((labC fun c => { c with launch := some 1 }).core (0 / 16)).launch = some 1 ∧
    (lab.ctx 0).mode = 0 ∧ (labH.ctx 0).mode ≠ 0 := by decide

/-! ### Vectors -/

theorem witness_VectorResults : goes lab true (([.vadd, .vsub, .vmul, .vmin, .vmax] : List Op).map fun i => (i, opsF 4 5 6 0 .f32 0 0x1A 0)) = true ∧
    goes lab true [(.vfma, ops 63 5 6 7 .bf16), (.vabs, ops 4 5 0 0 .i8), (.vneg, ops 4 5 0 0 .f16), (.vand, ops 4 5 6 0 .u8), (.vor, ops 4 5 6 0 .i32),
      (.vxor, ops 4 5 6 0 .u16), (.vshl, ops 4 5 6 0 .i16), (.vshr, ops 4 5 6 0 .u32), (.vsar, ops 4 5 6 0 .i8), (.vrcp, ops 4 5 0 0 .f32),
      (.vrsq, ops 4 5 0 0 .f32), (.vexp2, ops 4 5 0 0 .f32), (.vlog2, ops 4 5 0 0 .f32), (.vcmp, opsF 7 5 6 0 .i8 5 0x0F 0),
      (.vcmp, opsF 0 5 6 0 .f32 7 0 0), (.vsel, ops 4 5 6 7 .u16)] = true ∧
    TCode.i8 ∈ [TCode.i8, .u8, .i16, .u16, .i32, .u32] ∧ 255 < 2 ^ TCode.i8.laneW := by decide
theorem witness_LaneMovement : goes lab true [(.vshuf, ops 4 5 6 7 .u8), (.vshufi, { ops 4 5 0 0 .f32 with b := .imm 0x10000005 }), (.vbcast, ops 4 1 0 0 .f32),
      (.vbcastLane, opsF 4 5 2 0 .f32 0 0 1), (.viota, ops 4 1 2 0 .u16), (.vmovs, ops 3 5 2 0 .i8), (.vmovsV, opsF 4 1 2 0 .i32 0 0 1),
      (.vred, opsF 4 5 0 0 .i32 0 0 0), (.vred, opsF 4 5 0 0 .f32 0 0x1F 2), (.vscan, opsF 4 5 0 0 .u32 0 0 0), (.vvote, opsF 3 5 0 0 .i32 0 0 0),
      (.vmatch, opsF 3 5 0 0 .i32 0 0 0), (.vmatchLeader, opsF 4 5 0 0 .i32 3 0 0), (.vpopc, ops 3 2 0 0 .i32), (.vpopcPre, opsF 4 2 0 0 .i32 1 0 0)] =
    true := by decide
theorem test_wf_mask : wfParts .kopNot hd (opsF 1 2 0 0 .i8 11 0 0) .zero = false ∧ wfParts .kopLogic hd (opsF 1 2 3 0 .u8 0 0 0) .zero = false := by decide
theorem witness_MaskOperations : goes lab true [(.kopLogic, opsF 1 2 3 0 .i8 3 0 0), (.kopNot, opsF 1 2 0 0 .i8 4 0 0), (.kopMov, opsF 1 2 0 0 .i8 5 0 0),
      (.kopSet, opsF 1 2 3 0 .i8 6 0 0), (.kopLen, opsF 1 2 0 0 .i8 7 0 0), (.kopFirst, opsF 7 1 0 0 .i8 8 0 0), (.kopLo, opsF 3 1 0 0 .i8 9 0 0),
      (.kopHi, opsF 3 1 0 0 .i8 10 0 0)] = true := by decide
/-- A machine with a pending prefix for E4M3 (R201). -/
def labFmt : State := labK fun c => { c with stat := 0x100 ||| ((8 ||| 1024) <<< 16) }
theorem witness_Conversions : goes labFmt true [(.vcvt, ops 4 8 0 0 .f32), (.vcvt, ops 4 8 0 0 .bf16)] = true ∧
    goes lab true [(.vqnt, ops 4 8 2 0 .e4m3), (.vdqnt, ops 4 8 2 0 .f32), (.vamax, opsF 3 8 0 0 .f32 0 0 2), (.vpack, ops 4 8 0 0 .e2m1),
      (.vunpk, ops 4 8 0 0 .e3m2)] = true := by decide
theorem witness_Conversions_vmvp : goes lab true [(.vmvp, ops 4 1 7 6 .e4m3)] = true ∧
    lab.vecSpan 0xF100000000001000 (rowBytes .e4m3) 4 .load = none ∧ lab.vmvpFmt (ops 4 1 7 6 .e4m3) = .e4m3 ∧
    lab.vecSpan 0xF100000000002000 (128 * rowBytes .e4m3) 4 .load = none ∧ lab.poisonAt 0x1000 (rowBytes .e4m3) = none ∧
    lab.poisonAt 0x2000 (128 * rowBytes .e4m3) = none := by decide

/-- Every active lane of an access passes. -/
def lanesPass (s : State) (p n : Nat) (st : Bool) (al : Nat) (act : List Bool) (offs : List Int) : Bool :=
  (badPtr s.cur p).isNone && decide (s.scanLanes p n st al act offs = { upto := act.length, cause := none })
/-- Lane offsets of 4 bytes each, from a vector group of zeros. -/
theorem witness_VectorMemory : goes lab true [(.vld, ops 4 1 0 0 .f32), (.vlds, ops 4 1 0 6 .f32), (.vgath, ops 4 1 8 0 .i32), (.vldb, ops 4 1 0 0 .f32),
      (.vst, ops 0 1 0 4 .f32), (.vsts, ops 6 1 0 4 .f32), (.vscat, ops 0 1 8 4 .i32)] = true ∧ lab.unwatched ∧
    Op.vgath.row.t.contains .i32 = true ∧ Op.vscat.row.t.contains .i32 = true ∧ (0xF100000000001000 : Nat) % 4 = 0 ∧
    (lab.arg (.reg 6)).toInt % (4 : Nat) = 0 ∧ (lab.actives 0 32).any id = true ∧
    lanesPass lab 0xF100000000001000 4 false 1 (lab.actives 0 32) (strided 0xF100000000001000 4 32) = true ∧
    lanesPass lab 0xF100000000001000 4 true 1 (lab.actives 0 32) (strided 0xF100000000001000 64 32) = true ∧
    lanesPass lab 0xF100000000001000 4 true 4 (lab.actives 0 32) ((lab.vgroup 32 8 1).map fun (x : Nat) => localBase 0xF100000000001000 + x) = true ∧
    lab.vecSpan 0xF100000000001000 4 4 .load = none ∧ lab.poisonAt 0x1000 4 = none := by decide +kernel

/-- A machine with a vector-tile record: E4M3, rank 2, a 128 x 16 tile. -/
def tTile : Tsr := { tLocal with ext := [128, 16, 1, 1], stride := [16, 0, 0, 0], tile := [128, 16, 1, 1], ctrl := 0x28 }
def labTile : State := labC fun c => { c with t := [(1, tTile)] }
theorem witness_TileAndRegionLanes : goes labTile true [(.vtld, ops 16 1 0 1 .i8)] = true ∧ labTile.unwatched ∧
    labTile.tsr labTile.cur 1 = some tTile ∧ vtldShape tTile = .inl (8, 16) ∧ tTile.stride.getD 0 0 % 4 = 0 ∧
    lanesPass labTile 0xF100000000001000 (16 * 8 / 8) false 1 (labTile.actives 0 128) (strided 0xF100000000001000 16 128) = true := by decide +kernel
/-- The lanes of the first row of the square: VLDRG and VSTRG. -/
theorem witness_TileAndRegionLanes_region : goes lab true [(.vldrg, ops 4 1 20 1 .i8), (.vstrg, ops 0 1 20 4 .i8)] = true ∧
    let g := lab.region lab.cur 1
    let start := lab.point 20 g.rank
    let cells := laneCells g tLocal (0, 0) start 32
    let valid := ((lab.actives 0 32).zip cells).map fun x => x.1 && x.2.isSome
    let offs := cells.map fun c => localBase tLocal.base + (match c with | some c => c.rel | none => 0)
    lab.tsr lab.cur g.tsr = some tLocal ∧ tLocal.fmt = .i32 ∧ ragNeeded g tLocal start 32 = none ∧ valid.getD 1 false = true ∧
      lanesPass lab tLocal.base 4 false 1 valid offs = true ∧ lanesPass lab tLocal.base 4 true 1 valid offs = true ∧
      ((List.range 32).all fun e => !valid.getD e false || lab.granted lab.cur tLocal (lanePoint start e) true) = true ∧ tLocal.ro = false := by decide +kernel

/-! ### Regions -/

theorem witness_RegionResults : goes lab true [(.gclr, ops 5 1 0 0 .i8), (.gmk, ops 5 1 20 0 .i8), (.gmki, ops 5 1 20 0 .i8), (.gmkApp, opsF 1 0 20 0 .i8 0 0 1),
      (.gmov, ops 5 1 0 0 .i8), (.guni, ops 5 1 0 0 .i8), (.gint, ops 5 1 0 0 .i8), (.gsub, ops 5 1 0 0 .i8), (.gero, ops 5 1 0 0 .i8),
      (.gcan, ops 5 1 0 0 .i8), (.ghul, ops 5 1 0 0 .i8), (.glat, ops 5 1 0 0 .i8), (.glatUnit, opsF 5 1 0 0 .i8 1 0 0)] = true ∧
    lab.tsr lab.cur 1 = some tLocal ∧ lab.ownsRegion 5 = true ∧ lab.ownsRegion 1 = true ∧ gmkiLat 0x102 2 = .inr [(1, 0), (0, 0)] ∧
    regionBinary .guni (square 1) (square 1) = .inr ([(1, 0), (1, 0)], [[(0, 2), (0, 2)]]) ∧
    (match glatLat 0 2 with | .inr _ => true | _ => false) = true := by decide +kernel
/-- Rounding that fits, and that does not under TRAP (R306, R435). -/
theorem witness_RegionResults_round :
    (match roundRegion 1 .outer (square 1) [[(0, 1), (0, 1)]] with | .inr _ => true | _ => false) = true ∧
    roundRegion 1 .trap (square 1) [[(0, 1), (0, 1)], [(2, 3), (2, 3)]] = .inl 2 := by decide +kernel
/-- GMK.app: an empty box, a box with room, and a box on top of 16. -/
theorem witness_RegionResults_append : (lab.boxAt 20 2).any Ival.isEmpty = true ∧
    ((labK fun c => { c with s := [(20, 0x100000000), (21, 0x100000000)] }).boxAt 20 2).any Ival.isEmpty = false ∧
    ({ square 1 with boxes := List.replicate 16 [(0, 2), (0, 2)] } : Region).boxes.length = 16 := by decide +kernel
theorem witness_RegionReshaping : goes lab true [(.gdil, ops 5 1 0 0 .i8), (.gtrn, ops 5 1 20 0 .i8), (.gprj, ops 5 1 0 0 .i8), (.gspl, ops 5 1 20 0 .i8),
      (.grag, ops 5 1 0 0 .i8), (.gmov, ops 3 1 0 0 .i8), (.gown, ops 0 1 8 0 .i8), (.gown, ops 0 1 5 0 .i8)] = true ∧
    keepDims 3 (square 1).lat = [(0, 0), (0, 0)] ∧ ((List.range 4).filter (bitOf 3)).find? ((square 1).rank ≤ ·) = none ∧ tLocal.rank = 2 ∧
    lab.ownsRegion 5 = true ∧ lab.ownsRegion 6 = true ∧ lab.ownsRegion 3 = false ∧ isCompute lab.cur = true ∧ (lab.arg (.reg 8)).toNat ≤ 10 ∧
    10 < (lab.arg (.reg 5)).toNat ∧
    (match lab.ragMany tLocal (if tLocal.ragged && 2 ≤ (square 1).rank then tLocal.groupsOf (square 1) else []) with | .inr _ => true | _ => false) = true := by decide +kernel
theorem witness_RegionReshaping_split :
    let p := splitAt (square 1).lattice (square 1).canonical 0 1
    (match roundRegion 16 .outer (square 1) p.1, roundRegion 16 .outer (square 1) p.2 with | .inr _, .inr _ => true | _, _ => false) = true ∧ 0 < (square 1).rank := by decide +kernel
theorem witness_RegionQueries : goes lab true [(.gvol, ops 3 1 0 0 .i8), (.gnbx, ops 3 1 0 0 .i8), (.glatRd, opsF 3 1 0 0 .i8 2 0 0), (.gbox, ops 20 1 2 0 .i8),
      (.gwalk, ops 20 1 0 0 .i8), (.gwalk, ops 20 1 7 0 .i8), (.gtstPt, ops 1 1 20 0 .i8), (.gtstOvl, opsF 1 1 2 0 .i8 1 0 0), (.gtstSub, opsF 1 1 2 0 .i8 2 0 0),
      (.gtstEq, opsF 1 1 4 0 .i8 3 0 0)] = true ∧
    (findRun (square 1).lattice (square 1).boxes 0).isSome = true ∧ findRun (square 1).lattice (square 1).boxes 7 = none ∧
    (lab.region lab.cur 1).rank = (lab.region lab.cur 2).rank ∧ (lab.region lab.cur 1).rank ≠ (lab.region lab.cur 4).rank := by decide +kernel
/-- The bytes of the square as GST writes them, in local memory at 0x1000. -/
def labImg : State := { lab with mem := writeBytes [] (locLocal 0 0x1000) (regionBytes (square 1) 0) }
theorem witness_RegionQueries_memory : goes labImg true [(.gld, ops 5 1 0 0 .i8), (.gst, ops 0 1 0 1 .i8)] = true ∧ labImg.ownsRegion 5 = true ∧
    labImg.unwatched ∧ labImg.access 0 0xF100000000001000 32 .load = .loc 0x1000 ∧ labImg.access 0 0xF100000000001000 32 .store = .loc 0x1000 ∧
    pastEnd 0xF100000000001000 = false ∧ (match labImg.pieces 0 0xF100000000001000 .store 17 0 with | .inr _ => true | _ => false) = true ∧
    (match labImg.pieces 0 0xF100000000001000 .load 17 0 with
     | .inr as => (as.any fun a => labImg.poisoned (a.at 0) 32) == false && regionOfBytes (as.flatMap (labImg.pieceBytes 0)) 0 == .inr (square 1)
     | _ => false) = true := by decide +kernel
theorem witness_RegionQueries_round : (square 1).tsr < 64 ∧ 1 ≤ (square 1).rank ∧ (square 1).rank ≤ 4 ∧ (square 1).lat.length = (square 1).rank ∧
    (∀ l ∈ (square 1).lat, l.1 ≤ 8 ∧ l.2 < 2 ^ l.1) ∧ (square 1).boxes.length ≤ 16 ∧
    ∀ b ∈ (square 1).boxes, b.length = (square 1).rank ∧ ∀ i ∈ b, -(2 ^ 31) ≤ i.1 ∧ i.1 < 2 ^ 31 ∧ -(2 ^ 31) ≤ i.2 ∧ i.2 < 2 ^ 31 := by decide +kernel

/-! ### Engines -/

/-- A phased launch of cores 0 and 1, the compute phase of its domain 0, and a row of the slot table for core 0. -/
def launch1 : Launch := { Launch.init with stage := 1, phased := true, cores := [0, 1] }
def labP : State :=
  { State.reset with
    ctxs := [(0, { ctx0 with stat := 0x40000100 })], cores := [(0, { core0 with launch := some 1 }), (1, { Core.init with launch := some 1 })],
    launches := [(1, launch1)], domains := [(16, { Domain.init with members := [0, 1] })] }
/-- A tensor in the local memory of core 1. -/
def tPeer : Tsr := { tLocal with base := 0xF100001000002000 }
/-- The small machine with that tensor and a small one in the local memory of core 0. -/
def labX2 : State := labC fun c => { c with t := [(1, tLocal), (2, tGlobal), (3, { tLocal with base := 0xF100000000003000 }), (4, tPeer), (5, { tGlobal with base := 0x101000 })] }
/-- The operands EXT64 of a transfer from T2 to T1, of qx. -/
def ext (t1 t2 imm : Nat) : Ext := ⟨imm, 0, 0, 0, 0, t2, t1⟩
theorem witness_TransfersPlaced : goes labX2 true [(.xget, opsF 1 1 0 0 .i8 0 0 1), (.xsend, ops 0 1 0 0 .i8), (.xcopy, ops 0 1 0 0 .i8), (.xcnt, ops 0 1 0 0 .i8)] =
    true ∧ (labX2.file labX2.cur).outst.length < 32 ∧ (labX2.openEntry 2 tLocal.base).isSome = true ∧ labX2.isHeld .send tPeer.base = false := by
  decide +kernel
theorem witness_TransfersPlaced_get : TransferPasses .get (opsF 1 1 0 0 .i8 0 0 1) (ext 1 2 2) labX2 tGlobal tLocal := by
  unfold TransferPasses; decide +kernel
theorem witness_TransfersPlaced_send : TransferPasses .send (ops 0 1 0 0 .i8) (ext 4 1 0) labX2 tLocal tPeer := by unfold TransferPasses; decide +kernel
theorem witness_TransfersPlaced_copy : TransferPasses .copy (ops 0 1 0 0 .i8) (ext 5 2 0) labX2 tGlobal { tGlobal with base := 0x101000 } := by
  unfold TransferPasses; decide +kernel
theorem witness_TransfersPlaced_count : TransferPasses .cnt (ops 0 1 0 0 .i8) (ext 4 1 0x1FFF8) labX2 tLocal tPeer := by unfold TransferPasses; decide +kernel
theorem witness_TransfersPlaced_mma : goes labX2 true [(.xmma, ops 0 1 0 1 .e4m3)] = true ∧ (labX2.mmaKey (ops 0 1 0 1 .e4m3)).isSome = true ∧
    (match labX2.mmaKey (ops 0 1 0 1 .e4m3) with | some k => labX2.mmaAccess 0 k 0 1 16 1 .e4m3 | none => true) = false := by decide +kernel
theorem witness_TransfersPlaced_mma_passes : TransferPasses .mma (ops 0 1 0 1 .e4m3) (ext 1 2 0x10) labX2 tGlobal tLocal := by
  unfold TransferPasses; decide +kernel

theorem witness_QueueInstructions : goes labP true [(.xsts, ops 1 1 0 6 .i8), (.qmark, opsF 3 0 0 0 .i8 26 0 0), (.waitq, ops 3 0 0 0 .i8), (.waitq, ops 3 2 0 0 .i8),
      (.waitq, ops 3 4 0 0 .i8), (.qfence, opsF 0 0 0 0 .i8 0 15 0), (.waitg, ops 0 1 0 0 .i8), (.waitg, ops 0 4 0 0 .i8)] = true ∧
    labP.slotFault 0 64 = none ∧ inProgram 0x1000 64 = true ∧ inProgram 0x1FFC0 64 = true ∧ bits 0 34 30 = 0 ∧ bits (2 ^ 34) 34 30 ≠ 0 ∧
    ¬(∃ e ∈ ((labP.file labP.cur).queue 0).entries, ∃ scope ds, e.op = .mark 1 scope ds) ∧ (labP.region 0 4).isEmpty = true ∧
    labP.tsr 0 (labP.region 0 1).tsr = some tLocal ∧ labP.landingInto tLocal (labP.region 0 1) = false := by
  refine ⟨by decide, by decide, by decide, by decide, by decide, by decide, ?_, by decide, by decide, by decide⟩
  rintro ⟨e, h, _⟩
  have : ((labP.file labP.cur).queue 0).entries = [] := by decide
  rw [this] at h
  cases h
/-- A mark under way, and a landing that meets the square. -/
def labQ : State := labC fun c =>
  { c with q := [(0, ⟨[⟨0, 0, 0, .mark 1 1 none, none, false, 0⟩], 1, []⟩)], nextId := 1, outst := [⟨tLocal.base, [(0, 1), (0, 1)], 0, 0⟩] }
theorem witness_QueueInstructions_waits : (((labQ.file labQ.cur).queue 0).marks + 2 ^ 32 - 1) % 2 ^ 32 < 2 ^ 31 ∧
    2 ^ 31 ≤ (((labQ.file labQ.cur).queue 0).marks + 2 ^ 32 - 2) % 2 ^ 32 ∧
    (∃ e ∈ ((labQ.file labQ.cur).queue 0).entries, ∃ scope ds, e.op = .mark 1 scope ds) ∧ (labQ.region 0 1).isEmpty = false ∧
    labQ.landingInto tLocal (labQ.region 0 1) = true :=
  ⟨by decide, by decide, ⟨⟨0, 0, 0, .mark 1 1 none, none, false, 0⟩, by decide, 1, none, rfl⟩, by decide, by decide⟩

/-- A machine with the bytes of a record in local memory at 0x1000. -/
def labRec : State := { lab with mem := writeBytes [] (locLocal 0 0x1000) (toBytes 64 tLocal.toNat) }
theorem witness_BindingAndGrants : goes labRec true [(.tbind, ops 5 1 0 0 .i8), (.tunb, ops 5 0 0 0 .i8), (.grnt, ops 3 1 0 0 .i8), (.grev, ops 3 1 0 0 .i8)] = true ∧
    noHelper labRec ∧ labRec.unwatched ∧ labRec.access labRec.cur 0xF100000000001000 64 .load = .loc 0x1000 ∧ labRec.poisoned (locLocal 0 0x1000) 64 = false ∧
    Tsr.ofNat (ofBytes (labRec.readLocal 0 0x1000 64)) = tLocal ∧ tLocal.fault = none ∧ (Tsr.ofNat (ofBytes (lab.readLocal 0 0x1000 64))).fault.isSome = true ∧
    tLocal.pd = (lab.myLaunch 0).pd ∧ (square 1).inx = false ∧ freeGrant lab.grants 1024 0 = some 0 := by decide +kernel
/-- A grant of the square. -/
def labG : State := { lab with grants := [(0, ⟨0, tLocal.base, square 1, false, 0, true⟩), (1, ⟨7, tLocal.base, square 1, false, 0, true⟩)] }
theorem witness_BindingAndGrants_revoke : tfind lab.grants 0 = none ∧ (∃ y, tfind labG.grants 1 = some y ∧ y.launch ≠ ((labG.file 0).launch).getD 0) ∧
    (∃ y, tfind labG.grants 0 = some y ∧ y.launch = ((labG.file 0).launch).getD 0 ∧ (match regionBinary .gsub y.region (square 1) with | .inr _ => true | _ => false) = true) :=
  ⟨by decide, ⟨_, rfl, by decide⟩, ⟨_, rfl, by decide, by decide⟩⟩
theorem witness_BindingAndGrants_helper : isHelper labX.cur = true ∧ goes labX true [(.tunb, ops 5 0 0 0 .i8)] = true := by decide
theorem witness_AcquirePublish : goes lab true [(.acq, ops 0 2 0 0 .i8), (.acq, ops 0 4 0 0 .i8), (.pub, opsF 0 2 0 0 .i8 3 0 0), (.pub, ops 0 4 0 0 .i8),
      (.mcrun, ops 0 9 2 4 .i8)] = true ∧ (lab.region 0 4).isEmpty = true ∧ (lab.region 0 2).isEmpty = false ∧ lab.tsr 0 (lab.region 0 2).tsr = some tGlobal ∧
    spaceCode tGlobal.base ≠ 3 ∧ spaceCode tGlobal.base ≠ 5 ∧ lab.mayIssueRelease 0 = true ∧ spaceCode (lab.arg (.reg 4)).toNat = 1 ∧
    (lab.openEntry 3 (lab.arg (.reg 4)).toNat).isSome = true := by decide
theorem witness_MatrixInstructions : goes lab true [(.mring, ops 1 7 0 0 .i8), (.mringRd, opsF 3 0 0 0 .i8 1 0 0), (.mradv, ops 0 8 0 0 .i8), (.mradv, ops 0 2 0 0 .i8),
      (.mradv, ops 0 62 0 0 .i8), (.mldw, ops 0 7 0 0 .i8), (.mma, ops 1 0 0 0 .e4m3), (.mdrn, ops 0 7 1 0 .f32), (.mzro, ops 1 0 0 0 .i8), (.mswp, ops 1 7 0 0 .i8),
      (.mflg, opsF 3 1 0 0 .i8 0 0 1), (.mholdFire, opsF 0 0 0 0 .i8 0 0 0), (.mholdSet, opsF 0 2 0 0 .i8 1 0 0)] = true ∧
    (ringOfWord 0x404000000).isSome = false ∧ (ringOfWord (4 * 2 ^ 32 + 32 * 2 ^ 26 + 32 * 2 ^ 17)).isSome = true ∧ (lab.myCore.ring 1).occ = 0 ∧ lab.ringBusy 0 1 = false ∧
    (lab.myCore.ring 0).count ≠ 0 ∧ 1 ≠ 0 ∧ (lab.myCore.ring 0).occ + 2 ≤ (lab.myCore.ring 0).count ∧ (lab.myCore.ring 0).count < (lab.myCore.ring 0).occ + 3 := by decide +kernel
/-- A machine with a record of E4M3 whose tiles lie in the local memory of core 0. -/
def labW8 : State := labC fun c => { c with t := [(1, { tLocal with base := 0xF100000000004000, ext := [128, 128, 1, 1], stride := [128, 0, 0, 0], ctrl := 0x28 })] }
theorem witness_MatrixInstructions_operands :
    badPtr 0 0xF100000000004000 = none ∧ (0xF100000000004000 : Nat) % 64 = 0 ∧ labW8.tileGranted 0 { tLocal with base := 0xF100000000004000, ctrl := 0x28 } 0xF100000000004000 (tileBytes .e4m3) = true ∧
    (lab.mmaKey (ops 1 0 0 0 .e4m3)).isSome = true ∧ (match lab.mmaKey (ops 1 0 0 0 .e4m3) with | some k => lab.mmaAccess 0 k 0 1 48 1 .e4m3 | none => true) = true ∧
    (match lab.mmaKey (ops 1 0 0 0 .e4m3) with | some k => lab.mmaAccess 0 k 0 1 16 1 .e4m3 | none => true) = false ∧
    lab.bufferCause 0xF100000000002000 4 (rowBytes .f32) = none ∧ inProgram 0x2000 ((16 * (lab.amap 0 1).len - 1) * rowBytes .f32 + rowBytes .f32) = true ∧
    lab.bufferCause 0xF100000000002000 64 (8200 * (lab.amap 0 1).len) = none := by decide +kernel

/-! ### Tokens, heaps and tasks -/

theorem witness_TokensAndPositions : goes lab true [(.kvapp, ops 0 4 5 0 .i8), (.kvapp, ops 3 4 5 0 .i8), (.kvseal, ops 0 4 0 0 .i8), (.spset, ops 0 4 2 0 .i8),
      (.spret, ops 0 4 2 0 .i8), (.posl, ops 20 2 8 0 .i8), (.posf, ops 0 20 0 0 .i8), (.posiTag, opsF 0 1 2 0 .i8 0 0 0), (.posiSeq, opsF 0 1 0 0 .i8 1 0 0),
      (.posiAll, opsF 0 0 0 0 .i8 2 0 0)] = true ∧ seqCause (lab.arg (.reg 4)).toNat = none ∧ sourceCause (lab.arg (.reg 5)).toNat = none ∧
    (lab.openEntry 4 (lab.arg (.reg 4)).toNat).isSome = true ∧ (lab.arg (.reg 2)).toNat < 16 ∧ lab.me.sprets.length < 8 ∧
    8 ≤ (labK fun c => { c with sprets := List.replicate 8 (0x100000, 3) }).me.sprets.length ∧
    lab.myCore.ptb.find? (fun e => ptbValid e && ptbKey e = (3, 0, 0)) = none ∧ (lab.myLaunch lab.cur).miss = false ∧ bits 0 116 13 = 0 := by decide
/-- A translation buffer with an entry of sequence 3, tag 0, ordinal 0. -/
def ent0 : PtbEntry := 2 ^ 135 + 3 * 2 ^ 160
theorem witness_TokensAndPositions_hit :
    (labC fun c => { c with ptb := [ent0] }).myCore.ptb.find? (fun e => ptbValid e && ptbKey e = (3, 0, 0)) = some ent0 := by decide
/-- A machine with a heap of K = 2 with one entry at 0x1100. -/
def labHeap : State := { lab with mem := [(locLocal 0 0x1100, 2), (locLocal 0 0x1102, 1), (locLocal 0 0x110B, 0x3F)] }
/-- And one with an empty heap. -/
def labHeap0 : State := { lab with mem := [(locLocal 0 0x1100, 2)] }
theorem witness_Heaps : goes labHeap true [(.hsift, ops 3 9 2 8 .i8), (.hpop, ops 20 9 0 0 .i8)] = true ∧ labHeap.heapCause 0x1100 = none ∧
    labHeap0.heapCause 0x1100 = none ∧ (labHeap0.heapAt 0 0x1100).2 = [] ∧ (labHeap.heapAt 0 0x1100).2 = [(0x3F000000, 0)] ∧
    ([(0x3F000000, 0)] : List HeapEntry).length < 2 ∧ heapLt (0x3F000000, 0) (0x40000000, 1) = true ∧ heapLt (0x3F000000, 0) (0x3E000000, 1) = false := by decide

/-- A machine whose first helper is LIVE, and one where it is ENDED. -/
def labLive : State := { lab with ctxs := [(0, ctx0), (1, ctx0)] }
def labEnd : State := { lab with ctxs := [(0, ctx0), (1, { ctx0 with life := .ended })] }
theorem witness_HelpersAndDone : goes lab true [(.spawn, opsF 0 9 2 0 .i8 10 0 0), (.joinh, opsF 3 0 0 0 .i8 1 0 0), (.done, ops 0 0 0 0 .i8)] = true ∧ noHelper lab ∧
    10 ≤ lab.myCore.hlim ∧ (lab.ctx (lab.cur + 10)).life = .free ∧ goes labLive true [(.spawn, opsF 0 9 2 0 .i8 1 0 0), (.joinh, opsF 3 0 0 0 .i8 1 0 0)] = true ∧
    (labLive.ctx 1).life = .live ∧ (labLive.ctx 1).life ≠ .free ∧ (labEnd.ctx 1).life = .ended ∧ goes labEnd true [(.joinh, opsF 3 0 0 0 .i8 1 0 0)] = true ∧
    labLive.helpersLive 0 = true ∧ lab.helpersLive 0 = false ∧ isControl lab.cur = true ∧ lab.me.record = none ∧
    goes labX true [(.spawn, opsF 0 9 2 0 .i8 2 0 0), (.joinh, opsF 3 0 0 0 .i8 2 0 0), (.done, ops 0 0 0 0 .i8)] = true ∧ isHelper labX.cur = true ∧ labX.me.record = none := by
  decide
theorem witness_HelpersAndDone_releases : ReleasesNow lab (lab.myLaunch lab.cur).unitScope ∧ ReleasesNow labX (labX.myLaunch labX.cur).unitScope := by
  unfold ReleasesNow; decide

/-- A launch in task mode of core 0 with a queued record, and the same with none. -/
def labT (q : List QRec) : State :=
  { lab with
    cores := [(0, { core0 with launch := some 1 })], launches := [(1, { launch1 with phased := false })], clusters := [(0, { Cluster.init with queue := q })] }
/-- A context that holds a range. -/
def labRange : State := labK fun c => { c with range := some ⟨0, 0x1000, 0, 0, 8, 2, false⟩ }
theorem witness_TaskRecords_take : goes (labT [queued 1 0x100000 0 0]) true [(.cqget, ops 3 0 0 0 .i8)] = true ∧ ((labT [queued 1 0x100000 0 0]).pop 0 0).isSome = true ∧
    (labT []).pop 0 0 = none ∧ (labT []).myCore.launch = some 1 ∧ (labT []).endTest 0 1 = true ∧ labRange.me.range.isSome = true ∧
    goes labRange true [(.rqget, ops 20 0 0 0 .i8)] = true ∧ lab.me.range = none ∧ lab.me.search ≠ 2 ∧ lab.pop 0 1 = none ∧ lab.launchNo 0 = 0 := by decide
/-- A machine whose context adds records for a set of cores: a record at 0x100000 with its control words. -/
def labAddq (cores : List Nat) (q : List QRec) : State :=
  { lab with launches := [(0, { launch1 with phased := false, cores := cores })], clusters := [(0, { Cluster.init with queue := q })], mem := [(0x10001C, 4)] }
theorem witness_TaskRecords_add : goes lab true [(.cqadd, ops 3 4 0 0 .i8), (.rqadd, ops 3 4 0 0 .i8), (.cqnext, ops 3 4 0 0 .i8)] = true ∧
    (labAddq [0] []).access 0 0x100000 1 .atomic = .global 0x100000 page ∧
    (labAddq [] []).addCode 0 0 0 0 = some 3 ∧ (labAddq [0] []).addCode 0 0 0 0 = none ∧ (labAddq [0] []).rdL 0 (0x100000 + ctrlAt 1) 4 = 4 ∧
    (labAddq [0] []).addCode 0 1 4 0 = none ∧ ((labAddq [0] []).cluster 0).room 0 0 = true ∧ ((labAddq [0] []).myLaunch 0).phased = false := by decide +kernel
/-- A queue that holds all that a level and the backing area take (R176). -/
theorem witness_TaskRecords_full (n : Nat) (h : n = 32800) :
    ({ Cluster.init with queue := List.replicate n (queued 0 0 0 0) } : Cluster).room 0 0 = false := by
  simp [Cluster.room, levelOf, queued, Cluster.init, List.filter_replicate]
  omega
theorem witness_TaskRecords_join : goes lab true [(.jdec, ops 3 4 0 0 .i8), (.cancel, opsF 3 4 0 0 .i8 0 0 0), (.chkc, ops 1 0 0 0 .i8)] = true ∧
    lab.access lab.cur 0x100000 1 .atomic = .global 0x100000 page ∧ (lab.touchTlb lab.cur page).rdL 0 (0x100000 + 0x10) 4 ≠ 1 ∧ lab.launchNo lab.cur = 0 := by decide +kernel
theorem witness_TaskRecords_releases : ReleasesNow (lab.touchTlb lab.cur page) ((lab.touchTlb lab.cur page).myLaunch lab.cur).unitScope := by
  unfold ReleasesNow; decide
/-- A supervisor that cancels a launch by its record. -/
def labSl : State := { labS with launches := [(1, { launch1 with va := 0x1000, stage := 1 })] }
theorem witness_TaskRecords_launch : goes labS true [(.launch, ops 3 4 0 0 .i8), (.cancelLaunch, opsF 3 4 0 0 .i8 1 0 0)] = true ∧
    (labS.launches.find? fun x => x.2.va = 0x1000 && x.2.stage < 2) = none ∧ (labSl.launches.find? fun x => x.2.va = 0x1000 && x.2.stage < 2).isSome = true := by
  decide +kernel
theorem witness_Supersteps : goes lab true [(.sync, ops 0 0 0 0 .i8), (.bdom, ops 0 0 0 0 .i8), (.bdom, ops 0 6 0 0 .i8), (.rdssn, ops 3 2 0 0 .i8)] = true ∧
    goes labP true [(.sync, ops 0 0 0 0 .i8), (.bdom, ops 0 0 0 0 .i8)] = true ∧ noHelper labP ∧ labP.me.phase ≠ 2 ∧ labP.helpersLive 0 = false ∧
    (labP.dom (labP.launchNo labP.cur) 0).members.contains 0 = true ∧ (labP.arg (.reg 0)).toNat < 16 ∧ 16 ≤ (lab.arg (.reg 6)).toNat ∧
    (labP.launchOf 1).phased = true ∧ (lab.launchOf 0).phased = false ∧ labP.launchNo 0 = 1 := by decide +kernel
theorem witness_Supersteps_releases : ReleasesNow lab 0 ∧ ReleasesNow labP (labP.dom (labP.launchNo labP.cur) labP.myCore.bdom).scope := by
  unfold ReleasesNow; decide

/-! ### What engines and the setter do -/

/-- The entries that map the first 2^39 addresses one to one, at the root of core 0's launch. -/
def core1 : Core := { core0 with root := 0x8000 }
/-- A machine with one entry in a queue of core 0, its address space mapped. -/
def labE (q : Nat) (op : QOp) (done : Bool) : State :=
  { lab with mem := [(0x8000, 0x3A)], cores := [(0, { core1 with q := [(q, ⟨[⟨0, 0, 0, op, none, done, 0⟩], 1, []⟩)], nextId := 1 })] }
/-- The transfer of the square from global to local memory, of which `todo` are left; and one from memory that does not exist. -/
def xfer0 (todo : List (List Int)) : Transfer := { transferOf .get (ops 0 1 0 0 .i8) (ext 1 2 0) lab tGlobal tLocal with todo := todo, root := some 0x8000 }
def xfer9 : Transfer := { xfer0 [[0, 0]] with src := { tGlobal with base := 0x100002 } }
theorem witness_TransfersLand : (labE 0 (.xfer (xfer0 [[0, 0], [0, 1]])) false).movable 0 0 0 = some (⟨0, 0, 0, .xfer (xfer0 [[0, 0], [0, 1]]), none, false, 0⟩, xfer0 [[0, 0], [0, 1]]) ∧
    (match (labE 0 (.xfer (xfer0 [[0, 0], [0, 1]])) false).landPoint 0 (xfer0 [[0, 0], [0, 1]]) [0, 0] none with | .landed _ _ => true | _ => false) = true ∧
    (labE 0 (.xfer (xfer0 [])) true).movable 0 0 0 = some (⟨0, 0, 0, .xfer (xfer0 []), none, true, 0⟩, xfer0 []) ∧ (xfer0 []).todo = [] := by decide +kernel
/-- A point whose source lies on a lost die is refused. -/
theorem witness_TransfersLand_refused :
    (match ({ labE 0 (.xfer (xfer0 [[0, 0]])) false with dies := [(0, { Die.init with lost := true })] } : State).landPoint 0 (xfer0 [[0, 0]]) [0, 0] none with
     | .refused n a => (n, a) | _ => (0, 0)) = (0x15, 0x100000) := by decide +kernel
theorem witness_TransfersLand_mark : ((labQ.core 0).queue 0).entries = [⟨0, 0, 0, .mark 1 1 none, none, false, 0⟩] := by decide
/-- A timed slot whose bytes have been read, in the exchange phase of its domain. -/
def labSlot : State :=
  { labP with
    cores := [(0, { core0 with launch := some 1, held := [⟨0, 0, 1, 0, none, none, some ⟨0x1000, 0, 1, 0x1000, 0x1000, 4, some [1, 2, 3, 4]⟩, 1⟩] }), (1, { Core.init with launch := some 1 })]
    domains := [(16, { Domain.init with members := [0, 1], exchange := true })] }
theorem witness_TransfersLand_slot : ∃ h t, (labSlot.core 0).heldSend 0 = some h ∧ labSlot.exchanging h = true ∧ labSlot.releasedBefore h.ctx h.num = true ∧ h.slot = some t ∧ t.data = some [1, 2, 3, 4] ∧
    labSlot.lostCore t.dest = false ∧ labSlot.lostCore 0 = false ∧ (labSlot.setCore 0 ((labSlot.core 0).dropHeld 0)).mayReceive h.ctx t.dest = true ∧ (labSlot.setCore 0 ((labSlot.core 0).dropHeld 0)).mayLand false t.dest t.len = true ∧
    (labSlot.core t.dest).landingMeets t.dst t.len = false :=
  ⟨_, _, rfl, by decide, by decide, rfl, rfl, by decide, by decide, by decide, by decide, by decide⟩
theorem witness_TransfersLand_program : ((labE 0 (.mcrun 0x2000 7 0x100000) false).core 0).entry 0 0 = some ⟨0, 0, 0, .mcrun 0x2000 7 0x100000, none, false, 0⟩ ∧
    (labE 0 (.mcrun 0x2000 7 0x100000) false).mayPerform 0 0 ⟨0, 0, 0, .mcrun 0x2000 7 0x100000, none, false, 0⟩ = true ∧
    (labE 0 (.mcrun 0x2000 7 0x100000) false).home 0 0x100000 false = .at_ 0x100000 0x8000 ∧
    ((labE 0 (.mcrun 0x2000 7 0x100000) false).ctx (0x10000 + 16 * ownerOf 0x100000 + 0 % 8)).life = .free := by decide +kernel
theorem witness_TransfersLand_tokens :
    let s := labE 3 (.kvapp 0x100000 0x2000 3) false
    (s.core 0).entry 3 0 = some ⟨0, 0, 0, .kvapp 0x100000 0x2000 3, none, false, 0⟩ ∧ s.mayPerform 0 3 ⟨0, 0, 0, .kvapp 0x100000 0x2000 3, none, false, 0⟩ = true ∧
      s.blocked 0 (s.appendRanges 0 0 0x100000 0x2000) = none ∧ s.blocked 0 (s.sealRanges 0 0x100000) = none ∧
      s.blocked 0 (s.recordRanges 0 0x100000 true false) = none ∧ (match s.sealTag 0 0x100000 with | .inr _ => true | _ => false) = true ∧
      (match s.setTag 0 0x100000 5 with | .inr _ => true | _ => false) = true := by decide +kernel
theorem witness_TransfersLand_retirement :
    let s : State := { labE 3 (.kvseal 0) false with retiring := [⟨0, 0x100000, 3, none, 0⟩] }
    s.retiring[0]? = some ⟨0, 0x100000, 3, none, 0⟩ ∧ ((s.retiring.take 0).any fun x => x.cid = 0) = false ∧
      s.blocked 0 (s.retireRanges 0 0x100000 3) = none ∧ (match s.retire 0 0x100000 3 with | .inr _ => true | _ => false) = true := by decide +kernel

/-- An MMA of 16 rows whose tile lies in local memory, at a step of its list. -/
def mma0 (steps : List Nat) (busy : Bool) : MmaOp :=
  { ring := 0, acc := 1, rows := 16, afmt := .e4m3, sat := false, iacc := false, key := key0, hold := none, prio := 0, steps := steps, cur := 0, tsr := none,
    busy := busy, ready := true, waits := none, task := none }
/-- A setter entry of that MMA. -/
def sent (life : SLife) : SEntry := ⟨0, 0, 0, none, 0, 1, 0, 16, 0, key0, 0, 8, life⟩
/-- A machine with that MMA at the head of qm, and a setter with some entries. -/
def labM1 (steps : List Nat) (mvth : Word) (x : Cluster) : State :=
  { lab with cores := [(0, { core0 with q := [(1, ⟨[⟨0, 0, 0, .mma (mma0 steps false), none, false, 0⟩], 0, []⟩)], nextId := 1, mvth := mvth })], clusters := [(0, x)] }
theorem witness_MatrixEngineMoves_arrival : QmStarts (labM1 [0] 0 Cluster.init) 0 0 ⟨0, 0, 0, .mma (mma0 [0] false), none, false, 0⟩ ∧
    QmStarts (labM1 [] 0 Cluster.init) 0 0 ⟨0, 0, 0, .mma (mma0 [] false), none, false, 0⟩ ∧ (mma0 [0] false).ready = true ∧ (mma0 [0] false).busy = false ∧
    (labM1 [0] 0 Cluster.init).claimed 0 0 + 16 / 16 ≤ (((labM1 [0] 0 Cluster.init).core 0).ring 0).occ ∧ ((labM1 [0] 32 Cluster.init).core 0).mvth.toNat = 32 ∧
    ((labM1 [0] 32 Cluster.init).core 0).vpath = none ∧ (mma0 [0] false).rows < 32 ∧ ((labM1 [0] 0 Cluster.init).core 0).mvth.toNat ≤ 16 ∧
    (Cluster.init.setter.any fun y => y.isHeld && y.key = (mma0 [0] false).nextKey) = false ∧ ((sent .held).isHeld && (sent .held).key = (mma0 [0] false).nextKey) = true := by
  unfold QmStarts; decide +kernel
/-- A cluster whose next tile has loaded. -/
def clLoad : Cluster := { Cluster.init with setter := [sent (.fired 4)], groups := [⟨4, key0, 0⟩], preload := some (4, none) }
theorem witness_MatrixEngineMoves_stream :
    let u := (labM1 [0] 0 clLoad).loadNext 0
    let x := u.cluster 0
    (match x.preload with | some (4, some (.inr _)) => true | _ => false) = true ∧ (x.groups.find? fun y => y.id = 4) = some ⟨4, key0, 0⟩ ∧ x.running = none ∧
      x.setter.map (·.group) = [some 4] := by decide +kernel
/-- A cluster whose group streams a tile of zeros, and a core whose MMA is on the vector path. -/
def clRun : Cluster := { Cluster.init with setter := [sent (.running 4)], active := some (key0, List.replicate (tileBytes .e4m3) 0), running := some 4 }
theorem witness_MatrixEngineMoves_rows : (clRun.setter.find? fun y => y.running && y.core = 0 && y.id = 0) = some (sent (.running 4)) ∧
    ((labM1 [0] 0 clRun).core 0).mmaAt 0 = some (mma0 [0] false) ∧ clRun.active.isSome = true ∧
    (match (labM1 [0] 0 clRun).stepRows 0 (mma0 [0] false) (tileRows .e4m3 (List.replicate (tileBytes .e4m3) 0)) 16 with | .inr _ => true | _ => false) = true := by decide +kernel
/-- A core whose MMA is on the vector path. -/
def labVp : State := { labM1 [0] 32 Cluster.init with cores := [(0, { core0 with q := [(1, ⟨[⟨0, 0, 0, .mma (mma0 [0] true), none, false, 0⟩], 0, []⟩)], vpath := some 0 })] }
theorem witness_MatrixEngineMoves_path :
    let s1 := labVp.setCore 0 { labVp.core 0 with vpath := none }
    (labVp.core 0).vpath = some 0 ∧ (labVp.core 0).mmaAt 0 = some (mma0 [0] true) ∧ s1.memberMayRead 0 0 key0 = true ∧ (s1.core 0).mmaAt 0 = some (mma0 [0] true) ∧
      (match s1.tileNow { key0 with ptr := key0.ptr + 0 * tileBytes .e4m3 } with
       | .inr bs => match s1.stepRows 0 { mma0 [0] true with key := key0 } (tileRows .e4m3 bs) 16 with | .inr _ => true | _ => false
       | _ => false) = true := by decide +kernel
theorem witness_MatrixEngineMoves_others : QmStarts (labE 1 (.zero 1) false) 0 0 ⟨0, 0, 0, .zero 1, none, false, 0⟩ ∧ (labE 1 (.zero 1) false).accFree 0 0 1 = true ∧
    QmStarts (labE 1 (.swap 0x2000 1) false) 0 0 ⟨0, 0, 0, .swap 0x2000 1, none, false, 0⟩ ∧ QmStarts (labE 1 .holdFire false) 0 0 ⟨0, 0, 0, .holdFire, none, false, 0⟩ ∧
    QmStarts (labE 1 (.holdSet 5) false) 0 0 ⟨0, 0, 0, .holdSet 5, none, false, 0⟩ ∧
    QmStarts (labE 1 (.drain 0x2000 1 512 .f32 .rne false false []) false) 0 0 ⟨0, 0, 0, .drain 0x2000 1 512 .f32 .rne false false [], none, false, 0⟩ ∧
    (Cluster.init.drainRows (lab.engSlots 0 1) .f32 .rne false false).2 = none ∧
    ((labE 1 (.zero 1) true).core 0).entry 1 0 = some ⟨0, 0, 0, .zero 1, none, true, 0⟩ ∧ ((labE 1 (.swap 0x2000 1) true).core 0).entry 1 0 = some ⟨0, 0, 0, .swap 0x2000 1, none, true, 0⟩ ∧
    ((labE 1 (.drain 0x2000 1 512 .f32 .rne false false []) true).core 0).entry 1 0 = some ⟨0, 0, 0, .drain 0x2000 1 512 .f32 .rne false false [], none, true, 0⟩ := by
  unfold QmStarts; decide +kernel
/-- An entry of the example under R157, which fires for a priority-3 arrival at cycle 320: 112 rows of three cores, at priority 3. -/
def exEntry (core rows prio at' dl : Nat) : SEntry := ⟨core, 0, 0, none, 0, 0, 0, rows, prio, key0, at', dl, .held⟩
theorem test_setter_example :
    let x : Cluster := { Cluster.init with setter := [exEntry 161 48 1 100 500, exEntry 163 48 0 130 630, exEntry 164 16 3 320 320], running := some 9 }
    let y := x.fire [] key0 (some (exEntry 164 16 3 320 320))
    y.groups.map (·.prio) = [3] ∧ y.setter.map (·.group) = [some 0, some 0, some 0] := by decide +kernel

/-! ### Services, posts and releases -/

/-- The small machine with its context waiting, and its address space mapped one to one. -/
def labWt (w : Wait) : State := { lab with mem := [(0x8000, 0x3A)], ctxs := [(0, { ctx0 with wait := w })], cores := [(0, { core1 with itlb := [{ page with root := 0x8000 }] })] }
/-- The leaf that maps the first 2^39 addresses. -/
def leaf0 : TlbEntry := { root := 0x8000, va := 0, pa := 0, size := 39, r := true, w := true, x := true, pte := 0x8000 }
theorem witness_ServicesEnd : ((labWt (.walk 0x100000 false)).ctx 0).wait = .walk 0x100000 false ∧ (labWt (.walk 0x100000 false)).secondTlb 0 0x100000 = none ∧
    walk (labWt .none).mem ((labWt .none).rootFor 0) 0x100000 = .leaf leaf0 ∧
    ({ labWt .none with clusters := [(0, { Cluster.init with tlb := [{ page with root := 0x8000 }] })] } : State).secondTlb 0 0x100000 = some { page with root := 0x8000 } ∧
    tlbFind ((labWt (.block 0x100000)).core ((labWt (.block 0x100000)).tlbKey 0)).itlb ((labWt (.block 0x100000)).rootFor 0) 0x100000 = some { page with root := 0x8000 } ∧ isSupervisor 0 = false ∧ paExists (page.phys (0x100000 / 32 * 32)) = true ∧
    (labWt .none).lostLoc 0x100000 = false ∧ (labWt .none).portDown 0x100000 = false ∧ (labWt .none).poisoned 0x100000 32 = false ∧
    (labWt (.shipping 5 0)).lostHome 5 = false ∧ ((labWt (.shipping 5 0)).ctx 0).away = none ∧
    (labWt .none).homeGone 0x8000 0x100000 = false ∧ (labWt .none).lostDieHome 5 = false ∧
    ((labWt (.service 0 0x100000)).ctx 0).wait = .service 0 0x100000 ∧
    walk ((labWt .none).installFor 0x8000 0x100000 [] []).mem ((labWt .none).rootFor 0) 0x100000 = .leaf leaf0 := by decide +kernel
theorem witness_ServicesEnd_answers : unwatchedAt (labWt .none) 0 ∧ homeThere (labWt .none) 0x100000 ∧ (labWt .none).poisoned 0x100000 4 = false := by
  unfold unwatchedAt homeThere; decide +kernel

/-- A post of the context, on its way to a line of the first die. -/
def post0 (req : Option AtomicReq) (refuse : Option (Nat × Nat)) (took : Nat) : Post := ⟨0, some 0, 0x100000, [(0x100000, 4)], took, req, refuse, took = 1 && refuse.isNone, 1⟩
/-- An exact-cell addition. -/
def req0 : AtomicReq := ⟨.fadd, .f32, 0x100000, 0x100000, 0x3F800000, 0, 0, .rne, 0⟩
def labPost (x : Post) : State := { lab with posts := [x] }
theorem witness_PostsAndReleases : (labPost (post0 none none 0)).posts[0]? = some (post0 none none 0) ∧ (post0 none none 0).parts[0]? = some (0x100000, 4) ∧
    (labPost (post0 none none 0)).postBehind 0 (post0 none none 0) = false ∧ (labPost (post0 (some req0) none 0)).postBehind 0 (post0 (some req0) none 0) = false ∧
    ({ labPost (post0 none none 0) with dies := [(0, { Die.init with lost := true })] } : State).lostLoc 0x100000 = true ∧ logDie 0x100000 = 0 ∧
    ((linesOf 0x100000 4).foldl (State.holdLine 0) (some (labPost (post0 none none 0)))).isSome = true ∧
    (labPost (post0 (some req0) none 0)).poisoned 0x100000 64 = false ∧ (post0 none none 1).arrived = true ∧ (post0 none none 1).jrn = some 0 ∧
    (post0 none (some (0x18, 3)) 1).parts.length ≤ (post0 none (some (0x18, 3)) 1).took := by decide +kernel
/-- A die whose buffer and log are full has no place for a line (R90). -/
theorem witness_PostsAndReleases_full (s : State) (h : ∀ l, State.holdLine 0 (some s) l = none) : (linesOf 0x100000 4).foldl (State.holdLine 0) (some s) = none := by
  rw [show linesOf 0x100000 4 = [0x100000 / 64] from by decide]
  exact h _
theorem witness_PostsAndReleases_there : homeThere (labPost (post0 none none 0)) 0x100000 := by unfold homeThere; decide +kernel
/-- A release that waits for cluster 0, and a publication of one byte there. -/
def own0 : OwnByte := ⟨locShared 0 0, 7, false, none, 0, 1, 2, 1, 0, 0xF200000000000000⟩
def labRel (got : Bool) : State := labK fun c => { c with wait := .release 1 [(.cluster 0, got)] }
def labPub (got : Bool) : State := labK fun c => { c with own := [own0], pubs := [⟨2, 1, [locShared 0 0], some [(.cluster 0, got)]⟩] }
def labMk (got : Bool) : State := labC fun c => { c with q := [(0, ⟨[⟨0, 0, 0, .mark 1 1 (some [(.cluster 0, got)]), none, false, 3⟩], 1, []⟩)] }
theorem witness_PostsAndReleases_release : (labRel false).underWay 0 4 = some (1, [(.cluster 0, false)], []) ∧
    (labPub true).underWay 0 4 = some (1, [(.cluster 0, true)], [own0]) ∧ (labMk false).underWay 0 0 = some (1, [(.cluster 0, false)], []) ∧
    ([(Dest.cluster 0, true)] : Dests).contains (destNo 1 0, true) = true ∧ (((labRel true).setUnderWay 0 4 []).ctx 0).wait = .release 1 [] ∧
    (((labPub true).setUnderWay 0 4 []).ctx 0).pubs ≠ [] := by
  refine ⟨?_, ?_, ?_, ?_, ?_, ?_⟩ <;> decide
theorem witness_PostsAndReleases_peer : lab.peersLost.contains 7 = false ∧ (3 : Nat) < 16 := by decide
theorem witness_CausesTaken : labPend.atBoundary 0 = true ∧ labPend.takesAsync 0 = true ∧ (lab.atBoundary 0 && lab.takesAsync 0) = false ∧
    (labH.ctx 0).mode = 1 ∧ isCompute 0 = true ∧ bitOf (labH.myLaunch 0).handlers (bits (labH.ctx 0).xcause.toNat 0 6) = false ∧ (labH.ctx 0).missPosl = none ∧ (labH.ctx 0).inPre = false ∧ (labH.ctx 0).stopped = false ∧
    bits (labH.ctx 0).xcause.toNat 0 6 ≠ 0x05 ∧ (([⟨0, 7, 0x1000⟩] : List HandlerFault).find? fun y => y.cid = 0).isSome = true := by decide

/-! ### Launches, links, hosts -/

/-- A launch at stage 0 whose record at 0x100000 has one level of one core. -/
def labL (m : Tab Byte) : State := { lab with launches := [(1, { Launch.init with va := 0x100000, stage := 0 })], mem := m }
theorem witness_LaunchesAndBarriers : ((labL []).launchOf 1).stage = 0 ∧ (labL [(0x8000, 0x3A)]).recordFields 1 0x100000 = .inl 2 := by decide +kernel
theorem witness_LaunchesAndBarriers_placement : (labL []).placement 1 [] [] = none := by decide
/-- A record of one unit for a whole die, in task mode, that passes every check. -/
def labGo : State :=
  { labL [(0x8000, 0x3A), (0x100010, 0x11), (0x100040, 1)] with launches := [(1, { Launch.init with va := 0x100000, stage := 0, root := 0x8000 })] }
theorem sortCores_die0 : sortCores (List.range 128) = List.range 128 := by
  have h1 : (List.range 128).filter (List.range 128).contains = List.range 128 := by
    rw [List.filter_eq_self]; intro a h; simpa using h
  have h2 : ((List.range 2944).map (128 + ·)).filter (List.range 128).contains = [] := by simp [List.filter_eq_nil_iff]
  unfold sortCores
  rw [show (3072 : Nat) = 128 + 2944 from by decide, List.range_add, List.filter_append, h1, h2, List.append_nil]
/-- Its placement: one unit, the cores of die 0. -/
def placed0 : Placed := ⟨[⟨1, 0, 0⟩], [List.range 128], List.range 128⟩
theorem witness_LaunchesAndBarriers_places : labGo.placement 1 [⟨1, 0, 0⟩] [0] = some placed0 := by
  have h : labGo.placement 1 [⟨1, 0, 0⟩] [0] = some ⟨[⟨1, 0, 0⟩], [List.range 128], sortCores (List.range 128)⟩ := by
    have hs : (List.range 24).filter ([0] : List Nat).contains = [0] := by decide
    have hl : labGo.die 0 = Die.init := by decide
    have hp : (List.range 128).filter (labGo.pinAllows 1) = List.range 128 := by
      rw [List.filter_eq_self]; intro a _; rfl
    simp [State.placement, hs, hl, place, partsIn, Die.init, hp]
  rw [h, sortCores_die0]; rfl
theorem witness_LaunchesAndBarriers_passes : labGo.recordFields 1 0x100000 = .inr [⟨1, 0, 0⟩] ∧ labGo.refusal 1 0x100000 placed0 = none ∧ placed0.units ≠ [] := by
  decide +kernel
/-- A phased launch of one unit on a busy core, code 8. -/
theorem witness_LaunchesAndBarriers_refused :
    ({ labGo with mem := [(0x8000, 0x3A), (0x100010, 0x10), (0x100040, 1)], cores := [(0, { core0 with launch := some 2 })] } : State).refusal 1 0x100000
      ⟨[⟨1, 5, 0⟩], [[0]], [0]⟩ = some 8 := by
  decide +kernel
theorem witness_LaunchesAndBarriers_search : ((labK fun c => { c with search := 1 }).ctx 0).search = 1 ∧ (lab.ctx 0).range = none ∧ isCompute 0 = true ∧ mostLeft [] = none ∧
    (mostLeft [⟨.queued 0, ⟨0, 0, 0, 0, 8, 2, false⟩⟩]).isSome = true := by decide
theorem witness_LaunchesAndBarriers_release :
    let s : State := { labP with domains := [(16, { Domain.init with members := [0, 1], exchange := true })] }
    (s.dom 1 0).exchange = true ∧ s.steps.any (State.stepDue 1 (s.dom 1 0).members) = false ∧
      s.domainHolds 1 0 = false ∧ (s.launchOf 1).cores.any (s.joined 1) = true ∧ ∀ c ∈ (s.dom 1 0).members, c < 3072 := by decide
/-- A job on its way out, and out. -/
def labJob (sw : Nat) : State := { labP with launches := [(1, { launch1 with held := true, switch := sw })], cores := [] }
theorem witness_JobSwitch : ((labJob 0).launchOf 1).stage = 1 ∧ ((labJob 0).launchOf 1).held = true ∧ ((labJob 0).launchOf 1).switch = 0 ∧
    ((labJob 0).jobCores 1).all (labJob 0).quiet = true ∧ ((labJob 1).launchOf 1).switch = 1 ∧ ((labJob 2).launchOf 1).switch = 2 ∧
    ((labJob 2).mig ((labJob 2).launchOf 1).func).stage = 0 ∧ (((labJob 2).images.filter fun i => i.launch = 1).any fun i => (labJob 2).busyCore i.num) = false ∧
    (labP.ctx 0).life = .live := by decide +kernel

/-- A collective step: a SEND of nothing and a RECV of nothing, at a stage. -/
def step0 (op stage : Nat) : CStep := ⟨1, 0x100000, op, 7, 1, 0x100000, 64, 0, 0, [], if op = 1 then [⟨0, 64, 0, 0⟩] else [], stage, none, [], false⟩
def labStep (op stage : Nat) : State :=
  { labL [(0x8000, 0x3A)] with launches := [(1, { launch1 with root := 0x8000 })], steps := [step0 op stage], vexUp := [0] }
theorem witness_CollectivesMove : (labStep 1 0).steps[0]? = some (step0 1 0) ∧ ((labStep 1 0).launchOf 1).held = false ∧ (labStep 1 0).peersLost.contains 7 = false ∧
    (labStep 0 0).portsUp 1 ≠ [] ∧ (labStep 0 0).stepMayMove (step0 0 0) = true ∧
    (match (labStep 0 0).stepBytes (step0 0 0) with | .inr _ => true | _ => false) = true ∧ (step0 0 1).marks = [] ∧
    (labStep 1 0).stepFault (step0 1 0) = none ∧ (labStep 0 0).stepFault { step0 0 0 with len := 65 } = some 0x01 ∧ (step0 1 1).full = true ∧ (labStep 1 1).gathered (step0 1 1) = true ∧
    spaceCode (step0 1 1).addr ≠ 3 := by decide +kernel
/-- A step that receives into the local memory of core 0, in a launch in task mode. -/
def stepL : CStep := { step0 1 1 with addr := 0xF100000000002000 }
def labStepL : State := { labStep 1 1 with steps := [stepL], launches := [(1, { launch1 with root := 0x8000, phased := false })] }
theorem witness_CollectivesMove_local : spaceCode stepL.addr = 3 ∧ labStepL.stepMayMove stepL = true ∧ bits stepL.addr 36 12 = 0 ∧ stepL.full = true ∧ labStepL.gathered stepL = true ∧
    labStepL.mayLand false 0 stepL.len = true ∧ (labStepL.core 0).landingMeets (ptrOffset stepL.addr) stepL.len = false ∧
    (labStepL.recvAt 1 7 0 0x2000 64).isSome = true ∧ labStepL.staged + 64 ≤ 2 ^ 26 ∧ labStepL.received 7 0 1 = false ∧
    ({ labStepL with uet := [(uetKey 7 0, { Uet.init with base := 1 })] } : State).received 7 0 1 = true := by decide +kernel
theorem witness_CollectivesMove_global :
    ((labStep 1 1).steps.findIdx? fun x => x.op = 1 && x.stage = 1 && x.launch = 1 && x.peer = 7 && x.addr ≤ 0x100000 && 0x100000 + 2 ≤ x.addr + x.len) = some 0 ∧
    (match (labStep 1 1).peerWrite 1 7 0x100000 [1, 2] with | .inr _ => true | _ => false) = true := by decide +kernel
/-- A port that is up, with a PRESENT core 0 and an ABSENT core 1 of launch 5. -/
def labVex : State := { lab with vexUp := [3], ptt := [(pttKey 5 0, some true), (pttKey 5 1, some false)], cxlUp := [2], posts := [⟨0, none, 0, [(2 ^ 47 + 2 * 2 ^ 41, 4)], 0, none, none, false, 1⟩] }
theorem witness_CollectivesMove_arrivals : labVex.vexUp.contains 3 = true ∧ labVex.peersLost.contains 7 = false ∧ (labVex.ptt.any fun e => e.1 / 4096 = 6) = false ∧
    (labVex.ptt.any fun e => e.1 / 4096 = 5) = true ∧ spaceCode 0xF100000000001000 = 3 ∧ tget none labVex.ptt (pttKey 5 (bits 0xF100000000001000 36 12)) = some true ∧
    tget none labVex.ptt (pttKey 5 (bits 0xF100001000001000 36 12)) = some false := by decide +kernel
theorem witness_PartsComeAndGo : labVex.cxlUp.contains 2 = true ∧ (labVex.posts.all fun x => x.refuse.isNone) = true ∧ bits (2 ^ 47 + 2 * 2 ^ 41) 47 1 = 1 ∧
    bits (2 ^ 47 + 2 * 2 ^ 41) 41 3 = 2 ∧ (dieLinks 0).all (fun k => (dieLinks 0).headD 9 = k ||
      (({ lab with dies := [(0, { Die.init with linksDown := dieLinks 0 })] } : State).die 0).linksDown.contains k) = true ∧ (dieLinks 0).contains ((dieLinks 0).headD 9) = true := by
  decide +kernel

/-- A booted package with a request. -/
def req1 (opc : Nat) (args : List Nat) (active : Bool) : HostReq := ⟨0, 9, opc, args, active, 0, none⟩
def labReq (r : HostReq) : State :=
  { lab with reqs := [r], hostUp := [0], birhiry := { Birhiry.init with boot := 2 }, funcs := [(0, { Func.init 0 with maps := [⟨0x100000, 0x10000, 2 ^ 15, 3⟩] })] }
theorem witness_HostRequests : (labReq (req1 1 [] false)).hostUp.contains ((labReq (req1 1 [] false)).func 0).port = true ∧
    ((labReq (req1 1 [] false)).func 0).rspHead ≤ ((labReq (req1 1 [] false)).func 0).rspTail ∧ mapOk 0x8000 (2 ^ 15) 3 = true ∧ mapOk 0x8001 (2 ^ 15) 3 = false ∧
    wholeLeaves ((labReq (req1 2 [] false)).func 0).maps 0x100000 0x108000 = true ∧ wholeLeaves ((labReq (req1 2 [] false)).func 0).maps 0x100000 0x100001 = false ∧
    (req1 3 [] false).active = false ∧ (req1 3 [] true).active = true ∧ (labReq (req1 3 [] true)).reqs[0]? = some (req1 3 [] true) ∧ (req1 5 [] false).launch = none ∧
    ((labReq (req1 6 [0x1000] false)).launches.find? fun x => x.2.va = 0x1000 && x.2.stage < 2 && x.2.func = 0) = none ∧
    (({ labReq (req1 6 [0x1000] false) with launches := [(1, { launch1 with va := 0x1000 })] } : State).launches.find? fun x =>
      x.2.va = 0x1000 && x.2.stage < 2 && x.2.func = 0).isSome = true ∧ (Launch.init).stage = 2 := by decide +kernel
theorem witness_HostRequests_requested : ∀ n, n < 7 → Requested (labReq (req1 n [0x8000, 2 ^ 15, 3] false)) 0 n (req1 n [0x8000, 2 ^ 15, 3] false) := by
  unfold Requested; decide +kernel
/-- A function at a stage of its migration, with its launch out. -/
def labMig (n : Nat) : State := { labJob 2 with migs := [(0, { Migration.init with stage := n })] }
theorem witness_FunctionsResetAndMigrate : ({ lab with hostUp := [1] } : State).hostUp.contains 1 = true ∧ ((labMig 1).mig 0).stage = 1 ∧ ((labMig 3).mig 0).stage = 3 ∧ ((labMig 4).mig 0).stage = 4 ∧ isFunc 0 = true ∧ isFunc 66 = false ∧
    (((labMig 1).launchesOf 0).all fun l => ((labMig 1).launchOf l).switch = 2) = true ∧ (lab.profilers.any fun p => p.kind = 2) = false ∧ lab.launchesOf 0 = [] := by decide +kernel

/-! ### Boot, security and observation -/

/-- A package at a stage of its boot; and one in recovery mode with a request to recover. -/
def labBoot (n : Nat) : State := { State.reset with birhiry := { Birhiry.init with boot := n, life := 2, nextLife := 2 }, reqs := [req1 7 [0, 4608] false] }
/-- A header with a body of 4096 zero bytes: its magic, SVN 5, COMMIT, and SIZE (R376). -/
def head0 : Nat := 0x343258444C594544 + 5 * 2 ^ 64 + 1 * 2 ^ 96 + 4096 * 2 ^ 128
theorem witness_BootAndRecovery : (labBoot 0).birhiry.boot < 2 ∧ (labBoot 1).birhiry.boot = 1 ∧ headerCode 0 = some 2 ∧ headerCode (head0 - 4096 * 2 ^ 128) = some 3 ∧ headerCode head0 = none ∧
    (labBoot 3).reqs[0]? = some (req1 7 [0, 4608] false) ∧ (req1 7 [0, 4608] false).opc = 7 ∧ recoverCode 3 0 4608 head0 0 = some 8 ∧ recoverCode 2 0 4607 head0 0 = some 9 ∧
    (commitTo 0 head0 5).2 = none ∧ (commitTo 0 head0 4).2 = some 7 ∧ (labBoot 2).birhiry.nextLife = (labBoot 2).birhiry.life ∧ Birhiry.init.nextLife = Birhiry.init.life ∧
    1 = Birhiry.init.life + 1 := by decide +kernel
/-- FIPS 180-4's digest of "abc", in byte order. -/
theorem test_sha512 : sha512 3 0x636261 = 0x9FA44CA54FC99A2A0EE83C6423444D45BDEBFEA3233CBA36A8C14F272A9992219AD3554BE6EE9E0AA27EA9894EFAE612314120AE497341CCBA7A6193A135AFDD := by decide +kernel
/-- A body whose digest the header does not hold gives code 4. -/
theorem witness_BootAndRecovery_digest : bodyCode 1 0 0 0 = some 4 := by decide +kernel
/-- A header that holds the body's digest passes wherever its signature verifies under the key of the fuses (log 8). -/
theorem witness_BootAndRecovery_passes (h body : Nat) (hd : sha512 (fieldAt h 0x10 8) body = fieldAt h 0x18 64)
    (hs : signed 0 (sha512 88 (fieldAt h 0 88)) (fieldBig h 0x58 66) (fieldBig h 0x9A 66) = true) : bodyCode 1 0 h body = none := by
  simp [bodyCode, hd, hs, -Nat.reducePow]
/-- A VENDOR package with a nonce outstanding, and a level open on a SECURE one. -/
def labDbg : State := { lab with birhiry := { Birhiry.init with life := 1, nextLife := 1, boot := 2, nonce := some (0, 0) } }
def labOpen : State := { lab with cyc := 10, birhiry := { Birhiry.init with life := 2, nextLife := 2, boot := 2, level := 2, expiry := 10 } }
theorem witness_MeasureAndUnlock : labDbg.birhiry.refusals < 8 ∧ 8 ≤ ({ labDbg with birhiry := { Birhiry.init with refusals := 8 } } : State).birhiry.refusals ∧
    (labBoot 2).tokenReason 0 = some 1 ∧ labDbg.tokenReason (1 * 2 ^ (8 * 0x28)) = some 1 ∧ labOpen.birhiry.level ≠ 0 ∧ labOpen.birhiry.life = 2 ∧ labOpen.birhiry.frozen = false ∧
    labOpen.birhiry.expiry ≤ labOpen.cyc ∧ ({ labOpen with cyc := 5 } : State).debugLevel = 2 ∧ labOpen.debugLevel = 0 ∧ (labBoot 2).debugLevel = 0 ∧
    ({ labOpen with birhiry := { labOpen.birhiry with busy := true } } : State).birhiry.busy = true := by decide +kernel
theorem witness_MeasureAndUnlock_reaches : Reaches (labBoot 2) 0 := by unfold Reaches; decide
/-- A token of a VENDOR package that names its nonce and device passes wherever its signature verifies. -/
theorem witness_MeasureAndUnlock_token (t : Nat) (h0 : fieldAt t 0x28 32 = 0) (h1 : fieldAt t 0 32 = Config.devid % 2 ^ 256) (h2 : fieldAt t 0x20 1 = 1)
    (h3 : fieldAt t 0x21 1 = 0xFF) (h4 : fieldAt t 0x22 2 = 0) (h5 : fieldAt t 0x24 4 = 86400)
    (hs : signed 1 (sha512 72 (fieldAt t 0 72)) (fieldBig t 0x48 66) (fieldBig t 0x8A 66) = true) : labDbg.tokenReason t = none := by
  have hb : labDbg.birhiry.nonce = some (0, 0) := by decide
  have hl : labDbg.birhiry.life = 1 := by decide
  have hc : labDbg.cyc = 0 := by decide
  have hr : labDbg.birhiry.refusals = 0 := by decide
  simp [State.tokenReason, hb, hl, hc, hr, h0, h1, h2, h3, h4, h5, hs]
theorem witness_ObserveAndRepair : (lab.cyc - (lab.die 0).wsBase) % 64 < 32 ∧ (lab.die (dieNo 0)).trace.period = 0 ∧
    (({ lab with dies := [(0, { Die.init with trace := ⟨0x200000, 16, 0, 10⟩ })] } : State).die (dieNo 0)).trace.period ≠ 0 ∧ paExists 0x100000 = true ∧
    ownerOf 0x100000 < 400 := by decide +kernel

/-! ### Clauses on waits, causes and holds -/

/-- A core under jdb. -/
def labJ : State := labC fun c => { c with jdb := true }
theorem witness_ExceptionInstructions_jdb : goes labJ true [(.brk, ops 0 0 0 0 .i8)] = true ∧ labJ.myCore.jdb = true ∧ lab.myCore.jdb = false := by decide
/-- Another context of the core waits for a GLD. -/
def labGl : State := { lab with ctxs := [(0, ctx0), (1, { ctx0 with wait := .gload 4 Region.init 0 [] })] }
theorem witness_RegionReshaping_busy : goes labGl true [(.gmov, ops 5 1 0 0 .i8), (.gvol, ops 3 1 0 0 .i8), (.gst, ops 0 1 0 1 .i8)] = true ∧
    labGl.regionBusy labGl.cur = true ∧ lab.regionBusy lab.cur = false := by decide
/-- A region in global memory. -/
def labGi : State := labK fun c => { c with view := writeBytes [] 0x100000 (regionBytes (square 1) 0) }
theorem witness_RegionQueries_global : goes labGi true [(.gld, ops 5 4 0 0 .i8)] = true ∧ labGi.ownsRegion 5 = true ∧ labGi.unwatched ∧ spaceCode 0x100000 ≤ 2 ∧
    pastEnd 0x100000 = false ∧
    (match labGi.pieces 0 0x100000 .load 17 0 with
     | .inr as => !(as.any fun a => labGi.poisoned (a.at 0) 32) && (match regionOfBytes (as.flatMap (labGi.pieceBytes 0)) 0 with | .inr _ => true | _ => false)
     | _ => false) = true := by decide +kernel
/-- A phased launch whose core 0 has a tensor of core 1. -/
def labHs : State := { labP with cores := [(0, { core0 with launch := some 1, t := [(1, tLocal), (4, tPeer)] }), (1, { Core.init with launch := some 1 })] }
theorem witness_TransfersPlaced_held : goes labHs true [(.xsend, ops 0 1 0 0 .i8), (.xcnt, ops 0 1 0 0 .i8)] = true ∧ labHs.isHeld .send tPeer.base = true ∧
    labHs.isHeld .cnt tPeer.base = true ∧ (labHs.openEntry 2 tPeer.base).isSome = true ∧ labX2.isHeld .send tPeer.base = false := by decide +kernel
theorem witness_TransfersPlaced_held_passes : TransferPasses .send (ops 0 1 0 0 .i8) (ext 4 1 0) labHs tLocal tPeer ∧
    TransferPasses .cnt (ops 0 1 0 0 .i8) (ext 4 1 0x1000) labHs tLocal tPeer := by unfold TransferPasses; decide +kernel
/-- A core whose outstanding-transfer table is full. -/
def labOut : State := labC fun c => { c with outst := List.replicate 32 ⟨0, [], 0, 0⟩ }
theorem witness_TransfersPlaced_full : goes labOut true [(.xget, opsF 1 1 0 0 .i8 0 0 1)] = true ∧ 32 ≤ labOut.myCore.outst.length ∧ labOut.isHeld .get tLocal.base = false := by decide
theorem witness_TransfersPlaced_full_passes : TransferPasses .get (opsF 1 1 0 0 .i8 0 0 1) (ext 1 2 2) labOut tGlobal tLocal := by
  unfold TransferPasses; decide +kernel
theorem witness_QueueInstructions_empty : goes labP true [(.xsts, ops 0 0 0 0 .i8)] = true ∧ labP.slotFault 0 0 = none ∧ (labP.arg (ops 0 0 0 0 .i8).c).toNat = 0 := by decide
/-- An inexact region. -/
def labInx : State := labC fun c => { c with g := [(1, { square 1 with inx := true })] }
theorem witness_BindingAndGrants_causes : goes labInx true [(.grnt, ops 3 1 0 0 .i8), (.grev, ops 3 1 0 0 .i8)] = true ∧ labInx.tsr 0 1 = some tLocal ∧ labInx.tsr 0 9 = none ∧
    tLocal.pd = (labInx.myLaunch 0).pd ∧ ({ tLocal with ctrl := 0x20024 } : Tsr).pd ≠ (labInx.myLaunch 0).pd ∧ (labInx.region 0 1).inx = true ∧
    lab.access lab.cur 0xF100000000001008 64 .load = .cause 0x0A 0xF100000000001008 := by decide +kernel
/-- A tensor record in global memory, for a control context and for a helper. -/
def labTg : State := labK fun c => { c with view := writeBytes [] 0x100000 (toBytes 64 tGlobal.toNat) }
theorem witness_BindingAndGrants_global : goes labTg true [(.tbind, ops 5 4 0 0 .i8)] = true ∧ (labTg.touchTlb labTg.cur page).poisoned 0x100000 64 = false ∧
    (match labTg.access labTg.cur 0x100000 64 .load with | .global l e => decide (l = 0x100000 ∧ e = page) | _ => false) = true ∧
    (Tsr.ofNat (ofBytes (labTg.me.seeBytes 0x100000 64))).fault = none ∧ goes labX true [(.tbind, ops 5 1 0 0 .i8)] = true ∧
    labX.access labX.cur 0xF100000000001000 64 .load = .loc 0x1000 := by decide +kernel
theorem witness_AcquirePublish_waits : lab.mayIssueRelease lab.cur = true ∧ (labPost (post0 none none 0)).mayIssueRelease 0 = false ∧
    goes (labPost (post0 none none 0)) true [(.pub, opsF 0 2 0 0 .i8 3 0 0)] = true := by decide
/-- Contexts whose release has performed, waits to issue, and waits for a destination. -/
def labRd : State := labK fun c => { c with released := true }
def labDest : State := labC fun c => { c with dests := [.cluster 0] }
theorem witness_HelpersAndDone_waits : goes labRd true [(.done, ops 0 0 0 0 .i8)] = true ∧ labRd.me.released = true ∧ (labPub false).mayRelease 0 = false ∧
    goes (labPub false) true [(.done, ops 0 0 0 0 .i8), (.sync, ops 0 0 0 0 .i8)] = true ∧ labDest.mayRelease 0 = true ∧
    (labDest.sendRetirements labDest.cur).releaseDests labDest.cur (labDest.myLaunch labDest.cur).unitScope ≠ [] ∧
    goes labDest true [(.done, ops 0 0 0 0 .i8), (.sync, ops 0 0 0 0 .i8)] = true ∧ labDest.me.released = false ∧
    (labDest.sendRetirements labDest.cur).releaseDests labDest.cur (labDest.dom (labDest.launchNo labDest.cur) labDest.myCore.bdom).scope ≠ [] := by decide
theorem witness_HelpersAndDone_program : goes labM true [(.done, ops 0 0 0 0 .i8)] = true ∧ isMemCore labM.cur = true ∧ labM.placed labM.cur = false ∧
    (let s : State := { labM with cores := [(0x10000, { core0 with q := [(0, ⟨[⟨0, 0x10000, 0, .holdFire, none, false, 1⟩], 0, []⟩)] })] }
     s.placed s.cur = true ∧ goes s true [(.done, ops 0 0 0 0 .i8)] = true) ∧ goes labS true [(.done, ops 0 0 0 0 .i8)] = true ∧ isSupervisor labS.cur = true := by decide
theorem witness_HelpersAndDone_program_releases : ReleasesNow labM 1 ∧ ReleasesNow labS 0 ∧ ReleasesNow labRd 0 := by unfold ReleasesNow; decide
/-- A context with a record. -/
def labKr : State := labK fun c => { c with record := some 0x100000 }
theorem witness_TaskFrames : goes labKr true [(.done, ops 0 0 0 0 .i8)] = true ∧ isControl labKr.cur = true ∧ labKr.helpersLive 0 = false ∧ labKr.me.record = some 0x100000 ∧
    freeGrant lab.grants 1024 0 = some 0 ∧ freeGrant [] 0 0 = none ∧ (match regionBinary .gsub (square 1) (lab.region 0 1) with | .inr _ => true | _ => false) = true ∧
    tfind labG.grants 0 = some ⟨0, tLocal.base, square 1, false, 0, true⟩ ∧ ((labG.file labG.cur).launch).getD 0 = 0 ∧
    goes labG true [(.grev, ops 3 1 0 0 .i8)] = true ∧ (labEnd.ctx 1).life ≠ .live ∧ (labHeap0.heapAt 0 0x1100).2 = [] ∧ (labHeap.heapAt 0 0x1100).2 ≠ [] ∧
    labHeap0.heapCause 0x1100 = none ∧ lab.heapCause 0x1104 = some (0x0A, 0x1104) := by decide +kernel
/-- Cores of a launch of which one holds a range that another may split. -/
def labVic : State :=
  { labP with
    ctxs := [(0, { ctx0 with stat := 0x40000100 }), (16, { ctx0 with range := some ⟨0x100000, 0x1000, 0, 0, 8, 1, false⟩ })]
    cores := [(0, { core0 with launch := some 1 }), (1, { Core.init with launch := some 1 })] }
theorem witness_TaskRecords_split : goes labVic true [(.rqget, ops 20 0 0 0 .i8)] = true ∧ labVic.me.range = none ∧ labVic.me.search ≠ 2 ∧ labVic.pop 0 1 = none ∧
    labVic.launchNo 0 = 1 ∧ (match mostLeft (labVic.victims 1 0) with | some v => (labVic.split 0 v).me.range.isSome | none => false) = true ∧
    mostLeft (labP.victims 1 0) = none ∧ ((labT [queued 1 0x100000 1 0]).pop 0 1).isSome = true ∧
    goes (labT [queued 1 0x100000 1 0]) true [(.rqget, ops 20 0 0 0 .i8)] = true ∧ (labK fun c => { c with search := 2 }).me.search = 2 := by decide +kernel
/-- Two launches of one address space: a record of the second queued. -/
def labCan : State :=
  { labT [queued 2 0x100000 0 0] with mem := [(0x8000, 0x3A)], launches := [(1, { launch1 with phased := false, root := 0x8000 }), (2, { launch1 with root := 0x8000 })] }
theorem witness_TaskRecords_cancel : lab.launchNo lab.cur = 0 ∧ labCan.launchNo 0 = 1 ∧ (labCan.findRec 1 0x100000).map (·.launch) = some 2 ∧
    (labCan.findRec 2 0x100000).map (·.launch) = some 2 ∧ (labCan.findRec 1 0x100040).isNone = true ∧ (lab.jdecBy 0 0x100000).2.2 = none := by decide +kernel
theorem witness_TransfersLand_waits :
    let s := labE 0 (.xfer (xfer0 [[0, 0], [0, 1]])) false
    (match s.landPoint 0 (xfer0 [[0, 0], [0, 1]]) [0, 0] none with
     | .landed t ls => !((t.noteLanded 0 0 0 ls).wordsOpen (xfer0 [[0, 1]]) (s.partWords (xfer0 [[0, 0], [0, 1]]) 0))
     | _ => false) = true ∧ s.mayFinish 0 (xfer0 []) = true ∧
    (match ({ s with mem := [] } : State).landPoint 0 (xfer0 [[0, 0], [0, 1]]) [0, 0] none with | .absent _ => true | _ => false) = true ∧
    labQ.markMay ⟨0, 0, 0, .mark 1 1 none, none, false, 0⟩ = true ∧ labQ.releaseDests 0 1 = [] ∧
    ({ labQ with cores := [(0, { labQ.core 0 with dests := [.cluster 0] })] } : State).releaseDests 0 1 ≠ [] := by decide +kernel
theorem witness_TransfersLand_retires :
    let s : State := { labE 3 (.kvseal 0) false with retiring := [⟨0, 0x100000, 3, none, 0⟩, ⟨0, 0x100000, 3, some 0, 0⟩] }
    s.retirementMay ⟨0, 0x100000, 3, none, 0⟩ = true ∧ s.blocked 0 (s.retireRanges 0 0x100000 3) = none := by decide +kernel
theorem witness_MatrixEngineMoves_waits : (mma0 [0] false).waits = none ∧
    16 ≤ ({ Cluster.init with setter := List.replicate 16 (sent .held) } : Cluster).setter.length ∧ Cluster.init.setter.length < 16 ∧
    (Cluster.init.setter.any fun y => y.core = 0 && (y.acc = 1 || y.ring = 0)) = false ∧ labVp.tileBusy key0 = false := by decide +kernel
/-- A launch of no unit passes. -/
theorem witness_LaunchesAndBarriers_empty : labGo.placement 1 [⟨0, 2, 0⟩] [0] = some ⟨[⟨0, 2, 0⟩], [], []⟩ ∧
    ({ labGo with mem := [(0x8000, 0x3A), (0x100010, 0x11), (0x100044, 2)] } : State).recordFields 1 0x100000 = .inr [⟨0, 2, 0⟩] ∧
    ({ labGo with mem := [(0x8000, 0x3A), (0x100010, 0x11), (0x100044, 2)] } : State).refusal 1 0x100000 ⟨[⟨0, 2, 0⟩], [], []⟩ = none ∧ placed0.cores ≠ [] ∧
    (labGo.launchOf 1).cancelled = false ∧ (labGo.launchOf 1).left = [] := by decide +kernel
theorem witness_HostRequests_map :
    let s : State := { labReq (req1 1 [0x8000, 2 ^ 15, 3] false) with
      mem := [(0x8000, 1), (0x8001, 0x80), (0x8002, 1), (0x18000, 1), (0x18001, 0x80), (0x18002, 2), (0x28000, 1), (0x28001, 0x80), (0x28002, 3)]
      funcs := [(0, { Func.init 0 with root := 0x8000, maps := [⟨0x1000000, 0x1000000, 2 ^ 15, 3⟩] })] }
    ((s.func 0).maps.any fun m => m.va < 0x8000 + 0x8000 && 0x8000 < m.va + m.size) = false ∧ isFunc 0 = true ∧
    (s.func 0).covers 0 0x1000000 256 = true ∧ (labReq (req1 5 [0x1000] false)).birhiry.boot = 2 := by decide +kernel
theorem witness_ObserveAndRepair_watch : (labReq (req1 1 [] false)).birhiry.boot = 2 ∧ State.reset.birhiry.boot ≠ 2 ∧ lab.mayWatch 3 0 0 0 = true ∧
    ({ lab with cyc := 20 } : State).cyc > (lab.core 0).demand + 16 ∧ (lab.ctx 0).ready = true ∧
    (({ lab with profilers := [⟨1, 2, []⟩] } : State).profilers.any fun p => p.kind = 1 && p.func = 2) = true ∧
    (([post0 none none 0] : List Post)[0]?.map (·.refuse)) = some none := by decide

/-! ### P-521 (FIPS 186-5): the base point and sums of it lie on the curve -/

theorem test_ecdsa_base : onCurve baseP521 = true ∧ mulPoint baseP521 1 1 = baseP521 := by decide +kernel
theorem test_ecdsa_double : onCurve (addPoint baseP521 baseP521) = true ∧ addPoint baseP521 baseP521 ≠ baseP521 := by decide +kernel

/-! ### Further clauses -/

/-- A program of memory core 0 that core 0's MCRUN started, under the journal entry 3. -/
def labM3 : State :=
  { labM with
    ctxs := [(0, ctx0), (0x10000, { ctx0 with starter := some (0, 0) })]
    cores := [(0, { core0 with q := [(0, ⟨[⟨0, 0, 0, .mcrun 0x2000 7 0x100000, some 3, true, 1⟩], 0, []⟩)] }), (0x10000, core0)]
    mem := writeBytes [] (locLocal 0 (jrnOff 3 + 0x16)) [3, 1] }
theorem witness_TrapEntry_program : isMemCore 0x10000 = true ∧ (labM3.ctx 0x10000).starter = some (0, 0) ∧
    (labM3.core 0).entry 0 0 = some ⟨0, 0, 0, .mcrun 0x2000 7 0x100000, some 3, true, 1⟩ ∧ readByte labM3.mem (locLocal 0 (jrnOff 3) + 0x16) = 3 := by decide +kernel

/-- A context with causes of both kinds pending: a journal-reported one, then one that nothing reports. -/
def labAs : State := labK fun c =>
  { c with stat := 0x108, lock := some bit0, pend := [⟨0x11, 77, some 4⟩, ⟨0x1A, 1, none⟩, ⟨0x12, 5, some 2⟩] }
theorem witness_CausesTaken_first : isMemCore 0 = false ∧ labAs.atBoundary 0 = true ∧ (labAs.ctx 0).mode = 0 ∧ (labAs.ctx 0).ie = true ∧
    (∃ a, Takeable labAs 0 a) ∧ FirstOf labAs 0 ⟨0x11, 77, some 4⟩ := by
  have ht : Takeable labAs 0 ⟨0x11, 77, some 4⟩ := by unfold Takeable; decide
  refine ⟨by decide, by decide, by decide, by decide, ⟨_, ht⟩, ht, ?_, fun _ => ⟨?_, fun _ => ⟨⟨_, ht, by decide, ?_⟩, [], _, rfl, by simp⟩⟩⟩
  · rintro ⟨b, ⟨hb, -⟩, he, hc⟩
    have : b ∈ [(⟨0x11, 77, some 4⟩ : AsyncCause), ⟨0x1A, 1, none⟩, ⟨0x12, 5, some 2⟩] := hb
    simp at this
    rcases this with rfl | rfl | rfl <;> simp_all
  · intro h; cases h
  · rintro c ⟨hc, -⟩ he
    have : c ∈ [(⟨0x11, 77, some 4⟩ : AsyncCause), ⟨0x1A, 1, none⟩, ⟨0x12, 5, some 2⟩] := hc
    simp at this
    rcases this with rfl | rfl | rfl <;> simp_all
theorem witness_CausesTaken_stop : 0 < 3072 ∧ (labP.core 0).launch = some 1 ∧ isCompute 0 = true ∧ readNat labP.mem (labP.launchOf 1).ring 8 < 2 ^ 64 - 1 := by
  decide +kernel
/-- Section 26's run (R450): the length of the first XSTS of core 2's halo goes beyond slot 0's LEN: SLOT_VIOLATION with XCAUSE 0x410 and XVAL 0x400. -/
theorem test_slot_too_long : labP.slotFault 0 0x180 = some 4 ∧
    (match exec (.xsts hd (ops 1 1 0 11 .i8) (ext0 .xsts (ops 1 1 0 11 .i8))) labP with
     | .next t => (t.me.xcause, t.me.xval, t.me.xpc) | _ => (0, 0, 0)) = (0x410, 0x400, 0x1000) := by decide +kernel
/-- The same run: Smirvadin's default handler reports the cause, stops the core and takes it out of the launch, which is to end FAILED with 0x10. -/
theorem test_slot_default_handler :
    (match exec (.asyncCauseTake 0 1) { labP with ctxs := [(0, { ctx0 with stat := 0x40000101, xcause := 0x410 })] } with
     | .next t => ((t.launchOf 1).failed, (t.core 0).launch, (t.ctx 0).stopped) | _ => (none, none, false)) = (some 0x10, none, true) := by decide +kernel

/-- Stores and atomics to shared and to global memory, each with an entry FREE and with none. -/
theorem witness_StoresComplete_deferred :
    goes lab true [(.st, ops 0 3 0 2 .i64), (.st, ops 0 4 0 2 .i8), (.st2, ops 0 3 0 20 .i64), (.st2, ops 0 4 0 20 .i64)] = true ∧
    goes labFull true [(.st, ops 0 4 0 2 .i64), (.st2, ops 0 3 0 20 .i64)] = true ∧
    lab.localAddr (ops 0 3 0 2 .i64) = true ∧ lab.localAddr (ops 0 4 0 2 .i64) = false ∧
    lab.access 0 0xF200000000000000 8 .store = .shared (locShared 0 0) ∧ lab.access 0 0xF200000000000000 16 .store = .shared (locShared 0 0) ∧
    lab.access 0 0x100000 8 .store = .global 0x100000 page ∧ lab.access 0 0x100000 16 .store = .global 0x100000 page ∧
    ([0xF200000000000000, 0x100000].all fun p => match (lab.touchTlb 0 page).openEntry 0 p, lab.openEntry 0 p with
      | some x, some y => decide (x.2.unwatched ∧ y.2.unwatched) | _, _ => false) = true ∧
    (labFull.touchTlb 0 page).openEntry 0 0x100000 = none := by decide +kernel
theorem witness_AtomicsComplete_travels :
    ([(3, lab), (4, lab), (3, labLock), (4, labLock), (3, labFull), (4, labFull)].all fun x =>
      goes x.2 true ((atomicForms .i64).map fun y => (y.1, { y.2 with a := .reg x.1 })) &&
      goes x.2 true [(.faadd, ops 0 x.1 0 2 .f32), (.ecrd, ops 3 x.1 0 0 .f32), (.ecclr, ops 0 x.1 0 0 .i8)] && (x.2.localAddr (ops 0 x.1 0 2 .i64) == (x.1 == 3))) = true ∧
    ([AKind.atomic, .lock].all fun k => lab.access 0 0xF200000000000000 8 k == .shared (locShared 0 0)) = true ∧
    lab.access 0 0x100000 8 .atomic = .global 0x100000 page ∧ lab.access 0 0x100000 8 .lock = .cause 0x07 0x100000 ∧
    lab.access 0 0xF200000000000000 64 .atomic = .shared (locShared 0 0) ∧ lab.access 0 0x100000 64 .atomic = .global 0x100000 page ∧
    ((lab.openEntry 1 0x100000).isSome && ((lab.touchTlb 0 page).openEntry 1 0x100000).isSome) = true ∧ labFull.openEntry 1 0xF200000000000000 = none ∧
    (labFull.touchTlb 0 page).openEntry 1 0x100000 = none := by decide +kernel
theorem witness_SystemRegisters_others : isCompute 0x10000 = false ∧ isCompute 0x20000 = false ∧ isCompute (0x10000 + 16 * 384) = false ∧
    (384 ≤ coreNo (0x10000 + 16 * 384)) ∧ ¬384 ≤ coreNo 0x10000 ∧ isHelper 0 = false ∧ (lab.ctx 0).range = none ∧
    ((labK fun c => { c with range := some ⟨0, 0x1000, 0, 0, 8, 2, true⟩ }).ctx 0).range = some ⟨0, 0x1000, 0, 0, 8, 2, true⟩ := by decide

/-- A ragged tensor of four groups of 2, 1, 0 and 1 cells in local memory, its record in global memory. -/
def tRag : Tsr := { tLocal with rag := 0x100000, ctrl := tLocal.ctrl + 2 ^ 14 }
def labRag : State :=
  { labK (fun c => { c with view := writeBytes [] 0x100000 [4, 0, 0, 0, 0, 0, 0, 0, 2, 0, 0, 0, 3, 0, 0, 0, 3, 0, 0, 0, 4] }) with cores := [(0, { core0 with t := [(1, tRag), (2, tGlobal)] })] }
theorem witness_TileAndRegionLanes_ragged : goes labRag true [(.vldrg, ops 4 1 20 1 .i8), (.vstrg, ops 0 1 20 4 .i8)] = true ∧ labRag.unwatched ∧
    let g := labRag.region labRag.cur 1
    let start := labRag.point 20 g.rank
    labRag.tsr labRag.cur g.tsr = some tRag ∧
      (match ragNeeded g tRag start 32 with
       | some k => match labRag.ragRead 0 tRag k with
         | .ok a b =>
           let cells := laneCells g tRag (a, b) start 32
           let valid := ((labRag.actives 0 32).zip cells).map fun x => x.1 && x.2.isSome
           let offs := cells.map fun c => localBase tRag.base + (match c with | some c => c.rel | none => 0)
           valid.getD 0 false && lanesPass labRag tRag.base 4 false 1 valid offs && lanesPass labRag tRag.base 4 true 1 valid offs
         | _ => false
       | none => false) = true := by decide +kernel
theorem witness_RegionReshaping_ragged : goes labRag true [(.grag, ops 5 1 0 0 .i8), (.gdil, opsF 5 1 0 0 .i8 0 0 1)] = true ∧ labRag.ownsRegion 5 = true ∧
    let a := labRag.region labRag.cur 1
    let r := cutRange a.lattice (a.full.map (dilateBox a.lattice (amounts 1 a.rank)))
    labRag.tsr labRag.cur a.tsr = some tRag ∧ clipGroups a a.boxes tRag ≠ [] ∧ clipGroups a r.1 tRag ≠ [] ∧
      (match labRag.ragMany tRag (clipGroups a a.boxes tRag) with | .inr _ => true | _ => false) = true ∧
      (match labRag.ragMany tRag (clipGroups a r.1 tRag) with | .inr _ => true | _ => false) = true := by decide +kernel
/-- GLAT on a lattice pair of R115's Others, and on a unit one. -/
def labLat : State := labC fun c => { c with g := [(1, { square 1 with lat := [(1, 0), (0, 0)] })] }
theorem witness_RegionResults_lattices : goes labLat true [(.glat, ops 5 1 2 0 .i8), (.glat, ops 5 1 0 0 .i8)] = true ∧ labLat.ownsRegion 5 = true ∧
    (match glatLat (labLat.arg (.reg 2)).toNat 2 with
     | .inr l =>
       let m : Machine.Lat := l.map fun y => (2 ^ y.1, y.2)
       (labLat.region 0 1).lattice != m && !(labLat.region 0 1).lattice.isUnit && !Machine.Lat.isUnit m
     | _ => false) = true ∧
    (match glatLat (labLat.arg (.reg 0)).toNat 2 with | .inr l => Machine.Lat.isUnit (l.map fun y => (2 ^ y.1, y.2)) | _ => false) = true := by decide +kernel

/-- A launch whose table gives the miss handler to its contexts: a POSL misses, and another context of the core is in the handler. -/
def labMiss : State := { labT [] with launches := [(1, { launch1 with phased := false, miss := true })] }
def labMissBusy : State := { labMiss with ctxs := [(0, ctx0), (3, { ctx0 with missPosl := some 0x2000 })] }
theorem witness_TokensAndPositions_miss :
    ([labMiss, labMissBusy].all fun s => goes s true [(.posl, ops 20 2 8 0 .i8)] && s.me.mode == 0 && (s.myLaunch 0).miss && s.myCore.ptb.isEmpty) = true ∧
    (∀ n, n < 11 → (labMiss.ctx n).missPosl = none) ∧ (labMissBusy.ctx 3).missPosl ≠ none := by decide
/-- RQGET of a range that is at its end, and of one with a record. -/
def labRg (g : RangeTask) : State := labK fun c => { c with range := some g }
theorem witness_TaskRecords_chunk :
    ([⟨0, 0x1000, 0, 0, 8, 2, false⟩, ⟨0x100000, 0x1000, 0, 8, 8, 2, false⟩, ⟨0x100000, 0x1000, 0, 7, 8, 2, false⟩].all fun g : RangeTask =>
      goes (labRg g) true [(.rqget, ops 20 0 0 0 .i8)] && (labRg g).me.range == some g) = true ∧
    goes (labT [queued 1 0x100000 1 0]) true [(.rqget, ops 20 0 0 0 .i8)] = true ∧ ((labT [queued 1 0x100000 1 0]).pop 0 1).isSome = true := by decide
/-- A helper that adds a continuation: to a queue with room, and with a record that cannot be read. -/
def labXn : State :=
  { labAddq [0] [] with ctxs := [(0, ctx0), (1, { ctx0 with pc := 0x2000 })], cur := 1 }
theorem witness_TaskRecords_helper : goes labXn true [(.cqnext, ops 3 4 0 0 .i8), (.cqnext, ops 3 1 0 0 .i8)] = true ∧ isHelper labXn.cur = true ∧
    labXn.access 1 0x100000 1 .atomic = .global 0x100000 page ∧ labXn.unread 0xF100000000001000 = true ∧ labXn.unread 0x100000 = false ∧
    (labXn.touchTlb 1 page).addCode ((labXn.touchTlb 1 page).launchNo 1) 0 ((labXn.touchTlb 1 page).rdL ((labXn.touchTlb 1 page).launchNo 1) 0x100014 4) 0 = none ∧
    ((labXn.touchTlb 1 page).cluster 0).room 0 0 = true := by decide +kernel
/-- A context of a launch decrements the JOIN of a record at 0x100000. -/
def labJd (join : Byte) (rel : Bool) : State :=
  { lab with
    ctxs := [(0, { ctx0 with released := rel })], cores := [(0, { core0 with launch := some 1, root := 0x8000, dtlb := [{ page with root := 0x8000 }] })]
    launches := [(1, { launch1 with phased := false, root := 0x8000 })], mem := [(0x8000, 0x3A), (0x100010, join), (0x10001C, 1)] }
theorem witness_TaskRecords_join_to_zero : goes (labJd 1 false) true [(.jdec, ops 3 4 0 0 .i8)] = true ∧
    (labJd 1 false).access 0 0x100000 1 .atomic = .global 0x100000 { page with root := 0x8000 } ∧ (labJd 1 false).launchNo 0 = 1 ∧
    (labJd 1 false).rdL 1 0x100010 4 = 1 ∧ (labJd 1 false).kindAt 1 0x100000 ≠ 2 ∧ (labJd 2 false).rdL 1 0x100010 4 = 2 ∧ (labJd 0 false).rdL 1 0x100010 4 = 0 ∧
    (((labJd 1 false).wrL 1 0x100010 4 0).cluster ((labJd 1 false).jdecCluster 0)).room 1 0 = true ∧ (labJd 1 true).me.released = true ∧
    ((labJd 1 false).jdecBy 0 0x100000).2.2 = none := by decide +kernel
/-- With its queue full, as `witness_TaskRecords_full` has it, JDEC reaches a cluster without room. -/
theorem witness_TaskRecords_join_full (q : List QRec) (h : ({ Cluster.init with queue := q } : Cluster).room 1 0 = false) :
    (({ labJd 1 false with clusters := [(0, { Cluster.init with queue := q })] } : State).cluster 0).room 1 0 = false := h
theorem witness_Supersteps_waits : goes { labP with ctxs := [(0, { ctx0 with stat := 0x40000100 }), (1, ctx0)] } true [(.sync, ops 0 0 0 0 .i8)] = true ∧
    ¬mayArrive { labP with ctxs := [(0, { ctx0 with stat := 0x40000100 }), (1, ctx0)] } ∧
    goes { labP with ctxs := [(0, { ctx0 with stat := 0x80000100 })] } true [(.sync, ops 0 0 0 0 .i8)] = true ∧
    ({ labP with ctxs := [(0, { ctx0 with stat := 0x80000100 })] } : State).me.phase = 2 ∧
    goes { labP with ctxs := [(0, ctx0), (1, ctx0)], cur := 1 } true [(.sync, ops 0 0 0 0 .i8), (.bdom, ops 0 0 0 0 .i8), (.bdom, ops 0 6 0 0 .i8)] = true ∧
    (({ labP with ctxs := [(0, ctx0), (1, ctx0)], cur := 1 } : State).dom 1 0).members.contains 0 = true ∧ (labP.dom 1 3).members.contains 0 = false := by
  unfold mayArrive; decide +kernel

/-- Transfers with a failed point, with a page that is absent, counted ones among them, and a held send with nothing left. -/
def xferR (x : Transfer) : Transfer := { x with root := some 0x9000 }
def cnt0 (todo : List (List Int)) : Transfer :=
  { transferOf .cnt (ops 0 1 0 0 .i8) (ext 2 1 0x1000) lab tLocal { tGlobal with base := 0x200000 } with todo := todo, root := some 0x9000 }
theorem witness_TransfersLand_failed :
    let x : Transfer := { xfer0 [] with failed := some (0x06, 0x100000) }
    (labE 0 (.xfer x) false).movable 0 0 0 = some (⟨0, 0, 0, .xfer x, none, false, 0⟩, x) ∧ x.todo = [] ∧
      (labE 0 (.xfer (xfer0 [])) false).mayFinish 0 (xfer0 []) = true ∧ ringFree (labE 0 (.xfer (xfer0 [])) false) 0 0 ⟨0, 0, 0, .xfer (xfer0 []), none, false, 0⟩ (xfer0 []) := by
  refine ⟨by decide +kernel, rfl, by decide +kernel, ?_⟩
  intro h; exact absurd h (by decide)
theorem witness_TransfersLand_absent :
    ([xferR (xfer0 [[0, 0], [0, 1]]), cnt0 [[0, 0], [0, 1]]].all fun x =>
      (labE 0 (.xfer x) false).movable 0 0 0 == some (⟨0, 0, 0, .xfer x, none, false, 0⟩, x) &&
      (match (labE 0 (.xfer x) false).landPoint 0 x [0, 0] none with | .absent _ => true | _ => false)) = true ∧
    (xferR (xfer0 [[0, 0], [0, 1]])).overtakes = false ∧ (cnt0 [[0, 0], [0, 1]]).overtakes = true ∧
    ((labE 0 (.xfer (cnt0 [[0, 0], [0, 1]])) false).parks (cnt0 [[0, 0], [0, 1]]) [[0, 0]]).isSome = true ∧
    (let x : Transfer := { cnt0 [[0, 0], [0, 1]] with parked := [([9, 9], 0, 2 ^ 18)] }
     (labE 0 (.xfer x) false).parks x [[0, 0]] = none ∧ x.overtakes = true ∧
       (match (labE 0 (.xfer x) false).landPoint 0 x [0, 0] none with | .absent _ => true | _ => false) = true) := by decide +kernel
theorem witness_TransfersLand_held :
    let x : Transfer := { transferOf .send (ops 0 1 0 0 .i8) (ext 4 1 0) labX2 tLocal tPeer with todo := [] }
    let s : State := { labSlot with cores := [(0, { core0 with launch := some 1, held := [⟨0, 0, 1, 0, none, some x, none, 1⟩] }), (1, { Core.init with launch := some 1 })] }
    s.heldNow 0 0 = some (⟨0, 0, 1, 0, none, some x, none, 1⟩, x) ∧ x.todo = [] := by decide +kernel

/-- Groups that wait for PRELOAD, keys that are due, and a drain that a watch meets not. -/
theorem witness_MatrixEngineMoves_due :
    keyDue { Cluster.init with setter := [sent .held] } 0 key0 ∧ keyDue { Cluster.init with setter := [sent .held], running := some 9 } 8 key0 ∧
    ¬keyDue { Cluster.init with setter := [sent .held], running := some 9 } 7 key0 ∧
    takeMembers 128 [exEntry 1 128 0 0 0, exEntry 2 16 0 0 0] ≠ [] := by unfold keyDue; decide
theorem witness_MatrixEngineMoves_load :
    let x : Cluster := { Cluster.init with groups := [⟨3, key0, 0⟩, ⟨4, key0, 2⟩, ⟨5, key0, 2⟩] }
    x.preload = none ∧ x.groups = [⟨3, key0, 0⟩] ++ ⟨4, key0, 2⟩ :: [⟨5, key0, 2⟩] ∧ some 4 ≠ x.running ∧ (∀ h ∈ x.groups, h.prio ≤ 3) ∧
      (∀ h ∈ ([⟨3, key0, 0⟩] : List Group), h.prio < 2 ∧ h.id ≠ 4) ∧ (∀ h ∈ ([⟨5, key0, 2⟩] : List Group), h.prio ≤ 2) ∧
      (x.active.any fun a => a.1 = key0) = false := by decide
theorem witness_MatrixEngineMoves_complete : (lab.core 0).landingMeets 0x2000 512 = false ∧ (lab.core 0).landingMeets 0x2000 (8200 * (lab.amap 0 1).len) = false ∧
    (mma0 [0] false).prio ≠ 3 ∧ ((labM1 [0] 0 Cluster.init).settleSetter 0).preempting 0 = false := by decide +kernel

/-- Walks that end absent, the fetch's and a small context's waits, and the answers. -/
theorem witness_ServicesEnd_absent :
    ([true, false].all fun x => ((labWt (.walk 0x8000000000 x)).ctx 0).wait == .walk 0x8000000000 x && ((labWt (.walk 0x8000000000 x)).secondTlb 0 0x8000000000).isNone) = true ∧
    walk (labWt .none).mem ((labWt .none).rootFor 0) 0x8000000000 = .absent 0 ∧ (labWt .none).lostDieHome 0 = false ∧
    ((labWt .returning).ctx 0).wait = .returning ∧ ((labWt (.answer [] 0 4 0x100000)).ctx 0).wait = .answer [] 0 4 0x100000 ∧
    ((labWt (.bind 5 tGlobal 0 0x100000)).ctx 0).wait = .bind 5 tGlobal 0 0x100000 ∧ ((labWt (.gload 5 (square 1) 0 [0x100000])).ctx 0).wait = .gload 5 (square 1) 0 [0x100000] ∧
    ((labWt (.sysc 3 1 2)).ctx 0).wait = .sysc 3 1 2 ∧ (labWt .none).poisoned 0x100000 64 = false := by decide +kernel
/-- Posts to an exact cell and to a home whose buffer and log are full. -/
theorem witness_PostsAndReleases_log (n m : Nat) (hn : logLines ≤ n) (hm : (bufferOf (64 * 0x4000)).2 ≤ m) :
    let s : State := { labPost (post0 none none 0) with
      dies := [(0, { Die.init with log := List.replicate n (1, 0) })], buffers := [((bufferOf (64 * 0x4000)).1, List.replicate m (1, 0))] }
    State.holdLine 0 (some s) 0x4000 = none := by
  have hd : logDie (64 * 0x4000) = 0 := by decide
  simp only [Nat.reduceMul] at hd hm
  simp [State.holdLine, tget, hd, State.die, Nat.not_lt.mpr hn, Nat.not_lt.mpr hm]
theorem witness_PostsAndReleases_cell : (labPost (post0 (some req0) none 0)).posts[0]? = some (post0 (some req0) none 0) ∧
    homeThere (labPost (post0 (some req0) none 0)) 0x100000 ∧ (linesOf 0x100000 4).foldl (State.holdLine 0) (some (labPost (post0 (some req0) none 0))) ≠ none ∧
    (labPost (post0 none none 1)).posts[0]? = some (post0 none none 1) ∧ (post0 none (some (0x18, 3)) 1).refuse = some (0x18, 3) ∧
    ({ lab with steps := [step0 0 1] } : State).steps[0]? = some (step0 0 1) ∧ (step0 0 1).peer = 7 := by unfold homeThere; decide +kernel

/-- A domain whose exchange phase is over with a refused landing and a lost die, two of its cores at SYNC. -/
def labB (x : Domain) : State :=
  { labP with
    ctxs := [(0, { ctx0 with stat := 0x80000100 }), (16, { ctx0 with stat := 0x80000100 })]
    domains := [(16, { x with members := [0, 1], exchange := true, arrived := [(0, 5), (1, 6)] })] }
theorem witness_LaunchesAndBarriers_error :
    ([{ Domain.init with refused := true, missing := [⟨5, 0xF100005000002000, 4, [(1, 0), (1, 0)], [[0, 0]], false⟩] }, { Domain.init with lostDie := some 3 }].all fun x : Domain =>
      let s := labB x
      let d := s.dom 1 0
      d.exchange && !(s.steps.any (State.stepDue 1 d.members)) && !(s.domainHolds 1 0) && (s.launchOf 1).cores.any (s.joined 1) && (d.refused || d.lostDie.isSome) &&
        !(s.waiting 1) && (s.launchOf 1).orphans.isEmpty && s.syncing d == [0, 1] && (s.ctx 0).mode == 0 && !(s.lostCore 0) && !(s.lostCore 5)) = true := by decide +kernel
/-- A job with cores in its launch, a booted package, and a job whose arrivals wait. -/
def labJobs : State := { labJob 1 with cores := labP.cores, birhiry := { Birhiry.init with boot := 2 } }
theorem witness_JobSwitch_cores : labJobs.birhiry.boot = 2 ∧ State.reset.birhiry.boot ≠ 2 ∧ labJobs.jobCores 1 = [0, 1] ∧ (labJobs.ctx 0).life = .live ∧ (labJob 0).exchangeRuns 1 = false ∧
    ({ labJob 2 with bounce := [⟨7, 1, 0, 0x2000, [1], 0, 0, 1⟩, ⟨7, 2, 0, 0x2000, [1], 0, 0, 2⟩] } : State).bounce.any (·.launch ≠ 1) = true := by decide +kernel
/-- Steps that follow a step that is over, a step whose data have landed, and packets that find no place. -/
theorem witness_CollectivesMove_after :
    let s (n : Nat) : State := { labStep 1 0 with steps := [{ step0 1 0 with after := 0x100100 }, { step0 1 n with va := 0x100100 }] }
    (∃ y, (s 3).stepAt 1 0x100100 = some y ∧ y.stage = 3) ∧ (∃ y, (s 2).stepAt 1 0x100100 = some y ∧ y.stage = 2) ∧
      ({ step0 1 0 with after := 0x100100 } : CStep).after ≠ 0 ∧ ({ labStep 1 0 with peersLost := [7] } : State).peersLost.contains 7 = true :=
  ⟨⟨_, rfl, rfl⟩, ⟨_, rfl, rfl⟩, by decide, by decide⟩
theorem witness_CollectivesMove_receives :
    let t : State := { labStepL with ptt := [(pttKey 1 0, some true)] }
    let a : State := { labStepL with ptt := [(pttKey 1 0, some false)] }
    ({ stepL with landed := true } : CStep).landed = true ∧ t.gathered { stepL with landed := true } = true ∧ stepL.landed = false ∧ t.isPresent 1 0 = true ∧ a.isPresent 1 0 = false ∧
      (t.ptt.any fun e => e.1 / 4096 = 1) = true ∧ tget none t.ptt (pttKey 1 0) = some true ∧ (t.recvAt 1 7 0 0x2000 64).isSome = true ∧ (t.recvAt 1 8 0 0x2000 64).isSome = false ∧
      tget none a.ptt (pttKey 1 0) = some false ∧ a.bounceRoom ⟨7, 1, 0, 0x2000, [1], 0, 0, 1⟩ = true ∧ ({ step0 0 0 with kept := some [] } : CStep).kept ≠ none ∧
      (step0 0 0).atSync false = false := by
  refine ⟨?_, ?_, ?_, ?_, ?_, ?_, ?_, ?_, ?_, ?_, ?_, ?_, ?_⟩
  case refine_11 =>
    have hs : (⟨7, 1, 0, 0x2000, [1], 0, 0, 1⟩ : Bounced).size = 128 := by decide
    have hb : labStepL.bounce = [] := rfl
    unfold State.bounceRoom
    rw [hs]
    simp [hb]; omega
  all_goals decide +kernel
/-- A successor list of one record whose JOIN is 1. -/
theorem witness_CollectivesMove_signals :
    let s : State := { labJd 1 false with mem := [(0x8000, 0x3A), (0x100010, 1), (0x10001C, 1), (0x200000, 1), (0x20000A, 0x10)] }
    s.rdL 1 0x200000 8 = 1 ∧ s.rdL 1 (0x200000 + 8) 8 = 0x100000 ∧ s.rdL 1 (0x100000 + 0x10) 4 = 1 ∧ s.kindAt 1 0x100000 ≠ 2 ∧ (s.launchOf 1).stage = 1 ∧
      (s.cluster 0).room 1 0 = true := by decide +kernel

/-- A Vexpen port that goes down under a SEND that has started on two ports. -/
def labPd : State :=
  { lab with
    vexUp := [0, 3], steps := [{ step0 0 1 with ports := 9, marks := [(0, 1, 0), (3, 1, 3)] }], vexOut := [⟨3, 3, 7, 1, 1, 0x100000, 0, [1]⟩]
    birhiry := { Birhiry.init with boot := 2 } }
theorem witness_PartsComeAndGo_port : labPd.vexUp.contains 3 = true ∧ labPd.birhiry.boot = 2 ∧ labPd.vexUp.filter (fun p => p ≠ 3) ≠ [] ∧
    (labPd.steps.all fun x => x.op = 0 && x.stage = 1 && ({ labPd with vexUp := [0] } : State).portsUp x.ports ≠ []) = true ∧
    (∃ k ∈ labPd.vexOut, k.port = 3 ∧ k.of = 3 ∧ k.peer = 7 ∧ k.launch = 1 ∧ k.va = 0x100000) ∧ lab.cxlUp.contains 2 = false :=
  ⟨by decide, by decide, by decide, by decide +kernel, ⟨_, List.mem_cons_self, by decide⟩, by decide⟩
/-- Copies from and to the host that are under way, over a page of the function. -/
def labCopy (opc : Nat) : State :=
  { labReq (req1 opc [0x100000, 0x100000, 256] true) with
    mem := [(0x8000, 0x3A)], funcs := [(0, { Func.init 0 with root := 0x8000, maps := [⟨0x100000, 0x10000, 2 ^ 15, 3⟩] })] }
theorem witness_HostRequests_copies : ([3, 4].all fun n => (labCopy n).reqs[0]? == some (req1 n [0x100000, 0x100000, 256] true)) = true ∧
    (labCopy 3).copyRun (req1 3 [0x100000, 0x100000, 256] true) 0 ((req1 3 [0x100000, 0x100000, 256] true).whole 64) ≠ [] ∧
    (labCopy 4).copyRun (req1 4 [0x100000, 0x100000, 256] true) 0 ((req1 4 [0x100000, 0x100000, 256] true).whole 64) ≠ [] ∧
    (((labCopy 4).copyRun (req1 4 [0x100000, 0x100000, 256] true) 0 ((req1 4 [0x100000, 0x100000, 256] true).whole 64)).all fun l => !(labCopy 4).poisoned l.1 1) = true := by
  decide +kernel
theorem witness_FunctionsResetAndMigrate_moves :
    let s (n : Nat) : State := { labMig n with birhiry := { Birhiry.init with boot := 2 } }
    (s 0).birhiry.boot = 2 ∧ ((s 0).mig 0).stage = 0 ∧ ((s 1).mig 0).stage = 1 ∧ ((s 2).mig 0).stage = 2 ∧ ((s 4).mig 0).stage = 4 ∧
      (s 1).atExchangeBoundary 0 = true ∧ (s 1).allSent 0 [] = false ∧ (labJob 1).atExchangeBoundary 0 = false ∧
      ({ labMig 1 with migs := [(0, { Migration.init with stage := 1, last := true })] } : State).allSent 0 [] = true ∧
      lab.launchesOf 0 = [] ∧ (labMig 1).launchesOf 0 ≠ [] := by decide +kernel
/-- The frames of a function whose page lies at 0x100000. -/
theorem witness_FunctionsResetAndMigrate_frames :
    let s : State := { labMig 4 with
      mem := [(0x8000, 1), (0x8001, 0x80), (0x8002, 1), (0x18000, 1), (0x18001, 0x80), (0x18002, 2), (0x28100, 0x1A), (0x28102, 0x10)]
      funcs := [(0, { Func.init 0 with root := 0x8000, maps := [⟨0x100000, 0x8000, 2 ^ 15, 3⟩] })] }
    (s.framesOf 0).contains 32 = true ∧ (s.mig 0).stage = 4 := by decide +kernel
/-- A MAP whose leaf Smirvadin installs in the tables of the function. -/
def labMap : State :=
  { labReq (req1 1 [0x8000, 2 ^ 15, 3] false) with
    mem := [(0x8000, 1), (0x8001, 0x80), (0x8002, 1), (0x18000, 1), (0x18001, 0x80), (0x18002, 2)], funcs := [(0, { Func.init 0 with root := 0x8000 })] }
theorem witness_HostRequests_installs :
    let w : List (Nat × Nat × Nat) := [(0x28100, 8, 0x10001A)]
    labMap.mapFits 0x8000 0x100000 0x8000 (2 ^ 15) = true ∧ labMap.mayInstall 0x8000 [(0x100000, 2 ^ 15)] w (newLeaf 0x100000 0x8000 (2 ^ 15) 3) = true ∧
      ((labMap.func 0).maps.any fun m => m.va < 0x100000 + 0x8000 && 0x100000 < m.va + m.size) = false ∧ mapOk 0x8000 (2 ^ 15) 3 = true := by decide +kernel

theorem witness_BootAndRecovery_slot : ((labBoot 0).func 0).waiting = [] ∧ ((labBoot 0).func 0).rspTail < ((labBoot 0).func 0).rspHead + 256 ∧
    ((labBoot 0).func 0).rspTail = 0 ∧ fieldAt head0 0x10 8 = 4096 := by decide +kernel
/-- The unlock on the mailbox; a frozen package; a chain that was written. -/
theorem witness_MeasureAndUnlock_paths :
    Reaches { labDbg with birhiry := { labDbg.birhiry with dbgPath := 1 } } 1 ∧ Reaches labDbg 0 ∧
    ({ labOpen with birhiry := { labOpen.birhiry with frozen := true, expiry := 20 } } : State).birhiry.frozen = true ∧
    (let s : State := { labOpen with cyc := 5, birhiry := { labOpen.birhiry with frozen := true, scan := [(3, 9)] } }
     s.debugLevel ≠ 0 ∧ s.debugLevel = 2 ∧ s.birhiry.frozen = true ∧ tfind s.birhiry.scan 3 = some 9) ∧ labDbg.birhiry.boot = 2 ∧ labDbg.birhiry.nonce = some (0, 0) := by
  unfold Reaches; decide +kernel
/-- A die with a trace ring, a context about to run an instruction that reads s1, a context away, and one on its way. -/
def labTr (ring : Trace) : State := { lab with dies := [(0, { Die.init with trace := ring })] }
theorem witness_ObserveAndRepair_trace : ((labTr ⟨0x200000, 4, 3, 10⟩).die (dieNo 0)).trace.period ≠ 0 ∧ ((labTr ⟨0x200000, 0, 0, 10⟩).die (dieNo 0)).trace.size = 0 ∧
    ((labTr ⟨0x200000, 4, 3, 10⟩).ctx 0).ready = true := by decide
theorem witness_ObserveAndRepair_errors :
    let s := labW 96 0xFFFFFFFB0000300000010C41
    (match s.fetchAt 0 with | .word w => (decodeWord w).instr.any (s.instrReads · 2 1) && !((decodeWord w).instr.any (s.instrReads · 2 5)) | _ => false) = true ∧
      (s.ctx 0).ready = true ∧ (lab.ctx 0).away = none ∧ ((labWt (.shipping 5 0)).ctx 0).wait = .shipping 5 0 ∧
      ((labK fun c => { c with away := some ⟨5, ⟨0x1000, [], 0⟩, 0, 8, 1⟩ }).ctx 0).away ≠ none ∧ (post0 none none 0).req = none ∧ (post0 (some req0) none 0).took = 0 := by
  decide +kernel

/-! ### Flawed words, holds, services that may fail, and images -/

/-- Word 16 of the constant window holds an uncorrectable error. -/
def labCw : State := { lab with poison := [locLocal 0 128] }
def opsCw : Ops := { ops 3 1 0 0 .i64 with b := .cw 16 }
theorem witness_IssueDiscipline_flawed : labCw.badConst [opsCw.a, opsCw.b, opsCw.c] = some 16 ∧ labCw.me.ready = true ∧ labCw.me.away = none ∧
    stateReject .add (dynReject .add opsCw labCw) labCw.cur labCw.me = none ∧ privileged .add opsCw.k labCw.cur labCw.me = false ∧
    labCw.me.predicate hd = true ∧ (Instr.add hd opsCw).wf = true ∧ lab.badConst [.cw 16] = none ∧ lab.badConst [.reg 5] = none := by decide +kernel
/-- The same word of the spec's constant window (R196): SOFT_ERROR with its local address (R392, R427). -/
theorem test_flawed_constant : (match exec (.add hd opsCw) labCw with | .next t => (t.me.xcause.toNat % 64, t.me.xval) | _ => (0, 0)) =
    (0x19, 0xF100000000000080) := by decide +kernel
theorem witness_FrozenHolds_scan : let s : State := { labOpen with agenda := [.event (.scanwr 3 9)], birhiry := { labOpen.birhiry with frozen := true } }
    s.birhiry.frozen = true ∧ s.agenda ≠ [] ∧ s.agenda = .event (.scanwr 3 9) :: [] := by decide
/-- A line that a lost die had, under a region. -/
def labGd : State := { labGi with dies := [(0, { Die.init with lost := true })] }
theorem witness_RegionQueries_lost : goes labGd true [(.gld, ops 5 4 0 0 .i8)] = true ∧ labGd.ownsRegion 5 = true ∧ pastEnd 0x100000 = false ∧
    (match labGd.access labGd.cur 0x100000 32 .load with | .cause _ _ => false | _ => true) = true ∧
    (match labGd.pieces 0 0x100000 .load 17 0 with | .inr as => as.any fun a => labGd.lostLoc (a.at 0) || labGd.portDown (a.at 0) | _ => false) = true ∧
    (match labGi.pieces 0 0x100000 .load 17 0 with | .inr as => as.any fun a => labGi.lostLoc (a.at 0) || labGi.portDown (a.at 0) | _ => true) = false := by decide +kernel
/-- A refused journal entry of the context. -/
def labRefd : State := { lab with mem := [(locLocal 0 (jrnOff 3 + 0x17), 2)] }
theorem witness_QueueInstructions_held : goes labRefd true [(.qmark, ops 3 0 0 0 .i8)] = true ∧ isCompute labRefd.cur = true ∧ labRefd.journalHolds labRefd.cur = true ∧
    goes lab true [(.qmark, ops 3 0 0 0 .i8)] = true ∧ lab.journalHolds lab.cur = false := by decide +kernel
/-- A range task that a CANCEL has withdrawn. -/
def labWd : State := { labJd 2 false with mem := [(0x8000, 0x3A), (0x100010, 2), (0x100014, 0x40), (0x10001C, 0x34)] }
theorem witness_TaskRecords_withdrawn : labWd.kindAt 1 0x100000 = 1 ∧ bits (labWd.rdL 1 (0x100000 + ctrlAt 1) 4) 4 2 = 3 ∧
    goes labWd true [(.jdec, ops 3 4 0 0 .i8)] = true ∧ labWd.rdL 1 0x100010 4 = 2 := by decide +kernel
theorem witness_MatrixInstructions_pointer : lab.bufferCause 0xF100000000002000 4 1 = none := by decide

/-- A VA that no range reserves: its service may fail; and one of a loaded object, with frames left: it may not. -/
def labRes : State := { labWt (.service 0 0x8000000000) with reserves := [⟨0x8000, 0x8000000000, 2 ^ 15⟩] }
theorem noFrame_false (s : State) (h1 : s.cxlUp = []) (h2 : ∀ m, m < 384 → s.unused (m / 16 * 2 ^ 36 + m % 16 * 2 ^ 32) (2 ^ 15) = true) : s.noFrame = false := by
  have key (f : Nat → Bool) (h : f 0 = false) : (List.range (0xC0000000 / 2 ^ 15)).all f = false := by
    have : (0 : Nat) ∈ List.range (0xC0000000 / 2 ^ 15) := List.mem_range.mpr (by decide)
    rw [List.all_eq_false]; exact ⟨0, this, by rw [h]; decide⟩
  have h3 : ∀ m ∈ List.range 384, ¬((List.range (0xC0000000 / 2 ^ 15)).all (fun i => !s.unused (m / 16 * 2 ^ 36 + m % 16 * 2 ^ 32 + 2 ^ 15 * i) (2 ^ 15)) = true) := by
    intro m hm
    rw [key _ (by rw [Nat.mul_zero, Nat.add_zero, h2 m (List.mem_range.mp hm)]; rfl)]; decide
  unfold State.noFrame
  dsimp only
  rw [h1, List.any_nil, Bool.or_false]
  exact List.any_eq_false.mpr h3
theorem labRes_frames : labRes.noFrame = false := noFrame_false _ rfl (by decide +kernel)
theorem witness_ServicesEnd_service :
    (labWt (.service 0 0x8000000000)).reserved 0x8000 0x8000000000 = false ∧ (labWt (.service 0 0x8000000000)).mayRefuse (some 0x8000) 0x8000000000 = true ∧
    labRes.reserved 0x8000 0x8000000000 = true ∧ labRes.homeGone 0x8000 0x8000000000 = false ∧ labRes.present 0x8000 0x8000000000 = false ∧
    (labWt .none).present 0x8000 0x100000 = true ∧ labRes.mayRefuse (some 0x8000) 0x8000000000 = false := by
  refine ⟨by decide +kernel, by decide +kernel, by decide +kernel, by decide +kernel, by decide +kernel, by decide +kernel, ?_⟩
  unfold State.mayRefuse
  simp only [labRes_frames, Bool.or_false]
  decide +kernel
/-- Transfers over an absent page, whose service may fail, and may not. -/
def labXr (x : Transfer) : State := { labE 0 (.xfer x) false with reserves := [⟨0x9000, 0, 2 ^ 30⟩] }
theorem witness_TransfersLand_service :
    (labE 0 (.xfer (cnt0 [[0, 0], [0, 1]])) false).mayRefuse (some 0x9000) (ptrVa 0x200000) = true ∧ (labXr (cnt0 [[0, 0], [0, 1]])).mayRefuse (some 0x9000) (ptrVa 0x200000) = false ∧
    (match (labE 0 (.xfer (cnt0 [[0, 0], [0, 1]])) false).landPoint 0 (cnt0 [[0, 0], [0, 1]]) [0, 0] none with | .absent p => p == 0x200000 | _ => false) = true ∧
    (let s := labE 0 (.xfer (cnt0 [[0, 0], [0, 1]])) false
     s.wordsOpen (s.keepVal (cnt0 [[0, 0], [0, 1]]) 0) (s.readWords (cnt0 [[0, 0], [0, 1]]) 0) = false) := by
  refine ⟨by decide +kernel, ?_, by decide +kernel, by decide +kernel⟩
  unfold State.mayRefuse
  simp only [noFrame_false (labXr (cnt0 [[0, 0], [0, 1]])) rfl (by decide +kernel), Bool.or_false]
  decide +kernel
theorem witness_MatrixEngineMoves_settled :
    let u := (labM1 [0] 0 clLoad).settleSetter 0
    (match (u.cluster 0).preload with | some (4, some (.inr _)) => true | _ => false) = true ∧ ((u.cluster 0).groups.find? fun y => y.id = 4) = some ⟨4, key0, 0⟩ ∧
      (u.cluster 0).running = none ∧
      ((((labM1 [0] 0 clRun).settleSetter 0).cluster 0).setter.find? fun y => y.running && y.core = 0 && y.id = 0) = some (sent (.running 4)) ∧
      ((labVp.settleSetter 0).core 0).vpath = some 0 ∧ (labVp.settleSetter 0).tileBusy key0 = false ∧
      (clLoad.setter.all fun e => (labM1 [0] 0 clLoad).memberMayRead e.core e.id e.key) = true := by decide +kernel
/-- An image whose core is idle; a function that has migrated away, and one that has not. -/
theorem witness_JobSwitch_seats : (labJob 2).seatsImages ((labJob 2).images.filter fun i => i.launch = 1) = true ∧ (labJob 2).migGone ((labJob 2).launchOf 1).func = false ∧
    ({ labL [] with migs := [(0, { Migration.init with stage := 6 })] } : State).migGone 0 = true ∧ (labL []).migGone 0 = false ∧
    (labReq (req1 5 [0x1000] false)).migGone 0 = false := by decide +kernel
/-- A step whose core runs its launch; the same with its interface held, with its core gone, and a SEND that is too early. -/
def labSi : State := { labStepL with cores := [(0, { core0 with launch := some 1 })], ctxs := [(0, ctx0)], ptt := [(pttKey 1 0, some true)] }
theorem witness_CollectivesMove_lands :
    (stepL.landed = false ∧ stepL.full = true ∧ labSi.stepMayMove stepL = true ∧ labSi.isPresent 1 0 = true ∧ labSi.joined 1 0 = true ∧ labSi.stepCore stepL = true ∧
      labSi.spilledStep stepL = false ∧ labSi.mayLand false 0 64 = true ∧ (labSi.core 0).landingMeets (ptrOffset stepL.addr) 64 = false ∧
      labSi.interfaceHeld 0 = false ∧ (labSi.core 0).spill = [] ∧ labSi.steps[0]? = some stepL ∧
      labSi.steps.findIdx? (fun z => z.launch = 1 && z.va = stepL.va && z.stage = 1 && !z.landed) = some 0) ∧
    (let h : State := { labSi with ctxs := [(0, { ctx0 with inPre := true })] }
     h.interfaceHeld 0 = true ∧ h.mayLand false 0 64 = true ∧ h.joined 1 0 = true) ∧
    (let g : State := { labSi with launches := [(1, { launch1 with root := 0x8000, phased := false, left := [0] })] }
     g.stepCore stepL = false) ∧
    ({ labSi with ptt := [] } : State).isPresent 1 0 = false ∧
    (let x : CStep := { stepL with op := 0, stage := 0 }
     let e : State := { labSi with cores := [], steps := [x] }
     e.stepFault x = none ∧ e.joined 1 0 = false ∧ x.kept = none ∧ spaceCode x.addr = 3) := by decide +kernel
/-- Its packet that no port which is up carries. -/
theorem witness_PartsComeAndGo_stranded : ∃ k ∈ labPd.vexOut, k.of = 3 ∧ k.num ≤ 1 ∧ k.peer = 7 ∧ k.launch = 1 ∧ k.va = 0x100000 :=
  ⟨_, List.mem_cons_self, by decide⟩
/-- An expired port that has yet to close, and address spaces that a function may and may not be given. -/
theorem witness_MeasureAndUnlock_expired : labOpen.birhiry.boot = 2 ∧ labOpen.birhiry.level ≠ 0 ∧ labOpen.birhiry.life = 2 ∧ labOpen.birhiry.expiry ≤ labOpen.cyc ∧ (3 : Nat) < 26 ∧
    ({ labOpen with cyc := 5 } : State).debugLevel = 2 := by decide
theorem witness_ObserveAndRepair_attach : isFunc 0 = true ∧ (labReq (req1 1 [] false)).mayAttach 0 0x8000 = true ∧ (labReq (req1 1 [] false)).mayAttach 0 0x8001 = false ∧
    State.reset.birhiry.boot ≠ 2 ∧ (5 : Nat) ≠ 11 := by decide +kernel
theorem witness_FunctionsResetAndMigrate_owed : let s : State := { labMig 1 with dirty := [(0, 32)] }
    (s.mig 0).stage = 1 ∧ (0, 32) ∈ s.dirty ∧ ownerOf (32 * 32768) = 0 ∧ frameBit 32 / 64 = 0 := by decide +kernel

end Sys2Proof.Tests
end

section
/-! SUPPORT. Scalar integer instructions: issue, the low bits of operands, the extension of results, and the results of R224 and R225
as operations on W-bit words. Settles IntegerResults. -/

namespace Sys2Proof.Laws

open Sys2Proof Sys2Proof.Machine Sys2Proof.Claims

/-! ## Issue -/

/-- A scalar instruction that takes its effect carries out its body's act. -/
theorem issueS_goes {i : Op} {h : Hdr} {o : Ops} {s : State} (body : State → Act) (g : Goes i h o o.usesCw s) :
    issueS i h o body s = finish i (lenOf i h o) s.me.pc (body s) := issue_goes _ body g

/-- Issuing an instruction without operands of formats A, I and W that reads sources: no word of them may be flawed. -/
theorem issue_goesPlain_args {i : Op} {h : Hdr} {home : Bool} {s : State} (len : Nat) (as : List Arg) (body : State → Act)
    (hv : vectorUnit i = false) (hp : privileged i 0 s.cur s.me = false) (hb : s.badConst as = none) (g : GoesPlain i h home s) :
    issue i h len 0 home as noDyn body s = finish i len s.me.pc (body s) := by
  obtain ⟨hready, haway, hreject, hpred⟩ := g
  have hhere : (decide (s.me.away ≠ none) && home) = false := by
    rcases haway with haway | haway
    · simp only [haway, ne_eq, not_true_eq_false, decide_false, Bool.false_and]
    · rw [haway, Bool.and_false]
  simp only [issue, hready, hhere, noDyn, hreject, hv, hp, hpred, hb, Bool.not_true, Bool.false_and, Bool.false_eq_true, if_false]

/-- A scalar instruction whose body only makes an effect completes with it. -/
theorem exec_completes {i : Op} {mk : Hdr → Ops → Instr} {eff : Ops → State → State}
    (hexec : ∀ h o s, exec (mk h o) s = issueS i h o (fun s => .retire (eff o s)) s) {h : Hdr} {o : Ops} {s : State}
    (g : Goes i h o o.usesCw s) : exec (mk h o) s = .next ((eff o s).after i (lenOf i h o)) := by
  rw [hexec, issueS_goes _ g, finish_retire]

/-! ## Operands and results as W-bit words (R223) -/

@[simp] theorem sext_toNat {w : Nat} (x : BitVec w) : sext w x.toNat = x.toInt := by
  simp only [sext, Nat.mod_eq_of_lt x.isLt, BitVec.toInt, Int.natCast_pow, Int.cast_ofNat_Int]

@[simp] theorem sval_eq (w : Nat) (x : Word) : sval w x = (lowBits w x).toInt := by
  rw [sval, ← sext_toNat, BitVec.toNat_setWidth, sext, sext, Nat.mod_mod]

@[simp] theorem uval_eq (w : Nat) (x : Word) : uval w x = (lowBits w x).toNat := by
  rw [uval, BitVec.toNat_setWidth]

theorem wrap_eq (w : Nat) (r : Int) : wrap w r = (BitVec.ofInt w r).toNat := by
  simp only [wrap, BitVec.toNat_ofInt, Int.natCast_pow, Int.cast_ofNat_Int]

theorem extInt_i64 (r : Int) : extInt .i64 r = BitVec.ofInt 64 r := by
  simp only [extInt, extendT, TCode.signed, TCode.width, intW, wordI, wrap_eq, sext_toNat, if_true, BitVec.ofInt_toInt]

theorem extInt_i32 (r : Int) : extInt .i32 r = (BitVec.ofInt 32 r).signExtend 64 := by
  simp only [extInt, extendT, TCode.signed, TCode.width, intW, wordI, wrap_eq, sext_toNat, if_true, reduceCtorEq, if_false,
    BitVec.signExtend]

theorem extInt_u32 (r : Int) : extInt .u32 r = (BitVec.ofInt 32 r).zeroExtend 64 := by
  simp only [extInt, extendT, TCode.signed, TCode.width, intW, word, wrap_eq, Bool.false_eq_true, reduceCtorEq, if_false,
    Nat.mod_eq_of_lt (BitVec.isLt _), BitVec.ofNat_toNat, BitVec.zeroExtend_eq_setWidth]

/-- An instruction that writes an integer result, extended as T says, follows the rule that its result wrapped to W bits follows, at each
type that it admits. -/
theorem intRuleO_of_result {i : Op} {mk : Hdr → Ops → Instr} {f : Ops → (w : Nat) → BitVec w → BitVec w → BitVec w → BitVec w}
    (result : Ops → Word → Word → Word → Int)
    (hexec : ∀ h o s, exec (mk h o) s =
      issueS i h o (fun s => .retire (s.setS o.d (extInt o.t (result o (s.arg o.a) (s.arg o.b) (s.arg o.c))))) s)
    (hresult : ∀ o w x y z, i.row.t.contains o.t = true → w = intW o.t →
      BitVec.ofInt w (result o x y z) = f o w (lowBits w x) (lowBits w y) (lowBits w z)) :
    IntRuleO i mk f := by
  intro h o s g ht
  have he := exec_completes (eff := fun o s => s.setS o.d (extInt o.t (result o (s.arg o.a) (s.arg o.b) (s.arg o.c)))) hexec g
  refine ⟨fun h64 => ?_, fun h32 => ?_, fun hu32 => ?_⟩
  · rw [he, h64, extInt_i64, hresult o 64 _ _ _ ht (by rw [h64]; rfl)]
    simp only [lowBits, BitVec.setWidth_eq]
  · rw [he, h32, extInt_i32, hresult o 32 _ _ _ ht (by rw [h32]; rfl)]
  · rw [he, hu32, extInt_u32, hresult o 32 _ _ _ ht (by rw [hu32]; rfl)]

theorem intW_pos (t : TCode) : 0 < intW t := by unfold intW; split <;> decide

/-- An instruction of `execInt` follows the rule that its exact result, wrapped to W bits, follows at every width. -/
theorem intRule_of_intOp {i : Op} {mk : Hdr → Ops → Instr} {f : (w : Nat) → BitVec w → BitVec w → BitVec w → BitVec w}
    (hexec : ∀ h o s, exec (mk h o) s = execInt i h o s)
    (hop : ∀ w, 0 < w → ∀ x y z, BitVec.ofInt w (intOp i w x y z) = f w (lowBits w x) (lowBits w y) (lowBits w z)) :
    IntRule i mk f :=
  intRuleO_of_result (fun o x y z => intOp i (intW o.t) x y z) hexec fun o _ x y z _ hw =>
    hw ▸ hop (intW o.t) (intW_pos o.t) x y z

/-! ## Arithmetic of R224 -/

theorem ofInt_intOp_add (w : Nat) (x y z : Word) : BitVec.ofInt w (intOp .add w x y z) = lowBits w x + lowBits w y := by
  simp only [intOp, sval_eq, BitVec.ofInt_add, BitVec.ofInt_toInt]

theorem ofInt_intOp_sub (w : Nat) (x y z : Word) : BitVec.ofInt w (intOp .sub w x y z) = lowBits w x - lowBits w y := by
  simp only [intOp, sval_eq, Int.sub_eq_add_neg, BitVec.ofInt_add, BitVec.ofInt_neg, BitVec.ofInt_toInt, BitVec.sub_eq_add_neg]

theorem ofInt_intOp_mul (w : Nat) (x y z : Word) : BitVec.ofInt w (intOp .mul w x y z) = lowBits w x * lowBits w y := by
  simp only [intOp, sval_eq, BitVec.ofInt_mul, BitVec.ofInt_toInt]

theorem ofInt_intOp_mad (w : Nat) (x y z : Word) :
    BitVec.ofInt w (intOp .mad w x y z) = lowBits w x * lowBits w y + lowBits w z := by
  simp only [intOp, sval_eq, BitVec.ofInt_add, BitVec.ofInt_mul, BitVec.ofInt_toInt]

/-- The high half of 2W bits of a number is its quotient by 2^W. -/
theorem extractLsb'_ofInt_high (w : Nat) (r : Int) : (BitVec.ofInt (2 * w) r).extractLsb' w w = BitVec.ofInt w (r / 2 ^ w) := by
  have hw : ((2 ^ w : Nat) : Int) = 2 ^ w := Int.natCast_pow 2 w
  have hpow : ((2 ^ (2 * w) : Nat) : Int) = 2 ^ w * 2 ^ w := by rw [Nat.two_mul, Nat.pow_add, Int.natCast_mul, hw]
  have hpos (n : Nat) : ((2 ^ n : Nat) : Int) ≠ 0 := Int.natCast_ne_zero.mpr (Nat.ne_of_gt (Nat.two_pow_pos n))
  have hdiv : r % ((2 ^ (2 * w) : Nat) : Int) / 2 ^ w % 2 ^ w = r / 2 ^ w % 2 ^ w := by
    rw [Int.emod_def r, hpow, Int.mul_assoc, Int.sub_mul_ediv_left _ _ (hw ▸ hpos w), Int.sub_mul_emod_self_left]
  have hnat (a : Int) (n : Nat) : ((a % (2 ^ n : Nat)).toNat : Int) = a % (2 ^ n : Nat) :=
    Int.toNat_of_nonneg (Int.emod_nonneg _ (hpos n))
  apply BitVec.eq_of_toNat_eq
  rw [BitVec.extractLsb'_toNat, BitVec.toNat_ofInt, BitVec.toNat_ofInt, Nat.shiftRight_eq_div_pow, ← Int.ofNat_inj, hnat,
    Int.natCast_emod, Int.natCast_ediv, hnat, hw, hdiv]

theorem ofInt_intOp_mulh (w : Nat) (x y z : Word) :
    BitVec.ofInt w (intOp .mulh w x y z) = highHalf w ((lowBits w x).signExtend (2 * w)) ((lowBits w y).signExtend (2 * w)) := by
  simp only [intOp, sval_eq, highHalf, BitVec.signExtend, ← BitVec.ofInt_mul, extractLsb'_ofInt_high]

theorem ofInt_intOp_mulhu (w : Nat) (x y z : Word) :
    BitVec.ofInt w (intOp .mulhu w x y z) = highHalf w ((lowBits w x).zeroExtend (2 * w)) ((lowBits w y).zeroExtend (2 * w)) := by
  have hz (v : BitVec w) : v.zeroExtend (2 * w) = BitVec.ofInt (2 * w) v.toNat := by
    rw [BitVec.ofInt_natCast, BitVec.ofNat_toNat]
  simp only [highHalf, hz, ← BitVec.ofInt_mul, extractLsb'_ofInt_high, intOp, uval_eq]
  push_cast; rfl

/-! ## Logic and shifts of R224 -/

theorem ofInt_intOp_and (w : Nat) (x y z : Word) : BitVec.ofInt w (intOp .and w x y z) = lowBits w x &&& lowBits w y := by
  simp only [intOp, uval_eq, BitVec.ofInt_natCast, BitVec.ofNat_and, BitVec.ofNat_toNat, BitVec.setWidth_eq]

theorem ofInt_intOp_or (w : Nat) (x y z : Word) : BitVec.ofInt w (intOp .or w x y z) = lowBits w x ||| lowBits w y := by
  simp only [intOp, uval_eq, BitVec.ofInt_natCast, BitVec.ofNat_or, BitVec.ofNat_toNat, BitVec.setWidth_eq]

theorem ofInt_intOp_xor (w : Nat) (x y z : Word) : BitVec.ofInt w (intOp .xor w x y z) = lowBits w x ^^^ lowBits w y := by
  simp only [intOp, uval_eq, BitVec.ofInt_natCast, BitVec.ofNat_xor, BitVec.ofNat_toNat, BitVec.setWidth_eq]

theorem ofInt_intOp_andn (w : Nat) (x y z : Word) : BitVec.ofInt w (intOp .andn w x y z) = lowBits w x &&& ~~~lowBits w y := by
  simp only [intOp, uval_eq, ← BitVec.toNat_not, BitVec.ofInt_natCast, BitVec.ofNat_and, BitVec.ofNat_toNat, BitVec.setWidth_eq]

theorem ofInt_intOp_shl (w : Nat) (x y z : Word) :
    BitVec.ofInt w (intOp .shl w x y z) = lowBits w x <<< ((lowBits w y).toNat % w) := by
  apply BitVec.eq_of_toNat_eq
  simp only [intOp, uval_eq, BitVec.ofInt_natCast, BitVec.toNat_ofNat, BitVec.toNat_shiftLeft, Nat.shiftLeft_eq]

/-- A number shifted right, as a word. -/
theorem ofNat_div_two_pow {w : Nat} (u : BitVec w) (k : Nat) : BitVec.ofNat w (u.toNat / 2 ^ k) = u >>> k := by
  rw [← Nat.shiftRight_eq_div_pow, ← BitVec.toNat_ushiftRight, BitVec.ofNat_toNat, BitVec.setWidth_eq]

theorem ofInt_intOp_shr (w : Nat) (x y z : Word) :
    BitVec.ofInt w (intOp .shr w x y z) = lowBits w x >>> ((lowBits w y).toNat % w) := by
  simp only [intOp, uval_eq, BitVec.ofInt_natCast, ofNat_div_two_pow]

theorem ofInt_intOp_sar (w : Nat) (x y z : Word) :
    BitVec.ofInt w (intOp .sar w x y z) = (lowBits w x).sshiftRight ((lowBits w y).toNat % w) := by
  simp only [intOp, sval_eq, uval_eq, BitVec.sshiftRight, Int.shiftRight_eq_div_pow, Int.natCast_pow, Int.cast_ofNat_Int]

/-- A rotation by k < W is the sum of its two parts, which share no bit. -/
theorem ofInt_intOp_rol {w : Nat} (hw : 0 < w) (x y z : Word) :
    BitVec.ofInt w (intOp .rol w x y z) = (lowBits w x).rotateLeft ((lowBits w y).toNat % w) := by
  simp only [intOp, uval_eq]
  generalize lowBits w x = u
  have hk : (lowBits w y).toNat % w < w := Nat.mod_lt _ hw
  generalize (lowBits w y).toNat % w = k at hk ⊢
  have hlow : u.toNat / 2 ^ (w - k) < 2 ^ k := by
    rw [Nat.div_lt_iff_lt_mul (Nat.two_pow_pos _), ← Nat.pow_add, Nat.add_sub_cancel' (Nat.le_of_lt hk)]
    exact u.isLt
  rw [BitVec.ofInt_natCast, ← Nat.shiftLeft_eq, Nat.shiftLeft_add_eq_or_of_lt hlow, BitVec.ofNat_or, ofNat_div_two_pow,
    BitVec.rotateLeft_def, Nat.mod_eq_of_lt hk]
  rfl

/-! ## Minimum and maximum of R224 -/

theorem ofInt_intOp_min (w : Nat) (x y z : Word) :
    BitVec.ofInt w (intOp .min w x y z) = if (lowBits w x).slt (lowBits w y) then lowBits w x else lowBits w y := by
  simp only [intOp, sval_eq, BitVec.slt_iff_toInt_lt]
  split
  · rw [Int.min_eq_left (by omega), BitVec.ofInt_toInt]
  · rw [Int.min_eq_right (by omega), BitVec.ofInt_toInt]

theorem ofInt_intOp_max (w : Nat) (x y z : Word) :
    BitVec.ofInt w (intOp .max w x y z) = if (lowBits w x).slt (lowBits w y) then lowBits w y else lowBits w x := by
  simp only [intOp, sval_eq, BitVec.slt_iff_toInt_lt]
  split
  · rw [Int.max_eq_right (by omega), BitVec.ofInt_toInt]
  · rw [Int.max_eq_left (by omega), BitVec.ofInt_toInt]

theorem ofInt_intOp_minu (w : Nat) (x y z : Word) :
    BitVec.ofInt w (intOp .minu w x y z) = if (lowBits w x).ult (lowBits w y) then lowBits w x else lowBits w y := by
  simp only [intOp, uval_eq, BitVec.ofInt_natCast, BitVec.ult_iff_lt, BitVec.lt_def]
  split
  · rw [Nat.min_eq_left (by omega), BitVec.ofNat_toNat, BitVec.setWidth_eq]
  · rw [Nat.min_eq_right (by omega), BitVec.ofNat_toNat, BitVec.setWidth_eq]

theorem ofInt_intOp_maxu (w : Nat) (x y z : Word) :
    BitVec.ofInt w (intOp .maxu w x y z) = if (lowBits w x).ult (lowBits w y) then lowBits w y else lowBits w x := by
  simp only [intOp, uval_eq, BitVec.ofInt_natCast, BitVec.ult_iff_lt, BitVec.lt_def]
  split
  · rw [Nat.max_eq_right (by omega), BitVec.ofNat_toNat, BitVec.setWidth_eq]
  · rw [Nat.max_eq_left (by omega), BitVec.ofNat_toNat, BitVec.setWidth_eq]

/-! ## Counts of R224 -/

/-- The numbers below w that lie above m. -/
theorem countP_range_gt (w m : Nat) : (List.range w).countP (fun k => decide (m < k)) = w - 1 - m := by
  induction w with
  | zero => simp only [List.range_zero, List.countP_nil, Nat.zero_le, Nat.sub_eq_zero_of_le]
  | succ w ih =>
    rw [List.range_succ, List.countP_append, ih, List.countP_singleton]
    simp only [decide_eq_true_eq]
    split <;> omega

/-- A word's leading zeros are the shifts below W that clear it. -/
theorem ofInt_intOp_clz (w : Nat) (x y z : Word) :
    BitVec.ofInt w (intOp .clz w x y z) = BitVec.ofNat w ((List.range w).countP fun k => lowBits w x >>> k = 0#w) := by
  simp only [intOp, uval_eq, BitVec.ofInt_natCast]
  generalize lowBits w x = u
  congr 1
  split
  · next h0 =>
    have : u = 0#w := BitVec.eq_of_toNat_eq (h0.trans BitVec.toNat_zero.symm)
    simp only [this, BitVec.zero_ushiftRight, decide_true, List.countP_true, List.length_range]
  · next h0 =>
    rw [← countP_range_gt]
    congr 1
    funext k
    have : u >>> k = 0#w ↔ u.toNat.log2 < k := by
      rw [Nat.log2_lt h0, ← BitVec.toNat_inj, BitVec.toNat_ushiftRight, Nat.shiftRight_eq_div_pow]
      simp only [BitVec.toNat_ofNat, Nat.zero_mod, Nat.div_eq_zero_iff, Nat.ne_of_gt (Nat.two_pow_pos k), false_or]
    simp only [this]

theorem bitOf_eq_testBit (n k : Nat) : bitOf n k = n.testBit k := by
  rw [bitOf, Nat.testBit_eq_decide_div_mod_eq]; rfl

theorem ofInt_intOp_popc (w : Nat) (x y z : Word) :
    BitVec.ofInt w (intOp .popc w x y z) = BitVec.ofNat w ((List.range w).countP (lowBits w x).getLsbD) := by
  simp only [intOp, uval_eq, BitVec.ofInt_natCast, bitOf_eq_testBit, BitVec.testBit_toNat, ← List.countP_eq_length_filter]

/-! ## Division (R225) -/

theorem ofInt_tdiv_toInt {w : Nat} (u v : BitVec w) : BitVec.ofInt w (u.toInt.tdiv v.toInt) = u.sdiv v := by
  rw [← BitVec.toInt_inj, BitVec.toInt_ofInt, BitVec.toInt_sdiv]

theorem ofInt_tmod_toInt {w : Nat} (u v : BitVec w) : BitVec.ofInt w (u.toInt.tmod v.toInt) = u.srem v := by
  rw [← BitVec.toInt_srem, BitVec.ofInt_toInt]

/-- No remainder is left by a division by -1. -/
theorem srem_neg_one {w : Nat} (u : BitVec w) : u.srem (-1#w) = 0#w := by
  rw [← BitVec.toInt_inj, BitVec.toInt_srem]
  rcases Nat.eq_zero_or_pos w with rfl | hw
  · simp only [BitVec.of_length_zero, BitVec.toInt_zero, Int.tmod_self]
  · have : (-1#w).toInt = -1 := by rw [BitVec.neg_one_eq_allOnes, BitVec.toInt_allOnes, if_pos hw]
    rw [this, Int.tmod_neg, Int.tmod_one, BitVec.toInt_zero]

theorem ofInt_neg_one (w : Nat) : BitVec.ofInt w (-1) = BitVec.allOnes w := by
  rw [← BitVec.neg_one_eq_allOnes, BitVec.ofInt_neg]; rfl

theorem toInt_eq_zero_iff {w : Nat} (u : BitVec w) : u.toInt = 0 ↔ u = 0#w := by
  rw [← BitVec.toInt_inj, BitVec.toInt_zero]

theorem toNat_eq_zero_iff {w : Nat} (u : BitVec w) : u.toNat = 0 ↔ u = 0#w := by
  rw [← BitVec.toNat_inj, BitVec.toNat_zero]

/-- The quotient of R225: the most negative number by -1 is itself, as wrapping the exact quotient has it. -/
theorem ofInt_intOp_div (w : Nat) (x y z : Word) :
    BitVec.ofInt w (intOp .div w x y z) =
      if lowBits w y = 0#w then BitVec.allOnes w
      else if lowBits w x = BitVec.intMin w ∧ lowBits w y = -1#w then BitVec.intMin w else BitVec.sdiv (lowBits w x) (lowBits w y) := by
  simp only [intOp, sval_eq, toInt_eq_zero_iff]
  split
  · exact ofInt_neg_one w
  · rw [ofInt_tdiv_toInt]
    split
    · next hmin => rw [hmin.1, hmin.2, BitVec.intMin_sdiv_neg_one]
    · rfl

theorem ofInt_intOp_divu (w : Nat) (x y z : Word) :
    BitVec.ofInt w (intOp .divu w x y z) =
      if lowBits w y = 0#w then BitVec.allOnes w else BitVec.udiv (lowBits w x) (lowBits w y) := by
  simp only [intOp, uval_eq, toNat_eq_zero_iff]
  split
  · exact ofInt_neg_one w
  · rw [BitVec.ofInt_natCast, BitVec.udiv_eq, ← BitVec.toNat_udiv, BitVec.ofNat_toNat, BitVec.setWidth_eq]

/-- The remainder of R225: a division by -1 leaves 0. -/
theorem ofInt_intOp_rem (w : Nat) (x y z : Word) :
    BitVec.ofInt w (intOp .rem w x y z) =
      if lowBits w y = 0#w then lowBits w x
      else if lowBits w x = BitVec.intMin w ∧ lowBits w y = -1#w then 0#w else BitVec.srem (lowBits w x) (lowBits w y) := by
  simp only [intOp, sval_eq, toInt_eq_zero_iff]
  split
  · exact BitVec.ofInt_toInt
  · rw [ofInt_tmod_toInt]
    split
    · next hmin => rw [hmin.2, srem_neg_one]
    · rfl

theorem ofInt_intOp_remu (w : Nat) (x y z : Word) :
    BitVec.ofInt w (intOp .remu w x y z) =
      if lowBits w y = 0#w then lowBits w x else BitVec.umod (lowBits w x) (lowBits w y) := by
  simp only [intOp, sval_eq, uval_eq, toNat_eq_zero_iff]
  split
  · exact BitVec.ofInt_toInt
  · rw [BitVec.ofInt_natCast, BitVec.umod_eq, ← BitVec.toNat_umod, BitVec.ofNat_toNat, BitVec.setWidth_eq]

/-! ## The obligation -/

/-- Settles O14: each instruction is `execInt` of its exact result, which wraps to the rule's word at both widths. -/
theorem integerResults : Obligations.IntegerResults := by
  unfold Obligations.IntegerResults
  refine ⟨⟨?_, ?_, ?_, ?_, ?_, ?_, ?_, ?_, ?_, ?_, ?_, ?_, ?_, ?_, ?_, ?_, ?_, ?_, ?_, ?_⟩, ?_, ?_, ?_, ?_⟩
  · exact intRule_of_intOp (fun _ _ _ => rfl) fun w _ => ofInt_intOp_add w
  · exact intRule_of_intOp (fun _ _ _ => rfl) fun w _ => ofInt_intOp_sub w
  · exact intRule_of_intOp (fun _ _ _ => rfl) fun w _ => ofInt_intOp_mul w
  · exact intRule_of_intOp (fun _ _ _ => rfl) fun w _ => ofInt_intOp_mad w
  · exact intRule_of_intOp (fun _ _ _ => rfl) fun w _ => ofInt_intOp_mulh w
  · exact intRule_of_intOp (fun _ _ _ => rfl) fun w _ => ofInt_intOp_mulhu w
  · exact intRule_of_intOp (fun _ _ _ => rfl) fun w _ => ofInt_intOp_and w
  · exact intRule_of_intOp (fun _ _ _ => rfl) fun w _ => ofInt_intOp_or w
  · exact intRule_of_intOp (fun _ _ _ => rfl) fun w _ => ofInt_intOp_xor w
  · exact intRule_of_intOp (fun _ _ _ => rfl) fun w _ => ofInt_intOp_andn w
  · exact intRule_of_intOp (fun _ _ _ => rfl) fun w _ => ofInt_intOp_shl w
  · exact intRule_of_intOp (fun _ _ _ => rfl) fun w _ => ofInt_intOp_shr w
  · exact intRule_of_intOp (fun _ _ _ => rfl) fun w _ => ofInt_intOp_sar w
  · exact intRule_of_intOp (fun _ _ _ => rfl) fun _ hw => ofInt_intOp_rol hw
  · exact intRule_of_intOp (fun _ _ _ => rfl) fun w _ => ofInt_intOp_min w
  · exact intRule_of_intOp (fun _ _ _ => rfl) fun w _ => ofInt_intOp_max w
  · exact intRule_of_intOp (fun _ _ _ => rfl) fun w _ => ofInt_intOp_minu w
  · exact intRule_of_intOp (fun _ _ _ => rfl) fun w _ => ofInt_intOp_maxu w
  · exact intRule_of_intOp (fun _ _ _ => rfl) fun w _ => ofInt_intOp_clz w
  · exact intRule_of_intOp (fun _ _ _ => rfl) fun w _ => ofInt_intOp_popc w
  · exact intRule_of_intOp (fun _ _ _ => rfl) fun w _ => ofInt_intOp_div w
  · exact intRule_of_intOp (fun _ _ _ => rfl) fun w _ => ofInt_intOp_divu w
  · exact intRule_of_intOp (fun _ _ _ => rfl) fun w _ => ofInt_intOp_rem w
  · exact intRule_of_intOp (fun _ _ _ => rfl) fun w _ => ofInt_intOp_remu w

end Sys2Proof.Laws
end

section
/-! SUPPORT. Compares, bit fields, and the instructions that saturate: conditions on W-bit words (R227), fields bit by bit (R226), clamped
results (R224), and words that are no instruction. Settles ComparesAndFields. -/

namespace Sys2Proof.Laws

open Sys2Proof Sys2Proof.Machine Sys2Proof.Claims

/-! ## Conditions (R227) -/

/-- The bit that y names modulo W is one of the W low bits, for a W that divides 2^W. -/
theorem bitOf_mod_eq_getLsbD {w : Nat} (hw : 0 < w) (hdvd : w ∣ 2 ^ w) (x y : Word) :
    bitOf x.toNat (y.toNat % w) = (lowBits w x).getLsbD ((lowBits w y).toNat % w) := by
  rw [bitOf_eq_testBit, BitVec.testBit_toNat, BitVec.getLsbD_setWidth, BitVec.toNat_setWidth, Nat.mod_mod_of_dvd _ hdvd,
    decide_eq_true (Nat.mod_lt _ hw), Bool.true_and]

/-- The model's conditions on numbers are the rule's on W-bit words. -/
theorem intCond_eq_cmpRule {w : Nat} (hw : 0 < w) (hdvd : w ∣ 2 ^ w) (signed : Bool) (fn : Nat) (x y : Word) :
    intCond w signed fn x.toNat y.toNat = cmpRule signed fn w (lowBits w x) (lowBits w y) := by
  have hs (v : Word) : sext w v.toNat = (lowBits w v).toInt := sval_eq w v
  have hu (v : Word) : v.toNat % 2 ^ w = (lowBits w v).toNat := uval_eq w v
  unfold intCond cmpRule
  simp only [hs, hu, bitOf_mod_eq_getLsbD hw hdvd]
  generalize lowBits w x = u
  generalize lowBits w y = v
  match fn with
  | 0 | 1 => cases signed <;> simp only [reduceIte, Bool.false_eq_true, BitVec.toInt_inj, Int.ofNat_inj, BitVec.toNat_inj,
      ne_eq, decide_not, Bool.beq_eq_decide_eq, bne]
  | 2 | 3 | 4 | 5 => cases signed <;> simp only [reduceIte, Bool.false_eq_true, Int.ofNat_lt, Int.ofNat_le,
      BitVec.slt_eq_decide, BitVec.sle_eq_decide, BitVec.ult_eq_decide, BitVec.ule_eq_decide]
  | 6 => rfl
  | _ + 7 => rfl

/-! ## Bit fields (R226) -/

theorem getLsbD_word (n i : Nat) (hi : i < 64) : (word n).getLsbD i = n.testBit i := by
  rw [word, BitVec.getLsbD_ofNat, decide_eq_true hi, Bool.true_and]

theorem testBit_bits (n lo w i : Nat) : (bits n lo w).testBit i = (decide (i < w) && n.testBit (i + lo)) := by
  rw [bits, Nat.testBit_mod_two_pow, Nat.testBit_div_two_pow]

/-- The field stands at the top of the word once it is shifted there. -/
theorem getLsbD_field_top (a : Word) (pos i : Nat) {w : Nat} (hw : w ≤ 64) :
    ((a >>> pos) <<< (64 - w)).getLsbD (64 - w + i) = (decide (i < w) && a.getLsbD (i + pos)) := by
  have hin : 64 - w + i < 64 ↔ i < w := by omega
  rw [BitVec.getLsbD_shiftLeft, BitVec.getLsbD_ushiftRight, Nat.add_sub_cancel_left, Nat.add_comm pos]
  simp only [hin, Nat.not_lt.mpr (Nat.le_add_right (64 - w) i), decide_false, Bool.not_false, Bool.and_true]

/-- A field zero-extended is the field shifted to the top and back. -/
theorem word_bits (a : Word) (pos : Nat) {w : Nat} (hw : w ≤ 64) :
    word (bits a.toNat pos w) = ((a >>> pos) <<< (64 - w)) >>> (64 - w) := by
  apply BitVec.eq_of_getLsbD_eq
  intro i hi
  rw [getLsbD_word _ _ hi, testBit_bits, BitVec.testBit_toNat, BitVec.getLsbD_ushiftRight, getLsbD_field_top a pos i hw]

/-- A field sign-extended is the field shifted to the top and arithmetically back. -/
theorem wordI_sext_bits (a : Word) (pos : Nat) {w : Nat} (h0 : 0 < w) (hw : w ≤ 64) :
    wordI (sext w (bits a.toNat pos w)) = ((a >>> pos) <<< (64 - w)).sshiftRight (64 - w) := by
  have hfield : bits a.toNat pos w < 2 ^ w := Nat.mod_lt _ (Nat.two_pow_pos w)
  have hsext : wordI (sext w (bits a.toNat pos w)) = (BitVec.ofNat w (bits a.toNat pos w)).signExtend 64 := by
    rw [wordI, BitVec.signExtend, ← sext_toNat, BitVec.toNat_ofNat, Nat.mod_eq_of_lt hfield]
  have hlow (i : Nat) : (BitVec.ofNat w (bits a.toNat pos w)).getLsbD i = (decide (i < w) && a.getLsbD (i + pos)) := by
    rw [BitVec.getLsbD_ofNat, testBit_bits, BitVec.testBit_toNat, ← Bool.and_assoc, Bool.and_self]
  have htop : ((a >>> pos) <<< (64 - w)).msb = (BitVec.ofNat w (bits a.toNat pos w)).msb := by
    rw [BitVec.msb_eq_getLsbD_last, BitVec.msb_eq_getLsbD_last, hlow, ← getLsbD_field_top a pos (w - 1) hw]
    congr 1; omega
  rw [hsext]
  apply BitVec.eq_of_getLsbD_eq
  intro i hi
  have hin : 64 - w + i < 64 ↔ i < w := by omega
  rw [BitVec.getLsbD_signExtend, BitVec.getLsbD_sshiftRight, htop, getLsbD_field_top a pos i hw, hlow]
  rw [decide_eq_true hi, decide_eq_false (Nat.not_le.mpr hi), Bool.not_false, Bool.true_and, Bool.true_and]
  by_cases hiw : i < w
  · rw [if_pos hiw, if_pos (hin.mpr hiw)]
  · rw [if_neg hiw, if_neg (mt hin.mp hiw)]

/-- BFX's result. -/
theorem bfx_result (a : Word) (mx pos : Nat) {w : Nat} (h : w ≤ 64) :
    (if mx = 1 && w ≠ 0 then wordI (sext w (bits a.toNat pos w)) else word (bits a.toNat pos w)) =
      if mx = 1 then ((a >>> pos) <<< (64 - w)).sshiftRight (64 - w) else ((a >>> pos) <<< (64 - w)) >>> (64 - w) := by
  by_cases hmx : mx = 1
  · rcases Nat.eq_zero_or_pos w with rfl | hw
    · simp only [hmx, decide_true, ne_eq, not_true_eq_false, decide_false, Bool.and_false, Bool.false_eq_true, if_true, if_false, word,
        bits, Nat.pow_zero, Nat.mod_one, Nat.sub_zero, Nat.le_refl, BitVec.shiftLeft_eq_zero, BitVec.zero_sshiftRight]
    · simp only [hmx, Nat.ne_of_gt hw, if_true, decide_true, ne_eq, not_false_eq_true, Bool.and_self]
      exact wordI_sext_bits a pos hw h
  · simp only [hmx, decide_false, Bool.false_and, Bool.false_eq_true, if_false]
    exact word_bits a pos h

/-- The bits of a word with a field replaced. -/
theorem testBit_setField (c v lo w i : Nat) :
    (c - bits c lo w * 2 ^ lo + v % 2 ^ w * 2 ^ lo).testBit i =
      if lo ≤ i ∧ i < lo + w then v.testBit (i - lo) else c.testBit i := by
  have hc : c = 2 ^ lo * (2 ^ w * (c / 2 ^ lo / 2 ^ w) + bits c lo w) + c % 2 ^ lo := by
    rw [bits, Nat.div_add_mod, Nat.div_add_mod]
  have hput : c - bits c lo w * 2 ^ lo + v % 2 ^ w * 2 ^ lo = 2 ^ lo * (2 ^ w * (c / 2 ^ lo / 2 ^ w) + v % 2 ^ w) + c % 2 ^ lo := by
    rw [Nat.mul_add] at hc ⊢
    rw [Nat.mul_comm _ (bits c lo w)] at hc
    rw [Nat.mul_comm _ (v % 2 ^ w)]
    omega
  rw [hput, Nat.testBit_two_pow_mul_add _ (Nat.mod_lt _ (Nat.two_pow_pos lo)),
    Nat.testBit_two_pow_mul_add _ (Nat.mod_lt _ (Nat.two_pow_pos w)), Nat.testBit_mod_two_pow, Nat.testBit_mod_two_pow,
    Nat.testBit_div_two_pow, Nat.testBit_div_two_pow]
  by_cases hlow : i < lo
  · simp only [hlow, Nat.not_le.mpr hlow, if_true, false_and, if_false, decide_true, Bool.true_and]
  · have hle := Nat.not_lt.mp hlow
    by_cases hin : i < lo + w
    · simp only [hlow, hin, hle, show i - lo < w by omega, if_true, if_false, and_self, decide_true, Bool.true_and]
    · simp only [hlow, hin, show ¬ i - lo < w by omega, show i - lo - w + w + lo = i by omega, and_false, if_false]

/-- BFI's result. -/
theorem setField_eq_mask (c a : Word) {pos w : Nat} (h : pos + w ≤ 64) :
    setField c pos w a.toNat =
      (c &&& ~~~((BitVec.allOnes 64 >>> (64 - w)) <<< pos)) ||| ((a <<< pos) &&& ((BitVec.allOnes 64 >>> (64 - w)) <<< pos)) := by
  apply BitVec.eq_of_getLsbD_eq
  intro i hi
  rw [setField, getLsbD_word _ _ hi, testBit_setField]
  simp only [BitVec.getLsbD_or, BitVec.getLsbD_and, BitVec.getLsbD_not, BitVec.getLsbD_shiftLeft, BitVec.getLsbD_ushiftRight,
    BitVec.getLsbD_allOnes, BitVec.testBit_toNat, hi, decide_true, Bool.true_and]
  by_cases hlow : i < pos
  · simp only [Nat.not_le.mpr hlow, hlow, false_and, if_false, decide_true, Bool.not_true, Bool.false_and, Bool.not_false,
      Bool.and_true, Bool.and_false, Bool.or_false]
  · have hin : 64 - w + (i - pos) < 64 ↔ i < pos + w := by omega
    have hle := Nat.not_lt.mp hlow
    by_cases hup : i < pos + w
    · simp only [hle, hup, hlow, hin, and_self, if_true, decide_true, decide_false, Bool.not_true, Bool.not_false,
        Bool.and_true, Bool.true_and, Bool.and_false, Bool.false_or]
    · simp only [hup, hlow, hin, and_false, if_false, decide_false, Bool.not_false, Bool.and_true, Bool.true_and, Bool.and_false,
        Bool.or_false]

/-! ## Clamped results (R224) -/

theorem ofInt_clampTo_signed {t : TCode} (ht : t = .i32 ∨ t = .i64) (r : Int) :
    BitVec.ofInt (intW t) (clampTo t r) = clampS (intW t) r := by
  rcases ht with rfl | rfl <;> rfl

/-- An unsigned sum clamped to U32's range. -/
theorem clampTo_u32 (n : Nat) : clampTo .u32 n = ((min (2 ^ 32 - 1) n : Nat) : Int) := by
  simp only [clampTo, TCode.lo, TCode.hi, TCode.signed, TCode.width, Bool.false_eq_true, if_false]
  omega

theorem clampS_of_le {w : Nat} {r : Int} (hlo : -2 ^ (w - 1) ≤ r) (hhi : r ≤ 2 ^ (w - 1) - 1) : clampS w r = BitVec.ofInt w r := by
  rw [clampS, Int.min_eq_right hhi, Int.max_eq_right hlo]

theorem clampS_two_pow (w : Nat) : clampS w (2 ^ (w - 1)) = BitVec.intMax w := by
  have : (0 : Int) < 2 ^ (w - 1) := Int.pow_pos (by decide)
  rw [clampS, Int.min_eq_left (by omega), Int.max_eq_right (by omega), ← BitVec.toInt_intMax, BitVec.ofInt_toInt]

theorem toInt_eq_min_iff {w : Nat} (hw : 0 < w) (u : BitVec w) : u.toInt = -2 ^ (w - 1) ↔ u = BitVec.intMin w := by
  rw [← BitVec.toInt_inj, BitVec.toInt_intMin_of_pos hw]

/-- The magnitude of a word, wrapped. -/
theorem ofInt_natAbs {w : Nat} (u : BitVec w) : BitVec.ofInt w u.toInt.natAbs = if u.slt 0#w then -u else u := by
  simp only [BitVec.slt_iff_toInt_lt, BitVec.toInt_zero]
  split
  · rw [Int.ofNat_natAbs_of_nonpos (by omega), BitVec.ofInt_neg, BitVec.ofInt_toInt]
  · rw [Int.natAbs_of_nonneg (by omega), BitVec.ofInt_toInt]

theorem clampS_natAbs {w : Nat} (hw : 0 < w) (u : BitVec w) :
    clampS w u.toInt.natAbs = if u = BitVec.intMin w then BitVec.intMax w else if u.slt 0#w then -u else u := by
  have hlo := u.le_toInt
  have hhi := u.toInt_lt
  by_cases hmin : u = BitVec.intMin w
  · rw [if_pos hmin, ← clampS_two_pow, (toInt_eq_min_iff hw u).mpr hmin, Int.natAbs_neg,
      Int.natAbs_of_nonneg (Int.pow_nonneg (by decide))]
  · have := mt (toInt_eq_min_iff hw u).mp hmin
    rw [if_neg hmin, ← ofInt_natAbs, clampS_of_le (by omega) (by omega)]

theorem clampS_neg {w : Nat} (hw : 0 < w) (u : BitVec w) :
    clampS w (-u.toInt) = if u = BitVec.intMin w then BitVec.intMax w else -u := by
  have hlo := u.le_toInt
  have hhi := u.toInt_lt
  by_cases hmin : u = BitVec.intMin w
  · rw [if_pos hmin, ← clampS_two_pow, (toInt_eq_min_iff hw u).mpr hmin, Int.neg_neg]
  · have := mt (toInt_eq_min_iff hw u).mp hmin
    rw [if_neg hmin, clampS_of_le (by omega) (by omega), BitVec.ofInt_neg, BitVec.ofInt_toInt]

/-- ADDS's exact result, clamped. -/
def addsResult (o : Ops) (x y _ : Word) : Int :=
  clampTo o.t (if o.t = .u32 then ((uval (intW o.t) x + uval (intW o.t) y : Nat) : Int) else sval (intW o.t) x + sval (intW o.t) y)

/-- ABS's result. -/
def absResult (o : Ops) (x _ _ : Word) : Int :=
  if o.sat then clampTo o.t ((sval (intW o.t) x).natAbs : Int) else ((sval (intW o.t) x).natAbs : Int)

/-- NEG's result. -/
def negResult (o : Ops) (x _ _ : Word) : Int := if o.sat then clampTo o.t (-sval (intW o.t) x) else -sval (intW o.t) x

theorem intRuleO_adds : IntRuleO .adds .adds fun o w x y _ =>
    if o.t = .u32 then BitVec.ofNat w (min (2 ^ w - 1) (x.toNat + y.toNat)) else clampS w (x.toInt + y.toInt) := by
  refine intRuleO_of_result addsResult (fun _ _ _ => rfl) fun o w x y z ht hw => ?_
  by_cases hu : o.t = .u32
  · obtain rfl : w = 32 := by rw [hw, hu]; rfl
    simp only [addsResult, hu, if_true, uval_eq, clampTo_u32, BitVec.ofInt_natCast]
    rfl
  · subst hw
    have hs : o.t = .i32 ∨ o.t = .i64 := by
      simpa only [Op.row, List.contains_eq_mem, List.mem_cons, List.not_mem_nil, or_false, decide_eq_true_eq, hu, false_or] using ht
    simp only [addsResult, hu, if_false, sval_eq]
    exact ofInt_clampTo_signed hs _

theorem intRuleO_abs : IntRuleO .abs .abs fun o w x _ _ =>
    if o.sat = true ∧ x = BitVec.intMin w then BitVec.intMax w else if x.slt 0#w then -x else x := by
  refine intRuleO_of_result absResult (fun _ _ _ => rfl) fun o w x y z ht hw => ?_
  subst hw
  have hs : o.t = .i32 ∨ o.t = .i64 := by
    simpa only [Op.row, List.contains_eq_mem, List.mem_cons, List.not_mem_nil, or_false, decide_eq_true_eq] using ht
  cases hsat : o.sat
  · simp only [absResult, hsat, sval_eq, Bool.false_eq_true, if_false, false_and, ofInt_natAbs]
  · simp only [absResult, hsat, sval_eq, if_true, true_and, ofInt_clampTo_signed hs, clampS_natAbs (intW_pos o.t)]

theorem intRuleO_neg : IntRuleO .neg .neg fun o w x _ _ =>
    if o.sat = true ∧ x = BitVec.intMin w then BitVec.intMax w else -x := by
  refine intRuleO_of_result negResult (fun _ _ _ => rfl) fun o w x y z ht hw => ?_
  subst hw
  have hs : o.t = .i32 ∨ o.t = .i64 := by
    simpa only [Op.row, List.contains_eq_mem, List.mem_cons, List.not_mem_nil, or_false, decide_eq_true_eq] using ht
  cases hsat : o.sat
  · simp only [negResult, hsat, sval_eq, Bool.false_eq_true, if_false, false_and, BitVec.ofInt_neg, BitVec.ofInt_toInt]
  · simp only [negResult, hsat, sval_eq, if_true, true_and, ofInt_clampTo_signed hs, clampS_neg (intW_pos o.t)]

/-! ## Words that are no instruction -/

/-- A register, a function code or a modifier that the entry does not define makes a word no instruction. -/
theorem wfParts_eq_false (i : Op) (h : Hdr) (o : Ops) (x : Ext)
    (hbad : badRegister i (toFields i h o x) o.isImm = true ∨ badFunction i (toFields i h o x) = true ∨
      badModifier i (toFields i h o x) = true) : wfParts i h o x = false := by
  have hreject : staticReject i (toFields i h o x) o.isImm ≠ none := by
    unfold staticReject
    rcases hbad with hregister | hfunction | hmodifier
    · rw [if_pos hregister]; exact Option.some_ne_none _
    · rw [if_pos hfunction]
      split <;> exact Option.some_ne_none _
    · rw [if_pos hmodifier]
      repeat' split
      all_goals exact Option.some_ne_none _
  simp only [wfParts, hreject, decide_false, Bool.and_false]

/-- A compare has a function code and a predicate number below 8 (R227). -/
theorem wfParts_compare {i : Op} (hd : i.row.d = .p) (hfn : i.row.fn = [0, 1, 2, 3, 4, 5, 6, 7]) (h : Hdr) (o : Ops) (x : Ext)
    (hbad : 8 ≤ o.fn ∨ 8 ≤ o.d) : wfParts i h o x = false := by
  apply wfParts_eq_false
  rcases hbad with hbad | hbad
  · have hfree : [0, 1, 2, 3, 4, 5, 6, 7].contains o.fn = false := by
      rw [List.contains_eq_mem, decide_eq_false_iff_not]
      simp only [List.mem_cons, List.not_mem_nil, or_false]
      omega
    exact .inr (.inl (by
      simp only [badFunction, hfn, toFields, hfree, ne_eq, reduceCtorEq, not_false_eq_true, decide_true, Bool.not_false,
        Bool.and_self, Bool.true_or]))
  · exact .inl (by simp only [badRegister, hd, toFields, Cls.ok, Nat.not_lt.mpr hbad, decide_false, Bool.false_and, Bool.not_false, Bool.true_or])

/-- A modifier is one of those that the entry defines. -/
theorem wfParts_modifier {i : Op} (h : Hdr) (o : Ops) (x : Ext) (hbad : o.mx ∉ i.row.mx) : wfParts i h o x = false :=
  wfParts_eq_false i h o x (.inr (.inr (by
    simp only [badModifier, toFields, List.contains_eq_mem, hbad, decide_false, Bool.not_false, Bool.true_or])))

/-! ## The obligation -/

/-- A compare at each type that it admits. -/
theorem compare_results {i : Op} {mk : Hdr → Ops → Instr} (signed : Bool)
    (hexec : ∀ h o s, exec (mk h o) s =
      issueS i h o (fun s => .retire (s.setP o.d (intCond (intW o.t) signed o.fn (s.arg o.a).toNat (s.arg o.b).toNat))) s)
    {h : Hdr} {o : Ops} {s : State} (g : Goes i h o o.usesCw s) :
    (o.t = .i64 → exec (mk h o) s = .next ((s.setP o.d (cmpRule signed o.fn 64 (s.arg o.a) (s.arg o.b))).after i (lenOf i h o))) ∧
    (o.t = .i32 ∨ o.t = .u32 → exec (mk h o) s =
      .next ((s.setP o.d (cmpRule signed o.fn 32 (lowBits 32 (s.arg o.a)) (lowBits 32 (s.arg o.b)))).after i (lenOf i h o))) := by
  have he := exec_completes
    (eff := fun o s => s.setP o.d (intCond (intW o.t) signed o.fn (s.arg o.a).toNat (s.arg o.b).toNat)) hexec g
  refine ⟨fun h64 => ?_, fun h32 => ?_⟩
  · rw [he, h64, show intW .i64 = 64 from rfl, intCond_eq_cmpRule (by decide) (by decide)]
    simp only [lowBits, BitVec.setWidth_eq]
  · have hW : intW o.t = 32 := by rcases h32 with h32 | h32 <;> rw [h32] <;> rfl
    rw [he, hW, intCond_eq_cmpRule (by decide) (by decide)]

theorem bitFieldSpec_eq (b : Word) :
    bitFieldSpec b = (b.toNat % 64, min (b.toNat / 256 % 128) (64 - b.toNat % 64)) := by
  simp only [bitFieldSpec, bits, Nat.pow_zero, Nat.div_one, Nat.reducePow]

theorem bfx_completes {h : Hdr} {o : Ops} {s : State} (g : Goes .bfx h o o.usesCw s) :
    let pos := (s.arg o.b).toNat % 64
    let w := min ((s.arg o.b).toNat / 256 % 128) (64 - pos)
    let up := (s.arg o.a >>> pos) <<< (64 - w)
    exec (.bfx h o) s =
      .next ((s.setS o.d (if o.mx = 1 then up.sshiftRight (64 - w) else up >>> (64 - w))).after .bfx (lenOf .bfx h o)) := by
  intro pos w up
  have hexec : exec (.bfx h o) s = execBfx h o s := rfl
  rw [hexec, execBfx, issueS_goes _ g]
  simp only [bitFieldSpec_eq, finish_retire]
  rw [bfx_result _ _ _ (by omega)]

theorem bfi_completes {h : Hdr} {o : Ops} {s : State} (g : Goes .bfi h o o.usesCw s) :
    let pos := (s.arg o.b).toNat % 64
    let w := min ((s.arg o.b).toNat / 256 % 128) (64 - pos)
    let m := (BitVec.allOnes 64 >>> (64 - w)) <<< pos
    exec (.bfi h o) s = .next ((s.setS o.d ((s.arg o.c &&& ~~~m) ||| ((s.arg o.a <<< pos) &&& m))).after .bfi (lenOf .bfi h o)) := by
  intro pos w m
  have hexec : exec (.bfi h o) s = execBfi h o s := rfl
  rw [hexec, execBfi, issueS_goes _ g]
  simp only [bitFieldSpec_eq, finish_retire]
  rw [setField_eq_mask _ _ (by omega)]

/-- Settles O15: the compares at both widths, the moves, the fields bit by bit, and the clamped results. -/
theorem comparesAndFields : Obligations.ComparesAndFields := by
  unfold Obligations.ComparesAndFields
  refine ⟨⟨?_, ?_, fun _ _ => rfl, fun h o hbad => ?_⟩, ?_, ?_, fun h d t imm s g => ?_, fun _ _ _ g => bfx_completes g,
    fun _ _ _ g => bfi_completes g, intRuleO_adds, intRuleO_abs, intRuleO_neg, fun h o => ⟨fun hmx => ?_, fun hmx => ?_⟩⟩
  · exact fun h o s g _ => compare_results true (fun _ _ _ => rfl) g
  · exact fun h o s g _ => compare_results false (fun _ _ _ => rfl) g
  · exact ⟨wfParts_compare rfl rfl h o .zero hbad, wfParts_compare rfl rfl h o .zero hbad⟩
  · exact fun h o s g _ => exec_completes (eff := fun o s => s.setS o.d (if s.me.preg o.c.num then s.arg o.a else s.arg o.b)) (fun _ _ _ => rfl) g
  · exact fun h o s g _ => exec_completes (eff := fun o s => s.setS o.d (s.arg o.b)) (fun _ _ _ => rfl) g
  · have hexec : exec (.movi h d t imm) s = execMovi h d imm s := rfl
    rw [hexec, execMovi, issue_goesPlain_args _ _ _ rfl rfl rfl g]
    rfl
  · exact wfParts_modifier h o .zero (by simp only [Op.row, List.mem_cons, List.not_mem_nil, or_false]; omega)
  · exact wfParts_modifier h o .zero (by simpa only [Op.row, List.mem_singleton] using hmx)

end Sys2Proof.Laws
end

section
/-! SUPPORT. Hardware loops: the end check of R236 level by level, and LOOP and LOOPX (R235, R237). Settles HardwareLoops. -/

namespace Sys2Proof.Laws

open Sys2Proof Sys2Proof.Machine Sys2Proof.Claims

/-! ## The end check (R236) -/

/-- An active level ends at an address. -/
def endsAt (next : Word) (l : Loop) : Bool := l.active && l.fin == next

/-- A level after an end check that does not start its next pass. -/
def endLevel (next : Word) (l : Loop) : Loop := if endsAt next l then { l with active := false } else l

theorem loopEnd_cons (next : Word) (l : Loop) (r : List Loop) :
    loopEnd next (l :: r) =
      if endsAt next l = true then
        if 1 < l.count.toNat then ({ l with count := l.count - 1, pass := l.pass + 1 } :: r, some l.start)
        else ({ l with active := false } :: (loopEnd next r).1, (loopEnd next r).2)
      else (l :: (loopEnd next r).1, (loopEnd next r).2) := rfl

/-- A level with passes left starts the next one, and the levels below it are not looked at. -/
theorem loopEnd_cons_pass {next : Word} {l : Loop} (r : List Loop) (hend : endsAt next l = true) (hcount : 1 < l.count.toNat) :
    loopEnd next (l :: r) = ({ l with count := l.count - 1, pass := l.pass + 1 } :: r, some l.start) := by
  rw [loopEnd_cons, if_pos hend, if_pos hcount]

/-- A level without passes left is passed over, and ended where it ends there. -/
theorem loopEnd_cons_last {next : Word} {l : Loop} (r : List Loop) (hlast : endsAt next l = true → l.count.toNat ≤ 1) :
    loopEnd next (l :: r) = (endLevel next l :: (loopEnd next r).1, (loopEnd next r).2) := by
  rw [loopEnd_cons, endLevel]
  split
  · next hend => rw [if_neg (Nat.not_lt.mpr (hlast hend))]
  · rfl

/-- The end check goes through levels without passes left to those below them. -/
theorem loopEnd_append {next : Word} (r : List Loop) {ls : List Loop} (hlast : ∀ l ∈ ls, endsAt next l = true → l.count.toNat ≤ 1) :
    loopEnd next (ls ++ r) = (ls.map (endLevel next) ++ (loopEnd next r).1, (loopEnd next r).2) := by
  induction ls with
  | nil => rfl
  | cons l ls ih =>
    rw [List.cons_append, loopEnd_cons_last _ (hlast l List.mem_cons_self), ih fun x hx => hlast x (List.mem_cons_of_mem l hx)]
    rfl

/-- With no pass left, control goes on and every level that ends there is ended. -/
theorem loopEnd_last {next : Word} {ls : List Loop} (hlast : ∀ l ∈ ls, endsAt next l = true → l.count.toNat ≤ 1) :
    loopEnd next ls = (ls.map (endLevel next), none) := by
  have h := loopEnd_append [] hlast
  rwa [List.append_nil, loopEnd, List.append_nil] at h

/-- Retirement in sequence is the end check at the next address, from the highest level down. -/
theorem after_pc_loops (s : State) (i : Op) (len : Nat) :
    (s.after i len).me.pc = (loopEnd (s.me.pc + word len) s.me.loops.reverse).2.getD (s.me.pc + word len) ∧
      (s.after i len).me.loops = (loopEnd (s.me.pc + word len) s.me.loops.reverse).1.reverse := by
  simp only [State.after_me, Ctx.homeward_pc, Ctx.homeward_loops, Ctx.advance, Ctx.usePrefix_pc, Ctx.usePrefix_loops, and_self]

/-- Level m once level n has started its next pass: a level below n is kept, and one above it that shares the end is ended. -/
def passLevel (next : Word) (n m : Nat) (x : Loop) : Loop :=
  if m < n then x else if m = n then { x with count := x.count - 1, pass := x.pass + 1 } else endLevel next x

theorem passLevel_lower {next : Word} {n m : Nat} (x : Loop) (h : m < n) : passLevel next n m x = x := if_pos h

theorem passLevel_self (next : Word) (n : Nat) (x : Loop) :
    passLevel next n n x = { x with count := x.count - 1, pass := x.pass + 1 } := by
  rw [passLevel, if_neg (Nat.lt_irrefl n), if_pos rfl]

theorem passLevel_higher {next : Word} {n m : Nat} (x : Loop) (h : n < m) : passLevel next n m x = endLevel next x := by
  rw [passLevel, if_neg (by omega), if_neg (by omega)]

theorem mapIdx_passLevel (next : Word) (l : Loop) (lower higher : List Loop) :
    (lower ++ l :: higher).mapIdx (passLevel next lower.length) =
      lower ++ { l with count := l.count - 1, pass := l.pass + 1 } :: higher.map (endLevel next) := by
  rw [List.mapIdx_append, List.mapIdx_cons, Nat.zero_add, passLevel_self]
  congr 2
  · exact List.ext_getElem List.length_mapIdx fun m _ hm => by rw [List.getElem_mapIdx, passLevel_lower _ hm]
  · exact List.ext_getElem (by rw [List.length_mapIdx, List.length_map]) fun m _ _ => by
      rw [List.getElem_mapIdx, List.getElem_map, passLevel_higher _ (by omega)]

/-- The highest level with passes left that ends at the next address starts its next pass. -/
theorem after_pass (s : State) (i : Op) (len : Nat) {n : Nat} {l : Loop} (hn : s.me.loops[n]? = some l)
    (hend : endsAt (s.me.pc + word len) l = true) (hcount : 1 < l.count.toNat)
    (habove : ∀ m x, n < m → s.me.loops[m]? = some x → endsAt (s.me.pc + word len) x = true → x.count.toNat ≤ 1) :
    (s.after i len).me.pc = l.start ∧
      (s.after i len).me.loops = s.me.loops.mapIdx (passLevel (s.me.pc + word len) n) := by
  obtain ⟨hlen, hl⟩ := List.getElem?_eq_some_iff.mp hn
  obtain ⟨hpc, hloops⟩ := after_pc_loops s i len
  have hlower : (s.me.loops.take n).length = n := List.length_take_of_le (Nat.le_of_lt hlen)
  have hsplit : s.me.loops = s.me.loops.take n ++ l :: s.me.loops.drop (n + 1) := by
    rw [← hl, List.getElem_cons_drop, List.take_append_drop]
  have hhigher : ∀ x ∈ (s.me.loops.drop (n + 1)).reverse, endsAt (s.me.pc + word len) x = true → x.count.toNat ≤ 1 := by
    intro x hx
    obtain ⟨m, hm⟩ := List.mem_iff_getElem?.mp (List.mem_reverse.mp hx)
    rw [List.getElem?_drop] at hm
    exact habove _ x (by omega) hm
  generalize s.me.pc + word len = next at *
  generalize s.me.loops.take n = lower at *
  generalize s.me.loops.drop (n + 1) = higher at *
  subst hlower
  rw [hsplit, List.reverse_append, List.reverse_cons, List.append_assoc, List.singleton_append, loopEnd_append _ hhigher,
    loopEnd_cons_pass _ hend hcount] at hpc hloops
  rw [hpc, hloops, hsplit, mapIdx_passLevel]
  simp only [Option.getD_some, List.map_reverse, List.reverse_append, List.reverse_cons, List.reverse_reverse, List.append_assoc,
    List.cons_append, List.nil_append, and_self]

/-- With no pass left at the next address, control goes on there. -/
theorem after_last (s : State) (i : Op) (len : Nat)
    (hlast : ∀ l ∈ s.me.loops, endsAt (s.me.pc + word len) l = true → l.count.toNat ≤ 1) :
    (s.after i len).me.pc = s.me.pc + word len ∧ (s.after i len).me.loops = s.me.loops.map (endLevel (s.me.pc + word len)) := by
  obtain ⟨hpc, hloops⟩ := after_pc_loops s i len
  rw [loopEnd_last fun l hl => hlast l (List.mem_reverse.mp hl)] at hpc hloops
  rw [hpc, hloops, List.map_reverse, List.reverse_reverse]
  exact ⟨rfl, rfl⟩

/-! ## LOOP and LOOPX (R235, R237) -/

theorem loopsOff_eq_mapIdx (ls : List Loop) (n : Nat) :
    loopsOff ls n = ls.mapIdx fun k l => if n ≤ k then { l with active := false } else l := by
  rw [List.mapIdx_eq_zipIdx_map]; rfl

/-- The level that LOOP activates. -/
def loopLevel (l : LoopOps) (s : State) : Loop := ⟨s.me.pc + 8, dispTarget s.me.pc l.disp, s.arg l.cnt, true, l.rot, l.rs, 0⟩

/-- LOOP where it takes its effect. -/
theorem execLoop_goes {l : LoopOps} {s : State} (g : GoesPlain .loop ⟨0, false, false⟩ l.cnt.isCw s) (hb : s.badConst [l.cnt] = none) :
    exec (.loop l) s = finish .loop 8 s.me.pc
      (if s.arg l.cnt = 0 then transfer (s.setMe { s.me with loops := loopsOff s.me.loops l.lvl }) (dispTarget s.me.pc l.disp)
       else if l.disp ≤ 2 then .retire (s.setMe { s.me with loops := loopsOff s.me.loops l.lvl })
       else .retire (s.setMe { s.me with loops := (loopsOff s.me.loops l.lvl).set l.lvl (loopLevel l s) })) := by
  have hexec : exec (.loop l) s = execLoop l s := rfl
  rw [hexec, execLoop, issue_goesPlain_args _ _ _ rfl rfl hb g]
  rfl

/-- LOOPX where it takes its effect. -/
theorem execLoopx_goes {h : Hdr} {o : Ops} {s : State} {l : Loop} (g : Goes .loopx h o o.usesCw s) (hl : s.me.loops[o.d]? = some l) :
    exec (.loopx h o) s = finish .loopx (lenOf .loopx h o) s.me.pc
      (if l.active then .jump (s.setMe { s.me with loops := loopsOff s.me.loops o.d }) l.fin else .skip s) := by
  have hexec : exec (.loopx h o) s = execLoopx h o s := rfl
  rw [hexec, execLoopx, issueS_goes _ g]
  simp only [hl]

/-- Settles O19: LOOP and LOOPX by their cases, and the end check by the split at the highest level with passes left. -/
theorem hardwareLoops : Obligations.HardwareLoops := by
  unfold Obligations.HardwareLoops
  refine ⟨⟨fun l s g hb => ?_, fun h o s l g hl => ?_⟩, fun s i len => ⟨fun n l hn hend hcount habove => ?_, fun hlast => ?_⟩⟩
  · rw [execLoop_goes g hb]
    simp only [← loopsOff_eq_mapIdx]
    refine ⟨fun hz halign => ?_, fun hz hshort => ?_, fun hz hlong => ?_⟩
    · rw [if_pos hz, transfer, dispTarget, wordI, if_pos halign, finish_jump]
    · rw [if_neg hz, if_pos hshort, finish_retire]
    · rw [if_neg hz, if_neg (by omega), finish_retire]; rfl
  · rw [execLoopx_goes g hl]
    simp only [← loopsOff_eq_mapIdx]
    refine ⟨fun ha => ?_, fun ha => ?_⟩
    · rw [if_pos ha, finish_jump]
    · rw [if_neg (Bool.not_eq_true _ ▸ ha)]; rfl
  · exact after_pass s i len hn hend hcount habove
  · exact after_last s i len hlast

end Sys2Proof.Laws
end

section
/-! SUPPORT. The mask operations: an instruction that writes one mask register leaves the rest of its core and context alone, the masks
of R293 bit by bit, and what a well-formed word's function code, type and K can be. Settles MaskOperations. -/

namespace Sys2Proof.Machine

/-! ## What a write of a mask register and retirement leave unchanged -/

@[simp] theorem State.after_myCore (s : State) (i : Op) (len : Nat) : (s.after i len).myCore = s.myCore := State.myCore_setMe _ _

@[simp] theorem State.after_sreg (s : State) (i : Op) (len n : Nat) : (s.after i len).me.sreg n = s.me.sreg n := by
  simp only [State.after_me, Ctx.sreg, Ctx.homeward_s, Ctx.advance_s, Ctx.usePrefix_s]

@[simp] theorem State.after_p (s : State) (i : Op) (len : Nat) : (s.after i len).me.p = s.me.p := by
  simp only [State.after_me, Ctx.homeward_p, Ctx.advance_p, Ctx.usePrefix_p]

@[simp] theorem State.setKreg_mem (s : State) (n x : Nat) : (s.setKreg n x).mem = s.mem := State.setMyCore_mem _ _

@[simp] theorem State.setKreg_me (s : State) (n x : Nat) : (s.setKreg n x).me = s.me := State.me_setMyCore _ _

@[simp] theorem State.setKreg_myCore (s : State) (n x : Nat) :
    (s.setKreg n x).myCore = { s.myCore with k := tput 0 s.myCore.k n (BitVec.ofNat 128 x) } := State.myCore_setMyCore _ _

theorem State.kreg_lt (s : State) (n : Nat) : s.kreg n < 2 ^ 128 := BitVec.isLt _

end Sys2Proof.Machine

namespace Sys2Proof.Laws

open Sys2Proof Sys2Proof.Machine Sys2Proof.Claims

/-! ## Vector instructions that take their effect -/

/-- A vector instruction that takes its effect carries out its body's act. -/
theorem issueV_goes {i : Op} {h : Hdr} {o : Ops} {s : State} (body : State → Act) (g : Goes i h o true s) :
    issueV i h o body s = finish i (lenOf i h o) s.me.pc (body s) := issue_goes _ body g

/-- A vector instruction whose body only makes an effect completes with it. -/
theorem completes_of_issueV {i : Op} {mk : Hdr → Ops → Instr} {cond : Ops → State → Prop} {eff : Ops → State → State}
    (hexec : ∀ h o s, exec (mk h o) s = issueV i h o (fun s => .retire (eff o s)) s) : Completes i mk atHome cond eff := by
  intro h o s g _
  rw [hexec, issueV_goes _ g, finish_retire]

/-! ## Writing a mask register -/

/-- An instruction that writes one mask follows the rule that the mask follows bit by bit. -/
theorem maskRule_of_setKreg {i : Op} {mk : Hdr → Ops → Instr} {f : State → Ops → Nat → Bool} (mask : State → Ops → Nat)
    (hexec : ∀ h o s, exec (mk h o) s = issueV i h o (fun s => .retire (s.setKreg o.d (mask s o))) s)
    (hmask : ∀ s o e, e < 128 → (mask s o).testBit e = f s o e) : MaskRule i mk f := by
  intro h o s g
  refine ⟨_, completes_of_issueV (cond := always) (eff := fun o s => s.setKreg o.d (mask s o)) hexec h o s g trivial,
    fun l => ?_, ?_, fun n hn => ?_, fun n => ?_, ?_, fun e he => ?_⟩
  · rw [State.after_mem, State.setKreg_mem]
  · rw [State.after_myCore, State.setKreg_myCore]
  · rw [State.after_myCore, State.setKreg_myCore, tget_tput_ne _ _ _ _ hn]
  · rw [State.after_sreg, State.setKreg_me]
  · rw [State.after_p, State.setKreg_me]
  · rw [State.after_myCore, State.setKreg_myCore, tget_tput_same, BitVec.getLsbD_ofNat, hmask s o e he, decide_eq_true he,
      Bool.true_and]

/-! ## The masks of R293 -/

/-- The complement of a mask. -/
theorem testBit_not128 {b e : Nat} (hb : b < 2 ^ 128) (he : e < 128) : (2 ^ 128 - 1 - b).testBit e = !b.testBit e := by
  rw [Nat.sub_sub, Nat.add_comm, Nat.testBit_two_pow_sub_succ hb, decide_eq_true he, Bool.true_and]

/-- KOP.and, .or, .xor and .andn by function code. -/
def logicMask (fn a b : Nat) : Nat :=
  match fn with
  | 0 => a &&& b
  | 1 => a ||| b
  | 2 => a ^^^ b
  | _ => a &&& (2 ^ 128 - 1 - b)

theorem execKopLogic_eq (h : Hdr) (o : Ops) (s : State) : exec (.kopLogic h o) s =
    issueV .kopLogic h o (fun s => .retire (s.setKreg o.d (logicMask o.fn (s.kreg o.a.num) (s.kreg o.b.num)))) s := rfl

/-- KOP.first's mask. -/
def firstMask (a : Nat) : Nat :=
  match (List.range 128).find? (bitOf a) with
  | some i => 2 ^ i
  | none => 0

theorem execKopFirst_eq (h : Hdr) (o : Ops) (s : State) : exec (.kopFirst h o) s =
    issueV .kopFirst h o (fun s => .retire (s.setKreg o.d (firstMask (s.kreg o.a.num)))) s := rfl

/-- KOP.first's mask has the bit at which the search ends, and no other. -/
theorem testBit_firstMask_eq_find? (a e : Nat) :
    (firstMask a).testBit e = decide ((List.range 128).find? (bitOf a) = some e) := by
  unfold firstMask
  cases (List.range 128).find? (bitOf a) with
  | none => simp only [Nat.zero_testBit, reduceCtorEq, decide_false]
  | some i => simp only [Nat.testBit_two_pow, Option.some.injEq]

theorem testBit_firstMask {a e : Nat} (he : e < 128) :
    (firstMask a).testBit e = (bitOf a e && (List.range e).all fun i => !bitOf a i) := by
  rw [testBit_firstMask_eq_find?, Bool.eq_iff_iff, decide_eq_true_iff, List.find?_range_eq_some]
  simp only [List.mem_range, he, true_and, Bool.and_eq_true, List.all_eq_true]

/-- KOP.set puts two words side by side. -/
theorem testBit_words (a b : Word) (e : Nat) :
    (a.toNat + 2 ^ 64 * b.toNat).testBit e = if e < 64 then a.getLsbD e else b.getLsbD (e - 64) := by
  rw [Nat.add_comm, Nat.testBit_two_pow_mul_add _ a.isLt]
  rfl

theorem word_mod (n : Nat) : word (n % 2 ^ 64) = word n :=
  BitVec.eq_of_toNat_eq (by rw [word, word, BitVec.toNat_ofNat, BitVec.toNat_ofNat, Nat.mod_mod])

/-- KOP.len's mask, whose length is cut at 128. -/
theorem testBit_lenMask {e : Nat} (n : Nat) (he : e < 128) : (2 ^ min n 128 - 1).testBit e = decide (e < n) := by
  rw [Nat.testBit_two_pow_sub_one, decide_eq_decide]
  omega

theorem maskRule_kopLogic : MaskRule .kopLogic .kopLogic (fun s o e =>
    let a := bitOf (s.kreg o.a.num) e
    let b := bitOf (s.kreg o.b.num) e
    match o.fn with | 0 => a && b | 1 => a || b | 2 => a != b | _ => a && !b) := by
  refine maskRule_of_setKreg _ execKopLogic_eq fun s o e he => ?_
  simp only [bitOf_eq_testBit]
  match o.fn with
  | 0 => exact Nat.testBit_and _ _ _
  | 1 => exact Nat.testBit_or _ _ _
  | 2 => exact Nat.testBit_xor _ _ _
  | _ + 3 => exact (Nat.testBit_and _ _ _).trans (congrArg _ (testBit_not128 (s.kreg_lt _) he))

/-! ## What a well-formed instruction's fields can be -/

theorem ite_some_eq_none {α : Type} {c : Bool} {r : α} {x : Option α} :
    (if c = true then some r else x) = none ↔ c = false ∧ x = none := by
  cases c <;> simp only [if_true, if_false, Bool.false_eq_true, reduceCtorEq, false_and, true_and]

/-- The static checks of R204 pass where each of them does. -/
theorem staticReject_eq_none_iff (i : Op) (f : Fields) (imm : Bool) :
    staticReject i f imm = none ↔ badRegister i f imm = false ∧ badFunction i f = false ∧ badType i f = false ∧
      badModifier i f = false ∧ badConstant i f imm = false ∧ (decide (f.p = 0) && decide (f.pn = 1)) = false ∧
      badUnused i f imm = false := by
  simp only [staticReject, ite_some_eq_none, and_true]

section

variable {i : Op} {h : Hdr} {o : Ops} {x : Ext}

theorem staticReject_of_wfParts (hw : wfParts i h o x = true) : staticReject i (toFields i h o x) o.isImm = none := by
  rw [wfParts, Bool.and_eq_true, decide_eq_true_iff] at hw
  exact hw.2

/-- A function code is one of those that the entry defines. -/
theorem fn_mem_of_wfParts (hrow : i.row.fn ≠ []) (hw : wfParts i h o x = true) : o.fn ∈ i.row.fn := by
  obtain ⟨_, hfn, _⟩ := (staticReject_eq_none_iff _ _ _).mp (staticReject_of_wfParts hw)
  rw [badFunction, Bool.or_eq_false_iff] at hfn
  simpa only [toFields, hrow, ne_eq, not_false_eq_true, decide_true, Bool.true_and, Bool.not_eq_false', List.contains_eq_mem,
    decide_eq_true_eq] using hfn.1

theorem code_eq_zero {t : TCode} (ht : t.code = 0) : t = .i8 := by
  match t, ht with
  | .i8, _ => rfl

/-- T is zero where the entry leaves it unused. -/
theorem t_eq_i8_of_wfParts (hrow : i.row.t = []) (hw : wfParts i h o x = true) : o.t = .i8 := by
  obtain ⟨_, _, _, _, _, _, hunused⟩ := (staticReject_eq_none_iff _ _ _).mp (staticReject_of_wfParts hw)
  refine Decidable.byContradiction fun ht => ?_
  have hcode : o.t.code ≠ 0 := mt code_eq_zero ht
  simp only [badUnused, toFields, ne_eq, hrow, decide_true, Bool.true_or, hcode, not_false_eq_true, Bool.and_self, Bool.or_true,
    Bool.true_eq_false] at hunused

/-- With no constant-window operand, the K field is the instruction's own. -/
theorem ksk_word {o : Ops} (hks : o.ksk.1 = 0) : o.ksk.2 = o.k := by
  unfold Ops.ksk at hks ⊢
  split at hks
  case h_4 => rfl
  all_goals cases hks

/-- K is zero where the entry gives it no meaning and admits no constant-window operand. -/
theorem k_eq_zero_of_wfParts (hk : i.row.k = .none) (hcw : i.row.cw = []) (hw : wfParts i h o x = true) : o.k = 0 := by
  obtain ⟨_, _, _, _, hconst, _⟩ := (staticReject_eq_none_iff _ _ _).mp (staticReject_of_wfParts hw)
  unfold badConstant at hconst
  split at hconst
  case h_1 hks =>
    rw [← ksk_word hks]
    simp only [hk] at hconst
    exact Decidable.not_not.mp (of_decide_eq_false hconst)
  case h_2 =>
    simp only [hcw, List.contains_eq_mem, List.not_mem_nil, decide_false, Bool.not_false, Bool.or_true, Bool.true_or,
      Bool.true_eq_false] at hconst

end

/-- The entries of KOP's table. -/
def kopOps : List Op := [.kopLogic, .kopNot, .kopMov, .kopSet, .kopLen, .kopFirst, .kopLo, .kopHi]

theorem row_of_mem_kopOps : ∀ i ∈ kopOps,
    i.row.fn ≠ [] ∧ (∀ n ∈ i.row.fn, n < 11) ∧ i.row.t = [] ∧ i.row.k = .none ∧ i.row.cw = [] := by
  decide

/-- A mask operation with a code above 10, a type or a K is no instruction (R293). -/
theorem wfParts_kop {i : Op} (hi : i ∈ kopOps) (h : Hdr) (o : Ops) (x : Ext) (hbad : 11 ≤ o.fn ∨ o.t ≠ .i8 ∨ o.k ≠ 0) :
    wfParts i h o x = false := by
  obtain ⟨hne, hfn, ht, hk, hcw⟩ := row_of_mem_kopOps i hi
  refine Bool.eq_false_iff.mpr fun hw => ?_
  rcases hbad with hbad | hbad | hbad
  · exact Nat.not_lt.mpr hbad (hfn _ (fn_mem_of_wfParts hne hw))
  · exact hbad (t_eq_i8_of_wfParts ht hw)
  · exact hbad (k_eq_zero_of_wfParts hk hcw hw)

/-! ## The obligation -/

/-- Settles O29: each mask bit by bit, the two halves, and the fields of a well-formed mask operation. -/
theorem maskOperations : Obligations.MaskOperations := by
  unfold Obligations.MaskOperations
  refine ⟨maskRule_kopLogic, ?_, ?_, ?_, ?_, ?_, ?_, ?_, fun h o hbad i hi => wfParts_kop hi h o .zero hbad⟩
  · exact maskRule_of_setKreg (fun s o => 2 ^ 128 - 1 - s.kreg o.a.num) (fun _ _ _ => rfl) fun s o e he => by
      rw [bitOf_eq_testBit]; exact testBit_not128 (s.kreg_lt _) he
  · exact maskRule_of_setKreg (fun s o => s.kreg o.a.num) (fun _ _ _ => rfl) fun s o e _ => (bitOf_eq_testBit _ _).symm
  · exact maskRule_of_setKreg _ (fun _ _ _ => rfl) fun s o e _ => testBit_words _ _ e
  · exact maskRule_of_setKreg _ (fun _ _ _ => rfl) fun s o e he => testBit_lenMask _ he
  · exact maskRule_of_setKreg _ execKopFirst_eq fun s o e he => testBit_firstMask he
  · exact completes_of_issueV fun _ _ _ => by simp only [word_mod]; rfl
  · exact completes_of_issueV fun _ _ _ => rfl

end Sys2Proof.Laws
end
